-- ==== Sys2Proof/Word.lean ====
section
/-! DEFINITION. The word types of the Tranos X9 and their plainest arithmetic. -/

namespace Sys2Proof

/-- A byte of any memory (R5). -/
abbrev Byte := BitVec 8
/-- A 32-bit word: an instruction word, or one lane of a lane register (R35, R75). -/
abbrev W32 := BitVec 32
/-- A 64-bit word: a scalar register, an address, a CSR (R35). -/
abbrev W64 := BitVec 64

/-- Bits [hi:lo] of a number, both ends included (R5). -/
def bitsOf (w : Nat) (hi lo : Nat) : Nat := (w >>> lo) % 2 ^ (hi + 1 - lo)

/-- Bit `i` of a number. -/
def bitOf (w i : Nat) : Bool := (w >>> i) % 2 == 1

end Sys2Proof
end

