-- ==== Sys2Proof/Config.lean ====
section
/-! DEFINITION. What the part fixes once (R2, R13 to R16, R156) and the free values: constants with no body, applied to
the counter `State.freeCtr` or to operands, wherever the spec says that a value results and does not say which. -/

namespace Sys2Proof.Config

/-- C-dies of the module (R2). -/
def cdies : Nat := 9
/-- Clusters of the module: 64 on each C-die (R2). -/
def clusters : Nat := 576
/-- Cores of the module: four in each cluster (R2, R16). -/
def cores : Nat := 2304
/-- Hart slots of a core (R13). -/
def slots : Nat := 8
/-- Tinker harts: 16 on each E-die (R44, R282). -/
def tinkers : Nat := 32
/-- Global hart numbers of compute harts lie below this (R16); the model numbers the tinkers after them. -/
def harts : Nat := 18432
/-- Bytes of HBM: 16 stacks of 48 GiB (R2, R156). -/
def hbmBytes : Nat := 768 * 2 ^ 30
/-- Bytes of a core's TCM (R20, R143). -/
def tcmBytes : Nat := 131072
/-- Bytes of a cluster's scratchpad (R143). -/
def scratchBytes : Nat := 1048576
/-- Bytes of a core's lid slice (R143). -/
def lidBytes : Nat := 4194304
/-- Bytes of a core's accumulator store (R43). -/
def accBytes : Nat := 131072
/-- Sets and ways of a core's L1 data cache: 64 KiB in lines of 128 bytes (R143). -/
def l1Sets : Nat := 64
def l1Ways : Nat := 8
/-- Sets and ways of an L2 slice: 1 MiB in lines of 128 bytes (R143). -/
def l2Sets : Nat := 512
def l2Ways : Nat := 16
/-- Sets and ways of an L1 instruction cache: 32 KiB in lines of 128 bytes (R143). -/
def l1iSets : Nat := 64
def l1iWays : Nat := 4
/-- Sets and ways of a slice's directory: 16,384 entries (R223). -/
def dirSets : Nat := 1024
def dirWays : Nat := 16
/-- Bytes of an HBM stack (R156). -/
def stackBytes : Nat := 48 * 2 ^ 30
/-- The outer C-dies in the order in which pairs of HBM stacks sit on them (R156). -/
def outerDies : List Nat := [0, 1, 2, 3, 5, 6, 7, 8]
/-- The HBM stack that holds a device physical address, and the C-die on which it sits (R156). -/
def stackOf (pa : Nat) : Nat := pa / stackBytes
def stackDie (stack : Nat) : Nat := outerDies.getD (stack / 2) 0

/-- The virtio device type of a host link's function, and the most descriptors of a queue (R356). -/
def virtioType : Nat := 63
def ringSize : Nat := 4096
/-- Host links, one on each E-die (R2, R394), and page-request group indices of each (R325). -/
def links : Nat := 2
def pageGroups : Nat := 512

/-- Lane registers of a core's pool (R20). -/
def poolRegs : Nat := 1024

/-- Device physical address of the debug module of core 0 (R373). -/
def dmiBase : Nat := 0xFF80000000

/-- What the 16 bits of `wctl.used` hold for a number of overlay pages that does not fit them, which the spec does not say
(log 3). -/
opaque usedField : Nat → BitVec 16

/-- A free 64-bit value (log 3): the n-th one the machine draws. -/
opaque freeWord : Nat → W64
/-- A free byte string of length `len` (log 3): signatures, keys and random values of Hallmark. -/
opaque freeBytes : (n : Nat) → (len : Nat) → List Byte
/-- The bytes of a trace packet of E-Trace 2.0 with some fields (R379): the widths of the fields, which the standard leaves to the hardware,
are not in the spec (log 21). -/
opaque tracePacket : List Nat → List Byte

end Sys2Proof.Config
end

