-- ==== Sys2Proof/Syntax.lean ====
section
/-! DEFINITION. The instructions of a hart and the steps of the device: one constructor of `Instr` per row of
spec/opcode_table.json. The Osier instructions share one operand record, `Args`, which holds every field of R76 to
R81; which of its values an instruction admits is said in Sys2Proof/WellFormed.lean. -/

namespace Sys2Proof

/-- The four lengths of an Osier instruction (R75): LEN 00, 01, 10, 11. -/
inductive Form where
  | one | lit | ext | extLit
  deriving DecidableEq, Repr

/-- The operand fields of an Osier instruction (R76 to R81). A field that the form does not carry is zero. In the
literal form of R81 `xop` is 1, the value R81 has a decoder assume. -/
structure Args where
  /-- LEN (R75) -/
  form : Form := .one
  /-- d with its high bits `dhi` (R76, R78) -/
  d : BitVec 8 := 0
  /-- a with `ahi` -/
  a : BitVec 8 := 0
  /-- b with `bhi` -/
  b : BitVec 8 := 0
  /-- `c.type` -/
  ty : BitVec 4 := 0
  /-- `c.rsc`: rounding mode or scope -/
  rsc : BitVec 3 := 0
  /-- `c.sat` -/
  sat : Bool := false
  /-- predicate mask -/
  pm : BitVec 3 := 0
  /-- predicate inverted -/
  pinv : Bool := false
  /-- ordering: 0 relaxed, 1 acquire, 2 release, 3 both -/
  ord : BitVec 2 := 0
  /-- extended opcode -/
  xop : BitVec 12 := 0
  /-- word 2 -/
  w2 : W32 := 0
  /-- the 64-bit literal -/
  lit : W64 := 0
  deriving DecidableEq, Repr

/-- The standard loads and stores (R89). -/
inductive MemOp where
  | lb | lh | lw | ld | lbu | lhu | lwu | sb | sh | sw | sd
  deriving DecidableEq, Repr

/-- The standard AMO operations (R179). -/
inductive AmoOp where
  | add | swap | xor | and | or | min | max | minu | maxu
  deriving DecidableEq, Repr

/-- Fields of a standard AMO, `lr` or `sc`; `dbl` is the 8-byte form. -/
structure AmoArgs where
  dbl : Bool
  aq : Bool
  rl : Bool
  rs2 : BitVec 5
  rs1 : BitVec 5
  rd : BitVec 5
  deriving DecidableEq, Repr

/-- Fields of the standard `fence`, which the device reads as one boundary whatever they hold (R89). -/
structure FenceArgs where
  fm : BitVec 4
  pred : BitVec 4
  succ : BitVec 4
  rs1 : BitVec 5
  rd : BitVec 5
  deriving DecidableEq, Repr

/-- Fields of `fence.i`. -/
structure FenceIArgs where
  imm : BitVec 12
  rs1 : BitVec 5
  rd : BitVec 5
  deriving DecidableEq, Repr

/-- The three CSR operations of Zicsr. -/
inductive CsrOp where
  | rw | rs | rc
  deriving DecidableEq, Repr

/-- Fields of a CSR instruction; `src` is rs1, or the 5-bit immediate when `useImm`. -/
structure CsrArgs where
  op : CsrOp
  useImm : Bool
  csr : BitVec 12
  src : BitVec 5
  rd : BitVec 5
  deriving DecidableEq, Repr

/-- Branch conditions. -/
inductive BrCond where
  | eq | ne | lt | ge | ltu | geu
  deriving DecidableEq, Repr

/-- OP-IMM and OP-IMM-32 operations with a 12-bit immediate. -/
inductive ImmOp where
  | addi | slti | sltiu | xori | ori | andi | addiw
  deriving DecidableEq, Repr

/-- Shifts and rotates by an immediate. -/
inductive ShOp where
  | slli | srli | srai | slliw | srliw | sraiw | slliUw | rori | roriw
  deriving DecidableEq, Repr

/-- OP and OP-32 operations of RV64I, M, Zba and Zbb. -/
inductive RegOp where
  | add | sub | sll | slt | sltu | xor | srl | sra | or | and
  | addw | subw | sllw | srlw | sraw
  | mul | mulh | mulhsu | mulhu | div | divu | rem | remu
  | mulw | divw | divuw | remw | remuw
  | sh1add | sh2add | sh3add | sh1addUw | sh2addUw | sh3addUw | addUw
  | andn | orn | xnor | min | minu | max | maxu | rol | ror | rolw | rorw
  deriving DecidableEq, Repr

/-- The unary operations of Zbb. -/
inductive UnOp where
  | clz | ctz | cpop | clzw | ctzw | cpopw | sextB | sextH | zextH | orcB | rev8
  deriving DecidableEq, Repr

/-- The standard instructions that compute, jump or branch, and `sfence.vma` (R3, R89). Jump and branch offsets are
held without their lowest bit, which is 0. -/
inductive RvOp where
  | lui (rd : BitVec 5) (imm : BitVec 20)
  | auipc (rd : BitVec 5) (imm : BitVec 20)
  | jal (rd : BitVec 5) (off : BitVec 20)
  | jalr (rd rs1 : BitVec 5) (imm : BitVec 12)
  | branch (c : BrCond) (rs1 rs2 : BitVec 5) (off : BitVec 12)
  | imm (op : ImmOp) (rd rs1 : BitVec 5) (imm : BitVec 12)
  | sh (op : ShOp) (rd rs1 : BitVec 5) (n : BitVec 6)
  | reg (op : RegOp) (rd rs1 rs2 : BitVec 5)
  | un (op : UnOp) (rd rs1 : BitVec 5)
  | sfenceVma (rs1 rs2 : BitVec 5)
  deriving DecidableEq, Repr

/-- A chain of a virtio queue as the host lays it (R359): the queue, the header's op code, reserved bytes and
sequence number, the payload bytes, the host address of the reply, and which notification write of its queue, counted from 1, the host
made after it (R361). -/
structure Chain where
  queue : Nat
  op : Nat
  zeros : BitVec 48 := 0
  seq : W64
  payload : List Byte
  reply : W64
  notice : Nat := 1
  /-- its buffer number and the descriptors that it takes in the queue's packed ring (R356) -/
  buffer : Nat := 0
  descs : Nat := 1
  deriving DecidableEq, Repr

/-- An answer to an address translation request on a host link (R318): the link, the context, the page, and the
translation with its permissions, or none. -/
structure AtsAnswer where
  link : Nat
  pasid : Nat
  vpn : Nat
  pa : Nat
  readable : Bool
  writable : Bool
  /-- the completion reports an error -/
  error : Bool := false
  /-- false when the completion says 'not present' -/
  present : Bool := true
  deriving DecidableEq, Repr

/-- What a reset of the module is given from outside (R383 to R386): the digests the boot chain measures, whether
each image verifies and loads, and the addresses at which the firmware places its code. -/
structure BootInput where
  digests : List (List Byte)
  verified : List Bool
  services : Bool
  shimVec : W64
  monitorVec : W64
  serviceEntry : W64
  deriving DecidableEq, Repr

/-- A Wale packet (R366) as the model carries it: kind, virtual channel, gang, ends, `fseq`, address or window offset,
the message header fields of R192, and the payload bytes. -/
structure Packet where
  kind : Nat
  vc : Nat := 2
  srcModule : Nat := 0
  dstModule : Nat := 0
  srcCore : Nat := 0
  dstCore : Nat := 0
  gang : Nat := 0
  fseq : Nat := 0
  offset : Nat := 0
  tag : Nat := 0
  prio : Nat := 0
  key : Nat := 0
  time : Nat := 0
  reply : W64 := 0
  last : Bool := false
  written : Option W64 := none
  payload : List Byte := []
  deriving DecidableEq, Repr

/-- Which message arrives: entry `i` of the network of the module, or a packet from a Wale port (R194); or packet `i` of those that wait in
the ports, which its link takes (R366). -/
inductive Arrival where
  | net (i : Nat)
  | wale (p : Packet)
  | sent (i : Nat)
  deriving DecidableEq, Repr

/-- What another module answers to a domain-window access (R157, R395): the bytes read, done, or a refusal. -/
inductive WindowReply where
  | data (bytes : List Byte)
  | done
  | refused
  | unresolvable
  /-- the destination of an `e.cadd` is a place other than device memory at the target (R332) -/
  | wrongPlace
  deriving DecidableEq, Repr

/-- What a domain-window request of another module asks for (R157, R395): a load, the store or atomic of a lane, the confirmation
that has a target perform what it holds, or give it up, and a piece of an engine command, its bytes written or its elements added
(R240, R241). -/
inductive WindowOp where
  | load (size : Nat)
  | store (bytes : List Byte)
  | atomic (op : Nat) (size : Nat) (c b : W64)
  | confirm (ok : Bool)
  | put (bytes : List Byte)
  | add (ty : Nat) (sat : Bool) (bytes : List Byte)
  deriving DecidableEq, Repr

/-- A domain-window request that arrives from another module (R367): `core` and `seq` are its packet's source core and flow sequence
number, and a confirmation has those of the request that it confirms. -/
structure WindowReq where
  gang : Nat
  srcModule : Nat
  core : Nat := 0
  seq : Nat := 0
  offset : Nat
  op : WindowOp
  deriving DecidableEq, Repr

/-- The place of an error that error-correcting codes report (R330). -/
inductive ErrPlace where
  | laneRegs | tcm | acc | scratchpad | l1 | l2 | lid | hbm | other
  deriving DecidableEq, Repr

/-- An uncorrectable error (R330): its place, the core or slice, the address of the granule. -/
structure EccError where
  place : ErrPlace
  unit : Nat
  address : Nat
  deriving DecidableEq, Repr

/-- A thermal reading of a C-die (R392): hottest sensor in degrees and power over the last tick in W. -/
structure Reading where
  die : Nat
  celsius : Int
  watts : Nat
  deriving DecidableEq, Repr

/-- A debugger's register access (R374): hart, register number, write data when it writes, and whether the program
buffer runs after it (`postexec`), with the buffer's words. -/
structure RegAccess where
  hart : Nat
  reg : Nat
  size : Nat
  write : Option W64
  transfer : Bool
  postexec : Bool
  progbuf : List W32
  deriving DecidableEq, Repr

/-- The instructions and the device steps. The first word of each docstring is the row's mnemonic in
spec/opcode_table.json. A hart's instruction acts on the hart `State.cur`. A step of the device with no operand of its
own acts on the hart `State.cur` and on what `State.focus` names. -/
inductive Instr where
  /-- FENCE (R89). A standard fence of any form is an acquire-release boundary at .dev scope. -/
  | fence (o : FenceArgs)
  /-- FENCE_I (R88). fence.i makes earlier stores to instruction memory reach the hart's own fetch. -/
  | fenceI (o : FenceIArgs)
  /-- LR (R179). lr loads a value and makes a reservation on a 128-byte granule; lr.aq is an acquire at .dev scope. -/
  | lr (o : AmoArgs)
  /-- SC (R179). sc stores only if no other agent has written the reservation granule since the lr, and writes 0 or 1 to rd. -/
  | sc (o : AmoArgs)
  /-- AMO (R179). A standard AMO performs the uamo operation of the same name and size, with .aq and .rl at .dev scope. -/
  | amo (op : AmoOp) (o : AmoArgs)
  /-- STANDARD_ACCESS (R326). A standard load, store or fetch that fails its walk waits at the instruction for a verdict, then issues again or raises the standard precise trap. -/
  | standardAccess (op : MemOp) (r rs1 : BitVec 5) (imm : BitVec 12)
  /-- CSR_WRITE (R44). A CSR instruction writes a CSR that has no row of its own, applying the field access rules and raising the illegal-instruction trap on read-only or unnamed CSRs, coord and satp. -/
  | csrWrite (o : CsrArgs)
  /-- LFCSR_ACCESS (R61). A CSR instruction on lfcsr waits until every earlier flag-raising instruction has completed, then reads or writes the flags. -/
  | lfcsrAccess (o : CsrArgs)
  /-- DFLAGS_DRAIN (R45). A dflags write with drain = 1 holds the hart until every done flag is clear. -/
  | dflagsDrain (o : CsrArgs)
  /-- MSDEPTH_WRITE (R44). A write to msdepth at most the current depth discards the mask-stack entries above it. -/
  | msdepthWrite (o : CsrArgs)
  /-- REGWIN_WRITE (R44). A regwin write of 1–16 acts as claim or give to that window size. -/
  | regwinWrite (o : CsrArgs)
  /-- CLH (R83). A clause header waits until its named done flags are clear, then sets the current attachment to (fa, fb). -/
  | clh (wait : BitVec 12) (fa fb : BitVec 4)
  /-- VADD (R97). Adds the elements of two lane registers in each active lane, wrapping or saturating. -/
  | vadd (o : Args)
  /-- VSUB (R97). Subtracts the elements of two lane registers in each active lane. -/
  | vsub (o : Args)
  /-- VMUL (R97). Multiplies the elements in each active lane, keeping the low half. -/
  | vmul (o : Args)
  /-- VMULH (R97). Writes the high half of the element product in each active lane. -/
  | vmulh (o : Args)
  /-- VMULHSU (R97). Writes the high half of the signed-by-unsigned element product (extended form only). -/
  | vmulhsu (o : Args)
  /-- VDIV (R98). Divides the elements in each active lane, truncating toward zero with the M-extension results for zero divisors. -/
  | vdiv (o : Args)
  /-- VREM (R98). Writes the element remainders in each active lane. -/
  | vrem (o : Args)
  /-- VMIN (R99). Writes the lesser element of each active lane, as an integer or as minimumNumber. -/
  | vmin (o : Args)
  /-- VMAX (R99). Writes the greater element of each active lane. -/
  | vmax (o : Args)
  /-- VAND (R100). Writes the bitwise AND in each active lane. -/
  | vand (o : Args)
  /-- VANDN (R100). Writes a AND NOT b in each active lane (extended form only). -/
  | vandn (o : Args)
  /-- VOR (R100). Writes the bitwise OR in each active lane. -/
  | vor (o : Args)
  /-- VORN (R100). Writes a OR NOT b in each active lane (extended form only). -/
  | vorn (o : Args)
  /-- VXOR (R100). Writes the bitwise XOR in each active lane. -/
  | vxor (o : Args)
  /-- VXNOR (R100). Writes NOT (a XOR b) in each active lane (extended form only). -/
  | vxnor (o : Args)
  /-- VSLL (R101). Shifts each element left logically by the matching element modulo its width. -/
  | vsll (o : Args)
  /-- VSRL (R101). Shifts each element right logically. -/
  | vsrl (o : Args)
  /-- VSRA (R101). Shifts each element right arithmetically. -/
  | vsra (o : Args)
  /-- VFADD (R102). Adds float elements in each active lane with one rounding, gathering flags. -/
  | vfadd (o : Args)
  /-- VFSUB (R102). Subtracts float elements with one rounding. -/
  | vfsub (o : Args)
  /-- VFMUL (R102). Multiplies float elements with one rounding. -/
  | vfmul (o : Args)
  /-- VFMA (R103). Computes a fused A × B + D with one rounding into vd. -/
  | vfma (o : Args)
  /-- VFMA4 (R103). Computes a fused A × B + E with the addend in a fourth register (extended form only). -/
  | vfma4 (o : Args)
  /-- VFMS (R103). Computes a fused A × B − D (extended form only). -/
  | vfms (o : Args)
  /-- VFNMA (R103). Computes a fused −(A × B) + D (extended form only). -/
  | vfnma (o : Args)
  /-- VFDIV (R102). Divides float elements with one rounding, raising DZ for a zero divisor. -/
  | vfdiv (o : Args)
  /-- VFSQRT (R104). Writes the rounded square root of each float element. -/
  | vfsqrt (o : Args)
  /-- VFRCP (R104). Writes the rounded reciprocal of each float element. -/
  | vfrcp (o : Args)
  /-- VFRSQRT (R104). Writes the rounded reciprocal square root of each float element. -/
  | vfrsqrt (o : Args)
  /-- VFEXP2 (R104). Writes the rounded 2^A of each float element. -/
  | vfexp2 (o : Args)
  /-- VFLOG2 (R104). Writes the rounded base-2 logarithm of each float element. -/
  | vflog2 (o : Args)
  /-- VFABS (R104). Clears the sign of each float element. -/
  | vfabs (o : Args)
  /-- VFNEG (R104). Inverts the sign of each float element. -/
  | vfneg (o : Args)
  /-- VFCLASS (R104). Writes the class bit mask of each float element. -/
  | vfclass (o : Args)
  /-- VFRINT (R104). Rounds each float element to an integral value. -/
  | vfrint (o : Args)
  /-- VCEQ (R105). Writes a mask of active lanes whose operands compare equal. -/
  | vceq (o : Args)
  /-- VCNE (R105). Writes a mask of active lanes whose operands differ (extended form only). -/
  | vcne (o : Args)
  /-- VCLT (R105). Writes a mask of active lanes where a < b (extended form only). -/
  | vclt (o : Args)
  /-- VCLE (R105). Writes a mask of active lanes where a ≤ b (extended form only). -/
  | vcle (o : Args)
  /-- VCGT (R105). Writes a mask of active lanes where a > b (extended form only). -/
  | vcgt (o : Args)
  /-- VCGE (R105). Writes a mask of active lanes where a ≥ b (extended form only). -/
  | vcge (o : Args)
  /-- VCUN (R105). Writes a mask of active lanes whose FP32 operands are unordered (extended form only). -/
  | vcun (o : Args)
  /-- VCOR (R105). Writes a mask of active lanes whose FP32 operands are ordered (extended form only). -/
  | vcor (o : Args)
  /-- VSEL (R106). Selects each active lane from a or b under a selector mask. -/
  | vsel (o : Args)
  /-- VCVT (R107). Converts elements between types, narrowing into or widening from a part of the lane. -/
  | vcvt (o : Args)
  /-- VSCLENC (R108). Encodes FP32 lanes into S10 scale containers in one half of the destination (extended form only). -/
  | vsclenc (o : Args)
  /-- VSCLDEC (R108). Decodes S10 scale containers into FP32 lanes (extended form only). -/
  | vscldec (o : Args)
  /-- VUNPK (R109). Decodes narrow elements, multiplies them by an S10 scale and writes FP32, BF16 or FP16 results. -/
  | vunpk (o : Args)
  /-- VSHFL (R110). Writes each active lane from the source lane named by the index register. -/
  | vshfl (o : Args)
  /-- VROTL (R110). Rotates lanes by n (extended form only). -/
  | vrotl (o : Args)
  /-- VSLUP (R110). Slides lanes up by n (extended form only). -/
  | vslup (o : Args)
  /-- VSLDN (R110). Slides lanes down by n (extended form only). -/
  | vsldn (o : Args)
  /-- VBFLY (R111). Writes each active lane from lane l XOR n. -/
  | vbfly (o : Args)
  /-- VBALLOT (R112). Writes to an x register the mask of active lanes holding nonzero values. -/
  | vballot (o : Args)
  /-- VANY (R112). Writes 1 if any active lane is nonzero (extended form only). -/
  | vany (o : Args)
  /-- VALL (R112). Writes 1 if every active lane is nonzero (extended form only). -/
  | vall (o : Args)
  /-- VCNT (R112). Writes the count of active nonzero lanes (extended form only). -/
  | vcnt (o : Args)
  /-- VMATCH (R113). Writes to each active lane the mask of active lanes holding the same value. -/
  | vmatch (o : Args)
  /-- VREDADD (R114). Sums the active lanes into an x register, using a fixed tree for FP32. -/
  | vredadd (o : Args)
  /-- VREDMIN (R114). Reduces the active lanes by minimum (extended form only). -/
  | vredmin (o : Args)
  /-- VREDMAX (R114). Reduces the active lanes by maximum (extended form only). -/
  | vredmax (o : Args)
  /-- VREDAND (R114). Reduces the active lanes by AND (extended form only). -/
  | vredand (o : Args)
  /-- VREDOR (R114). Reduces the active lanes by OR (extended form only). -/
  | vredor (o : Args)
  /-- VREDXOR (R114). Reduces the active lanes by XOR (extended form only). -/
  | vredxor (o : Args)
  /-- VPFXADD (R115). Writes the inclusive prefix sums over the active lanes. -/
  | vpfxadd (o : Args)
  /-- VPFXOP (R115). Writes an inclusive prefix of min, max, and, or or xor over the active lanes (extended form only). -/
  | vpfxop (o : Args)
  /-- VEPFXOP (R115). Writes an exclusive prefix of the chosen op over the active lanes (extended form only). -/
  | vepfxop (o : Args)
  /-- VMOV (R116). Copies the active lanes of one lane register to another. -/
  | vmov (o : Args)
  /-- VBCST (R116). Broadcasts the low 32 bits of an x register or a literal into the active lanes. -/
  | vbcst (o : Args)
  /-- VBCST64 (R116). Broadcasts a 64-bit value into a register pair in the active lanes. -/
  | vbcst64 (o : Args)
  /-- VEXT (R116). Writes lane n, sign-extended, to an x register, ignoring masks. -/
  | vext (o : Args)
  /-- VEXTX (R116). Writes the lane named by an x register, sign-extended, to an x register. -/
  | vextx (o : Args)
  /-- VEXT64 (R116). Writes lane n of a register pair to an x register. -/
  | vext64 (o : Args)
  /-- VINS (R116). Writes an x register into lane n if that lane is active. -/
  | vins (o : Args)
  /-- VLID (R117). Writes each active lane's index. -/
  | vlid (o : Args)
  /-- VPOPC (R117). Writes the population count of each active lane. -/
  | vpopc (o : Args)
  /-- VCLZ (R117). Writes the leading-zero count of each active lane. -/
  | vclz (o : Args)
  /-- VCTZ (R117). Writes the trailing-zero count of each active lane. -/
  | vctz (o : Args)
  /-- VBREV (R117). Reverses the bits of each active lane. -/
  | vbrev (o : Args)
  /-- VREV8 (R117). Reverses the bytes of each active lane. -/
  | vrev8 (o : Args)
  /-- VNOT (R117). Inverts each active lane. -/
  | vnot (o : Args)
  /-- VABS (R117). Writes the absolute value of each element. -/
  | vabs (o : Args)
  /-- VMBIT (R117). Writes bit l of a mask register into each active lane as 0 or 1. -/
  | vmbit (o : Args)
  /-- MAND (R120). Writes m[a] AND m[b] into a mask register. -/
  | mand (o : Args)
  /-- MOR (R120). Writes m[a] OR m[b] (extended form only). -/
  | mor (o : Args)
  /-- MXOR (R120). Writes m[a] XOR m[b] (extended form only). -/
  | mxor (o : Args)
  /-- MANDN (R120). Writes m[a] AND NOT m[b] (extended form only). -/
  | mandn (o : Args)
  /-- MORN (R120). Writes m[a] OR NOT m[b] (extended form only). -/
  | morn (o : Args)
  /-- MXNOR (R120). Writes NOT (m[a] XOR m[b]) (extended form only). -/
  | mxnor (o : Args)
  /-- MMOV (R121). Copies one mask register to another. -/
  | mmov (o : Args)
  /-- MSET (R121). Sets a mask register from an immediate (extended form only). -/
  | mset (o : Args)
  /-- MFX (R121). Sets a mask register from the low 32 bits of an x register. -/
  | mfx (o : Args)
  /-- MTX (R121). Copies a mask register into an x register. -/
  | mtx (o : Args)
  /-- MPOPC (R121). Writes the number of set bits of a mask to an x register. -/
  | mpopc (o : Args)
  /-- MFFS (R121). Writes the index of the lowest set bit of a mask, or 32. -/
  | mffs (o : Args)
  /-- LIF (R123). Opens a two-way region, pushing an IF or ELSE entry and running the taken lanes first. -/
  | lif (o : Args)
  /-- LIFN (R123). Opens a two-way region on the inverted condition. -/
  | lifn (o : Args)
  /-- LELSE (R123). Ends the first path of a region and switches to the pending path or to the join. -/
  | lelse (o : Args)
  /-- LJOIN (R123). Runs a still-pending path, or pops the region entry and settles. -/
  | ljoin (o : Args)
  /-- LLOOP (R125). Opens a loop by pushing a LOOP entry, or skips to Lexit when m0 is zero. -/
  | lloop (o : Args)
  /-- LBRK (R125). Removes the named lanes from the innermost loop and exits when none remain. -/
  | lbrk (o : Args)
  /-- LCONT (R125). Sends the named lanes round the loop again, or leaves the loop. -/
  | lcont (o : Args)
  /-- MS_PUSH (R127). Pushes a USER entry with mask m0 AND m[a]. -/
  | msPush (o : Args)
  /-- MS_POP (R127). Pops the top mask-stack entry. -/
  | msPop (o : Args)
  /-- MS_DEPTH (R127). Writes the mask-stack depth to an x register. -/
  | msDepth (o : Args)
  /-- MS_RDM (R127). Reads the mask and kind of a stack entry. -/
  | msRdm (o : Args)
  /-- MS_RDR (R127). Reads the rpc of a stack entry. -/
  | msRdr (o : Args)
  /-- MS_RDP (R127). Reads the ppc of a stack entry. -/
  | msRdp (o : Args)
  /-- MS_WRM (R127). Writes the mask and kind of a stack entry. -/
  | msWrm (o : Args)
  /-- MS_WRR (R127). Writes the rpc of a stack entry. -/
  | msWrr (o : Args)
  /-- MS_WRP (R127). Writes the ppc of a stack entry. -/
  | msWrp (o : Args)
  /-- MBZ (R128). Branches the whole hart when m0 AND m[a] is zero. -/
  | mbz (o : Args)
  /-- MBNZ (R128). Branches the whole hart when m0 AND m[a] is nonzero. -/
  | mbnz (o : Args)
  /-- MBALL (R128). Branches when every active lane is in m[a]. -/
  | mball (o : Args)
  /-- MBNALL (R128). Branches when some active lane is not in m[a]. -/
  | mbnall (o : Args)
  /-- PAUSE (R129). Starts a pause interval of n clk during which the hart ranks below others. -/
  | pause (o : Args)
  /-- YIELD (R129). Makes the hart not ready until the other ready harts have issued once, or 16 clk pass. -/
  | yield (o : Args)
  /-- DFWAIT (R130). Waits until the named done flags are clear. -/
  | dfwait (o : Args)
  /-- VLD (R165). Gathers one element per active lane from base plus lane offset, writing all lanes in one step. -/
  | vld (o : Args)
  /-- VLD_PAIR (R165). Gathers with a 64-bit address pair per lane (extended form only). -/
  | vldPair (o : Args)
  /-- VLD64 (R165). Gathers 8 bytes per lane into a register pair (extended form only). -/
  | vld64 (o : Args)
  /-- VST (R165). Scatters one element per active lane, the highest lane winning shared bytes. -/
  | vst (o : Args)
  /-- VST64 (R165). Scatters 8 bytes per lane from a register pair (extended form only). -/
  | vst64 (o : Args)
  /-- VLDS (R165). Loads lanes from the block's scratchpad by 32-bit offsets. -/
  | vlds (o : Args)
  /-- VSTS (R165). Stores lanes to the block's scratchpad by 32-bit offsets. -/
  | vsts (o : Args)
  /-- ULD (R169). Performs one uniform load into an x register. -/
  | uld (o : Args)
  /-- UST (R169). Performs one uniform store from an x register. -/
  | ust (o : Args)
  /-- VLD_RC (R168). Gathers like vld and places each line read in the L1 with a read count. -/
  | vldRc (o : Args)
  /-- VAMO (R171). Performs a lane atomic with return, lanes on one location in increasing lane order. -/
  | vamo (o : Args)
  /-- VAMO_CAS (R170). Performs a lane compare-and-swap with return (extended form only). -/
  | vamoCas (o : Args)
  /-- VAMO_NR (R171). Performs a lane atomic without return at each line's home. -/
  | vamoNr (o : Args)
  /-- UAMO (R170). Performs a uniform atomic, returning the old value unless d is x0. -/
  | uamo (o : Args)
  /-- FENCE_ACQ (R175). Waits for earlier loads to bind, then acquires at the named scope. -/
  | fenceAcq (o : Args)
  /-- FENCE_REL (R175). Releases at the named scope. -/
  | fenceRel (o : Args)
  /-- FENCE_AR (R175). Releases, then acquires, as one boundary. -/
  | fenceAr (o : Args)
  /-- FENCE_SC (R176). Releases, waits for the next heartbeat tick and its close, then acquires, in the tick order. -/
  | fenceSc (o : Args)
  /-- CCTL_PF1 (R178). Prefetches a line into the core's L1. -/
  | cctlPf1 (o : Args)
  /-- CCTL_PF2 (R178). Prefetches a line from HBM into its home slice. -/
  | cctlPf2 (o : Args)
  /-- CCTL_INV (R178). Drops the core's L1 copy of a line that holds no unpublished store. -/
  | cctlInv (o : Args)
  /-- CCTL_MAF (R177). Waits for earlier atomics and e.cadd commands, then reads the memory-arithmetic flag word. -/
  | cctlMaf (o : Args)
  /-- CCTL_MAFCLR (R177). Clears the named bits of the memory-arithmetic flag word. -/
  | cctlMafclr (o : Args)
  /-- BAR_SYNC (R186). Releases, arrives at a barrier, waits for the phase and acquires. -/
  | barSync (o : Args)
  /-- BAR_ARRIVE (R186). Releases and arrives at a barrier, returning a phase token. -/
  | barArrive (o : Args)
  /-- BAR_WAIT (R186). Waits until a token's phase is done, then acquires. -/
  | barWait (o : Args)
  /-- BAR_TEST (R186). Tests a token's phase, acquiring when done. -/
  | barTest (o : Args)
  /-- BAR_INIT (R186). Sets a barrier object's members and bytes expected, keeping its phase. -/
  | barInit (o : Args)
  /-- BAR_BYTES (R186). Sets a barrier's bytes expected per phase. -/
  | barBytes (o : Args)
  /-- BAR_DROP (R186). Releases and removes the hart from a barrier's members. -/
  | barDrop (o : Args)
  /-- Q_PUSH (R189). Releases and pushes an x register onto a stage queue, waiting for room. -/
  | qPush (o : Args)
  /-- Q_POP (R189). Waits for an entry, pops it into an x register and acquires. -/
  | qPop (o : Args)
  /-- Q_VPUSH (R189). Releases and pushes lanes of a lane register onto a stage queue. -/
  | qVpush (o : Args)
  /-- Q_VPOP (R189). Pops an entry into lanes of a lane register and acquires. -/
  | qVpop (o : Args)
  /-- Q_COUNT (R189). Reads a queue's entry count. -/
  | qCount (o : Args)
  /-- MSG_SEND (R192). Releases and places a message with a lane payload in the outbox. -/
  | msgSend (o : Args)
  /-- MSG_SENDX (R192). Releases and sends a message with an x-register payload. -/
  | msgSendx (o : Args)
  /-- MSG_SENDW (R200). Sends a message whose payload is first written at an address on the target. -/
  | msgSendw (o : Args)
  /-- MSG_RECV (R197). Takes the oldest inbox message of a tag, writing header and payload, and acquires. -/
  | msgRecv (o : Args)
  /-- MSG_TSET (R193). Writes a tag-table entry. -/
  | msgTset (o : Args)
  /-- MSG_TGET (R193). Reads a tag-table entry. -/
  | msgTget (o : Args)
  /-- TASK_DEC (R202). Sends a decrement to a task record's dependence counter on a core. -/
  | taskDec (o : Args)
  /-- TASK_TAKE (R202). The task host pops the oldest ready offset and acquires. -/
  | taskTake (o : Args)
  /-- STRM_PUT (R203). Sends a stream put over the reserved route, waiting for credits. -/
  | strmPut (o : Args)
  /-- STRM_OPEN (R203). Releases and reserves a route for a stream, returning a handle. -/
  | strmOpen (o : Args)
  /-- STRM_CLOSE (R203). Releases, waits for puts, sends the last message and frees the handle. -/
  | strmClose (o : Args)
  /-- CLAIM (R204). Waits until the pool can grow the window, then enlarges it. -/
  | claim (o : Args)
  /-- GIVE (R204). Shrinks the window once the freed registers are not pending. -/
  | give (o : Args)
  /-- TRYCLAIM (R204). Enlarges the window only if it can be granted at once. -/
  | tryclaim (o : Args)
  /-- ROLE (R205). Returns and sets the hart's role. -/
  | role (o : Args)
  /-- E_COPY (R240). Enters a strided copy command in the engine queue and returns its promise. -/
  | eCopy (o : Args)
  /-- E_MCAST (R255). Enters a copy multicast to the scratchpads of named blocks of the cohort. -/
  | eMcast (o : Args)
  /-- E_CADD (R241). Enters a copy that adds its source atomically into its destination. -/
  | eCadd (o : Args)
  /-- E_GATH (R240). Enters a copy whose source rows are picked by an index array. -/
  | eGath (o : Args)
  /-- E_SCAT (R240). Enters a copy whose destination rows are picked by an index array. -/
  | eScat (o : Args)
  /-- E_MMA (R244). Enters a matrix command into the array queue. -/
  | eMma (o : Args)
  /-- E_CMMA (R246). Enters a copy and a follow-on matrix command taken when the copy's last byte lands. -/
  | eCmma (o : Args)
  /-- E_SCALE (R245). Enters a command that loads scales into the core's scale cache in array order. -/
  | eScale (o : Args)
  /-- E_SLEEP (R247). Waits until a ticket is not outstanding or its promised cycle passes. -/
  | eSleep (o : Args)
  /-- E_POLL (R247). Returns a ticket's current promise, or 0 when it is not outstanding. -/
  | ePoll (o : Args)
  /-- E_STAT (R248). Reads the hart's engine status word. -/
  | eStat (o : Args)
  /-- E_STATCLR (R248). Clears the named bits of the engine status word. -/
  | eStatclr (o : Args)
  /-- ACC_ZERO (R249). Zeroes an accumulator tile after the hart's earlier commands on it complete. -/
  | accZero (o : Args)
  /-- ACC_RD (R249). Reads a tile row into a register pair. -/
  | accRd (o : Args)
  /-- ACC_WR (R249). Writes a register pair into a tile row. -/
  | accWr (o : Args)
  /-- W_FORK (R271). Releases, allocates child worlds, seals the current non-root world and enqueues the launch copies. -/
  | wFork (o : Args)
  /-- W_JOIN (R273). Waits for every child of the open fork to finish, then acquires. -/
  | wJoin (o : Args)
  /-- W_CHOOSE (R273). Stops siblings, commits the chosen child's lines, replays its log and closes the fork. -/
  | wChoose (o : Args)
  /-- W_ABANDON (R273). Stops and discards every child and closes the fork. -/
  | wAbandon (o : Args)
  /-- W_QUERY (R274). Reports the state of a child of the open fork. -/
  | wQuery (o : Args)
  /-- REPLAY (R276). Re-enters a logged instruction from its logged operands. -/
  | replay (o : Args)
  /-- OPLOG_DROP (R276). Discards a logged instruction, leaving its destinations unchanged. -/
  | oplogDrop (o : Args)
  /-- OPLOG_PC (R276). Reads the PC of a logged instruction. -/
  | oplogPc (o : Args)
  /-- BBHINT (R277). Adds 1 to counter n of the context's counter area as a no-return atomic. -/
  | bbhint (o : Args)
  /-- PCM_RET (R278). Leaves the shadow context and issues the matched instruction. -/
  | pcmRet (o : Args)
  /-- PCM_HND (R278). Sets the hart's PC-match handler address. -/
  | pcmHnd (o : Args)
  /-- GATE_WR (R281). A tinker writes a gate field of a core and waits for the core's acknowledgement. -/
  | gateWr (o : Args)
  /-- GATE_RD (R281). A tinker reads a gate field of a core. -/
  | gateRd (o : Args)
  /-- CTX_SAVE (R284). A tinker requests the save of a cohort or context to an area. -/
  | ctxSave (o : Args)
  /-- CTX_LOAD (R284). A tinker requests the restore of a saved cohort or context. -/
  | ctxLoad (o : Args)
  /-- CTX_KILL (R284). A tinker kills a context on the module and waits until its harts stop. -/
  | ctxKill (o : Args)
  /-- CTX_BIND (R286). Binds or unbinds a PASID to a context block, reading the block. -/
  | ctxBind (o : Args)
  /-- CTX_UPD (R286). Makes every unit holding context state re-read the named sections of the context block. -/
  | ctxUpd (o : Args)
  /-- G_ARM (R287). A tinker arms or disarms a gang switch at a tick on the module. -/
  | gArm (o : Args)
  /-- G_SWEEP (R288). Reports a gang's sweep state and optionally seals its save window. -/
  | gSweep (o : Args)
  /-- G_RESUME (R288). Re-injects a gang's saved packets and then admits its new traffic. -/
  | gResume (o : Args)
  /-- STANDARD_INSTRUCTION (R89). A standard RV64IMA/Zba/Zbb instruction not named by another row (ALU, branch, jal, jalr, lui, auipc, mul) executes once for the hart as its specification states. -/
  | standardInstruction (op : RvOp)
  /-- SRET_MRET (R84). sret or mret returns from a trap, restoring the hidden attachment copy of the mode left, without re-checking a clause header. -/
  | sretMret (m : Bool)
  /-- LAUNCH (R359). A user-queue LAUNCH chain reads and checks a launch record and makes it a client, or rejects it INVALID. -/
  | launch (c : Chain)
  /-- DRAIN (R359). Replies once every earlier launch of the queue has completed, holding the queue. -/
  | drain (c : Chain)
  /-- NOP (R359). A user-queue command with no effect. -/
  | nop (c : Chain)
  /-- CTXNEW (R359). Creates a context with its standing overlay and save areas. -/
  | ctxnew (c : Chain)
  /-- CTXDEL (R359). Kills a context and replies once every hart has stopped. -/
  | ctxdel (c : Chain)
  /-- QBIND (R359). Binds a user queue to a context and writes its zeroed status block. -/
  | qbind (c : Chain)
  /-- QUNBIND (R359). Stops a queue taking launches and replies once its launches complete. -/
  | qunbind (c : Chain)
  /-- QMOD (R359). Sets a vector's interrupt moderation count and timer. -/
  | qmod (c : Chain)
  /-- DOMSET (R359). Joins the module to a Wale domain. -/
  | domset (c : Chain)
  /-- GANGBIND (R359). Sets a context's gang and domain base. -/
  | gangbind (c : Chain)
  /-- SPDM (R387). A control-queue SPDM command carries an SPDM request to Hallmark and returns its response. -/
  | spdm (c : Chain)
  /-- NOTIFY (R362). A 4-byte write of q to a queue's notification page notifies that queue; other accesses are ignored and counted. -/
  | notify (page off width : Nat) (value : W32)
  /-- HDM_WRITE (R365). A host CXL.mem write is ordered at the home and published at .sys, or discarded for private pages. -/
  | hdmWrite (pa : Nat) (data : List Byte)
  /-- ATS_COMPLETION (R318). An ATS completion enters both TLBs or leads to a fault record. -/
  | atsCompletion (a : AtsAnswer)
  /-- ATS_INVALIDATE (R318). An ATS Invalidation Request removes matching entries and completes after their accesses reach the host link. -/
  | atsInvalidate (pasid vpn level : Nat) (every : Bool)
  /-- MODULE_RESET (R385). Release of module reset runs the measured boot steps, verifying and measuring each image. -/
  | moduleReset (b : BootInput)
  /-- MSG_ARRIVE (R194). A message arrives at a core's inbox, or is refused, and its reply word is written. -/
  | msgArrive (a : Arrival)
  /-- WINDOW_ANSWER (R395). The target modules' answers to a domain-window access arrive, performing it or holding the entry. -/
  | windowAnswer (a : WindowReply)
  /-- WINDOW_REQUEST (R367). A domain-window request arrives at a target module, which translates it or refuses it. -/
  | windowRequest (r : WindowReq)
  /-- LATE_PACKET (R350). A packet of the gang reaches the sink after the closing wave, and is appended or aborts the gang. -/
  | latePacket (p : Packet)
  /-- ECC_UNCORRECTABLE (R330). An uncorrectable error kills the owning contexts, retires the page and queues an error record. -/
  | eccUncorrectable (e : EccError)
  /-- THERMAL_THROTTLE (R392). A C-die over 95 °C or 550 W over a tick halves its array and pipe rates and raises event 6. -/
  | thermalThrottle (r : Reading)
  /-- THERMAL_RECOVER (R392). A die below 90 °C and 520 W for 64 ticks returns to full rate. -/
  | thermalRecover (r : Reading)
  /-- THERMAL_TRIP (R392). A die above 110 °C stops all issue, kills every context and sets DEVICE_NEEDS_RESET. -/
  | thermalTrip (r : Reading)
  /-- ACCESS_REGISTER (R372). A debugger abstract command reads or writes a register of a halted hart, optionally running the program buffer. -/
  | accessRegister (r : RegAccess)
  /-- ILLEGAL_INSTRUCTION (R87). A fetched word in an illegal major, a reserved minor, xop or code, or an Osier family illegal on a tinker raises scause 2 and changes no state. -/
  | illegalInstruction (word : W32)
  /-- ECALL_RETIRE (R10). In U mode, ecall with a7 = 0 releases at .sys scope, waits for logged stores and commands, closes open forks and streams, and retires the hart. -/
  | ecallRetire
  /-- ECALL (R47). An ecall with a7 ≠ 0 in U mode traps to the shim; an S-mode ecall traps to the monitor. -/
  | ecall
  /-- TINKER_HANDLER_END (R195). On a tinker, an S-mode ecall with a7 = 0 releases at .sys scope, waits for outstanding operations and leaves the tinker idle. -/
  | tinkerHandlerEnd
  /-- EBREAK (R377). ebreak enters Debug Mode when the dcsr ebreak bit for the current mode is set, and raises a breakpoint exception otherwise. -/
  | ebreak
  /-- WFI (R89). wfi is illegal in U mode; in S and M mode it waits until an interrupt of that mode or higher is pending. -/
  | wfi
  /-- UIRET (R50). uiret returns from a user-interrupt handler, setting pc to uiepc and uie to 1 in one step. -/
  | uiret
  /-- PC_MATCH (R278). A U-mode hart reaching an enabled match PC switches to the shadow context at the handler. -/
  | pcMatch
  /-- CTX_REQUEST_COMPLETE (R283). A save or load request finishes and its completion word is written with a .sys release. -/
  | ctxRequestComplete
  /-- FEATURES_OK (R357). The driver's FEATURES_OK write is accepted only with the required bits and offered bits alone. -/
  | featuresOk
  /-- SCHED_WRITE (R358). A write of the scheduling word takes effect at the next tick. -/
  | schedWrite
  /-- MSIX_FIRE (R363). A vector's pending count reaches its count or its timer expires, and the vector sends its message or sets its pending bit. -/
  | msixFire
  /-- MSIX_UNMASK (R363). Unmasking a vector with its pending bit set sends the message and clears the bit. -/
  | msixUnmask
  /-- EVENT_WRITE (R364). A waiting event is written into the next driver buffer of the event queue, with its lost count. -/
  | eventWrite
  /-- HDM_READ (R365). A host CXL.mem read enters the line's home and returns published values, or all ones for private pages. -/
  | hdmRead
  /-- PAGE_REQUEST_RESPONSE (R325). A PRI Page Request Group Response leads the tinker to a verdict, or stops the link's page-request interface. -/
  | pageRequestResponse
  /-- IDE_FAILURE (R390). A failing IDE integrity check discards the transaction and raises event 7. -/
  | ideFailure
  /-- ARBITER_GRANT (R337). When space frees, a client arrives or a quantum ends, the arbiter places the next cohort of the least-pass eligible client of the highest class. -/
  | arbiterGrant
  /-- COHORT_RESIDENT (R393). A placed cohort's slowest core is ready, and its harts start or resume. -/
  | cohortResident
  /-- QUANTUM_END (R340). A resident cohort's time-slice quantum expires, and it is swapped for a waiting cohort or renewed. -/
  | quantumEnd
  /-- CLIENT_AGED (R342). A client waiting agemax ticks without a grant counts as class 3 for its next grant. -/
  | clientAged
  /-- SWAP_COMPLETE (R343). A cohort or context save finishes writing its state and digest, and its reservations are released. -/
  | swapComplete
  /-- COHORT_RETURN (R397). A swapped cohort of a fully pre-empted launch returns to its own cores once they are free. -/
  | cohortReturn
  /-- LAUNCH_COMPLETE (R23). After every hart of the launch has retired, the device writes the completion record with seq last. -/
  | launchComplete
  /-- TAG_FREE (R311). A world tag marked ending becomes free once its lines, pages and log are gone. -/
  | tagFree
  /-- HANDLER_START (R194). A waiting spawn-mode message starts a handler on a free hart slot with an acquire. -/
  | handlerStart
  /-- UINT_DELIVER (R49). An interrupt-mode message is delivered at the target hart's boundary, setting uiepc, uicause and pc. -/
  | uintDeliver
  /-- TASK_DEC_ARRIVE (R202). A task decrement reaches the task host's TCM bank and lowers or readies the record, or is refused. -/
  | taskDecArrive
  /-- SHOOTDOWN (R319). A tag-253 shootdown removes matching TLB entries from a cluster and replies once their accesses are done. -/
  | shootdown
  /-- VERDICT (R324). A tag-254 verdict matching a logged fault starts a new walk or holds the entry for cause 24. -/
  | verdict
  /-- WALK_DONE (R317). A cluster walk finishes, translating the pages or sending a fault record to the routed tinker. -/
  | walkDone
  /-- DEFERRED_TRAP (R327). A held operand-log entry's trap is taken at the first boundary where it may be. -/
  | deferredTrap
  /-- LOAD_RETURN (R163). The last value of a load arrives and all its destination lanes are written in one step. -/
  | loadReturn
  /-- RELEASE_COMPLETE (R213). The last acknowledgement of a release arrives and the release completes. -/
  | releaseComplete
  /-- HOME_ORDER (R225). A published store or pending line reaches its home, is ordered and sends invalidations. -/
  | homeOrder
  /-- HOME_READ (R225). A read miss reaches the home, which supplies the latest value and records the sharer. -/
  | homeRead
  /-- HOME_ATOMIC (R172). An atomic or e.cadd element is performed at the line's home in the location's total order. -/
  | homeAtomic
  /-- EVICTION_NOTICE (R225). An eviction notice reaches the home and clears a matching pointer. -/
  | evictionNotice
  /-- INVALIDATION_ACK (R225). An acknowledgement is counted in its tracker, completing the release when the count is full. -/
  | invalidationAck
  /-- INVALIDATION_ARRIVE (R226). An invalidation reaches a cluster, which acknowledges and places the line in the cores' deferral sets. -/
  | invalidationArrive
  /-- RECALL (R230). The home recalls an owned line, taking back its atomically written bytes. -/
  | recallLine
  /-- MOVED_REPLY (R232). A MOVED reply makes the core drop the translation, hold its accesses and re-issue them at the new home. -/
  | movedReply
  /-- L1_EVICT_PENDING (R214). An L1 line with unpublished stores is evicted to the L2 as pending, or raises cause 26 subcode 3. -/
  | l1EvictPending
  /-- COPY_START (R253). The copy engine starts a queued copy when a slot is free and no overlapping earlier copy of the hart runs. -/
  | copyStart
  /-- ENGINE_COMPLETE (R235). An engine command finishes, publishes its writes, credits its barrier and clears its done flag. -/
  | engineComplete
  /-- MATRIX_TAKE (R256). The array takes the next command of its queue, loading or clearing its tile. -/
  | matrixTake
  /-- CMMA_FOLLOWON (R246). At the clk of the copy's last byte, the follow-on matrix command takes its place in the array order. -/
  | cmmaFollowon
  /-- ENGINE_ENTRY_GRANT (R252). A freed engine queue entry is given to the longest-waiting hart. -/
  | engineEntryGrant
  /-- PROMISE_RECOMPUTE (R264). At each tick, completion or restore, the engine recomputes current promises. -/
  | promiseRecompute
  /-- PROMISE_MISSED (R247). The promised cycle of an e.sleep passes with the ticket outstanding, raising cause 25. -/
  | promiseMissed
  /-- BARRIER_WAKE (R186). A barrier phase completes and waiting harts find it done and acquire. -/
  | barrierWake
  /-- QUEUE_WAKE (R189). A waiting push finds room, or a waiting pop finds an entry, and proceeds. -/
  | queueWake
  /-- CLAIM_GRANT (R204). The pool frees enough registers and the earliest waiting claim is granted. -/
  | claimGrant
  /-- PAUSE_EXPIRE (R31). A pause interval's n clk pass and the issue promise applies to the hart again. -/
  | pauseExpire
  /-- TICK_CLOSE (R216). The heartbeat root's close broadcast for a tick arrives and waiting SC acquires proceed. -/
  | tickClose
  /-- HEARTBEAT_FLIT (R366). A heartbeat flit arrives and the module corrects its cycle counter toward the root's. -/
  | heartbeatFlit
  /-- HEARTBEAT_LOST (R366). No heartbeat for 2^20 clk raises event 4. -/
  | heartbeatLost
  /-- GANG_SWITCH (R347). At armed tick T the module stops the gang's injection, saves its contexts and starts the sweep. -/
  | gangSwitch
  /-- CLOSING_WAVE_DONE (R350). Every link returns the closing wave empty, ending the sweep and opening the save window. -/
  | closingWaveDone
  /-- SAVE_WINDOW_CLOSE (R350). The save window's late ticks expire. -/
  | saveWindowClose
  /-- SWEEP_ARM_FLIT (R368). A switch receives a sweep-arm flit and arms or disarms the gang, acknowledging or refusing. -/
  | sweepArmFlit
  /-- SWITCH_DIVERT (R368). At tick T a switch diverts the gang's packets toward destination sinks and sends closing-wave flits. -/
  | switchDivert
  /-- HALTREQ (R374). A debugger halt request halts the selected hart at its next boundary. -/
  | haltreq
  /-- RESUMEREQ (R374). A debugger resume request returns a halted hart to its dpc. -/
  | resumereq
  /-- TRIGGER_MATCH (R372). An mcontrol6 trigger matches an execute or access and raises a breakpoint or enters Debug Mode. -/
  | triggerMatch
  /-- INTERRUPT_TAKEN (R47). An S- or M-mode interrupt pending at an instruction boundary is taken, saving the attachment and setting sepc or mepc to the next instruction. -/
  | interruptTaken
  /-- YIELD_EXPIRE (R129). 16 clk pass after a yield before the other ready harts have each issued, and the yielding hart becomes ready again. -/
  | yieldExpire
  /-- STORE_PERFORMED (R83). A store is performed at its issuing core, becoming visible to that core's harts of its world and clearing its done flag. -/
  | storePerformed
  /-- STRM_PUT_ACK (R203). An acknowledgement of a stream put returns to the sender, freeing a put credit for the handle. -/
  | strmPutAck
  /-- TICK_CLOSE_REPORT (R216). A module's close report for tick T reaches the heartbeat root, which broadcasts the close once it holds every module's report. -/
  | tickCloseReport
  /-- HEARTBEAT_SEND (R366). Every 65,536 clk the domain's heartbeat root sends a heartbeat flit carrying its cycle. -/
  | heartbeatSend
  /-- PAGE_REQUEST_RESTART (R325). A tinker restarts a link's stopped page-request interface, so that host-file faults on the link can be resolved again. -/
  | pageRequestRestart
  /-- PAGE_MIGRATING (R231). A tinker marks a page migrating at its old home, after which the home refuses the page's requests with MOVED. -/
  | pageMigrating
  /-- BACK_INVALIDATION_RESPONSE (R365). The host's response to a back-invalidation snoop arrives, letting the home proceed to the ordering step of a device write. -/
  | backInvalidationResponse
  /-- ECC_CORRECTED (R330). A correctable error is detected, repaired in place and counted for its place, to be reported in the next error record's corr field. -/
  | eccCorrected
  deriving DecidableEq, Repr

end Sys2Proof
end

