-- ==== Sys2Proof/Machine/State.lean ====
section
/-! DEFINITION. The state of the module as plain data: harts and tinkers, cores, clusters, memories, contexts, and the
module's own tables, the reasons a step can stop, and the state after reset. -/

namespace Sys2Proof.Machine

/-! ### Tables and memories -/

/-- A sparse table keyed by number, in increasing order of keys; a key it does not list has the table's default. -/
abbrev Tab (β : Type) := List (Nat × β)

/-- A memory: the bytes that differ from what an unlisted address reads as, at strictly rising addresses. -/
abbrev Memory := List Host.Cell

/-- What a byte of memory that nothing has written reads as: HBM is scrubbed to zero at reset (R385), scratchpad, TCM,
lid and accumulator store are given out as zeros (R207, R43, R146); host memory is a DESIGN CHOICE (log 4). -/
def Memory.unlisted : Byte := 0

/-- Keys strictly rise. -/
def Tab.sorted {β : Type} : Tab β → Bool
  | [] => true
  | [_] => true
  | a :: b :: t => decide (a.1 < b.1) && Tab.sorted (b :: t)

/-- The canonical form of a memory: rising addresses, no entry equal to what an unlisted address reads as. -/
def Memory.wf (m : Memory) : Bool := Tab.sorted m && m.all (fun c => c.2 != Memory.unlisted)

/-! ### Harts -/

/-- Privilege modes (R46). -/
inductive Mode where
  | u | s | m
  deriving DecidableEq, Repr

/-- An entry of the mask stack (R39). -/
structure MaskEntry where
  mask : W32
  kind : Byte
  rpc : W64
  ppc : W64
  deriving DecidableEq, Repr

/-- A clause attachment: flags A and B, 15 for none (R83). -/
structure Attach where
  fa : BitVec 4 := 15
  fb : BitVec 4 := 15
  deriving DecidableEq, Repr

/-- The places of R143 as the model addresses their bytes; a cluster, core or module number selects the unit. -/
inductive Place where
  | hbm
  | host
  | tcm (core : Nat)
  | scratch (cluster : Nat)
  | lid (core : Nat)
  | acc (core : Nat)
  | window (module : Nat)
  deriving DecidableEq, Repr

/-- A byte's location. -/
structure Loc where
  place : Place
  off : Nat
  deriving DecidableEq, Repr

/-- What a memory operation does (R159, R179). -/
inductive MemKind where
  | load | store | amo | amoNr
  deriving DecidableEq, Repr

/-- One lane's access: the lane, its address, the store data or operand B, and the value C that `cas` compares with
(R161, R170). The uniform forms use lane 0. -/
structure LaneReq where
  lane : Nat
  addr : W64
  b : W64 := 0
  c : W64 := 0
  deriving DecidableEq, Repr

/-- Where a returned value goes. -/
inductive Dest where
  | none
  | x (n : Nat)
  | v (r : Nat)
  | v64 (r : Nat)
  deriving DecidableEq, Repr

/-- A memory instruction with its operands read: all that performing or replaying it needs (R320). -/
structure MemJob where
  kind : MemKind
  /-- bytes of an element -/
  size : Nat
  /-- a narrow value is sign-extended into its destination (R164) -/
  signed : Bool := false
  lanes : List LaneReq
  dest : Dest := .none
  /-- operation code of R170 -/
  op : Nat := 0
  /-- read count of `vld.rc`, 0 for none (R168) -/
  rc : Nat := 0
  acq : Bool := false
  rel : Bool := false
  /-- scope code of R78 -/
  scope : Nat := 0
  /-- done flag it is attached to, 15 for none (R83) -/
  flag : Nat := 15
  pc : W64
  words : List W32
  /-- world tag at issue -/
  tag : Nat
  /-- privilege mode and `mstatus` at issue, with which its pages are checked (R317) -/
  mode : Mode := .u
  mstatus : W64 := 0
  deriving DecidableEq, Repr

/-- An operation that has issued and is outstanding (R83): a load or atomic whose value has not been written yet, a
store that has not been performed, a no-return atomic that has not been performed. -/
structure PendOp where
  job : MemJob
  /-- lane register cells to write, key 32 × register + lane -/
  vw : List (Nat × W32) := []
  /-- scalar register to write -/
  xw : List (Nat × W64) := []
  /-- bytes to store, in order -/
  writes : List (Loc × Byte) := []
  /-- location of each lane, for a no-return atomic -/
  locs : List Loc := []
  /-- flags that are ORed into `lfcsr` when the value returns (R61) -/
  fflags : BitVec 5 := 0
  /-- lanes that targets of the domain window have been told to perform, and have not acknowledged yet (R369, R395) -/
  acks : List Nat := []
  deriving DecidableEq, Repr

/-- State of an operand-log entry (R320). -/
inductive LogState where
  | walking | verdict | held | replaying
  deriving DecidableEq, Repr

/-- An entry of the operand log (R320). -/
structure LogEntry where
  job : MemJob
  /-- ticket of the engine command it suspends, for an engine command's entry -/
  engine : Option Nat := none
  active : W32
  att : Attach
  state : LogState
  npage : Nat
  seq : Nat := 0
  fva : W64 := 0
  pgroup : Nat := 0xFFFF
  /-- order of issue among the hart's entries -/
  order : Nat
  /-- cause and `stval` of the deferred trap, while held (R327) -/
  cause : Nat := 0
  tval : W64 := 0
  /-- answers of domain-window targets, by lane, and the lanes whose requests have left, with the requests' flow sequence numbers
  (R367, R395) -/
  answers : Tab Nat := []
  asked : Tab Nat := []
  /-- causes of the lanes whose targets have answered with a failure, by lane (R395) -/
  fails : Tab Nat := []
  deriving DecidableEq, Repr

/-- What a hart waits for (R345 gives the codes): `code` 0 is none. `a` and `b` hold what the wait tests. -/
structure Wait where
  code : Nat := 0
  a : W64 := 0
  b : W64 := 0
  deriving DecidableEq, Repr

/-- An LR reservation: the location it was made on and the bytes the `lr` read (R89, R179). -/
structure Reservation where
  loc : Loc
  size : Nat
  deriving DecidableEq, Repr

/-- An open stream (R203). -/
structure Stream where
  desc : W64
  reply : W64
  /-- puts not acknowledged, and those of them whose acknowledgement is under way -/
  unacked : Nat := 0
  acks : Nat := 0
  deriving DecidableEq, Repr

/-- A message under way or in an inbox (R192, R198). -/
structure Msg where
  /-- destination core, 2,304 and up for a tinker -/
  core : Nat
  tag : Nat
  prio : Nat := 0
  /-- payload bytes -/
  len : Nat := 0
  gang : Nat := 0
  key : Nat := 0
  time : Nat := 0
  reply : W64 := 0
  /-- the issuing core -/
  source : Nat
  /-- the issuing hart, which the reply's context follows -/
  hart : Nat := 0
  dstModule : Nat := 0
  srcModule : Nat := 0
  remote : Bool := false
  last : Bool := false
  /-- write address of a `msg.sendw` -/
  write : Option W64 := none
  payload : List Byte := []
  /-- record offset and count of a task decrement (R202) -/
  dec : Option (Nat × Nat) := none
  /-- hart and stream handle of a put (R203, `putKey`) -/
  put : Option Nat := none
  /-- an interrupt-mode message has been delivered (R49) -/
  delivered : Bool := false
  /-- clk of arrival in the inbox -/
  arrival : Nat := 0
  /-- sequence number of the fault record that a `msg.sendw` write waits on (R200), and its verdict -/
  held : Option Nat := none
  bad : Bool := false
  /-- bytes of the write that its first segment has written (R200) -/
  wrote : Nat := 0
  /-- the opening word of a remote stream (R304, R351, R367) -/
  opening : Bool := false
  /-- came in by a Wale port, with this sequence number of its flow, and waits for room or a verdict -/
  inbound : Bool := false
  fseq : Nat := 0
  /-- context and world tag of the sender, in which its reply word lies -/
  pasid : Nat := 0
  wtag : Nat := 0
  /-- its fate is known, and its reply word waits for the translation of its reply address (R199, log 11) -/
  answer : Option Nat := none
  deriving DecidableEq, Repr

/-- An external-log entry (R305). -/
structure LogRec where
  kind : Nat
  op : Nat := 0
  hart : Nat := 0
  cword : W32 := 0
  addr : W64 := 0
  bmask : BitVec 128 := 0
  data : List Byte := []
  /-- the message of a kind 3 entry, which `hdr` of R305 holds -/
  msg : Option Msg := none
  deriving DecidableEq, Repr

/-- The open fork of a hart (R270): the tags of its children by index and the launch copies that run in them. -/
structure Fork where
  tags : List Nat
  launches : List Nat
  /-- log entries of the chosen child that are still to be replayed, once its lines are committed (R308) -/
  commit : Option (List LogRec) := none
  deriving DecidableEq, Repr

/-- The CSRs of the RISC-V privileged architecture that a hart has (R3, R47). -/
structure Csrs where
  mstatus : W64
  medeleg : W64
  mideleg : W64
  mie : W64
  mip : W64
  mtvec : W64
  mscratch : W64
  mepc : W64
  mcause : W64
  mtval : W64
  mcounteren : W64
  stvec : W64
  sscratch : W64
  sepc : W64
  scause : W64
  stval : W64
  scounteren : W64
  satp : W64
  menvcfg : W64 := 0
  senvcfg : W64 := 0
  deriving DecidableEq, Repr

/-- An outstanding engine command of a hart: its ticket, the done flag it is attached to (15 for none), and whether it is
an `e.cadd` (R83, R177). -/
structure EngRef where
  ticket : Nat
  flag : Nat
  cadd : Bool := false
  deriving DecidableEq, Repr

/-- A trigger of the debug module (R376, R377): control word and address. -/
structure Trigger where
  data1 : W64 := 0
  data2 : W64 := 0
  hit : Bool := false
  deriving DecidableEq, Repr

/-- What a debugger holds of a hart (R372 to R377). -/
structure Dbg where
  halted : Bool := false
  dcsr : W64 := 0
  dpc : W64 := 0
  dscratch0 : W64 := 0
  dscratch1 : W64 := 0
  /-- trigger that the tdata registers show -/
  tselect : Nat := 0
  triggers : Tab Trigger := []
  /-- words of the program buffer while it runs, and the position in it -/
  progbuf : List W32 := []
  running : Option Nat := none
  /-- one instruction remains before a step halts the hart again -/
  stepping : Bool := false
  deriving DecidableEq, Repr

/-- A hart's position among blocks (R17): launch, cohort, block and hart indexes; none for a handler hart or tinker. -/
structure Home where
  launch : Nat
  cohort : Nat
  block : Nat
  hib : Nat
  deriving DecidableEq, Repr

/-! ### Engines (R233 to R267) -/

/-- A copy descriptor (R238). -/
structure CopyDesc where
  src : W64 := 0
  dst : W64 := 0
  rowbytes : Nat := 1
  rows : Nat := 1
  sstride : W32 := 0
  dstride : W32 := 0
  bar : W64 := 0
  split : Nat := 0
  cnt : Nat := 0
  cmask : Nat := 0
  idx : W64 := 0
  deriving DecidableEq, Repr

/-- A matrix descriptor (R243). -/
structure MatDesc where
  abase : W64 := 0
  bbase : W64 := 0
  astride : W32 := 0
  bstride : W32 := 0
  k : Nat := 32
  fmt : Nat := 0
  mode : Nat := 0
  split : Nat := 0
  aoff : W32 := 0
  boff : W32 := 0
  deriving DecidableEq, Repr

/-- The operands of a K block as the array read them: 64 rows of A, 64 columns of B, and the scale containers of each
(R244, R256). -/
structure BlockOps where
  a : List (List Byte)
  b : List (List Byte)
  sa : List Nat
  sb : List Nat
  deriving DecidableEq, Repr

/-- A command in the engine queue of a core (R252). -/
structure EngCmd where
  ticket : Nat
  hart : Nat
  /-- world tag, mode and `mstatus` at issue -/
  tag : Nat
  mode : Mode
  mstatus : W64
  pc : W64
  words : List W32
  /-- order of issue among the hart's instructions that may be logged -/
  order : Nat
  /-- SYS minor: 0 copy (or the copy of an `e.cmma`), 1 multicast, 2 add, 3 gather, 4 scatter, 5 matrix, 7 scales -/
  kind : Nat
  /-- the copy, or the matrix command, of an `e.cmma` -/
  paired : Bool := false
  scope : Nat := 2
  ty : Nat := 5
  sat : Bool := false
  cop : CopyDesc := {}
  mat : MatDesc := {}
  /-- scale base and shift at issue; of an `e.scale`, the address -/
  sbase : W64 := 0
  sshift : Nat := 0
  scount : Nat := 0
  /-- clk since which it has been active, or has been in the array -/
  started : Option Nat := none
  /-- it has been active: stopped for a save, it starts again before those that have not (R266) -/
  begun : Bool := false
  /-- modelled time T, less what had passed at its last stop, and the block times of a matrix command, in clk (R258, R264) -/
  time : Nat := 0
  blockTimes : List Nat := []
  promise : Nat := 0
  /-- bytes of its count that it has read and has written, and those read and not yet written (R239, R266) -/
  got : Nat := 0
  put : Nat := 0
  buf : List Byte := []
  /-- the row whose index has been read, and the index; the indices that stood when the gate was asked at issue, where one of them names
  the domain window (R240, R329) -/
  index : Option (Nat × Nat) := none
  gated : List Nat := []
  /-- the range of the scale cache at issue: the gate was asked for the scales outside it (R244, R329) -/
  cover : W64 × Nat := (0, 0)
  /-- what the target of a domain-window piece answered -/
  answer : Option (List Byte) := none
  acked : Bool := false
  /-- bytes captured when a world's log took the command, for its replay (R305, R307) -/
  captured : Option (List Byte) := none
  /-- the tile as it was loaded, the scale containers of the next K block read so far, and the operands of the K blocks computed
  so far (R256, R257, R260) -/
  tile : List Nat := []
  scs : List Nat := []
  blocks : List BlockOps := []
  /-- the scale cache as it stood when the command was stopped (R245, R266) -/
  cache : Option (W64 × List Nat) := none
  /-- it is to stop at its next boundary for a save, one of a gang switch (R335), and has stopped (R265) -/
  stopping : Bool := false
  gangStop : Bool := false
  stopped : Bool := false
  /-- `oplog.drop` has ended it; what it wrote is being published (R242) -/
  dropped : Bool := false
  deriving DecidableEq, Repr

/-! ### A hart -/

/-- A hart (R35) or tinker. -/
structure Hart where
  /-- a hart occupies the slot and has not retired -/
  live : Bool := false
  /-- its block is resident -/
  resident : Bool := false
  tinker : Bool := false
  /-- the slot, TCM and window are kept for a block or a saved handler hart (R25, R27, R396) -/
  reserved : Bool := false
  /-- a handler hart started by a spawn-mode message (R396) -/
  handler : Bool := false
  home : Option Home := none
  x : Tab W64 := []
  pc : W64 := 0
  mode : Mode := .u
  /-- key 32 × register + lane -/
  v : Tab W32 := []
  window : Nat := 64
  /-- m1 to m7 -/
  m : Tab W32 := []
  /-- the mask-stack entries held in hardware, top first (R40) -/
  stack : List MaskEntry := []
  depth : Nat := 0
  att : Attach := {}
  attS : Attach := {}
  attM : Attach := {}
  attU : Attach := {}
  /-- attachment of the interrupted program while the shadow context runs (R278) -/
  attP : Attach := {}
  /-- the instruction at the pc has been matched and issues without being matched again (R278) -/
  passed : Bool := false
  fflags : BitVec 5 := 0
  frm : BitVec 3 := 0
  ftz : Bool := false
  uitvec : W64 := 0
  uiepc : W64 := 0
  ucTag : Byte := 0
  ucPrio : BitVec 2 := 0
  uie : Bool := true
  sbase : W64 := 0
  sshift : BitVec 6 := 0
  coord : W64 := 0
  launchAddr : W64 := 0
  tag : Nat := 0
  windex : Nat := 0
  wdepth : Nat := 0
  oplogidx : Nat := 0
  pcmsel : Nat := 0
  pcmdat : Tab W64 := []
  pcmHnd : W64 := 0
  inShadow : Bool := false
  shadowX : Tab W64 := []
  shadowPc : W64 := 0
  csr : Csrs
  instret : W64 := 0
  tcmBase : Nat := 0
  tcmSize : Nat := 0
  /-- outstanding operations, oldest first -/
  ops : List PendOp := []
  /-- operand log, keyed by entry 0 to 7 -/
  oplog : Tab LogEntry := []
  nextOrder : Nat := 0
  /-- engine commands of the hart that are outstanding (R83, R235) -/
  engFlags : List EngRef := []
  reservation : Option Reservation := none
  /-- scope of the release in progress (R213) -/
  rel : Option Nat := none
  /-- unpublished stores of other harts read since the last `fence.sc`: hart and location (R216) -/
  scReads : List (Nat × Loc) := []
  /-- instruction lines as the hart's fetch holds them, keyed by line (R88, R143) -/
  icache : Tab (List Byte) := []
  /-- stores of harts that had taken effect at its start or its last `fence.i`, by the count of `State.writes`, and its own
  unpublished stores before that `fence.i`, by fetch key (R88) -/
  fenceSeq : Nat := 0
  fetchOwn : Tab Byte := []
  /-- `wctl.quota` of a tinker, which has no world that it could bound (R44) -/
  wquota : Nat := 0
  /-- its next store or atomic needs an overlay page that the quota does not give (R214) -/
  noSpace : Bool := false
  /-- the engine commands of its instruction that waits for queue entries, as they were read at issue (R235) -/
  queued : List EngCmd := []
  role : BitVec 2 := 0
  wait : Wait := {}
  /-- barrier arrivals whose `bar.sync` still waits: pc, object address, token (R34, R186) -/
  arrivals : List (W64 × W64 × Nat) := []
  /-- cycle at which a `pause` interval ends, and its length -/
  pauseEnd : Nat := 0
  pauseLen : Nat := 0
  /-- lengths of the intervals that traps into S mode, traps into M mode and user interrupts have cut off, 0 for none, the latest first; an
  interval begins anew at the return from its trap (R34) -/
  pauseS : List Nat := []
  pauseM : List Nat := []
  pauseU : List Nat := []
  estat : BitVec 5 := 0
  streams : Tab Stream := []
  fork : Option Fork := none
  dbg : Dbg := {}
  lastIssue : Nat := 0
  /-- the sender whose message started the handler, or interrupted the hart, and the clk of it (R381) -/
  taken : Option (Nat × Nat) := none
  /-- tinker between handlers (R195) -/
  idle : Bool := false
  /-- sequence number of the fault record that a standard access or fetch awaits the verdict of (R326), whether the verdict was
  UNRESOLVABLE, and the pc, the address and whether it is a fetch -/
  heldSeq : Option Nat := none
  heldBad : Bool := false
  heldFor : W64 × W64 × Bool := (0, 0, false)
  /-- what a target module answered to a standard access through the domain window, and the request's sequence number (R395) -/
  winAnswer : Option (WindowReply × Nat) := none
  deriving DecidableEq, Repr

/-! ### Cores and clusters -/

/-- A TLB entry (R316): context, level (0 for 4 KiB to 4 for 256 TiB), virtual and physical page numbers in units of
4 KiB, permissions, dirty bit, kind, placement field, and the slice of a first-touch page. -/
structure TlbEntry where
  pasid : Nat
  level : Nat
  vpn : Nat
  ppn : Nat
  r : Bool
  w : Bool
  x : Bool
  u : Bool
  d : Bool
  host : Bool
  pmode : Nat
  pidx : Nat
  slice : Option Nat
  deriving DecidableEq, Repr

/-- A line held in a core's L1, keyed by tag × 2^40 + line, with its read count, 0 for none (R149, R155, R296). -/
structure L1Line where
  line : Nat
  count : Nat := 0
  /-- the core owns the line (state 10 of R223), and the atomics that it has performed on it since (R228) -/
  owned : Bool := false
  atomics : Nat := 0
  deriving DecidableEq, Repr

/-- A byte performed at its core and not published (R209): hart, world tag, location, value; `evicted` when the line went
to the L2 as pending (R214). -/
structure Unpub where
  hart : Nat
  tag : Nat
  loc : Loc
  byte : Byte
  evicted : Bool := false
  deriving DecidableEq, Repr

/-! ### Debug modules and cores -/

/-- The debug module of a core (R372, R373): what its registers hold, by the names of the debug specification, and the halts,
resumptions and command that it has asked for and that have not happened (log 22). -/
structure Dm where
  active : Bool := false
  hartsel : Nat := 0
  hasel : Bool := false
  hawindow : Nat := 0
  /-- data0 and data1 -/
  data : W64 := 0
  cmderr : Nat := 0
  progbuf : List W32 := []
  /-- hart slots -/
  halts : List Nat := []
  resumes : List Nat := []
  acks : List Nat := []
  command : Option W32 := none
  deriving DecidableEq, Repr

/-- A virtual page of which a core's request met MOVED: context, virtual page, the physical page that refused, and the harts whose
requests wait for the new leaf with the instructions that made them, in their order (R232). -/
structure HeldPage where
  pasid : Nat
  vpn : Nat
  page : Nat
  harts : List (Nat × W64) := []
  deriving DecidableEq, Repr

/-- A core. -/
structure Core where
  tcm : Memory := []
  lid : Memory := []
  acc : Memory := []
  l1 : List L1Line := []
  /-- bytes of held lines as the copy holds them, where the home has ordered newer ones (R212, R215) -/
  old : Tab Byte := []
  unpub : List Unpub := []
  /-- deferred invalidations: lines, oldest first, at most 64 (R226) -/
  defer : List Nat := []
  /-- contention predictor: 64 two-bit counters (R228) -/
  predictor : Tab Nat := []
  l1tlb : List TlbEntry := []
  /-- the context that holds the core, by PASID; the last holder when none does (R43, R146) -/
  holder : Option Nat := none
  faultSeq : Nat := 1
  /-- virtual pages of which a request met MOVED (R232) -/
  held : List HeldPage := []
  /-- the nine gate fields (R279) -/
  gate : Tab W64 := []
  /-- messages in the inbox, in order of arrival (R194) -/
  inbox : List Msg := []
  /-- the RW fields of the tag table (R193) -/
  tags : Tab W64 := []
  /-- record offsets in the ready ring, oldest first (R202) -/
  ring : List Nat := []
  /-- appended offsets whose user interrupt has not been delivered (R202) -/
  ringInts : Nat := 0
  /-- harts that wait on a claim, in issue order (R204) -/
  claims : List Nat := []
  /-- harts that wait on a stage queue, in the order in which they began to wait, with the header and whether they push
  (R189) -/
  queueWait : List (Nat × Loc × Bool) := []
  /-- the last queue headers named, newest first (R190) -/
  queues : List Loc := []
  /-- engine queue in ticket order (R252), array queue by ticket (R256), count of commands accepted (R236), harts that
  wait for an entry -/
  engine : List EngCmd := []
  array : List Nat := []
  tickets : Nat := 0
  engineWait : List Nat := []
  /-- scale cache: base address and containers (R245) -/
  scaleBase : W64 := 0
  scales : List Nat := []
  /-- the cycles at which the lane issue pipes that are held become free (R30, R96) -/
  pipes : List Nat := []
  dm : Dm := {}
  deriving DecidableEq, Repr

/-- A cluster. -/
structure Cluster where
  scratch : Memory := []
  tlb : List TlbEntry := []
  /-- the context the cluster serves, by PASID (R14) -/
  ctx : Option Nat := none
  /-- requester-side copies: line and the mask of cores that read through it (R150, R227) -/
  copies : Tab Nat := []
  /-- bytes of those copies where the home has ordered newer ones -/
  old : Tab Byte := []
  deriving DecidableEq, Repr

/-! ### Memory beyond the caches -/

/-- A world's version of a line: all 128 bytes (R296). -/
structure Version where
  tag : Nat
  line : Nat
  bytes : List Byte
  deriving DecidableEq, Repr

/-- A directory entry (R223): 0 uncached, 1 shared, 2 owned, 3 coarse; pointers (a core, or 4,096 + a slice), and in state
3 the mesh rows marked, row r of C-die d as 8 × d + r. -/
structure DirEntry where
  /-- home slice of the line (R153) -/
  slice : Nat := 0
  st : Nat := 0
  ptrs : List Nat := []
  rows : List Nat := []
  deriving DecidableEq, Repr

/-- An invalidation tracker (R225, R226): the slice, the line with its tag, the harts whose stores the ordering step published,
the clusters that the invalidation has not reached, and those that have not acknowledged. -/
structure Tracker where
  slice : Nat
  line : Nat
  tag : Nat
  harts : List Nat
  sent : List Nat
  unacked : List Nat
  /-- harts that have read the line while its publication was not complete (R216) -/
  readers : List Nat := []
  /-- order in which the trackers in use were taken: a slice's invalidations to one cluster arrive in it (R226) -/
  order : Nat := 0
  deriving DecidableEq, Repr

/-- State of a world (R294). -/
inductive WorldState where
  | free | running | sealed | finished | ending
  deriving DecidableEq, Repr

/-- An address translation request on a host link that has not been answered (R318): link, context, page, the core that asked, and
for whom (`askerOf`). -/
structure AtsReq where
  link : Nat
  pasid : Nat
  vpn : Nat
  core : Nat
  asker : Nat
  deriving DecidableEq, Repr

/-- A host queue (R359, R360): the control queue, whose status block `cstat` names, or a user queue. -/
structure HostQueue where
  bound : Bool := false
  pasid : Nat := 0
  vector : Nat := 0
  /-- host address of its status block, 0 for none -/
  status : Nat := 0
  applied : W64 := 0
  ldone : W64 := 0
  count : Nat := 0
  /-- 0 running, 1 unbound, 2 context killed -/
  qstate : Nat := 0
  /-- op code of the last applied chain -/
  lop : Nat := 0
  /-- chains taken whose effect or reply waits, oldest first; those behind the first wait for it (R359) -/
  chains : List Chain := []
  /-- the first of them has taken its effect, and its reply waits -/
  begun : Bool := false
  /-- the device's copy of a rejected launch record whose completion record waits (R21) -/
  kept : List Byte := []
  /-- host address of its packed descriptor ring, 0 for none, and of the driver's event suppression structure, 0 for none; its size, the
  place of the next used descriptor, and the wrap counter that it carries (R356) -/
  ring : Nat := 0
  driver : Nat := 0
  size : Nat := 4096
  used : Nat := 0
  wrap : Bool := true
  deriving DecidableEq, Repr

/-- A page request that has been sent to the host (R325): context, hart and log entry, 8 for a standard access or fetch, the sequence number
of the fault record that it is for, and its page; retired when the context was killed before the answer came. -/
structure PageReq where
  pasid : Nat
  hart : Nat
  entry : Nat
  seq : Nat
  vpn : Nat
  retired : Bool := false
  deriving DecidableEq, Repr

/-- An interrupt vector of a host link (R363). -/
structure Vector where
  count : Nat := 1
  timer : Nat := 0
  n : Nat := 0
  /-- tick of the first addition -/
  start : Nat := 0
  masked : Bool := false
  pending : Bool := false
  deriving DecidableEq, Repr

/-- An event for the host (R364). -/
structure HostEvent where
  kind : Nat
  tick : Nat
  body : List Byte
  deriving DecidableEq, Repr

/-- The virtio function of a host link (R356 to R364), keyed by link. -/
structure HostFn where
  /-- feature bits accepted, and what the status register shows of FEATURES_OK -/
  features : Nat := 0
  featuresOk : Bool := false
  /-- device status bit DEVICE_NEEDS_RESET -/
  needsReset : Bool := false
  /-- keyed by queue number, 0 for the control queue -/
  queues : Tab HostQueue := []
  vectors : Tab Vector := []
  /-- events that wait for a driver buffer, and the count of those discarded since the last was written -/
  events : List HostEvent := []
  lost : Nat := 0
  /-- notifications received by queue, and accesses of the notification pages that were ignored (R362) -/
  notified : Tab Nat := []
  ignored : Nat := 0
  /-- page requests are stopped (R325) -/
  priStopped : Bool := false
  /-- page requests that the host has not answered, keyed by group index 0 to 511 (R325) -/
  groups : Tab PageReq := []
  /-- transactions discarded since the last event 7 (R390) -/
  discarded : Nat := 0
  /-- the link is in the IDE insecure state (R390) -/
  insecure : Bool := false
  /-- vectors whose message has been sent, oldest first -/
  sent : List Nat := []
  deriving DecidableEq, Repr

/-- A gang switch of the module (R287, R288, R347 to R350), keyed by gang. -/
structure GangSwitch where
  /-- state of R288 -/
  st : Nat := 0
  next : Nat := 0
  tick : Nat := 0
  area : Nat := 0
  pages : Nat := 0
  late : Nat := 0
  /-- records: port, distance, flags, packet (R349) -/
  records : List (Nat × Nat × Nat × Packet) := []
  lates : Nat := 0
  /-- tick at which the closing wave was done, and whether the `late` ticks after it have passed -/
  swept : Nat := 0
  closed : Bool := false
  /-- the tinker that armed it -/
  tinker : Nat := 0
  /-- contexts of the gang are switched out, and new traffic of the gang is held back (R288); some have not been saved yet -/
  out : Bool := false
  leaving : Bool := false
  deriving DecidableEq, Repr

/-- A Wale switch as the module's links meet it (R368): the gangs armed with their ticks, and the packets it has diverted
and its closing-wave flits. -/
structure WaleSwitch where
  armed : List (Nat × Nat) := []
  diverted : List Packet := []
  deriving DecidableEq, Repr

/-- A world entry (R294). -/
structure World where
  parent : Nat := 0
  index : Nat := 0
  depth : Nat := 0
  state : WorldState := .free
  kids : Nat := 0
  quota : Nat := 0
  /-- virtual pages of which the world holds a version (R290) -/
  pages : List Nat := []
  log : List LogRec := []
  pasid : Nat := 0
  logbase : Nat := 0
  /-- the launch copy that runs in it -/
  launch : Nat := 0
  deriving DecidableEq, Repr

/-- What a core that a context has left held of it (R43, R146, R196, R343, R396): the core's own state, its handler harts,
and the messages in its outbox. -/
structure Away where
  core : Nat
  unit : Core
  harts : List (Nat × Hart)
  outbox : List Msg
  /-- the place of its bytes in the standing save area, and their number, 0 for none (R343, R344) -/
  area : Nat := 0
  size : Nat := 0
  deriving DecidableEq, Repr

/-- A context (R285, R286): what the context block sets, and what else the device keeps for it. -/
structure Context where
  root : W64 := 0
  policy : W64 := 8
  froute : W64 := 0
  gang : Nat := 0
  cap : Nat := 0
  domain : W64 := 0
  ovbase : Nat := 0
  ovpages : Nat := 0
  svbase : Nat := 0
  svpages : Nat := 0
  /-- profile block, six words (R378) -/
  profile : Tab W64 := []
  /-- placement table: word w of entry n at key 4 × n + w (R152) -/
  ptab : Tab W64 := []
  bound : Bool := false
  /-- memory-arithmetic flag word (R173) -/
  maf : BitVec 5 := 0
  /-- overlay quota and pages of the root world (R44, R294, R303) -/
  quota : Nat := 0
  pages : List Nat := []
  /-- host link that carries the context's queues (R356) -/
  link : Nat := 0
  /-- measurement of the context, and the code pages measured (R384) -/
  cmeas : List Byte := []
  measured : List Nat := []
  /-- the context exists: CTXNEW has made it -/
  made : Bool := false
  killed : Bool := false
  /-- encryption key, by its draw from Hallmark (R389) -/
  keyDraw : Nat := 0
  /-- physical pages that its key covered, once the key is destroyed (R389) -/
  shredded : Bool := false
  /-- what each core that it left held of it -/
  away : List Away := []
  /-- it is switched out with its gang, or saved whole by `ctx.save` -/
  out : Bool := false
  /-- device physical address of the block bound last (R286) -/
  block : Nat := 0
  deriving DecidableEq, Repr

/-! ### Launches -/

/-- A launch record (R19). -/
structure LaunchRec where
  cohorts : Nat
  entry : W64
  blocks : Nat
  harts : Nat
  prio : Nat
  world : Nat
  tickets : Nat
  stages : W64
  windows : List Nat
  scratch : Nat
  tcm : Nat
  args : W64
  done : W64
  seq : W64
  deriving DecidableEq, Repr

/-- A placed block (R14, R27): its harts by hart-in-block, its cluster and scratchpad offset. -/
structure Block where
  harts : List Nat
  cluster : Nat
  scratchBase : Nat
  retired : Bool := false
  deriving DecidableEq, Repr

/-- Life of a placed cohort (R24): its blocks change state together; a halted block is told by its halted harts. -/
inductive Phase where
  | placed | resident | saving | swapped | returning | retired
  deriving DecidableEq, Repr

/-- What a swap saves of a cohort (R344, R345): its harts, the bytes of its TCM and scratchpad allocations with the core
or cluster they lie in, and its unpublished stores to scratchpad. Its engine commands and its other unpublished stores stay with its
cores, under numbers of their own (`swapId`). -/
structure Saved where
  harts : List (Nat × Hart) := []
  tcm : List (Nat × Memory) := []
  scratch : List (Nat × Memory) := []
  unpub : List (Nat × List Unpub) := []
  /-- the save area, its bytes and the digest written there -/
  area : Nat := 0
  size : Nat := 0
  digest : List Byte := []
  deriving DecidableEq, Repr

/-- A placed cohort. -/
structure Cohort where
  blocks : List Block
  phase : Phase := .placed
  /-- cycle at which it became resident last, or was swapped, and that at which its quantum began -/
  since : Nat := 0
  quantum : Nat := 0
  /-- order of its placing among all cohorts of the module -/
  placing : Nat := 0
  /-- die, row, column, height and width of its rectangle (R339) -/
  rect : Nat × Nat × Nat × Nat × Nat := (0, 0, 0, 0, 0)
  saved : Option Saved := none
  /-- saved by `ctx.save` alone, and returns by `ctx.load` (R284) -/
  parked : Bool := false
  /-- swapped at the end of a quantum, for another cohort of its launch (R340) -/
  rotating : Bool := false
  /-- swapped with its gang or its whole context, and returns with it (R347, R284) -/
  ganged : Bool := false
  /-- swapped at the end of a quantum for a client of another launch (R340) -/
  ceded : Bool := false
  deriving DecidableEq, Repr

/-- A launch taken from a queue, or a launch copy of a `w.fork` (R20, R272). -/
structure Launch where
  record : LaunchRec
  addr : W64
  pasid : Nat
  /-- virtio queue it came from; none for a forked copy -/
  queue : Option Nat
  /-- first tick at which it may start: the first launch waits for the tick after it was taken (R385) -/
  earliest : Nat := 0
  /-- hart that forked it, the forking launch, and the world it runs in -/
  forker : Option Nat := none
  parent : Option Nat := none
  /-- queue number by which the arbiter breaks ties: a copy has its root launch's (R337) -/
  tie : Nat := 0
  /-- status of its completion record: 0 DONE, 1 INVALID, 2 KILLED, 3 DUPLICATE (R23) -/
  status : Nat := 0
  tag : Nat := 0
  windex : Nat := 0
  wdepth : Nat := 0
  /-- cohorts placed at some time, by number -/
  cohorts : Tab Cohort := []
  /-- number of the next cohort to place for the first time -/
  next : Nat := 0
  retired : Nat := 0
  startTick : Nat := 0
  /-- a hart of it has issued, and a cohort of it has been resident -/
  issued : Bool := false
  started : Bool := false
  /-- completion record or status written -/
  ended : Bool := false
  /-- it is the arbiter's client, with the stride pass that it has (R337) -/
  joined : Bool := false
  pass : Nat := 0
  /-- aging has raised it to class 3 (R342) -/
  aged : Bool := false
  /-- tick of its last grant, or of its joining -/
  granted : Nat := 0
  deriving DecidableEq, Repr

/-! ### The module -/

/-- What a step of the device with no operand of its own acts on, besides the hart `State.cur`: a unit (a core, cluster,
link or client), an item of it (a ticket, entry, line or tag) and a code. -/
structure Focus where
  unit : Nat := 0
  item : Nat := 0
  code : Nat := 0
  deriving DecidableEq, Repr

/-- The module's place in a Wale domain (R359, R366): domain size in modules, 0 for none. -/
structure Domain where
  size : Nat := 0
  module : Nat := 0
  ident : Nat := 0
  /-- the last tick that has closed on the module (R216) -/
  closed : Nat := 0
  /-- cycle at which the last heartbeat came, whether it is lost, and the correction that remains (R366) -/
  beat : Nat := 0
  lost : Bool := false
  drift : Int := 0
  /-- the counter has stood still for a clk at this multiple of 4,096 (R366) -/
  slipped : Bool := false
  /-- close reports that the root holds: module and tick (R216) -/
  reports : List (Nat × Nat) := []
  deriving DecidableEq, Repr

/-- A request of another module whose page has failed here: the core and sequence number of its fault record, and the verdict once it has
come, true for UNRESOLVABLE (R324, R395); or one that `g.resume` has brought back, which comes to its turn as one whose page is there
(R352). -/
structure WinWait where
  req : WindowReq
  core : Nat
  seq : Nat
  bad : Option Bool := none
  deriving DecidableEq, Repr

/-- The trace encoder of a core for a context (R379, R380): `tbase` and the profile word of `tsize` under which it runs; how many records it
has written, and whether its full slice has stopped it; whether it follows the hart, the placing in which it does, where it expects the
hart's next instruction, and the last one; the branches, taken or not, and the bytes of packets that it holds back. -/
structure Encoder where
  area : W64 × W64 := (0, 0)
  place : Nat := 0
  stopped : Bool := false
  synced : Bool := false
  placing : Option Nat := none
  expect : W64 := 0
  last : W64 := 0
  branches : List Bool := []
  buf : List Byte := []
  deriving DecidableEq, Repr

/-- A request of `ctx.save` or `ctx.load` that has not completed (R283). -/
structure CtxRequest where
  load : Bool
  /-- the tinker that asked -/
  tinker : Nat
  whole : Bool
  core : Nat
  pasid : Nat
  area : Nat
  limit : Nat
  done : W64
  /-- what makes it BUSY held when it was accepted -/
  busy : Bool
  /-- the cohorts that it is saving, by launch and number, once it has told them to stop -/
  begun : Option (List (Nat × Nat)) := none
  deriving DecidableEq, Repr

/-- What a save area of `ctx.save` holds (R343, R344): the context, its gang, the cohorts saved by launch and number, the
context's core state where it was saved whole, the digest and the bytes used. -/
structure SaveArea where
  pasid : Nat
  gang : Nat
  whole : Bool
  cohorts : List (Nat × Nat)
  cores : List Nat
  digest : List Byte
  used : Nat
  deriving DecidableEq, Repr

/-- Hallmark and the boot (R383 to R387). -/
structure Hallmark where
  meas : List (List Byte) := []
  /-- boot steps of R385 that are done, and whether a verification failed -/
  step : Nat := 0
  failed : Bool := false
  /-- the last SPDM response -/
  response : List Byte := []
  deriving DecidableEq, Repr

/-- Thermal state of a C-die (R392). -/
structure Thermal where
  st : Nat := 0
  /-- ticks in a row below both recovery limits -/
  cool : Nat := 0
  deriving DecidableEq, Repr

/-- A step that the environment makes happen: a step of the device, the hart it concerns and what it acts on; with no
step named, the issue arbiter chooses that hart. -/
structure Event where
  hart : Nat := 0
  focus : Focus := {}
  step : Option Instr := none
  deriving DecidableEq, Repr

/-- The state of a module. -/
structure State where
  /-- what the environment makes happen next (log 2) -/
  agenda : List Event
  /-- the device cycle counter (R8) -/
  cycle : Nat
  /-- the hart that the step under way concerns (log 2) -/
  cur : Nat
  focus : Focus
  /-- numbers the free values drawn so far (log 3) -/
  freeCtr : Nat
  /-- the step under way took a synchronous trap (R48) -/
  trapped : Bool
  /-- contexts that the monitor is to kill at the end of the step, with the reason of R364 (R47) -/
  doomed : List (Nat × Nat)
  domain : Domain
  /-- packets of the module that wait in its Wale ports to leave (R366), and the next `fseq` of each flow, keyed by
  destination module × 2^24 + destination core × 2^12 + source core, with the virtual channel × 2^34 added (R349) -/
  wale : List Packet
  flows : Tab Nat
  /-- messages placed in outboxes and not yet arrived, in order of placing (R192) -/
  net : List Msg
  /-- remote messages that have left by a Wale port and whose reply words have not come back (R199) -/
  awaited : List Msg
  ats : List AtsReq
  /-- pages for which an ATS answer said why they are not translated: who asked, context, page, reason of R323 -/
  atsBad : List (Nat × Nat × Nat × Nat)
  fns : Tab HostFn
  gangs : Tab GangSwitch
  harts : Tab Hart
  cores : Tab Core
  clusters : Tab Cluster
  hbm : Memory
  hostMem : Memory
  /-- versions of lines under the tags of worlds (R296) -/
  vers : List Version
  /-- directory, keyed by tag × 2^40 + line (R223) -/
  dir : Tab DirEntry
  trackers : Tab Tracker
  /-- pages marked migrating, and the new page of each that has been copied (R231) -/
  migrating : List Nat
  moves : Tab Nat
  /-- bytes that harts have stored, with a number that counts them, the fetch key of the byte and what it was before: those of
  which some hart's fetch may still see the earlier byte; and the count (R88) -/
  written : List (Nat × Nat × Byte)
  writes : Nat
  worlds : Tab World
  ctxs : Tab Context
  launches : Tab Launch
  /-- number of the next launch, and of the next placing -/
  nextLaunch : Nat
  placings : Nat
  /-- the scheduling word (R336), a word written that takes effect at a tick (R358), and V(c) by class (R337) -/
  sched : W64
  schedNext : Option (Nat × W64)
  floors : Tab Nat
  requests : List CtxRequest
  saves : Tab SaveArea
  switches : Tab WaleSwitch
  hallmark : Hallmark
  dies : Tab Thermal
  /-- corrected errors by place (R330) and pages retired -/
  corrected : Tab Nat
  retired : List Nat
  /-- byte ranges of HBM, start and length, whose key has been destroyed and that nothing has written since (R389) -/
  lost : List (Nat × Nat)
  /-- lines that the host may cache, those for which a back-invalidation snoop is out, and the last HDM read (R365) -/
  hostLines : List Nat
  snoops : List Nat
  /-- translated stores and atomics of other modules that the module's ports hold until they are confirmed (R395) -/
  winHeld : List (WindowReq × Loc)
  /-- requests of other modules that await the verdict on their page (R395) -/
  winWaits : List WinWait
  hdmRead : List Byte
  /-- trap vectors of the shim and the boot monitor, which boot loads into every core (R385) -/
  shimVec : W64
  monitorVec : W64
  /-- trace encoders, by core + 4,096 × context (R379, R380) -/
  traces : Tab Encoder
  deriving DecidableEq, Repr

/-! ### Reset -/

/-- CSRs of a hart at its start: `medeleg` and `scounteren` as R47 and R89 say; the rest zero (log 6). -/
def Csrs.start : Csrs :=
  { mstatus := 0xA00000000, medeleg := 0xFF00B1FF, mideleg := 0x222, mie := 0, mip := 0, mtvec := 0, mscratch := 0, mepc := 0
    mcause := 0, mtval := 0, mcounteren := 7, stvec := 0, sscratch := 0, sepc := 0, scause := 0, stval := 0
    scounteren := 7, satp := 0 }

/-- An empty hart slot. -/
def Hart.vacant : Hart := { csr := Csrs.start }

/-- The module right after reset (R385). -/
def State.reset : State :=
  { agenda := [], cycle := 0, cur := 0, focus := {}, freeCtr := 0, trapped := false, doomed := [], domain := {}, wale := [], flows := []
    net := [], awaited := [], ats := [], atsBad := [], fns := [], gangs := []
    harts := [], cores := []
    clusters := [], hbm := [], hostMem := []
    vers := [], dir := [], trackers := [], migrating := [], moves := [], written := [], writes := 0, worlds := [], ctxs := [], launches := []
    nextLaunch := 0, placings := 0, sched := 0x400000400400, schedNext := none, floors := [], requests := [], saves := []
    switches := [], hallmark := { meas := List.replicate 8 (List.replicate 32 0) }, dies := [], corrected := [], retired := [], lost := []
    hostLines := [], snoops := [], winHeld := [], winWaits := [], hdmRead := [], shimVec := 0, monitorVec := 0, traces := [] }

/-! ### Stops -/

/-- Why the machine stops with a fault. -/
inductive Fault where
  /-- raised by `step` when the environment's agenda names an instruction of a hart, which only a fetch can issue; safe:
  no device does this -/
  | agendaNotAnEvent
  deriving DecidableEq, Repr

/-- Why the machine gives no meaning. -/
inductive Refusal where
  /-- raised by `exec` for a row that the model does not give a meaning; safe: nothing is claimed of it -/
  | notModelled (mnemonic : String)
  deriving DecidableEq, Repr

end Sys2Proof.Machine
end

