-- ==== Sys2Proof/WellFormed.lean ====
section
/-! DEFINITION. Which operands each instruction admits. One `Row` per Osier instruction states its cell of the opcode
map and the field rules of its entry (R77 to R81, R86, R91, R92, R118, R159, R160, R180, R181, R233, R234, R268, R269);
`Instr.wf` checks an instruction against its row. -/

namespace Sys2Proof

/-- The four Osier majors (R76). -/
inductive Major where
  | lane | mem | ctrl | sys
  deriving DecidableEq, Repr

/-- Bits [6:0] of word 0 (R76). -/
def Major.code : Major → BitVec 7
  | .lane => 0x0B
  | .mem => 0x2B
  | .ctrl => 0x5B
  | .sys => 0x7B

/-- What a field of word 0 names (R77): nothing, a fixed code, a lane register, the even register of a lane pair, a
scalar register, the even register of a descriptor pair, a mask, a mask that may be written (R38), a tile, six plain
bits, or a signed immediate that moves to word 2 in the extended form. -/
inductive Kind where
  | zero
  | is (n : Nat)
  | v
  | vEven
  | x
  | xEven
  | m
  | mDst
  | tile
  | bits
  | imm
  deriving DecidableEq, Repr

/-- What word 2 holds: nothing, 32 free bits, a lane register, or the even register of a lane pair (R77, R78). -/
inductive W2Kind where
  | zero
  | any
  | reg
  | regEven
  deriving DecidableEq, Repr

/-- The field rules of one instruction; they may depend on its `xop`, type and form. -/
structure Row where
  major : Major
  minor : Nat
  /-- values of `xop` that name this instruction -/
  xops : List Nat := [0]
  /-- has a one-word form -/
  one : Bool := false
  /-- accepts the literal form LEN 01 (R81) -/
  lit : Bool := false
  /-- accepts LEN 11 -/
  extLit : Bool := false
  d : Kind := .zero
  a : Kind := .zero
  b : Kind := .zero
  w2 : W2Kind := .zero
  /-- values of `c.type` accepted -/
  types : List Nat := [0]
  /-- values of `c.rsc` accepted in an extended form -/
  rscs : List Nat := [0]
  sat : Bool := false
  ords : List Nat := [0]
  /-- accepts a predicate -/
  pred : Bool := false
  /-- any further limit of the entry -/
  also : Bool := true
  deriving DecidableEq, Repr

namespace Args

/-- The b immediate of R77: the signed 6-bit field in the one-word form, word 2 in an extended form. -/
def imm (o : Args) : W32 := if o.form = .one then (o.b.setWidth 6).signExtend 32 else o.w2

/-- Does the instruction carry a literal? -/
def hasLit (o : Args) : Bool := o.form == .lit || o.form == .extLit

/-- The number of words (R75). -/
def words (o : Args) : Nat :=
  match o.form with
  | .one => 1
  | .lit => 3
  | .ext => 3
  | .extLit => 5

/-- The fields of an extended word that the form does not carry are zero (R75, R81). -/
def formOk (o : Args) : Bool :=
  match o.form with
  | .one => o.d < 64 && o.a < 64 && o.b < 64 && o.ty == 0 && o.rsc == 0 && !o.sat && o.pm == 0 && !o.pinv && o.ord == 0 && o.xop == 0 && o.w2 == 0 && o.lit == 0
  | .lit => o.d < 64 && o.a < 64 && o.b < 64 && o.ty == 0 && o.rsc == 0 && !o.sat && o.pm == 0 && !o.pinv && o.ord == 0 && o.xop == 1 && o.w2 == 0
  | .ext => o.lit == 0
  | .extLit => true

end Args

/-- Does a value of a field keep to what the field names (R77)? -/
def Kind.ok (k : Kind) (form : Form) (f : BitVec 8) : Bool :=
  match k with
  | .zero => f == 0
  | .is n => f.toNat == n
  | .v => true
  | .vEven => f.toNat % 2 == 0
  | .x => f < 32
  | .xEven => f < 32 && f.toNat % 2 == 0
  | .m => f < 8
  | .mDst => f < 8 && f != 0
  | .tile => f < 8
  | .bits => f < 64
  | .imm => if form = .one then f < 64 else f == 0

/-- Does word 2 keep to what it holds? -/
def W2Kind.ok (k : W2Kind) (w : W32) : Bool :=
  match k with
  | .zero => w == 0
  | .any => true
  | .reg => w.toNat < 256
  | .regEven => w.toNat < 256 && w.toNat % 2 == 0

/-- Every field rule of an instruction's row (R87 lists the breaches). -/
def Row.ok (r : Row) (o : Args) : Bool :=
  o.formOk
  && (match o.form with
      | .one => r.one
      | .lit => r.lit
      | .ext => true
      | .extLit => r.extLit)
  && r.xops.contains o.xop.toNat
  && r.d.ok o.form o.d && r.a.ok o.form o.a && r.b.ok o.form o.b
  && r.w2.ok o.w2
  && r.types.contains o.ty.toNat
  && (o.form == .one || o.form == .lit || r.rscs.contains o.rsc.toNat)
  && (r.sat || !o.sat)
  && r.ords.contains o.ord.toNat
  && (if r.pred then o.pm != 0 || !o.pinv else o.pm == 0 && !o.pinv)
  && r.also

namespace Rows

/-- `c.rsc` codes of an instruction that rounds (R78, R92). -/
def rounds : List Nat := [0, 1, 2, 3, 4, 7]
/-- The integer types of lanes with `.i32` the default (R91). -/
def ints : List Nat := [0, 5, 6, 3, 4, 1, 2]
/-- The float types of lanes with `.f32` the default. -/
def floats : List Nat := [0, 7, 8, 9]
/-- Types of lane loads and stores (R159). -/
def memTypes : List Nat := [0, 5, 6, 7, 3, 4, 8, 9, 1, 2, 10, 11]
/-- Types of uniform loads and stores (R159). -/
def uniTypes : List Nat := [0, 5, 6, 3, 4, 1, 2]
/-- Scopes of a MEM instruction: named only with an ordering (R160). -/
def memScopes (o : Args) : List Nat := if o.ord = 0 then [0] else [0, 1, 2, 3, 4, 5]

/-- Width in bits of an element type code (R51, R53); 0 where the code has none. -/
def typeBits (t : Nat) : Nat :=
  if t = 1 ∨ t = 2 ∨ t = 10 ∨ t = 11 then 8
  else if t = 3 ∨ t = 4 ∨ t = 8 ∨ t = 9 then 16
  else if t = 5 ∨ t = 6 ∨ t = 7 then 32
  else if t = 12 then 4 else 0

/-- A lane operation with two sources, the second a register (`x0`) or the word-2 immediate (`x0 + 1`) (R91, R93). -/
def lane2 (o : Args) (minor : Nat) (types : List Nat) (sat : Bool) (rscs : List Nat := [0]) : Row :=
  { major := .lane, minor, xops := [0, 1], one := true, d := .v, a := .v,
    b := if o.xop = 1 then .zero else .v, w2 := if o.xop = 1 then .any else .zero, types, sat, rscs, pred := true }

/-- An extended-only lane operation with three register operands. -/
def lane3 (minor xop : Nat) (types : List Nat := [0]) (sat : Bool := false) (rscs : List Nat := [0]) : Row :=
  { major := .lane, minor, xops := [xop], d := .v, a := .v, b := .v, types, sat, rscs, pred := true }

/-- A one-source lane function whose code stands in b (R104, R117). -/
def laneFn (minor fn : Nat) (types : List Nat := [0]) (sat : Bool := false) (rscs : List Nat := [0]) : Row :=
  { major := .lane, minor, one := true, d := .v, a := .v, b := .is fn, types, sat, rscs, pred := true }

/-- A lane compare with condition `c` (R105). -/
def cmp (o : Args) (c : Nat) (types : List Nat) : Row :=
  { major := .lane, minor := 20, xops := [c, c + 8], one := c == 0, d := .mDst, a := .v,
    b := if o.xop.toNat = c then .v else .zero, w2 := if o.xop.toNat = c then .zero else .any, types, pred := true }

/-- A lane shift of position by word 2, 0 to 31 (R110). -/
def slide (o : Args) (xop : Nat) : Row :=
  { major := .lane, minor := 24, xops := [xop], d := .v, a := .v, w2 := .any, pred := true, also := o.w2 < 32 }

/-- A vote or reduction: lanes of a into x[d] (R112, R114). -/
def toX (minor xop : Nat) (types : List Nat := [0]) (sat : Bool := false) (rscs : List Nat := [0]) : Row :=
  { major := .lane, minor, xops := [xop], one := xop == 0, d := .x, a := .v, types, sat, rscs, pred := true }

/-- Is a type code `.f32`? -/
def isF32 (o : Args) : Bool := o.ty == 7

/-- Source and destination type codes of `vcvt` with the defaults of R107. -/
def cvtTypes (o : Args) : Nat × Nat :=
  (if o.xop = 0 then 5 else o.xop.toNat, if o.ty = 0 then 7 else o.ty.toNat)

/-- Is every value of the source exact in the destination (R107, the pairs that never round)? -/
def neverRounds (src dst : Nat) : Bool :=
  (src ≤ 6 && dst ≤ 6)
  || ((src == 1 || src == 2) && (dst == 7 || dst == 8 || dst == 9))
  || ((src == 3 || src == 4) && dst == 7)
  || ((src == 8 || src == 9 || src == 10 || src == 11 || src == 12) && dst == 7)
  || ((src == 10 || src == 11 || src == 12) && (dst == 8 || dst == 9))
  || (src == 12 && (dst == 10 || dst == 11))

/-- `vcvt` (R107): a pair of different types and a part within the pair's limit. -/
def cvt (o : Args) : Row :=
  let s := (cvtTypes o).1
  let t := (cvtTypes o).2
  let ns := 32 / typeBits s
  let nd := 32 / typeBits t
  { major := .lane, minor := 22, xops := [0, 1, 2, 3, 4, 5, 6, 7, 8, 9, 10, 11, 12], one := true, d := .v, a := .v,
    b := .imm, w2 := .any, types := [0, 1, 2, 3, 4, 5, 6, 7, 8, 9, 10, 11, 12], sat := true, rscs := rounds,
    pred := true, also := s != t && o.imm.toNat < (if ns ≤ nd then nd / ns else ns / nd) }

/-- Limit of `sel` in `vunpk` (R109). -/
def unpkLimit (o : Args) : Nat :=
  let narrow := o.xop.toNat % 16 = 0 ∨ o.xop.toNat % 16 = 12
  if o.ty = 0 ∨ o.ty = 7 then (if narrow then 8 else 4) else (if narrow then 4 else 2)

/-- `vunpk` (R109). -/
def unpk (o : Args) : Row :=
  let x := o.xop.toNat
  { major := .lane, minor := 23, xops := [x], one := true, d := .v, a := .v,
    b := if bitOf x 8 then .zero else .v, types := floats, rscs := rounds, pred := true,
    also := [0, 12, 10, 11, 1, 2].contains (x % 16) && bitsOf x 6 4 < unpkLimit o && x < 512
      && !(bitOf x 8 && bitOf x 7) }

/-- Operation codes of an atomic other than `cas`, 4 and 8 bytes (R170). -/
def atomicOps : List Nat := [0, 1, 2, 3, 4, 5, 6, 7, 8, 10, 11, 12, 16, 17, 18, 19, 20, 21, 22, 23, 24]

/-- Is the atomic an 8-byte form? -/
def wide (o : Args) : Bool := o.xop.toNat / 16 == 1

/-- A lane atomic (R159, R170); the 8-byte forms name register pairs (R37). -/
def lamo (o : Args) (minor : Nat) (ops : List Nat) : Row :=
  let cas := o.xop.toNat % 16 = 9
  { major := .mem, minor, xops := ops, one := ops.contains 0, d := if wide o then .vEven else .v, a := .x, b := .v,
    w2 := if cas then (if wide o then .regEven else .reg) else .any, ords := [0, 1, 2, 3], rscs := memScopes o,
    pred := true, also := o.form != .one || o.w2 == 0 }

/-- A lane load or store (R159). -/
def lmem (o : Args) (minor : Nat) (xops : List Nat) (types : List Nat) (ord : Nat) : Row :=
  { major := .mem, minor, xops, one := xops.contains 0,
    d := if o.xop.toNat = 2 ∨ o.xop.toNat = 3 then .vEven else .v,
    a := if o.xop.toNat % 2 = 1 then .zero else .x, b := if o.xop.toNat % 2 = 1 then .vEven else .v, w2 := .any,
    types, ords := [0, ord], rscs := memScopes o, pred := true }

/-- A uniform load or store (R159, R169). -/
def umem (o : Args) (minor ord : Nat) : Row :=
  { major := .mem, minor, one := true, d := .x, a := .x, b := .imm, w2 := .any, types := uniTypes, ords := [0, ord],
    rscs := memScopes o }

/-- A phase fence with ordering code `ord` (R159, R160). -/
def fenceRow (ord : Nat) : Row := { major := .mem, minor := 10, ords := [ord], rscs := [0, 1, 2, 3, 4, 5] }

/-- A `cctl` function on an address (R178). -/
def cctl (fn : Nat) : Row := { major := .mem, minor := 12, one := true, a := .x, b := .is fn, w2 := .any }

/-- Mask logic (R120). -/
def mlogic (xop : Nat) : Row := { major := .ctrl, minor := 0, xops := [xop], one := xop == 0, d := .mDst, a := .m, b := .m }

/-- A mask-stack function (R127). -/
def ms (fn : Nat) (d a : Kind) : Row := { major := .ctrl, minor := 4, one := true, d, a, b := .is fn }

/-- A hart branch on a mask (R128). -/
def mbranch (c : Nat) : Row := { major := .ctrl, minor := 5, one := true, d := .is c, a := .m, b := .imm, w2 := .any }

/-- Scopes of the barrier and queue forms (R180). -/
def upToDev : List Nat := [0, 1, 2, 3]
/-- Scopes of sends (R180). -/
def upToSys : List Nat := [0, 1, 2, 3, 4, 5]
/-- Scopes of engine commands: 0 is the default `.coh` (R233). -/
def engScopes : List Nat := [0, 2, 3, 4, 5]

/-- An extended-only form of a CTRL family (R180). -/
def ctl (minor xop : Nat) (d a b : Kind) (rscs : List Nat := [0]) : Row :=
  { major := .ctrl, minor, xops := [xop], one := xop == 0, d, a, b, rscs }

/-- A window or role form with an immediate from `lo` to `hi` (R204, R205). -/
def ctlImm (o : Args) (xop : Nat) (d : Kind) (lo hi : Nat) : Row :=
  { major := .ctrl, minor := 12, xops := [xop], one := xop == 0, d, b := .imm, w2 := .any,
    also := lo ≤ o.imm.toNat && o.imm.toNat ≤ hi }

/-- A SYS form (R233, R268). -/
def sys (minor xop : Nat) (d a b : Kind) (rscs : List Nat := [0]) : Row :=
  { major := .sys, minor, xops := [xop], one := xop == 0, d, a, b, rscs }

end Rows

open Rows in
/-- The row of an Osier instruction with its operands; none for a standard instruction, a clause header or a step of
the device. R116 gives `vbcst` with a literal LEN 11 where it has a predicate, and names no trap for LEN 11 without one: `pm` = 0 is
accepted there as no predicate (DESIGN CHOICE, log 62). -/
def Instr.osier : Instr → Option (Row × Args)
  | .uiret => some ({ major := .ctrl, minor := 15, one := true, b := .is 1 }, { b := 1 })
  | .vadd o => some (lane2 o 0 ints true, o)
  | .vsub o => some (lane2 o 1 ints true, o)
  | .vmul o => some (lane2 o 2 ints true, o)
  | .vmulh o => some (lane2 o 3 ints false, o)
  | .vmulhsu o => some (lane3 3 2 [0, 5, 3, 1], o)
  | .vdiv o => some (lane2 o 4 ints false, o)
  | .vrem o => some (lane2 o 5 ints false, o)
  | .vmin o => some (lane2 o 6 (ints ++ [7, 8, 9]) false, o)
  | .vmax o => some (lane2 o 7 (ints ++ [7, 8, 9]) false, o)
  | .vand o => some (lane2 o 8 [0] false, o)
  | .vandn o => some (lane3 8 2, o)
  | .vor o => some (lane2 o 9 [0] false, o)
  | .vorn o => some (lane3 9 2, o)
  | .vxor o => some (lane2 o 10 [0] false, o)
  | .vxnor o => some (lane3 10 2, o)
  | .vsll o => some (lane2 o 11 ints false, o)
  | .vsrl o => some (lane2 o 12 ints false, o)
  | .vsra o => some (lane2 o 13 ints false, o)
  | .vfadd o => some (lane2 o 14 floats true rounds, o)
  | .vfsub o => some (lane2 o 15 floats true rounds, o)
  | .vfmul o => some (lane2 o 16 floats true rounds, o)
  | .vfma o => some ({ lane3 17 0 floats true rounds with one := true }, o)
  | .vfma4 o => some ({ lane3 17 2 floats true rounds with w2 := .reg }, o)
  | .vfms o => some (lane3 17 3 floats true rounds, o)
  | .vfnma o => some (lane3 17 4 floats true rounds, o)
  | .vfdiv o => some (lane2 o 18 floats true rounds, o)
  | .vfsqrt o => some (laneFn 19 0 floats true rounds, o)
  | .vfrcp o => some (laneFn 19 1 floats true rounds, o)
  | .vfrsqrt o => some (laneFn 19 2 floats true rounds, o)
  | .vfexp2 o => some (laneFn 19 3 floats true rounds, o)
  | .vflog2 o => some (laneFn 19 4 floats false rounds, o)
  | .vfabs o => some (laneFn 19 5 floats, o)
  | .vfneg o => some (laneFn 19 6 floats, o)
  | .vfclass o => some (laneFn 19 7 floats, o)
  | .vfrint o => some (laneFn 19 8 floats false rounds, o)
  | .vceq o => some (cmp o 0 [0, 5, 6, 7], o)
  | .vcne o => some (cmp o 1 [0, 5, 6, 7], o)
  | .vclt o => some (cmp o 2 [0, 5, 6, 7], o)
  | .vcle o => some (cmp o 3 [0, 5, 6, 7], o)
  | .vcgt o => some (cmp o 4 [0, 5, 6, 7], o)
  | .vcge o => some (cmp o 5 [0, 5, 6, 7], o)
  | .vcun o => some (cmp o 6 [7], o)
  | .vcor o => some (cmp o 7 [7], o)
  | .vsel o => some ({ lane3 21 0 with xops := [0, 2, 3, 4, 5, 6, 7], one := true }, o)
  | .vcvt o => some (cvt o, o)
  | .vsclenc o => some ({ major := .lane, minor := 22, xops := [16], d := .v, a := .v, w2 := .any, sat := true, rscs := rounds, pred := true, also := o.w2 < 2 }, o)
  | .vscldec o => some ({ major := .lane, minor := 22, xops := [17], d := .v, a := .v, w2 := .any, pred := true, also := o.w2 < 2 }, o)
  | .vunpk o => some (unpk o, o)
  | .vshfl o => some ({ lane3 24 0 with one := true }, o)
  | .vrotl o => some (slide o 1, o)
  | .vslup o => some (slide o 2, o)
  | .vsldn o => some (slide o 3, o)
  | .vbfly o => some ({ major := .lane, minor := 25, one := true, d := .v, a := .v, b := .imm, w2 := .any, pred := true, also := o.imm < 32 }, o)
  | .vballot o => some (toX 26 0, o)
  | .vany o => some (toX 26 1, o)
  | .vall o => some (toX 26 2, o)
  | .vcnt o => some (toX 26 3, o)
  | .vmatch o => some (laneFn 27 0, o)
  | .vredadd o => some (toX 28 0 [0, 5, 6, 7] (!isF32 o) (if isF32 o then rounds else [0]), o)
  | .vredmin o => some (toX 28 1 [0, 5, 6, 7], o)
  | .vredmax o => some (toX 28 2 [0, 5, 6, 7], o)
  | .vredand o => some (toX 28 3 [0, 5], o)
  | .vredor o => some (toX 28 4 [0, 5], o)
  | .vredxor o => some (toX 28 5 [0, 5], o)
  | .vpfxadd o => some (laneFn 29 0 [0, 5, 6, 7] (!isF32 o) (if isF32 o then rounds else [0]), o)
  | .vpfxop o =>
      some ({ laneFn 29 0 (if o.xop.toNat < 3 then [0, 5, 6, 7] else [0, 5]) with
        xops := [1, 2, 3, 4, 5], one := false }, o)
  | .vepfxop o =>
      some ({ laneFn 29 0 (if o.xop.toNat < 11 then [0, 5, 6, 7] else [0, 5]) (o.xop == 8 && !isF32 o) (if o.xop = 8 ∧ isF32 o then rounds else [0]) with
        xops := [8, 9, 10, 11, 12, 13], one := false }, o)
  | .vmov o => some (laneFn 30 0, o)
  | .vbcst o => some ({ major := .lane, minor := 30, xops := [1], lit := true, extLit := true, d := .v, b := if o.hasLit then .zero else .x, pred := true, also := o.lit.toNat < 2 ^ 32 }, o)
  | .vbcst64 o => some ({ major := .lane, minor := 30, xops := [2], extLit := true, d := .vEven, b := if o.hasLit then .zero else .x, pred := true }, o)
  | .vext o => some ({ major := .lane, minor := 30, xops := [3], d := .x, a := .v, w2 := .any, also := o.w2 < 32 }, o)
  | .vextx o => some ({ major := .lane, minor := 30, xops := [4], d := .x, a := .v, b := .x }, o)
  | .vext64 o => some ({ major := .lane, minor := 30, xops := [5], d := .x, a := .vEven, w2 := .any, also := o.w2 < 32 }, o)
  | .vins o => some ({ major := .lane, minor := 30, xops := [6], d := .v, b := .x, w2 := .any, pred := true, also := o.w2 < 32 }, o)
  | .vlid o => some ({ laneFn 31 0 with a := .zero }, o)
  | .vpopc o => some (laneFn 31 1, o)
  | .vclz o => some (laneFn 31 2, o)
  | .vctz o => some (laneFn 31 3, o)
  | .vbrev o => some (laneFn 31 4, o)
  | .vrev8 o => some (laneFn 31 5, o)
  | .vnot o => some (laneFn 31 6, o)
  | .vabs o => some (laneFn 31 7 [0, 5, 3, 1] true, o)
  | .vmbit o => some ({ laneFn 31 8 with a := .m }, o)
  | .mand o => some (mlogic 0, o)
  | .mor o => some (mlogic 1, o)
  | .mxor o => some (mlogic 2, o)
  | .mandn o => some (mlogic 3, o)
  | .morn o => some (mlogic 4, o)
  | .mxnor o => some (mlogic 5, o)
  | .mmov o => some (ctl 1 0 .mDst .m .zero, o)
  | .mset o => some ({ ctl 1 1 .mDst .zero .zero with w2 := .any }, o)
  | .mfx o => some (ctl 1 2 .mDst .x .zero, o)
  | .mtx o => some (ctl 1 3 .x .m .zero, o)
  | .mpopc o => some (ctl 1 4 .x .m .zero, o)
  | .mffs o => some (ctl 1 5 .x .m .zero, o)
  | .lif o => some ({ ctl 2 1 .zero .m .zero with w2 := .any }, o)
  | .lifn o => some ({ ctl 2 2 .zero .m .zero with w2 := .any }, o)
  | .lelse o => some (ctl 2 0 .zero .zero (.is 1), o)
  | .ljoin o => some (ctl 2 0 .zero .zero (.is 0), o)
  | .lloop o => some ({ ctl 3 1 .zero .zero .zero with w2 := .any }, o)
  | .lbrk o => some (ctl 3 0 .zero .m (.is 0), o)
  | .lcont o => some (ctl 3 0 .zero .m (.is 1), o)
  | .msPush o => some (ms 0 .zero .m, o)
  | .msPop o => some (ms 1 .zero .zero, o)
  | .msDepth o => some (ms 2 .x .zero, o)
  | .msRdm o => some (ms 3 .x .x, o)
  | .msRdr o => some (ms 4 .x .x, o)
  | .msRdp o => some (ms 5 .x .x, o)
  | .msWrm o => some (ms 6 .x .x, o)
  | .msWrr o => some (ms 7 .x .x, o)
  | .msWrp o => some (ms 8 .x .x, o)
  | .mbz o => some (mbranch 0, o)
  | .mbnz o => some (mbranch 1, o)
  | .mball o => some (mbranch 2, o)
  | .mbnall o => some (mbranch 3, o)
  | .pause o => some (ctl 6 0 .bits .bits (.is 0), o)
  | .yield o => some (ctl 6 0 .zero .zero (.is 1), o)
  | .dfwait o => some (ctl 6 0 .bits .bits (.is 2), o)
  | .vld o => some (lmem o 0 [0] memTypes 1, o)
  | .vldPair o => some (lmem o 0 [1] memTypes 1, o)
  | .vld64 o => some (lmem o 0 [2, 3] [0] 1, o)
  | .vst o => some (lmem o 1 [0, 1] memTypes 2, o)
  | .vst64 o => some (lmem o 1 [2, 3] [0] 2, o)
  | .vlds o => some (lmem o 2 [0] memTypes 1, o)
  | .vsts o => some (lmem o 3 [0] memTypes 2, o)
  | .uld o => some (umem o 4 1, o)
  | .ust o => some (umem o 5 2, o)
  | .vldRc o => some ({ major := .mem, minor := 6, xops := [o.xop.toNat], d := .v, a := .x, b := .v, w2 := .any, types := memTypes, pred := true, also := 1 ≤ o.xop.toNat && o.xop.toNat ≤ 255 }, o)
  | .vamo o => some (lamo o 7 atomicOps, o)
  | .vamoCas o => some (lamo o 7 [9, 25], o)
  | .vamoNr o => some (lamo o 8 (atomicOps ++ [9, 25]), o)
  | .uamo o =>
      some ({ major := .mem, minor := 9, xops := atomicOps ++ [9, 25], one := true, d := .x, a := .x, b := .x, w2 := if o.xop.toNat % 16 = 9 then .zero else .any, ords := [0, 1, 2, 3], rscs := memScopes o }, o)
  | .fenceAcq o => some (fenceRow 1, o)
  | .fenceRel o => some (fenceRow 2, o)
  | .fenceAr o => some (fenceRow 3, o)
  | .fenceSc o => some ({ major := .mem, minor := 11, rscs := [3, 4, 5] }, o)
  | .cctlPf1 o => some (cctl 0, o)
  | .cctlPf2 o => some (cctl 1, o)
  | .cctlInv o => some (cctl 2, o)
  | .cctlMaf o => some ({ major := .mem, minor := 12, one := true, d := .x, b := .is 3 }, o)
  | .cctlMafclr o => some ({ major := .mem, minor := 12, one := true, a := .x, b := .is 4 }, o)
  | .barSync o => some (ctl 7 0 .zero .x .zero upToDev, o)
  | .barArrive o => some (ctl 7 1 .x .x .zero upToDev, o)
  | .barWait o => some (ctl 7 2 .zero .x .x upToDev, o)
  | .barTest o => some (ctl 7 3 .x .x .x upToDev, o)
  | .barInit o => some (ctl 7 4 .x .x .x, o)
  | .barBytes o => some (ctl 7 5 .zero .x .x, o)
  | .barDrop o => some (ctl 7 6 .zero .x .zero upToDev, o)
  | .qPush o => some (ctl 8 0 .x .x .zero upToDev, o)
  | .qPop o => some (ctl 8 1 .x .x .zero upToDev, o)
  | .qVpush o => some (ctl 8 2 .v .x .zero upToDev, o)
  | .qVpop o => some (ctl 8 3 .v .x .zero upToDev, o)
  | .qCount o => some (ctl 8 4 .x .x .zero, o)
  | .msgSend o => some (ctl 9 0 .zero .xEven .v upToSys, o)
  | .msgSendx o => some (ctl 9 1 .zero .xEven .x upToSys, o)
  | .msgSendw o => some (ctl 9 2 .x .xEven .v upToSys, o)
  | .msgRecv o => some (ctl 9 3 .x .x .v, o)
  | .msgTset o => some (ctl 9 4 .zero .x .x, o)
  | .msgTget o => some (ctl 9 5 .x .x .zero, o)
  | .taskDec o => some (ctl 10 0 .x .x .x upToSys, o)
  | .taskTake o => some (ctl 10 1 .x .zero .zero, o)
  | .strmPut o => some (ctl 11 0 .zero .x .v, o)
  | .strmOpen o => some (ctl 11 1 .x .xEven .zero upToSys, o)
  | .strmClose o => some (ctl 11 2 .zero .x .zero upToSys, o)
  | .claim o => some (ctlImm o 0 .zero 1 16, o)
  | .give o => some (ctlImm o 1 .zero 1 16, o)
  | .tryclaim o => some (ctlImm o 2 .x 1 16, o)
  | .role o => some (ctlImm o 3 .x 0 3, o)
  | .eCopy o => some (sys 0 0 .x .x .zero engScopes, o)
  | .eMcast o => some (sys 1 0 .x .x .zero engScopes, o)
  | .eCadd o => some ({ sys 2 0 .x .x .zero engScopes with types := [0, 5, 6, 7], sat := o.ty != 7 }, o)
  | .eGath o => some (sys 3 0 .x .x .zero engScopes, o)
  | .eScat o => some (sys 4 0 .x .x .zero engScopes, o)
  | .eMma o => some (sys 5 0 .x .x .zero, o)
  | .eCmma o => some (sys 6 0 .x .x .x engScopes, o)
  | .eScale o => some (sys 7 0 .x .x .x, o)
  | .eSleep o => some (sys 8 0 .zero .x .zero, o)
  | .ePoll o => some (sys 8 1 .x .x .zero, o)
  | .eStat o => some (sys 8 2 .x .zero .zero, o)
  | .eStatclr o => some (sys 8 3 .zero .x .zero, o)
  | .accZero o => some (sys 9 0 .zero .tile .zero, o)
  | .accRd o => some ({ sys 9 1 .vEven .tile .x with pred := true }, o)
  | .accWr o => some ({ sys 9 2 .vEven .tile .x with pred := true }, o)
  | .wFork o => some (sys 10 0 .x .x .x, o)
  | .wJoin o => some (sys 10 1 .x .zero .zero, o)
  | .wChoose o => some (sys 10 2 .x .x .zero, o)
  | .wAbandon o => some (sys 10 3 .x .zero .zero, o)
  | .wQuery o => some (sys 10 4 .x .x .zero, o)
  | .replay o => some (sys 11 0 .zero .x (.is 0), o)
  | .oplogDrop o => some (sys 11 0 .zero .x (.is 1), o)
  | .oplogPc o => some (sys 11 0 .x .x (.is 2), o)
  | .bbhint o => some (sys 12 0 .bits .bits (.is 0), o)
  | .pcmRet o => some (sys 12 0 .zero .zero (.is 1), o)
  | .pcmHnd o => some (sys 12 0 .zero .x (.is 2), o)
  | .gateWr o => some (sys 13 0 .zero .x .x, o)
  | .gateRd o => some (sys 13 1 .x .x .zero, o)
  | .ctxSave o => some (sys 14 0 .zero .x .zero, o)
  | .ctxLoad o => some (sys 14 1 .zero .x .zero, o)
  | .ctxKill o => some (sys 14 2 .zero .x .zero, o)
  | .ctxBind o => some (sys 14 3 .zero .x .x, o)
  | .ctxUpd o => some (sys 14 4 .zero .x .x, o)
  | .gArm o => some (sys 15 0 .x .x .zero, o)
  | .gSweep o => some (sys 15 1 .x .x .zero, o)
  | .gResume o => some (sys 15 2 .x .x .zero, o)
  | _ => none

/-- Is a 6-bit shift amount one that the operation admits (RV64I: the word forms take five bits)? -/
def ShOp.wide : ShOp → Bool
  | .slli | .srli | .srai | .rori | .slliUw => true
  | .slliw | .srliw | .sraiw | .roriw => false

/-- Does a standard operation keep to its encoding's limits? -/
def RvOp.wf : RvOp → Bool
  | .sh op _ _ n => op.wide || n < 32
  | _ => true

/-- An instruction of a hart that the device accepts, as far as its own words say (R87); whether a hart may run it and
whether its registers lie in the hart's window is decided when it issues. A step of the device has no word. -/
def Instr.wf (i : Instr) : Bool :=
  match i.osier with
  | some (r, o) => r.ok o
  | none =>
    match i with
    | .ecall | .ebreak | .wfi | .fence _ | .fenceI _ | .sretMret _ => true
    | .standardAccess _ _ _ _ | .sc _ | .amo _ _ => true
    | .lr o => o.rs2 == 0
    | .standardInstruction op => op.wf
    | .lfcsrAccess o => o.csr == 0x800
    | .dflagsDrain o => o.csr == 0x801
    | .msdepthWrite o => o.csr == 0x802
    | .regwinWrite o => o.csr == 0x803
    | .csrWrite o => !(0x800 ≤ o.csr && o.csr ≤ 0x803)
    | .clh _ fa fb => (fa < 12 || fa == 15) && (fb < 12 || fb == 15)
    | _ => false

end Sys2Proof
end

