-- ==== Sys2Proof/Decode.lean ====
section
/-! DEFINITION. Decoding of the words of an instruction (R75 to R89), total on any bytes and rejecting by name, and the
encoder written from the same tables. -/

namespace Sys2Proof

/-- Why bytes are no instruction. Every rejection of five whole words is R87's illegal-instruction trap. -/
inductive Reject where
  /-- fewer bytes than the instruction's words -/
  | truncated
  /-- bits [1:0] of word 0 are not 11, or the major is illegal (R85) -/
  | major
  /-- an encoding of a standard major outside the extensions of R3 (R85) -/
  | standard
  /-- a reserved minor, `xop` or function code (R86, R87) -/
  | code
  /-- a field rule of the instruction's row (R77 to R79, R87) -/
  | field
  /-- a clause header breaking R82 -/
  | header
  deriving DecidableEq, Repr

/-- What decoding gives. -/
inductive Decoded where
  | ok (i : Instr)
  | reject (r : Reject)
  deriving DecidableEq, Repr

/-! ### Bytes and words -/

/-- A little-endian number from bytes (R5). -/
def leNat : List Byte → Nat
  | [] => 0
  | b :: bs => b.toNat + 256 * leNat bs

/-- The `n` little-endian bytes of a number (R5). -/
def leBytes : Nat → Nat → List Byte
  | 0, _ => []
  | n + 1, w => BitVec.ofNat 8 w :: leBytes n (w / 256)

/-- The little-endian words of bytes; bytes past the last whole word are left out. -/
def wordsOf : List Byte → List W32
  | b0 :: b1 :: b2 :: b3 :: bs => (b3 ++ b2 ++ b1 ++ b0) :: wordsOf bs
  | _ => []

/-- The bytes of words, little-endian (R5). -/
def bytesOf : List W32 → List Byte
  | [] => []
  | w :: ws => w.extractLsb' 0 8 :: w.extractLsb' 8 8 :: w.extractLsb' 16 8 :: w.extractLsb' 24 8 :: bytesOf ws

/-! ### Osier words -/

/-- Is a word of an Osier major a clause header (R82)? -/
def isHeader (w : W32) : Bool := w.extractLsb' 0 7 == Major.ctrl.code && w.getLsbD 31

/-- The major of a word, if it is one of the four custom majors (R76, R85). -/
def majorOf (w : W32) : Option Major :=
  let m := w.extractLsb' 0 7
  if m = Major.lane.code then some .lane
  else if m = Major.mem.code then some .mem
  else if m = Major.ctrl.code then some .ctrl
  else if m = Major.sys.code then some .sys
  else none

/-- LEN (R75). -/
def lenOf (w : W32) : Form :=
  match (w.extractLsb' 7 2).toNat with
  | 0 => .one
  | 1 => .lit
  | 2 => .ext
  | _ => .extLit

/-- How many words the instruction that begins with word `w` has (R75). -/
def wordCount (w : W32) : Nat :=
  match majorOf w with
  | none => 1
  | some _ =>
    if isHeader w then 1
    else match lenOf w with
      | .one => 1
      | .lit => 3
      | .ext => 3
      | .extLit => 5

/-- The fields of word 0 and of the words its form carries (R76, R78, R81). -/
def parseArgs (w0 w1 w2 w3 w4 : W32) : Args :=
  let lo (k : Nat) : BitVec 6 := w0.extractLsb' k 6
  match lenOf w0 with
  | .one => { form := .one, d := (lo 9).setWidth 8, a := (lo 15).setWidth 8, b := (lo 21).setWidth 8 }
  | .lit => { form := .lit, d := (lo 9).setWidth 8, a := (lo 15).setWidth 8, b := (lo 21).setWidth 8, xop := 1,
              lit := w2 ++ w1 }
  | f => { form := f
           d := (w1.extractLsb' 0 2 : BitVec 2) ++ lo 9
           a := (w1.extractLsb' 2 2 : BitVec 2) ++ lo 15
           b := (w1.extractLsb' 4 2 : BitVec 2) ++ lo 21
           ty := w1.extractLsb' 6 4
           rsc := w1.extractLsb' 10 3
           sat := w1.getLsbD 13
           pm := w1.extractLsb' 14 3
           pinv := w1.getLsbD 17
           ord := w1.extractLsb' 18 2
           xop := w1.extractLsb' 20 12
           w2 := w2
           lit := if f = .extLit then w4 ++ w3 else 0 }

/-- The instruction of a LANE minor that `xop` or the function code in b selects (R91). -/
def laneInstr (minor : Nat) (o : Args) : Option Instr :=
  let x := o.xop.toNat
  let imm (i j : Instr) : Option Instr := if x < 2 then some i else if x = 2 then some j else none
  match minor with
  | 0 => some (.vadd o)
  | 1 => some (.vsub o)
  | 2 => some (.vmul o)
  | 3 => imm (.vmulh o) (.vmulhsu o)
  | 4 => some (.vdiv o)
  | 5 => some (.vrem o)
  | 6 => some (.vmin o)
  | 7 => some (.vmax o)
  | 8 => imm (.vand o) (.vandn o)
  | 9 => imm (.vor o) (.vorn o)
  | 10 => imm (.vxor o) (.vxnor o)
  | 11 => some (.vsll o)
  | 12 => some (.vsrl o)
  | 13 => some (.vsra o)
  | 14 => some (.vfadd o)
  | 15 => some (.vfsub o)
  | 16 => some (.vfmul o)
  | 17 =>
    match x with
    | 0 => some (.vfma o)
    | 2 => some (.vfma4 o)
    | 3 => some (.vfms o)
    | 4 => some (.vfnma o)
    | _ => none
  | 18 => some (.vfdiv o)
  | 19 =>
    match o.b.toNat with
    | 0 => some (.vfsqrt o)
    | 1 => some (.vfrcp o)
    | 2 => some (.vfrsqrt o)
    | 3 => some (.vfexp2 o)
    | 4 => some (.vflog2 o)
    | 5 => some (.vfabs o)
    | 6 => some (.vfneg o)
    | 7 => some (.vfclass o)
    | 8 => some (.vfrint o)
    | _ => none
  | 20 =>
    match x % 8 with
    | 0 => some (.vceq o)
    | 1 => some (.vcne o)
    | 2 => some (.vclt o)
    | 3 => some (.vcle o)
    | 4 => some (.vcgt o)
    | 5 => some (.vcge o)
    | 6 => some (.vcun o)
    | _ => some (.vcor o)
  | 21 => some (.vsel o)
  | 22 => if x = 16 then some (.vsclenc o) else if x = 17 then some (.vscldec o) else some (.vcvt o)
  | 23 => some (.vunpk o)
  | 24 =>
    match x with
    | 0 => some (.vshfl o)
    | 1 => some (.vrotl o)
    | 2 => some (.vslup o)
    | 3 => some (.vsldn o)
    | _ => none
  | 25 => some (.vbfly o)
  | 26 =>
    match x with
    | 0 => some (.vballot o)
    | 1 => some (.vany o)
    | 2 => some (.vall o)
    | 3 => some (.vcnt o)
    | _ => none
  | 27 => some (.vmatch o)
  | 28 =>
    match x with
    | 0 => some (.vredadd o)
    | 1 => some (.vredmin o)
    | 2 => some (.vredmax o)
    | 3 => some (.vredand o)
    | 4 => some (.vredor o)
    | 5 => some (.vredxor o)
    | _ => none
  | 29 => if x = 0 then some (.vpfxadd o) else if x < 6 then some (.vpfxop o) else some (.vepfxop o)
  | 30 =>
    match x with
    | 0 => some (.vmov o)
    | 1 => some (.vbcst o)
    | 2 => some (.vbcst64 o)
    | 3 => some (.vext o)
    | 4 => some (.vextx o)
    | 5 => some (.vext64 o)
    | 6 => some (.vins o)
    | _ => none
  | 31 =>
    match o.b.toNat with
    | 0 => some (.vlid o)
    | 1 => some (.vpopc o)
    | 2 => some (.vclz o)
    | 3 => some (.vctz o)
    | 4 => some (.vbrev o)
    | 5 => some (.vrev8 o)
    | 6 => some (.vnot o)
    | 7 => some (.vabs o)
    | 8 => some (.vmbit o)
    | _ => none
  | _ => none

/-- The instruction of a MEM minor (R159). -/
def memInstr (minor : Nat) (o : Args) : Option Instr :=
  let x := o.xop.toNat
  match minor with
  | 0 => if x = 0 then some (.vld o) else if x = 1 then some (.vldPair o) else some (.vld64 o)
  | 1 => if x < 2 then some (.vst o) else some (.vst64 o)
  | 2 => some (.vlds o)
  | 3 => some (.vsts o)
  | 4 => some (.uld o)
  | 5 => some (.ust o)
  | 6 => some (.vldRc o)
  | 7 => if x % 16 = 9 then some (.vamoCas o) else some (.vamo o)
  | 8 => some (.vamoNr o)
  | 9 => some (.uamo o)
  | 10 =>
    match o.ord.toNat with
    | 1 => some (.fenceAcq o)
    | 2 => some (.fenceRel o)
    | 3 => some (.fenceAr o)
    | _ => none
  | 11 => some (.fenceSc o)
  | 12 =>
    match o.b.toNat with
    | 0 => some (.cctlPf1 o)
    | 1 => some (.cctlPf2 o)
    | 2 => some (.cctlInv o)
    | 3 => some (.cctlMaf o)
    | 4 => some (.cctlMafclr o)
    | _ => none
  | _ => none

/-- The instruction of a CTRL minor below 16 (R118, R180). -/
def ctrlInstr (minor : Nat) (o : Args) : Option Instr :=
  let x := o.xop.toNat
  let b := o.b.toNat
  match minor, x with
  | 0, 0 => some (.mand o)
  | 0, 1 => some (.mor o)
  | 0, 2 => some (.mxor o)
  | 0, 3 => some (.mandn o)
  | 0, 4 => some (.morn o)
  | 0, 5 => some (.mxnor o)
  | 1, 0 => some (.mmov o)
  | 1, 1 => some (.mset o)
  | 1, 2 => some (.mfx o)
  | 1, 3 => some (.mtx o)
  | 1, 4 => some (.mpopc o)
  | 1, 5 => some (.mffs o)
  | 2, 0 => if b = 0 then some (.ljoin o) else if b = 1 then some (.lelse o) else none
  | 2, 1 => some (.lif o)
  | 2, 2 => some (.lifn o)
  | 3, 0 => if b = 0 then some (.lbrk o) else if b = 1 then some (.lcont o) else none
  | 3, 1 => some (.lloop o)
  | 4, 0 =>
    match b with
    | 0 => some (.msPush o)
    | 1 => some (.msPop o)
    | 2 => some (.msDepth o)
    | 3 => some (.msRdm o)
    | 4 => some (.msRdr o)
    | 5 => some (.msRdp o)
    | 6 => some (.msWrm o)
    | 7 => some (.msWrr o)
    | 8 => some (.msWrp o)
    | _ => none
  | 5, 0 =>
    match o.d.toNat with
    | 0 => some (.mbz o)
    | 1 => some (.mbnz o)
    | 2 => some (.mball o)
    | 3 => some (.mbnall o)
    | _ => none
  | 6, 0 => if b = 0 then some (.pause o) else if b = 1 then some (.yield o) else if b = 2 then some (.dfwait o) else none
  | 7, 0 => some (.barSync o)
  | 7, 1 => some (.barArrive o)
  | 7, 2 => some (.barWait o)
  | 7, 3 => some (.barTest o)
  | 7, 4 => some (.barInit o)
  | 7, 5 => some (.barBytes o)
  | 7, 6 => some (.barDrop o)
  | 8, 0 => some (.qPush o)
  | 8, 1 => some (.qPop o)
  | 8, 2 => some (.qVpush o)
  | 8, 3 => some (.qVpop o)
  | 8, 4 => some (.qCount o)
  | 9, 0 => some (.msgSend o)
  | 9, 1 => some (.msgSendx o)
  | 9, 2 => some (.msgSendw o)
  | 9, 3 => some (.msgRecv o)
  | 9, 4 => some (.msgTset o)
  | 9, 5 => some (.msgTget o)
  | 10, 0 => some (.taskDec o)
  | 10, 1 => some (.taskTake o)
  | 11, 0 => some (.strmPut o)
  | 11, 1 => some (.strmOpen o)
  | 11, 2 => some (.strmClose o)
  | 12, 0 => some (.claim o)
  | 12, 1 => some (.give o)
  | 12, 2 => some (.tryclaim o)
  | 12, 3 => some (.role o)
  | 15, 0 => if o = { b := 1 } then some .uiret else none
  | _, _ => none

/-- The instruction of a SYS minor (R233, R268). -/
def sysInstr (minor : Nat) (o : Args) : Option Instr :=
  let x := o.xop.toNat
  let b := o.b.toNat
  match minor, x with
  | 0, 0 => some (.eCopy o)
  | 1, 0 => some (.eMcast o)
  | 2, 0 => some (.eCadd o)
  | 3, 0 => some (.eGath o)
  | 4, 0 => some (.eScat o)
  | 5, 0 => some (.eMma o)
  | 6, 0 => some (.eCmma o)
  | 7, 0 => some (.eScale o)
  | 8, 0 => some (.eSleep o)
  | 8, 1 => some (.ePoll o)
  | 8, 2 => some (.eStat o)
  | 8, 3 => some (.eStatclr o)
  | 9, 0 => some (.accZero o)
  | 9, 1 => some (.accRd o)
  | 9, 2 => some (.accWr o)
  | 10, 0 => some (.wFork o)
  | 10, 1 => some (.wJoin o)
  | 10, 2 => some (.wChoose o)
  | 10, 3 => some (.wAbandon o)
  | 10, 4 => some (.wQuery o)
  | 11, 0 => if b = 0 then some (.replay o) else if b = 1 then some (.oplogDrop o) else if b = 2 then some (.oplogPc o) else none
  | 12, 0 => if b = 0 then some (.bbhint o) else if b = 1 then some (.pcmRet o) else if b = 2 then some (.pcmHnd o) else none
  | 13, 0 => some (.gateWr o)
  | 13, 1 => some (.gateRd o)
  | 14, 0 => some (.ctxSave o)
  | 14, 1 => some (.ctxLoad o)
  | 14, 2 => some (.ctxKill o)
  | 14, 3 => some (.ctxBind o)
  | 14, 4 => some (.ctxUpd o)
  | 15, 0 => some (.gArm o)
  | 15, 1 => some (.gSweep o)
  | 15, 2 => some (.gResume o)
  | _, _ => none

/-- The instruction that a cell of the opcode map and the operand fields select. -/
def osierInstr (m : Major) (minor : Nat) (o : Args) : Option Instr :=
  match m with
  | .lane => laneInstr minor o
  | .mem => memInstr minor o
  | .ctrl => ctrlInstr minor o
  | .sys => sysInstr minor o

/-! ### Standard words -/

/-- funct7, funct3 and major of an OP or OP-32 operation. -/
def RegOp.code : RegOp → BitVec 7 × BitVec 3 × BitVec 7
  | .add => (0x00, 0, 0x33) | .sub => (0x20, 0, 0x33) | .sll => (0x00, 1, 0x33) | .slt => (0x00, 2, 0x33)
  | .sltu => (0x00, 3, 0x33) | .xor => (0x00, 4, 0x33) | .srl => (0x00, 5, 0x33) | .sra => (0x20, 5, 0x33)
  | .or => (0x00, 6, 0x33) | .and => (0x00, 7, 0x33)
  | .addw => (0x00, 0, 0x3B) | .subw => (0x20, 0, 0x3B) | .sllw => (0x00, 1, 0x3B) | .srlw => (0x00, 5, 0x3B)
  | .sraw => (0x20, 5, 0x3B)
  | .mul => (0x01, 0, 0x33) | .mulh => (0x01, 1, 0x33) | .mulhsu => (0x01, 2, 0x33) | .mulhu => (0x01, 3, 0x33)
  | .div => (0x01, 4, 0x33) | .divu => (0x01, 5, 0x33) | .rem => (0x01, 6, 0x33) | .remu => (0x01, 7, 0x33)
  | .mulw => (0x01, 0, 0x3B) | .divw => (0x01, 4, 0x3B) | .divuw => (0x01, 5, 0x3B) | .remw => (0x01, 6, 0x3B)
  | .remuw => (0x01, 7, 0x3B)
  | .sh1add => (0x10, 2, 0x33) | .sh2add => (0x10, 4, 0x33) | .sh3add => (0x10, 6, 0x33)
  | .sh1addUw => (0x10, 2, 0x3B) | .sh2addUw => (0x10, 4, 0x3B) | .sh3addUw => (0x10, 6, 0x3B)
  | .addUw => (0x04, 0, 0x3B)
  | .andn => (0x20, 7, 0x33) | .orn => (0x20, 6, 0x33) | .xnor => (0x20, 4, 0x33)
  | .min => (0x05, 4, 0x33) | .minu => (0x05, 5, 0x33) | .max => (0x05, 6, 0x33) | .maxu => (0x05, 7, 0x33)
  | .rol => (0x30, 1, 0x33) | .ror => (0x30, 5, 0x33) | .rolw => (0x30, 1, 0x3B) | .rorw => (0x30, 5, 0x3B)

/-- Every OP and OP-32 operation. -/
def RegOp.all : List RegOp :=
  [.add, .sub, .sll, .slt, .sltu, .xor, .srl, .sra, .or, .and, .addw, .subw, .sllw, .srlw, .sraw]
  ++ [.mul, .mulh, .mulhsu, .mulhu, .div, .divu, .rem, .remu, .mulw, .divw, .divuw, .remw, .remuw]
  ++ [.sh1add, .sh2add, .sh3add, .sh1addUw, .sh2addUw, .sh3addUw, .addUw]
  ++ [.andn, .orn, .xnor, .min, .minu, .max, .maxu, .rol, .ror, .rolw, .rorw]

/-- Immediate field, funct3 and major of a unary operation. -/
def UnOp.code : UnOp → BitVec 12 × BitVec 3 × BitVec 7
  | .clz => (0x600, 1, 0x13) | .ctz => (0x601, 1, 0x13) | .cpop => (0x602, 1, 0x13)
  | .sextB => (0x604, 1, 0x13) | .sextH => (0x605, 1, 0x13)
  | .clzw => (0x600, 1, 0x1B) | .ctzw => (0x601, 1, 0x1B) | .cpopw => (0x602, 1, 0x1B)
  | .zextH => (0x080, 4, 0x3B) | .orcB => (0x287, 5, 0x13) | .rev8 => (0x6B8, 5, 0x13)

/-- Every unary operation. -/
def UnOp.all : List UnOp := [.clz, .ctz, .cpop, .clzw, .ctzw, .cpopw, .sextB, .sextH, .zextH, .orcB, .rev8]

/-- The upper six bits of the immediate, funct3 and major of a shift by an immediate. -/
def ShOp.code : ShOp → BitVec 6 × BitVec 3 × BitVec 7
  | .slli => (0x00, 1, 0x13) | .srli => (0x00, 5, 0x13) | .srai => (0x10, 5, 0x13)
  | .slliw => (0x00, 1, 0x1B) | .srliw => (0x00, 5, 0x1B) | .sraiw => (0x10, 5, 0x1B)
  | .slliUw => (0x02, 1, 0x1B) | .rori => (0x18, 5, 0x13) | .roriw => (0x18, 5, 0x1B)

/-- Every shift by an immediate. -/
def ShOp.all : List ShOp := [.slli, .srli, .srai, .slliw, .srliw, .sraiw, .slliUw, .rori, .roriw]

/-- funct3 and major of an operation with a 12-bit immediate. -/
def ImmOp.code : ImmOp → BitVec 3 × BitVec 7
  | .addi => (0, 0x13) | .slti => (2, 0x13) | .sltiu => (3, 0x13) | .xori => (4, 0x13) | .ori => (6, 0x13)
  | .andi => (7, 0x13) | .addiw => (0, 0x1B)

/-- Every operation with a 12-bit immediate. -/
def ImmOp.all : List ImmOp := [.addi, .slti, .sltiu, .xori, .ori, .andi, .addiw]

/-- funct3 of a branch. -/
def BrCond.code : BrCond → BitVec 3
  | .eq => 0 | .ne => 1 | .lt => 4 | .ge => 5 | .ltu => 6 | .geu => 7

/-- Every branch condition. -/
def BrCond.all : List BrCond := [.eq, .ne, .lt, .ge, .ltu, .geu]

/-- funct3 and major of a load or store. -/
def MemOp.code : MemOp → BitVec 3 × BitVec 7
  | .lb => (0, 0x03) | .lh => (1, 0x03) | .lw => (2, 0x03) | .ld => (3, 0x03) | .lbu => (4, 0x03) | .lhu => (5, 0x03)
  | .lwu => (6, 0x03) | .sb => (0, 0x23) | .sh => (1, 0x23) | .sw => (2, 0x23) | .sd => (3, 0x23)

/-- Every load and store. -/
def MemOp.all : List MemOp := [.lb, .lh, .lw, .ld, .lbu, .lhu, .lwu, .sb, .sh, .sw, .sd]

/-- Is it a store? -/
def MemOp.isStore : MemOp → Bool
  | .sb | .sh | .sw | .sd => true
  | .lb | .lh | .lw | .ld | .lbu | .lhu | .lwu => false

/-- funct5 of an AMO. -/
def AmoOp.code : AmoOp → BitVec 5
  | .add => 0 | .swap => 1 | .xor => 4 | .or => 8 | .and => 12 | .min => 16 | .max => 20 | .minu => 24 | .maxu => 28

/-- Every AMO. -/
def AmoOp.all : List AmoOp := [.add, .swap, .xor, .and, .or, .min, .max, .minu, .maxu]

/-- funct3 of a CSR instruction. -/
def CsrArgs.f3 (o : CsrArgs) : BitVec 3 :=
  match o.op, o.useImm with
  | .rw, false => 1 | .rs, false => 2 | .rc, false => 3 | .rw, true => 5 | .rs, true => 6 | .rc, true => 7

/-- The row a CSR instruction belongs to: the four user device CSRs with a row of their own, or any other (R44). -/
def csrInstr (o : CsrArgs) : Instr :=
  if o.csr = 0x800 then .lfcsrAccess o
  else if o.csr = 0x801 then .dflagsDrain o
  else if o.csr = 0x802 then .msdepthWrite o
  else if o.csr = 0x803 then .regwinWrite o
  else .csrWrite o

/-- The instruction of a standard word (R85, R89); none where the word lies outside the extensions of R3. -/
def stdInstr (w : W32) : Option Instr :=
  let rd : BitVec 5 := w.extractLsb' 7 5
  let rs1 : BitVec 5 := w.extractLsb' 15 5
  let rs2 : BitVec 5 := w.extractLsb' 20 5
  let f3 : BitVec 3 := w.extractLsb' 12 3
  let f7 : BitVec 7 := w.extractLsb' 25 7
  let imm : BitVec 12 := w.extractLsb' 20 12
  let maj : BitVec 7 := w.extractLsb' 0 7
  match maj.toNat with
  | 0x37 => some (.standardInstruction (.lui rd (w.extractLsb' 12 20)))
  | 0x17 => some (.standardInstruction (.auipc rd (w.extractLsb' 12 20)))
  | 0x6F =>
    some (.standardInstruction (.jal rd ((w.extractLsb' 31 1 : BitVec 1) ++ (w.extractLsb' 12 8 : BitVec 8)
      ++ (w.extractLsb' 20 1 : BitVec 1) ++ (w.extractLsb' 21 10 : BitVec 10))))
  | 0x67 => if f3 = 0 then some (.standardInstruction (.jalr rd rs1 imm)) else none
  | 0x63 =>
    (BrCond.all.find? (fun c => c.code = f3)).map (fun c =>
      .standardInstruction (.branch c rs1 rs2 ((w.extractLsb' 31 1 : BitVec 1) ++ (w.extractLsb' 7 1 : BitVec 1)
        ++ (w.extractLsb' 25 6 : BitVec 6) ++ (w.extractLsb' 8 4 : BitVec 4))))
  | 0x03 => (MemOp.all.find? (fun op => op.code = (f3, maj))).map (fun op => .standardAccess op rd rs1 imm)
  | 0x23 =>
    (MemOp.all.find? (fun op => op.code = (f3, maj))).map (fun op =>
      .standardAccess op rs2 rs1 (f7 ++ rd))
  | 0x13 | 0x1B =>
    match ImmOp.all.find? (fun op => op.code = (f3, maj)) with
    | some op => some (.standardInstruction (.imm op rd rs1 imm))
    | none =>
      match UnOp.all.find? (fun op => op.code = (imm, f3, maj)) with
      | some op => some (.standardInstruction (.un op rd rs1))
      | none =>
        match ShOp.all.find? (fun op => op.code = (w.extractLsb' 26 6, f3, maj)) with
        | some op => some (.standardInstruction (.sh op rd rs1 (w.extractLsb' 20 6)))
        | none => none
  | 0x33 | 0x3B =>
    match UnOp.all.find? (fun op => op.code = (imm, f3, maj)) with
    | some op => some (.standardInstruction (.un op rd rs1))
    | none =>
      (RegOp.all.find? (fun op => op.code = (f7, f3, maj))).map (fun op => .standardInstruction (.reg op rd rs1 rs2))
  | 0x0F =>
    if f3 = 0 then
      some (.fence ⟨w.extractLsb' 28 4, w.extractLsb' 24 4, w.extractLsb' 20 4, rs1, rd⟩)
    else if f3 = 1 then some (.fenceI ⟨imm, rs1, rd⟩)
    else none
  | 0x2F =>
    if f3 = 2 ∨ f3 = 3 then
      let o : AmoArgs := ⟨f3 == 3, w.getLsbD 26, w.getLsbD 25, rs2, rs1, rd⟩
      let f5 : BitVec 5 := w.extractLsb' 27 5
      if f5 = 2 then (if rs2 = 0 then some (.lr o) else none)
      else if f5 = 3 then some (.sc o)
      else (AmoOp.all.find? (fun op => op.code = f5)).map (fun op => .amo op o)
    else none
  | 0x73 =>
    if f3 = 0 then
      if w = 0x00000073 then some .ecall
      else if w = 0x00100073 then some .ebreak
      else if w = 0x10500073 then some .wfi
      else if w = 0x10200073 then some (.sretMret false)
      else if w = 0x30200073 then some (.sretMret true)
      else if f7 = 9 ∧ rd = 0 then some (.standardInstruction (.sfenceVma rs1 rs2))
      else none
    else if f3 = 4 then none
    else
      let op : CsrOp := if f3 = 1 ∨ f3 = 5 then .rw else if f3 = 2 ∨ f3 = 6 then .rs else .rc
      some (csrInstr ⟨op, f3.getLsbD 2, imm, rs1, rd⟩)
  | _ => none

/-! ### Decoding -/

/-- The clause header of a word with bit 31 set in CTRL (R82). -/
def headerInstr (w : W32) : Decoded :=
  if w.extractLsb' 7 4 = (0 : BitVec 4) then
    let i := Instr.clh (w.extractLsb' 19 12) (w.extractLsb' 15 4) (w.extractLsb' 11 4)
    if i.wf then .ok i else .reject .header
  else .reject .header

/-- The instruction whose words are `w0` to `w4`; the words past its own are not looked at. -/
def decode5 (w0 w1 w2 w3 w4 : W32) : Decoded :=
  match majorOf w0 with
  | some m =>
    if isHeader w0 then headerInstr w0
    else
      let o := parseArgs w0 w1 w2 w3 w4
      match osierInstr m (w0.extractLsb' 27 5).toNat o with
      | some i => if i.wf then .ok i else .reject .field
      | none => .reject .code
  | none =>
    match stdInstr w0 with
    | some i => if i.wf then .ok i else .reject .standard
    | none => if [0x37, 0x17, 0x6F, 0x67, 0x63, 0x03, 0x23, 0x13, 0x1B, 0x33, 0x3B, 0x0F, 0x2F, 0x73].contains
                  (w0.extractLsb' 0 7).toNat then .reject .standard else .reject .major

/-- The instruction of a list of words, with the words that follow it. -/
def decodeWords : List W32 → Decoded × List W32
  | [] => (.reject .truncated, [])
  | w0 :: ws =>
    if ws.length + 1 < wordCount w0 then (.reject .truncated, w0 :: ws)
    else (decode5 w0 (ws.getD 0 0) (ws.getD 1 0) (ws.getD 2 0) (ws.getD 3 0), ws.drop (wordCount w0 - 1))

/-- Decoding of bytes: the instruction, or why there is none, and the bytes after it. -/
def decode (bytes : List Byte) : Decoded × List Byte :=
  match decodeWords (wordsOf bytes) with
  | (.ok i, rest) => (.ok i, bytes.drop (bytes.length - 4 * rest.length - bytes.length % 4))
  | (.reject r, _) => (.reject r, bytes)

/-! ### Encoding -/

/-- LEN of a form (R75). -/
def Form.code : Form → BitVec 2
  | .one => 0 | .lit => 1 | .ext => 2 | .extLit => 3

/-- Word 0 (R76). -/
def word0 (r : Row) (o : Args) : W32 :=
  (BitVec.ofNat 5 r.minor : BitVec 5) ++ (o.b.extractLsb' 0 6 : BitVec 6) ++ (o.a.extractLsb' 0 6 : BitVec 6)
    ++ (o.d.extractLsb' 0 6 : BitVec 6) ++ o.form.code ++ r.major.code

/-- Word 1 (R78). -/
def word1 (o : Args) : W32 :=
  o.xop ++ o.ord ++ BitVec.ofBool o.pinv ++ o.pm ++ BitVec.ofBool o.sat ++ o.rsc ++ o.ty
    ++ (o.b.extractLsb' 6 2 : BitVec 2) ++ (o.a.extractLsb' 6 2 : BitVec 2) ++ (o.d.extractLsb' 6 2 : BitVec 2)

/-- The words of an Osier instruction (R75 to R78). -/
def osierWords (r : Row) (o : Args) : List W32 :=
  let l0 : W32 := o.lit.extractLsb' 0 32
  let l1 : W32 := o.lit.extractLsb' 32 32
  match o.form with
  | .one => [word0 r o]
  | .lit => [word0 r o, l0, l1]
  | .ext => [word0 r o, word1 o, o.w2]
  | .extLit => [word0 r o, word1 o, o.w2, l0, l1]

/-- The word of a standard computing instruction. -/
def RvOp.word : RvOp → W32
  | .lui rd v => v ++ rd ++ (0x37 : BitVec 7)
  | .auipc rd v => v ++ rd ++ (0x17 : BitVec 7)
  | .jal rd off => (off.extractLsb' 19 1 : BitVec 1) ++ (off.extractLsb' 0 10 : BitVec 10)
      ++ (off.extractLsb' 10 1 : BitVec 1) ++ (off.extractLsb' 11 8 : BitVec 8) ++ rd ++ (0x6F : BitVec 7)
  | .jalr rd rs1 v => v ++ rs1 ++ (0 : BitVec 3) ++ rd ++ (0x67 : BitVec 7)
  | .branch c rs1 rs2 off => (off.extractLsb' 11 1 : BitVec 1) ++ (off.extractLsb' 4 6 : BitVec 6) ++ rs2 ++ rs1
      ++ c.code ++ (off.extractLsb' 0 4 : BitVec 4) ++ (off.extractLsb' 10 1 : BitVec 1) ++ (0x63 : BitVec 7)
  | .imm op rd rs1 i => i ++ rs1 ++ op.code.1 ++ rd ++ op.code.2
  | .sh op rd rs1 n => op.code.1 ++ n ++ rs1 ++ op.code.2.1 ++ rd ++ op.code.2.2
  | .reg op rd rs1 rs2 => op.code.1 ++ rs2 ++ rs1 ++ op.code.2.1 ++ rd ++ op.code.2.2
  | .un op rd rs1 => op.code.1 ++ rs1 ++ op.code.2.1 ++ rd ++ op.code.2.2
  | .sfenceVma rs1 rs2 => (9 : BitVec 7) ++ rs2 ++ rs1 ++ (0 : BitVec 3) ++ (0 : BitVec 5) ++ (0x73 : BitVec 7)

/-- The word of an AMO, `lr` or `sc` with funct5 `f5`. -/
def AmoArgs.word (o : AmoArgs) (f5 : BitVec 5) : W32 :=
  f5 ++ BitVec.ofBool o.aq ++ BitVec.ofBool o.rl ++ o.rs2 ++ o.rs1
    ++ (if o.dbl then (3 : BitVec 3) else 2) ++ o.rd ++ (0x2F : BitVec 7)

/-- The word of a CSR instruction. -/
def CsrArgs.word (o : CsrArgs) : W32 := o.csr ++ o.src ++ o.f3 ++ o.rd ++ (0x73 : BitVec 7)

/-- The words of an instruction of a hart; a step of the device has none. -/
def encode (i : Instr) : List W32 :=
  match i.osier with
  | some (r, o) => osierWords r o
  | none =>
    match i with
    | .ecall | .ecallRetire | .tinkerHandlerEnd => [0x00000073]
    | .ebreak => [0x00100073]
    | .wfi => [0x10500073]
    | .sretMret false => [0x10200073]
    | .sretMret true => [0x30200073]
    | .fence o => [o.fm ++ o.pred ++ o.succ ++ o.rs1 ++ (0 : BitVec 3) ++ o.rd ++ (0x0F : BitVec 7)]
    | .fenceI o => [o.imm ++ o.rs1 ++ (1 : BitVec 3) ++ o.rd ++ (0x0F : BitVec 7)]
    | .lr o => [o.word 2]
    | .sc o => [o.word 3]
    | .amo op o => [o.word op.code]
    | .standardAccess op r rs1 imm =>
      if op.isStore then
        [(imm.extractLsb' 5 7 : BitVec 7) ++ r ++ rs1 ++ op.code.1 ++ (imm.extractLsb' 0 5 : BitVec 5) ++ op.code.2]
      else [imm ++ rs1 ++ op.code.1 ++ r ++ op.code.2]
    | .csrWrite o | .lfcsrAccess o | .dflagsDrain o | .msdepthWrite o | .regwinWrite o => [o.word]
    | .clh wait fa fb => [(1 : BitVec 1) ++ wait ++ fa ++ fb ++ (0 : BitVec 4) ++ (0x5B : BitVec 7)]
    | .standardInstruction op => [op.word]
    | .illegalInstruction w => [w]
    | _ => []

/-- Word 0 of an instruction: what an illegal-instruction trap puts into `stval` (R87). -/
def Instr.word (i : Instr) : W32 := (encode i).headD 0

/-- How many words an instruction has (R75). -/
def Instr.size (i : Instr) : Nat := (encode i).length

/-- The instruction this decoder reads from an instruction whose bits are `w`, numbered as spec/opcode_table.json numbers
them: bit 0 is the least significant bit of the first word. -/
def decodeTableWord (nbits w : Nat) : Option Instr :=
  let v := w % 2 ^ nbits
  let wd (k : Nat) : W32 := BitVec.ofNat 32 (v >>> (32 * k))
  match decode (bytesOf [wd 0, wd 1, wd 2, wd 3, wd 4]) with
  | (.ok i, _) => some i
  | (.reject _, _) => none

end Sys2Proof
end

