-- ==== Sys2Proof/Machine/Table.lean ====
section
/-! DEFINITION. Tables, memories and sorted lists: reading, writing, and runs of bytes (R5). -/

namespace Sys2Proof.Machine

/-- The value of key `k`, or the table's default `d`. -/
def Tab.get {β : Type} (t : Tab β) (d : β) (k : Nat) : β :=
  match t with
  | [] => d
  | (j, v) :: r => if k = j then v else Tab.get r d k

/-- The listed value of key `k`. -/
def Tab.look {β : Type} (t : Tab β) (k : Nat) : Option β :=
  match t with
  | [] => none
  | (j, v) :: r => if k = j then some v else Tab.look r k

/-- Is key `k` listed? -/
def Tab.has {β : Type} (t : Tab β) (k : Nat) : Bool :=
  match t with
  | [] => false
  | (j, _) :: r => k == j || Tab.has r k

/-- The table without key `k`. -/
def Tab.del {β : Type} (t : Tab β) (k : Nat) : Tab β :=
  match t with
  | [] => []
  | (j, v) :: r => if k = j then Tab.del r k else (j, v) :: Tab.del r k

/-- `(k, v)` put in front of the first greater key. -/
def Tab.ins {β : Type} (t : Tab β) (k : Nat) (v : β) : Tab β :=
  match t with
  | [] => [(k, v)]
  | (j, w) :: r => if k < j then (k, v) :: (j, w) :: r else (j, w) :: Tab.ins r k v

/-- The table with `v` at key `k`; writing the default removes the entry. -/
def Tab.set {β : Type} [DecidableEq β] (t : Tab β) (d : β) (k : Nat) (v : β) : Tab β :=
  if v = d then t.del k else (t.del k).ins k v

/-- Every value changed; a table whose default `f` changes is not what this is for. -/
def Tab.mapVals {β : Type} (f : β → β) (t : Tab β) : Tab β := t.map (fun e => (e.1, f e.2))

/-- The keys whose values satisfy a test. -/
def Tab.keysWhere {β : Type} (p : β → Bool) (t : Tab β) : List Nat := (t.filter (fun e => p e.2)).map Prod.fst

/-- The lowest number below `n`, counted up from `i`, that is not a key; `i + n` when there is none. -/
def Tab.free {β : Type} (t : Tab β) : (n : Nat) → (i : Nat) → Nat
  | 0, i => i
  | n + 1, i => if t.has i then Tab.free t n (i + 1) else i

namespace Memory

/-- One byte. -/
def read (m : Memory) (a : Nat) : Byte := Tab.get m unlisted a

/-- One byte written. -/
def write (m : Memory) (a : Nat) (b : Byte) : Memory := Tab.set m unlisted a b

/-- `n` bytes from `a` up. -/
def readBytes (m : Memory) (a : Nat) : (n : Nat) → List Byte
  | 0 => []
  | n + 1 => m.read a :: readBytes m (a + 1) n

/-- Bytes written from `a` up. -/
def writeBytes (m : Memory) (a : Nat) : List Byte → Memory
  | [] => m
  | b :: bs => writeBytes (m.write a b) (a + 1) bs

/-- The memory with the `n` bytes from `a` up reading as unlisted ones do. -/
def clear (m : Memory) (a n : Nat) : Memory := m.filter (fun c => !(a ≤ c.1 && c.1 < a + n))

end Memory

/-! ### Sorted lists -/

/-- The list in increasing order of a test, equal ones in their order. -/
def insertBy {α : Type} (le : α → α → Bool) (a : α) : List α → List α
  | [] => [a]
  | b :: t => if le a b then a :: b :: t else b :: insertBy le a t

/-- The list sorted. -/
def sortBy {α : Type} (le : α → α → Bool) : List α → List α
  | [] => []
  | a :: t => insertBy le a (sortBy le t)

/-- Bytes cut or filled with zeros to a length. -/
def padTo (n : Nat) (bs : List Byte) : List Byte := bs.take n ++ List.replicate (n - bs.length) 0

end Sys2Proof.Machine
end

