-- ==== Sys2Proof/Machine/Ops.lean ====
section
/-! DEFINITION. The named operations over harts: finding units, reading and writing registers, advancing the pc, taking
an exception and returning from one, and the checks every instruction makes before it acts. -/

namespace Sys2Proof.Machine

/-- What a step of the model answers. -/
abbrev Out := Host.Outcome State Fault Refusal

/-! ### Units -/

/-- The core of a hart: its global core number, or 2,304 and up for a tinker (R16, R198); numbers of 2^24 and up stand for
the engine commands of a core, by ticket, and those of 2^40 and up for harts that are swapped out of a core. -/
def coreOf (h : Nat) : Nat :=
  if h < Config.harts then h / 8 else if h < 2 ^ 24 then Config.cores + (h - Config.harts)
  else if h < 2 ^ 40 then (h - 2 ^ 24) / 65536 else h % 4096

/-- The hart slot of a hart on its core. -/
def slotOf (h : Nat) : Nat := if h < Config.harts then h % 8 else if h < 2 ^ 40 then 0 else h / 4096 % 8

/-- The cluster of a core, which is also the number of its slice (R149). -/
def clusterOf (core : Nat) : Nat := core / 4

/-- The hart in slot `slot` of a core. -/
def hartAt (core slot : Nat) : Nat := if core < Config.cores then core * 8 + slot else Config.harts + (core - Config.cores)

/-- The code of a mode. -/
def Mode.code (md : Mode) : Nat :=
  match md with
  | .u => 0
  | .s => 1
  | .m => 3

namespace State

/-- A hart. -/
def hart (s : State) (h : Nat) : Hart := Tab.get s.harts Hart.vacant h

/-- A hart written. -/
def setHart (s : State) (h : Nat) (x : Hart) : State := { s with harts := Tab.set s.harts Hart.vacant h x }

/-- A core. -/
def core (s : State) (c : Nat) : Core := Tab.get s.cores {} c

/-- A core written. -/
def setCore (s : State) (c : Nat) (x : Core) : State := { s with cores := Tab.set s.cores {} c x }

/-- A cluster. -/
def cluster (s : State) (c : Nat) : Cluster := Tab.get s.clusters {} c

/-- A cluster written. -/
def setCluster (s : State) (c : Nat) (x : Cluster) : State := { s with clusters := Tab.set s.clusters {} c x }

/-- The hart that the step concerns. -/
def me (s : State) : Hart := s.hart s.cur

/-- The hart that the step concerns, written. -/
def setMe (s : State) (x : Hart) : State := s.setHart s.cur x

/-- A change to the hart that the step concerns. -/
def onMe (s : State) (f : Hart → Hart) : State := s.setMe (f s.me)

/-- A change to a hart. -/
def onHart (s : State) (h : Nat) (f : Hart → Hart) : State := s.setHart h (f (s.hart h))

/-- A change to a core. -/
def onCore (s : State) (c : Nat) (f : Core → Core) : State := s.setCore c (f (s.core c))

/-- A change to a cluster. -/
def onCluster (s : State) (c : Nat) (f : Cluster → Cluster) : State := s.setCluster c (f (s.cluster c))

/-- The core of the hart that the step concerns. -/
def myCore (s : State) : Nat := coreOf s.cur

/-- A free value and the state with the next one to draw (log 3). -/
def draw (s : State) : W64 × State := (Config.freeWord s.freeCtr, { s with freeCtr := s.freeCtr + 1 })

end State

/-! ### Registers -/

namespace Hart

/-- X(n): scalar register n; x0 reads 0 (R35, R90). -/
def X (h : Hart) (n : Nat) : W64 := if n = 0 then 0 else Tab.get h.x 0 n

/-- Scalar register n written; a write to x0 is discarded (R90). -/
def setX (h : Hart) (n : Nat) (w : W64) : Hart := if n = 0 then h else { h with x := Tab.set h.x 0 n w }

/-- V(r, l): lane l of lane register r (R90). -/
def V (h : Hart) (r l : Nat) : W32 := Tab.get h.v 0 (32 * r + l)

/-- Lane l of lane register r written. -/
def setV (h : Hart) (r l : Nat) (w : W32) : Hart := { h with v := Tab.set h.v 0 (32 * r + l) w }

/-- V64(r, l): lanes l of v(r+1) and vr joined (R37, R90). -/
def V64 (h : Hart) (r l : Nat) : W64 := h.V (r + 1) l ++ h.V r l

/-- V64(r, l) written. -/
def setV64 (h : Hart) (r l : Nat) (w : W64) : Hart :=
  (h.setV r l (w.extractLsb' 0 32)).setV (r + 1) l (w.extractLsb' 32 32)

/-- m0: the mask of the top mask-stack entry, all ones when the stack is empty (R38). -/
def m0 (h : Hart) : W32 :=
  match h.stack with
  | [] => 0xFFFFFFFF
  | e :: _ => e.mask

/-- Mask register k (R38). -/
def M (h : Hart) (k : Nat) : W32 := if k = 0 then h.m0 else Tab.get h.m 0 k

/-- Mask register k written; m0 follows the stack and is written by none (R38). -/
def setM (h : Hart) (k : Nat) (w : W32) : Hart := if k = 0 then h else { h with m := Tab.set h.m 0 k w }

/-- The pc of the next instruction after one of `n` words (R75). -/
def nextPc (h : Hart) (n : Nat) : W64 := h.pc + BitVec.ofNat 64 (4 * n)

/-- An instruction ends with the pc at `pc`: it counts once in `instret`, and no wait is left (R89). -/
def goto (h : Hart) (pc : W64) : Hart := { h with pc := pc, instret := h.instret + 1, wait := {}, passed := false }

/-- An instruction of `n` words ends and control falls through (R75). -/
def advance (h : Hart) (n : Nat) : Hart := h.goto (h.nextPc n)

/-- The instruction waits: it issues again from its pc (R34, R345). -/
def block (h : Hart) (code : Nat) (a b : W64 := 0) : Hart := { h with wait := { code, a, b } }

/-- A wait ended by its wake step: the hart is ready, and keeps its place in the line it waited in until its instruction issues
again (R189, R204, R252); `a` holds the code of the wait. -/
def woken (h : Hart) : Hart := { h with wait := { code := 0, a := BitVec.ofNat 64 h.wait.code } }

/-- Does the hart wait with a code, or has it been woken from that wait and not yet issued again? -/
def inLine (h : Hart) (code : Nat) : Bool := h.wait.code == code || (h.wait.code == 0 && h.wait.a == BitVec.ofNat 64 code)

end Hart

/-- The lanes of a mask, in increasing order. -/
def lanesOf (m : W32) : List Nat := (List.range 32).filter (fun l => m.getLsbD l)

/-- The predicate of R79. -/
def predMask (h : Hart) (o : Args) : W32 :=
  if o.pm = 0 then 0xFFFFFFFF else if o.pinv then ~~~ h.M o.pm.toNat else h.M o.pm.toNat

/-- Active() as a mask (R79). -/
def activeMask (h : Hart) (o : Args) : W32 := h.m0 &&& predMask h o

/-- Active() as a list of lanes in increasing order. -/
def active (h : Hart) (o : Args) : List Nat := lanesOf (activeMask h o)

/-- RM(): the rounding mode code, `c.rsc` when it names one and `lfcsr.frm` otherwise (R78, R80, R90). -/
def RM (h : Hart) (o : Args) : Nat :=
  if o.form = .one ∨ o.form = .lit ∨ o.rsc = 7 then h.frm.toNat else o.rsc.toNat

/-! ### Traps -/

/-- Bit i of a register set to b. -/
def setBit (w : W64) (i : Nat) (b : Bool) : W64 :=
  if b then w ||| (1#64 <<< i) else w &&& ~~~ (1#64 <<< i)

/-- Is a synchronous cause or an interrupt delegated to S mode? Traps from M mode and from the shadow context go to M
(R47, R278). -/
def delegated (h : Hart) (interrupt : Bool) (cause : Nat) : Bool :=
  h.mode != .m && !h.inShadow && (if interrupt then h.csr.mideleg else h.csr.medeleg).getLsbD cause

/-- The handler's address: the base of a trap vector, or base + 4 × cause for an interrupt when the vector's mode is 1. -/
def vectorPc (tvec : W64) (interrupt : Bool) (cause : Nat) : W64 :=
  let base := tvec &&& ~~~ 3#64
  if interrupt && (tvec &&& 3#64) == 1 then base + BitVec.ofNat 64 (4 * cause) else base

/-- The cause register's value: bit 63 marks an interrupt. -/
def causeWord (interrupt : Bool) (cause : Nat) : W64 :=
  if interrupt then (1#64 <<< 63) ||| BitVec.ofNat 64 cause else BitVec.ofNat 64 cause

/-- A `pause` interval whose end has come is over (R31). -/
def Hart.pauseAt (h : Hart) (now : Nat) : Hart := if now < h.pauseEnd then h else { h with pauseLen := 0 }

/-- The interval that the trap returned from had cut off, the latest of `cut`, begins anew, as if its `pause` were issued again (R34). -/
def Hart.pauseAgain (h : Hart) (cut : List Nat) (now : Nat) : Hart :=
  match cut.headD 0 with
  | 0 => h
  | n => { h with pauseEnd := now + n, pauseLen := n }

/-- Trap entry into S mode: `sepc`, `scause` and `stval` written, `sstatus.SPP` and `SPIE` saved, `SIE` cleared, the
attachment saved in S mode's hidden copy and cleared, the reservation lost, and a release or a `pause` interval that was under way
cut off (R34, R47, R84, R89, R175). -/
def Hart.enterS (h : Hart) (interrupt : Bool) (cause : Nat) (tval : W64) : Hart :=
  let st := setBit (setBit (setBit h.csr.mstatus 5 (h.csr.mstatus.getLsbD 1)) 1 false) 8 (h.mode == .s)
  { h with
    csr := { h.csr with mstatus := st, sepc := h.pc, scause := causeWord interrupt cause, stval := tval }
    pc := vectorPc h.csr.stvec interrupt cause
    mode := .s
    attS := h.att
    att := {}
    reservation := none
    rel := none
    noSpace := false
    pauseS := h.pauseLen :: h.pauseS
    pauseLen := 0
    pauseEnd := 0
    wait := {} }

/-- Trap entry into M mode, the same with the M registers, `MPP`, `MPIE` and `MIE` (R47, R84, R89). -/
def Hart.enterM (h : Hart) (interrupt : Bool) (cause : Nat) (tval : W64) : Hart :=
  let mpp : W64 := match h.mode with
    | .u => 0
    | .s => 1
    | .m => 3
  let st := (setBit (setBit h.csr.mstatus 7 (h.csr.mstatus.getLsbD 3)) 3 false &&& ~~~ (3#64 <<< 11)) ||| (mpp <<< 11)
  { h with
    csr := { h.csr with mstatus := st, mepc := h.pc, mcause := causeWord interrupt cause, mtval := tval }
    pc := vectorPc h.csr.mtvec interrupt cause
    mode := .m
    attM := h.att
    att := {}
    reservation := none
    rel := none
    noSpace := false
    pauseM := h.pauseLen :: h.pauseM
    pauseLen := 0
    pauseEnd := 0
    wait := {} }

/-- Taking an exception or interrupt: the mode entered is S where the cause is delegated and M otherwise. A trap that reaches
M mode on a compute hart, interrupts among them, other than an environment call from S mode, makes the monitor kill the hart's context
(R47). -/
def takeTrap (h : Nat) (interrupt : Bool) (cause : Nat) (tval : W64) (s : State) : State :=
  let x := (s.hart h).pauseAt s.cycle
  if delegated x interrupt cause then s.setHart h (x.enterS interrupt cause tval)
  else
    let t := s.setHart h (x.enterM interrupt cause tval)
    if x.tinker || (!interrupt && cause == 9 && !x.inShadow) then t
    else
      match (s.core (coreOf h)).holder with
      | some p => { t with doomed := t.doomed ++ [(p, 4)] }
      | none => t

/-- A synchronous trap of the instruction under way; it has no other effect (R90). -/
def trap (cause : Nat) (tval : W64) (s : State) : Out :=
  .next { takeTrap s.cur false cause tval s with trapped := true }

/-- Illegal(): cause 2 with word 0 of the instruction (R87, R90). -/
def illegal (i : Instr) (s : State) : Out := trap 2 (i.word.setWidth 64) s

/-- Return from S mode: `pc ← sepc`, the mode of `SPP`, `SIE ← SPIE`, `SPIE ← 1`, `SPP ← U`, the attachment restored
(R47, R84). -/
def Hart.sret (h : Hart) : Hart :=
  let st := h.csr.mstatus
  let st' := setBit (setBit (setBit st 1 (st.getLsbD 5)) 5 true) 8 false
  let st'' := setBit st' 17 false
  { h with
    csr := { h.csr with mstatus := st'' }
    pc := h.csr.sepc
    mode := if st.getLsbD 8 then .s else .u
    att := h.attS
    pauseS := h.pauseS.tail
    instret := h.instret + 1
    wait := {} }

/-- Return from M mode, the same with `mepc`, `MPP`, `MPIE` and `MIE`; `MPRV` clears when the mode returned to is not M. -/
def Hart.mret (h : Hart) : Hart :=
  let st := h.csr.mstatus
  let mpp := bitsOf st.toNat 12 11
  let st' := setBit (setBit st 3 (st.getLsbD 7)) 7 true &&& ~~~ (3#64 <<< 11)
  { h with
    csr := { h.csr with mstatus := if mpp = 3 then st' else setBit st' 17 false }
    pc := h.csr.mepc
    mode := if mpp = 3 then .m else if mpp = 1 then .s else .u
    att := h.attM
    pauseM := h.pauseM.tail
    instret := h.instret + 1
    wait := {} }

/-- Delivery of a user interrupt (R49): `uiepc`, `uicause` and pc in one step, the attachment saved and cleared (R84). -/
def Hart.deliver (h : Hart) (tag : Byte) (prio : BitVec 2) : Hart :=
  { h with
    uiepc := h.pc &&& ~~~ 3#64
    ucTag := tag
    ucPrio := prio
    uie := false
    pc := h.uitvec &&& ~~~ 3#64
    attU := h.att
    att := {}
    rel := none
    pauseU := h.pauseLen :: h.pauseU
    pauseLen := 0
    pauseEnd := 0
    wait := {} }

/-- Return from a user-interrupt handler (R50, R84). -/
def Hart.uiret (h : Hart) : Hart :=
  { h with pc := h.uiepc, uie := true, att := h.attU, pauseU := h.pauseU.tail, instret := h.instret + 1, wait := {}, passed := false }

/-! ### What every instruction checks before it acts -/

/-- Is a lane register, named by a field of kind `k`, inside the window (R36, R37)? -/
def Kind.inWindow (k : Kind) (w : Nat) (f : BitVec 8) : Bool :=
  match k with
  | .v => f.toNat < w
  | .vEven => f.toNat + 1 < w
  | _ => true

/-- Is every lane register an instruction names inside the window (R36, R37)? -/
def regsInWindow (h : Hart) (r : Row) (o : Args) : Bool :=
  Kind.inWindow r.d h.window o.d && Kind.inWindow r.a h.window o.a && Kind.inWindow r.b h.window o.b
    && (match r.w2 with
        | .reg => o.w2.toNat < h.window
        | .regEven => o.w2.toNat + 1 < h.window
        | _ => true)

/-- Does a lane instruction take its rounding mode from `lfcsr.frm` (R44, R92, R107)? -/
def usesFrm (i : Instr) (r : Row) (o : Args) : Bool :=
  r.major == .lane && r.rscs == Rows.rounds && (o.form == .one || o.rsc == 7)
    && (match i with
        | .vcvt _ => !Rows.neverRounds (Rows.cvtTypes o).1 (Rows.cvtTypes o).2
        | _ => true)

/-- May a hart run a family at all: the Tinker column of R86 with R181, and the table of R269? -/
def allowed (h : Hart) (r : Row) (o : Args) : Bool :=
  if h.tinker then
    match r.major with
    | .lane => false
    | .mem => r.minor == 4 || r.minor == 5 || (9 ≤ r.minor && r.minor ≤ 12)
    | .ctrl => r.minor == 6 || (r.minor == 9 && (o.xop == 1 || o.xop == 4 || o.xop == 5))
    | .sys => r.minor ≥ 13 && h.mode != .u
  else
    match r.major with
    | .sys =>
      if r.minor ≥ 13 then false
      else if r.minor = 11 then h.mode != .u
      else if r.minor = 12 then
        if o.b = 1 then h.inShadow else if o.b = 2 then h.mode != .u else true
      else true
    | .ctrl => r.minor != 15 || h.mode == .u
    | _ => true

/-- Every check of R87 that depends on the hart: the family on this hart and mode, the window, and a valid `frm` where it
is used (R36, R44, R86, R269). An instruction that is no Osier instruction passes. -/
def guard (i : Instr) (h : Hart) : Bool :=
  match i.osier with
  | some (r, o) => r.ok o && allowed h r o && regsInWindow h r o && (!usesFrm i r o || h.frm < 5)
  | none => true

/-- An Osier instruction under its guard: the illegal-instruction trap where the guard fails. -/
def guarded (i : Instr) (s : State) (k : Out) : Out := if guard i s.me then k else illegal i s

/-- An Osier instruction whose whole effect is on its own hart, after which control falls through. -/
def hartOp (i : Instr) (o : Args) (f : Hart → Hart) (s : State) : Out :=
  guarded i s (.next (s.setMe ((f s.me).advance o.words)))

end Sys2Proof.Machine
end

