-- ==== Sys2Proof/Machine/Coherence.lean ====
section
/-! DEFINITION. What memory holds for whom: the published bytes of device memory under each world tag, the copies a core
holds, performed and unpublished stores, the home's directory and its ordering step, and acquire (R149, R150, R209 to R215,
R223 to R230, R296 to R299). -/

namespace Sys2Proof.Machine

/-! ### Lines, tags and versions -/

/-- The 128-byte line of a device physical address. -/
def lineOf (pa : Nat) : Nat := pa / 128

/-- The key of a line under a world tag (R296). -/
def lineKey (tag line : Nat) : Nat := tag * 2 ^ 40 + line

/-- The key of a byte under a world tag. -/
def byteKey (tag pa : Nat) : Nat := tag * 2 ^ 47 + pa

/-- A version, if world `tag` holds one of the line (R296). -/
def State.version (s : State) (tag line : Nat) : Option Version := s.vers.find? (fun v => v.tag == tag && v.line == line)

/-- The world whose version, or 0 for the root's line, a hart of world `tag` sees of a line: its own, else its ancestors'
in turn, else the root's (R297). Nesting goes to depth 4 (R271). -/
def resolve (s : State) (line : Nat) : (fuel : Nat) → (tag : Nat) → Nat
  | 0, _ => 0
  | n + 1, tag =>
    if tag = 0 then 0
    else if (s.version tag line).isSome then tag else resolve s line n (Tab.get s.worlds {} tag).parent

/-- The tag seen (R297). -/
def State.seenTag (s : State) (tag pa : Nat) : Nat := resolve s (lineOf pa) 6 tag

/-- A byte of HBM as its home reads it: all ones where its key has been destroyed (R389). -/
def State.hbmByte (s : State) (pa : Nat) : Byte :=
  if s.lost.any (fun r => r.1 ≤ pa && pa < r.1 + r.2) then 0xFF else s.hbm.read pa

/-- What is left of a byte range beside `n` bytes at `a`. -/
def cutRange (a n : Nat) (r : Nat × Nat) : List (Nat × Nat) :=
  [(r.1, min r.2 (a - r.1)), (max r.1 (a + n), r.1 + r.2 - max r.1 (a + n))].filter (fun q => q.2 != 0)

/-- Bytes of HBM written as they stand: from then on they read back, whatever key they had (R389). -/
def State.putHbm (s : State) (a : Nat) (bs : List Byte) : State :=
  { s with hbm := s.hbm.writeBytes a bs, lost := s.lost.flatMap (cutRange a bs.length) }

/-- The published byte under exactly one tag, the root's where the tag has no version. -/
def State.byteAt (s : State) (tag pa : Nat) : Byte :=
  if tag = 0 then s.hbmByte pa
  else match s.version tag (lineOf pa) with
    | some v => v.bytes.getD (pa % 128) 0
    | none => s.hbmByte pa

/-- The published byte that a hart of world `tag` sees (R297). -/
def State.published (s : State) (tag pa : Nat) : Byte := s.byteAt (s.seenTag tag pa) pa

/-- World `tag`'s version of the line made, if it has none: the whole line as its ancestors or the root hold it (R298). -/
def State.makeVersion (s : State) (tag pa : Nat) : State :=
  if tag = 0 ∨ (s.version tag (lineOf pa)).isSome then s
  else
    let base := lineOf pa * 128
    { s with vers := s.vers ++ [⟨tag, lineOf pa, (List.range 128).map (fun i => s.published tag (base + i))⟩] }

/-- A published byte written under a tag, whose version exists. -/
def State.putByte (s : State) (tag pa : Nat) (b : Byte) : State :=
  if tag = 0 then { s with hbm := s.hbm.write pa b, lost := s.lost.flatMap (cutRange pa 1) }
  else { s with vers := s.vers.map (fun v =>
    if v.tag = tag ∧ v.line = lineOf pa then { v with bytes := v.bytes.set (pa % 128) b } else v) }

/-! ### Placement and homes (R151 to R154) -/

/-- An entry of the placement table: `first`, `count`, `map`, `rbase`, `rpages` (R152). -/
structure PlaceEntry where
  first : Nat
  count : Nat
  map : Nat
  rbase : Nat
  rpages : Nat
  deriving DecidableEq, Repr

/-- Entry n of a context's placement table (R152). -/
def placeEntry (c : Context) (n : Nat) : PlaceEntry :=
  let w (k : Nat) : Nat := (Tab.get c.ptab 0 (4 * n + k)).toNat
  { first := bitsOf (w 0) 9 0, count := bitsOf (w 0) 19 10, map := w 1, rbase := w 2, rpages := bitsOf (w 3) 31 0 }

/-- The hash of a line (R153). -/
def lineHash (pa : Nat) : Nat :=
  let p := pa / 128
  Nat.xor (Nat.xor (p % 65536) (p / 65536 % 65536)) (p / 2 ^ 32 % 65536)

/-- Is an entry usable (R151)? -/
def PlaceEntry.valid (e : PlaceEntry) : Bool := e.count != 0 && e.first + e.count ≤ Config.clusters

/-- The home slice of a line under a placement mode and entry, with the slice a first-touch page recorded (R153). -/
def homeSlice (c : Context) (pmode pidx : Nat) (recorded : Option Nat) (pa : Nat) : Nat :=
  let e := placeEntry c pidx
  match pmode with
  | 0 => e.first + lineHash pa % e.count
  | 1 => e.first
  | _ => recorded.getD e.first

/-- The home of a page-table or touch-map line: spread over all slices (R154, R317). -/
def tableSlice (pa : Nat) : Nat := lineHash pa % Config.clusters

/-- The placement table of a context. A tinker has no context: its leaves are placed by a table at its reset contents, in which
entry 0 spreads lines over all slices and no other entry is valid (R151, R152; DEDUCED, log 53). -/
def State.placeTable (s : State) (pasid : Nat) : Context :=
  if pasid ≥ 2 ^ 20 then { ptab := [(0, 0x90000)] } else Tab.get s.ctxs {} pasid

/-- The TLBs of a core: its own and its cluster's. -/
def State.tlbs (s : State) (core : Nat) : List TlbEntry := (s.core core).l1tlb ++ (s.cluster (clusterOf core)).tlb

/-- The home slice of a device address as a core's translations place it (R153); a line that none of them covers, such as one of
a page table, is spread over all slices (R154, R317). -/
def State.homeOf (s : State) (core pa : Nat) : Nat :=
  match (s.tlbs core).find? (fun e => !e.host && e.ppn ≤ pa / 4096 && pa / 4096 < e.ppn + 512 ^ e.level) with
  | some e => homeSlice (s.placeTable e.pasid) e.pmode e.pidx e.slice pa
  | none => tableSlice pa

/-! ### Copies that cores hold -/

/-- Does a core hold a line? -/
def Core.holds (c : Core) (key : Nat) : Bool := c.l1.any (fun e => e.line == key)

/-- The line of a byte key. -/
def keyOfByte (bk : Nat) : Nat := lineKey (bk / 2 ^ 47) (lineOf (bk % 2 ^ 47))

/-- A core without a line (R215, R226). -/
def Core.drop (c : Core) (key : Nat) : Core :=
  { c with l1 := c.l1.filter (fun e => e.line != key), old := c.old.filter (fun e => keyOfByte e.1 != key) }

/-- The line of an unpublished byte. -/
def Unpub.key (u : Unpub) : Nat := lineKey u.tag (lineOf u.loc.off)

/-- The lines of which a core's L1 holds performed, unpublished bytes of its harts (R149, R214); what an engine command has written
waits for its completion beside the L1 (log 46). -/
def Core.dirtyLines (c : Core) : List Nat :=
  ((c.unpub.filter (fun u => u.loc.place == .hbm && !u.evicted && u.hart < 2 ^ 24)).map Unpub.key).dedup

/-- Does a core's L1 hold performed, unpublished bytes of a line? -/
def Core.dirty (c : Core) (key : Nat) : Bool := c.dirtyLines.contains key

/-- The lines of a list in one set of the L1; the set is named by the low bits of the line's number (DESIGN CHOICE, log 43). -/
def sameSet (key : Nat) (ls : List Nat) : List Nat := ls.filter (fun k => k % Config.l1Sets == key % Config.l1Sets)

/-- The lines of an L1 set: copies, and lines with unpublished stores (R143, R149). -/
def Core.setLines (c : Core) (key : Nat) : List Nat := (sameSet key (c.l1.map L1Line.line ++ c.dirtyLines)).dedup

/-- The copy that leaves a full set for another line: the one held longest of those without an unpublished store (log 43). -/
def Core.victim (c : Core) (key : Nat) : Option Nat :=
  (c.l1.map L1Line.line).find? (fun k => k % Config.l1Sets == key % Config.l1Sets && k != key && !c.dirty k)

/-- The physical page of a line. -/
def pageOfKey (key : Nat) : Nat := key % 2 ^ 40 / 32

/-- Can a set take a line: it holds it, has a way free, or has a copy that can leave (R143)? -/
def Core.canFill (c : Core) (key : Nat) : Bool :=
  (c.setLines key).contains key || (c.setLines key).length < Config.l1Ways || (c.victim key).isSome

/-- A core's contention counter for a line (R228). -/
def Core.counter (c : Core) (line : Nat) : Nat := Tab.get c.predictor 0 (line % 64)

/-- A change to a core's contention counter. -/
def Core.setCounter (c : Core) (line n : Nat) : Core := { c with predictor := Tab.set c.predictor 0 (line % 64) n }

/-- The older value kept with a copy, where the home has ordered a newer byte since. -/
def oldByte (t : Tab Byte) (bk : Nat) : Option Byte := if Tab.has t bk then some (Tab.get t 0 bk) else none

/-- The published byte as a core reads it: from the copy it holds of the line the world sees, or from the home (R212,
R215). -/
def State.copyByte (s : State) (core tag pa : Nat) : Byte :=
  let rt := s.seenTag tag pa
  let c := s.core core
  if c.holds (lineKey rt (lineOf pa)) then (oldByte c.old (byteKey rt pa)).getD (s.byteAt rt pa)
  else s.byteAt rt pa

/-- The latest performed, unpublished store on a core to a location, by a hart of a world: every hart of the core in that world
reads it, wherever the line has gone (R209, R210, R214, R299). -/
def unpubByte (c : Core) (tag : Nat) (loc : Loc) : Option Byte :=
  (c.unpub.reverse.find? (fun u => u.loc == loc && u.tag == tag)).map Unpub.byte

/-- The key of a byte as instruction fetch names it; host bytes follow the device's (R88). -/
def codeKey (tag : Nat) (l : Loc) : Nat := if l.place = .host then 2 ^ 60 + l.off else byteKey tag l.off

/-- A store of a hart to memory counted, with the byte that it replaces (R88). -/
def State.noteStore (s : State) (tag : Nat) (l : Loc) (b : Byte) : State :=
  { s with written := s.written ++ [(s.writes, codeKey tag l, b)], writes := s.writes + 1 }

/-! ### The directory (R223 to R225) -/

/-- The mesh row of a pointer, as 8 × die + row (R223). The 72 bits of `cv` are those of the C-dies' rows; the core of a tinker marks a
row of its own beyond them (DESIGN CHOICE, log 43). -/
def rowOfPtr (p : Nat) : Nat :=
  let cl := if p < 4096 then clusterOf p else p - 4096
  cl / 64 * 8 + cl % 64 / 8

/-- A new sharer takes a free pointer; with four in use the entry turns coarse (R224). -/
def DirEntry.add (e : DirEntry) (p : Nat) : DirEntry :=
  if e.st = 3 then (if e.rows.contains (rowOfPtr p) then e else { e with rows := e.rows ++ [rowOfPtr p] })
  else if e.ptrs.contains p then { e with st := 1 }
  else if e.ptrs.length < 4 then { e with st := 1, ptrs := e.ptrs ++ [p] }
  else { e with st := 3, ptrs := [], rows := ((e.ptrs ++ [p]).map rowOfPtr).dedup }

/-- An eviction notice clears the matching pointer in states 1 and 2, and is ignored otherwise (R225). -/
def DirEntry.evict (e : DirEntry) (p : Nat) : DirEntry :=
  if e.st = 1 ∨ e.st = 2 then
    let ps := e.ptrs.filter (· != p)
    { e with ptrs := ps, st := if ps.isEmpty then 0 else e.st }
  else e

/-- The clusters that an invalidation of the entry goes to, the releasing core left out: those of the pointers, or every
cluster of every marked row (R225). -/
def DirEntry.targets (e : DirEntry) (except : Option Nat) : List Nat :=
  if e.st = 3 then (e.rows.map (fun r => (List.range 8).map (fun i => r / 8 * 64 + r % 8 * 8 + i))).flatten
  else ((e.ptrs.filter (fun p => some p != except)).map (fun p => if p < 4096 then clusterOf p else p - 4096)).dedup

namespace State

/-- A directory entry. -/
def dirEntry (s : State) (key : Nat) : DirEntry := Tab.get s.dir {} key

/-- A directory entry written; an uncached line has none. -/
def setDir (s : State) (key : Nat) (e : DirEntry) : State :=
  { s with dir := Tab.set s.dir {} key (if e.st = 0 then {} else e) }

/-- The cores that hold a line. -/
def holders (s : State) (key : Nat) : List Nat := (s.cores.filter (fun c => c.2.holds key)).map Prod.fst

/-- The home takes back an owned line: the owner's copy goes, its unpublished plain-store bytes stay, and its contention counter
rises where it had not performed a second atomic on the line (R228, R230). -/
def recallOwner (s : State) (key : Nat) : State :=
  let e := s.dirEntry key
  let line := key % 2 ^ 40
  let back (c : Core) : Core :=
    let d := c.drop key
    if c.l1.any (fun l => l.line == key && l.owned && l.atomics < 2) then d.setCounter line (min 3 (d.counter line + 1)) else d
  if e.st = 2 then (e.ptrs.foldl (fun s p => s.onCore p back) s).setDir key {} else s

/-- An invalidation arrives at a core: one that holds the line defers it; of 64 deferred lines the oldest is dropped at once
(R226). -/
def deferAt (key : Nat) (c : Core) : Core :=
  if c.holds key ∧ ¬ c.defer.contains key then
    match c.defer with
    | d :: ds => if ds.length + 1 < 64 then { c with defer := c.defer ++ [key] }
                 else { (c.drop d) with defer := ds ++ [key] }
    | [] => { c with defer := [key] }
  else c

/-- An invalidation arrives at a cluster: at each of its cores, and at its slice, which drops a requester-side copy (R226,
R227). Reservations on the line were cancelled when it was ordered at its home (R179). -/
def invalidate (s : State) (key cluster : Nat) : State :=
  ((List.range 4).foldl (fun s i => s.onCore (cluster * 4 + i) (deferAt key)) s).onCluster cluster (fun c =>
    { c with copies := Tab.del c.copies key, old := c.old.filter (fun e => keyOfByte e.1 != key) })

/-- The invalidations of a slice that are still under way to a cluster arrive, in the order in which they were sent: what the
slice sends after them does not pass them (R226). -/
def deliverTo (s : State) (slice cluster : Nat) : State :=
  let mine (t : Tracker) : Bool := t.slice == slice && t.sent.contains cluster
  let ts : Tab Tracker := (s.trackers.filter (fun t => mine t.2)).foldl (fun acc t => Tab.ins acc t.2.order t.2) []
  let t := ts.foldl (fun s t => s.invalidate (lineKey t.2.tag t.2.line) cluster) s
  { t with trackers := t.trackers.map (fun e => if mine e.2 then (e.1, { e.2 with sent := e.2.sent.erase cluster }) else e) }

/-- The invalidations of a line that are still under way arrive. -/
def deliverLine (s : State) (tag line : Nat) : State :=
  (s.trackers.filter (fun t => t.2.tag == tag && t.2.line == line)).foldl (fun s t =>
    t.2.sent.foldl (fun s c => s.deliverTo t.2.slice c) s) s

/-- The acknowledgements that a cluster has sent to a slice are counted: what it sends there after them does not pass them
(R226). -/
def takeAcks (s : State) (slice cluster : Nat) : State :=
  let mine (t : Tracker) : Bool := t.slice == slice && t.unacked.contains cluster && !t.sent.contains cluster
  { s with trackers := s.trackers.filterMap (fun e =>
      if !mine e.2 then some e
      else
        let u := e.2.unacked.erase cluster
        if u = [] then none else some (e.1, { e.2 with unacked := u })) }

/-- The slice that a line's requests from a core go to: that of its entry, or its home (R153, R223). -/
def sliceFor (s : State) (core key : Nat) : Nat :=
  let e := s.dirEntry key
  if e.st = 0 then s.homeOf core (key % 2 ^ 40 * 128) else e.slice

/-- A line's trackers stand for stores of some more harts: until the invalidations that are under way have arrived, no release of those
harts is complete (R213). -/
def tagLine (s : State) (tag line : Nat) (hs : List Nat) : State :=
  { s with trackers := Tab.mapVals (fun (t : Tracker) =>
      if t.tag = tag ∧ t.line = line then { t with harts := t.harts ++ hs.filter (fun h => !t.harts.contains h) } else t) s.trackers }

/-- Every sharer of a line is invalidated, with the order of R226 kept: the invalidations arrive with the step. -/
def dropSharers (s : State) (key : Nat) : State :=
  let e := s.dirEntry key
  ((e.targets none).foldl (fun s c => (s.deliverTo e.slice c).invalidate key c) s).setDir key {}

/-- A line recalled before its entry is replaced: an owned copy is taken back, sharers are invalidated (R223). -/
def recallLine (s : State) (key : Nat) : State :=
  if (s.dirEntry key).st = 2 then s.recallOwner key else s.dropSharers key

/-- The keys of a slice's directory entries in the set of a line; the set is named by the low bits of the line's number (DESIGN
CHOICE, log 43). -/
def dirSet (s : State) (slice key : Nat) : List Nat :=
  (s.dir.filter (fun e => e.2.slice == slice && e.1 % Config.dirSets == key % Config.dirSets)).map Prod.fst

/-- Room made in a slice's directory for a line: with all 16 ways of its set in use, the entry of the lowest line is recalled (R223;
DESIGN CHOICE, log 43). -/
def makeRoom (s : State) (slice key : Nat) : State :=
  if (s.dirEntry key).st ≠ 0 ∨ (s.dirSet slice key).length < Config.dirWays then s
  else match s.dirSet slice key with
    | k :: _ => s.recallLine k
    | [] => s

/-- A line leaves a core's L1 clean, and its home learns it (R225). -/
def leaveL1 (s : State) (core key : Nat) : State :=
  if (s.core core).holds key then
    ((s.takeAcks (s.dirEntry key).slice (clusterOf core)).onCore core (fun c => c.drop key)).setDir key ((s.dirEntry key).evict core)
  else s

/-- A line with unpublished stores goes from the L1 to the L2 as pending, and takes a page of the root's overlay (R214, R302). -/
def pendLine (s : State) (core key : Nat) : State :=
  let p := ((s.core core).holder).getD (2 ^ 21)
  let c := Tab.get s.ctxs {} p
  let t := s.onCore core (fun k =>
    { k.drop key with unpub := k.unpub.map (fun u => if u.loc.place = .hbm ∧ u.key = key then { u with evicted := true } else u) })
  if key / 2 ^ 40 = 0 ∧ !c.pages.contains (pageOfKey key) then
    { t with ctxs := Tab.set t.ctxs {} p { c with pages := c.pages ++ [pageOfKey key] } }
  else t

/-- Room for a line in its L1 set: with all eight ways in use a copy without stores leaves, or else the line whose stores are oldest goes
to the L2 as pending (R143, R214). -/
def roomL1 (s : State) (core key : Nat) : State :=
  let c := s.core core
  if (c.setLines key).contains key ∨ (c.setLines key).length < Config.l1Ways then s
  else match c.victim key with
    | some k => s.leaveL1 core k
    | none => match (sameSet key c.dirtyLines).head? with
      | some k => s.pendLine core k
      | none => s

/-- A line put into a core's L1, for which room is made (R143). -/
def fillL1 (s : State) (core : Nat) (l : L1Line) : State :=
  (s.roomL1 core l.line).onCore core (fun c => { c with l1 := c.l1 ++ [l] })

/-- A read miss at the home: the core gets the line's latest bytes and becomes a sharer, after what the home has sent to its
cluster before; a line already held stays as it is, and one whose set holds eight lines with unpublished stores is not
kept (R143, R223 to R226, R230). -/
def homeRead (s : State) (core tag pa : Nat) : State :=
  let key := lineKey (s.seenTag tag pa) (lineOf pa)
  if (s.core core).holds key then s
  else
    let sl := s.sliceFor core key
    let t := (s.takeAcks sl (clusterOf core)).recallOwner key
    if !(s.core core).canFill key then t.deliverTo sl (clusterOf core)
    else
      let u := (t.makeRoom sl key).deliverTo sl (clusterOf core)
      (u.setDir key { (u.dirEntry key).add core with slice := sl }).fillL1 core { line := key }

/-- Copies of a line keep the byte they hold when the home orders a newer one: every core but the writer's, and every
requester-side copy (R212, R215, R227). -/
def keepOld (s : State) (tag pa : Nat) (except : Option Nat) : State :=
  let key := lineKey tag (lineOf pa)
  let bk := byteKey tag pa
  let b := s.byteAt tag pa
  let note (t : Tab Byte) : Tab Byte := if Tab.has t bk then t else Tab.ins t bk b
  { s with
    cores := s.cores.map (fun c => if c.2.holds key ∧ some c.1 ≠ except then (c.1, { c.2 with old := note c.2.old }) else
      if some c.1 = except then (c.1, { c.2 with old := Tab.del c.2.old bk }) else c)
    clusters := s.clusters.map (fun c => if Tab.has c.2.copies key then (c.1, { c.2 with old := note c.2.old }) else c) }

/-- Reservations of other harts on the granule of a location are lost (R89, R179). -/
def breakReservations (s : State) (loc : Loc) (writer : Option Nat) (onlyCore : Option Nat) : State :=
  { s with harts := s.harts.map (fun e =>
      match e.2.reservation with
      | some r =>
        if some e.1 ≠ writer ∧ r.loc.place = loc.place ∧ r.loc.off / 128 = loc.off / 128
            ∧ (onlyCore = none ∨ onlyCore = some (coreOf e.1)) then (e.1, { e.2 with reservation := none })
        else e
      | none => e) }

/-- One byte of device memory ordered at its home (R225): copies keep what they hold, reservations of others fall, and fetch
goes on seeing the earlier byte where a hart wrote it (R88). -/
def orderByte (s : State) (tag pa : Nat) (b : Byte) (writer : Option Nat) : State :=
  let t := s.makeVersion tag pa
  let u := t.keepOld tag pa (writer.map coreOf)
  let u := if writer.isSome then u.noteStore tag ⟨.hbm, pa⟩ (u.byteAt tag pa) else u
  (u.putByte tag pa b).breakReservations ⟨.hbm, pa⟩ writer none

/-- A free tracker number of a slice: 32 each, numbered 32 × slice + n (R225). -/
def freeTracker (s : State) (slice : Nat) : Option Nat :=
  ((List.range 32).map (fun i => slice * 32 + i)).find? (fun i => !Tab.has s.trackers i)

/-- Would the ordering step of a line find a free tracker, or need none (R225), with no back-invalidation of a host copy
of the line left to wait for (R365)? -/
def canOrder (s : State) (tag line : Nat) (core : Option Nat) : Bool :=
  let e := s.dirEntry (lineKey tag line)
  ((e.targets core).isEmpty || (s.freeTracker e.slice).isSome) && !(tag == 0 && s.hostLines.contains line)

/-- A back-invalidation snoop of a line that the host may cache is sent, once (R365). -/
def snoop (s : State) (tag line : Nat) : State :=
  if tag = 0 ∧ s.hostLines.contains line ∧ ¬ s.snoops.contains line then { s with snoops := s.snoops ++ [line] } else s

/-- May the ordering steps of some lines be made now: each finds a tracker, with those that the others take, no page of them is
migrating, and the host caches none (R225, R231, R365)? -/
def canOrderAll (s : State) (lines : List (Nat × Nat)) (core : Option Nat) : Bool :=
  let sliceOf (l : Nat × Nat) : Nat := (s.dirEntry (lineKey l.1 l.2)).slice
  let busy := lines.filter (fun l => !((s.dirEntry (lineKey l.1 l.2)).targets core).isEmpty)
  let free (slice : Nat) : Nat := ((List.range 32).filter (fun i => !Tab.has s.trackers (slice * 32 + i))).length
  lines.all (fun l => !s.migrating.contains (l.2 / 32) && s.canOrder l.1 l.2 core)
    && busy.all (fun l => (busy.filter (fun k => sliceOf k == sliceOf l)).length ≤ free (sliceOf l))

/-- Back-invalidation snoops for lines that the host may cache (R365). -/
def snoopAll (s : State) (lines : List (Nat × Nat)) : State := lines.foldl (fun s l => s.snoop l.1 l.2) s

/-- Harts that have read a byte of a line that one of the harts `hs` of their core stored and had not published (R216). -/
def readersOf (s : State) (hs : List Nat) (line : Nat) : List Nat :=
  (s.harts.filter (fun x => x.2.scReads.any (fun r => hs.contains r.1 && r.2.place == .hbm && lineOf r.2.off == line))).map Prod.fst

/-- The directory's part of the ordering step of a line that harts `hs` have stored to: an owned line is recalled first,
invalidations go to the sharers under a tracker, and the entry is reset to the releasing core when it keeps the line (R225,
R230). Invalidations of the line that an earlier step has sent and that are still under way count for the harts' releases too (R213).
With every tracker of the slice in use, which the writers that can wait do wait for, the invalidations arrive with the step. -/
def orderLine (s : State) (tag line : Nat) (core : Option Nat) (hs : List Nat) : State :=
  let key := lineKey tag line
  let sl := match core with
    | some c => s.sliceFor c key
    | none => (s.dirEntry key).slice
  let s := match core with
    | some c => s.takeAcks sl (clusterOf c)
    | none => s
  let s := (s.tagLine tag line hs)
  let s := if (s.dirEntry key).st = 2 then s.recallOwner key else s
  let cl := (s.dirEntry key).targets core
  let keep := match core with
    | some c => (s.core c).holds key
    | none => false
  let t := if keep then (s.makeRoom sl key).setDir key { slice := sl, st := 1, ptrs := core.toList } else s.setDir key {}
  match t.freeTracker sl with
  | some i =>
    if cl.isEmpty then t
    else { t with trackers := Tab.ins (Tab.del t.trackers i) i
                    { slice := sl, line, tag, harts := hs, sent := cl, unacked := cl, readers := s.readersOf hs line
                      order := (t.trackers.map (fun k => k.2.order)).foldl max 0 + 1 } }
  | none => cl.foldl (fun s c => (s.deliverTo sl c).invalidate key c) t

/-- The same for a writer that waits for no acknowledgement, the host, another module, a message or the tables: the
invalidations have arrived when the step is over, those of earlier steps among them, so that every acquire after it sees what was
written (R219, R221, R226). -/
def orderNow (s : State) (tag line : Nat) : State := (s.deliverLine tag line).recallLine (lineKey tag line)

/-- Bytes of device memory written at their homes by an agent other than a releasing hart: an atomic at the home, an
engine, the host; each line has its ordering step, a copy that the host may hold of it being snooped and given up first
(R219, R225, R365). -/
def writePublished (s : State) (tag : Nat) (writer : Option Nat) (ws : List (Nat × Byte)) : State :=
  let s := if tag = 0 then { s with hostLines := s.hostLines.filter (fun l => !ws.any (fun w => lineOf w.1 == l)) } else s
  let t := ws.foldl (fun s w => s.orderByte tag w.1 w.2 writer) s
  ((ws.map (fun w => lineOf w.1)).dedup).foldl (fun s l =>
    match writer with
    | some h => s.orderLine tag l (some (coreOf h)) [h]
    | none => s.orderNow tag l) t

/-- Bytes written by a core in its L1 on a line that it owns: no home takes part; a release awaits what is still under way of the line's
earlier steps (R213, R228). -/
def writeOwned (s : State) (tag h : Nat) (ws : List (Nat × Byte)) : State :=
  let t := ws.foldl (fun s w => s.orderByte tag w.1 w.2 (some h)) s
  ((ws.map (fun w => lineOf w.1)).dedup).foldl (fun s l => s.tagLine tag l [h]) t

/-- Stores of harts to some bytes noted for fetch, where they are made by way of an agent that is no hart (R88). -/
def noteBytes (s : State) (tag pa n : Nat) : State :=
  (List.range n).foldl (fun s i => s.noteStore tag ⟨.hbm, pa + i⟩ (s.byteAt tag (pa + i))) s

/-- The acquire of a core: every deferred invalidation is applied in one step (R215). -/
def acquireCore (s : State) (core : Nat) : State :=
  s.onCore core (fun c => { c.defer.foldl Core.drop c with defer := [] })

/-! ### Performing and publishing stores -/

/-- Overlay pages of a context that are allocated: versions under its worlds' tags, pending lines of its root, and 24 KiB
of log for each world (R302). -/
def overlayUsed (s : State) (pasid : Nat) : Nat :=
  let ws := (s.worlds.filter (fun w => w.2.pasid == pasid && w.2.state != .free)).map Prod.snd
  (ws.map (fun w => w.pages.length + 6)).sum + (Tab.get s.ctxs {} pasid).pages.length

/-- Has the root of a context no overlay pages left for `n` more (R214, R303)? `used` counts 65,535 at most (R44). -/
def rootSpent (s : State) (pasid n : Nat) : Bool :=
  let c := Tab.get s.ctxs {} pasid
  n != 0 && (c.pages.length + n > c.quota || c.pages.length + n > 65535 || s.overlayUsed pasid + n > c.ovpages)

/-- A line with stores takes its place in its L1 set: when the set is over its eight ways, a copy without stores leaves it, or else
the line whose stores are oldest (R143, R214). -/
def settleSet (s : State) (core key : Nat) : State :=
  let c := s.core core
  if (c.setLines key).length ≤ Config.l1Ways then s
  else match c.victim key with
    | some k => s.leaveL1 core k
    | none => match (sameSet key c.dirtyLines).find? (· != key) with
      | some k => s.pendLine core k
      | none => s

/-- A byte performed at its core: device memory and scratchpad bytes wait for publication, and the line's read count, if it has
one, is cleared (R155); TCM, accumulator and host bytes take effect at their place (R166, R209). -/
def performByte (s : State) (h tag : Nat) (loc : Loc) (b : Byte) : State :=
  let core := coreOf h
  let note (s : State) : State :=
    (s.onCore core (fun c =>
      { c with unpub := c.unpub.filter (fun u => !(u.hart == h && u.loc == loc && u.tag == tag)) ++ [{ hart := h, tag, loc, byte := b }] }))
      |>.breakReservations loc (some h) (some core)
  match loc.place with
  | .hbm =>
    let t := s.onCore core (fun c =>
      { c with l1 := c.l1.map (fun l => if l.line % 2 ^ 40 = lineOf loc.off then { l with count := 0 } else l) })
    (note (t.makeVersion tag loc.off)).settleSet core (lineKey tag (lineOf loc.off))
  | .scratch _ => note s
  | .tcm c => (s.onCore c (fun k => { k with tcm := k.tcm.write loc.off b })).breakReservations loc (some h) none
  | .acc c => s.onCore c (fun k => { k with acc := k.acc.write loc.off b })
  | .lid c => s.onCore c (fun k => { k with lid := k.lid.write loc.off b })
  | .host => let t := s.noteStore tag loc (s.hostMem.read loc.off); { t with hostMem := t.hostMem.write loc.off b }
  | .window _ => s

/-- A byte published: device memory at its home under the world's tag, scratchpad at its bank (R213). -/
def publishByte (s : State) (u : Unpub) : State :=
  match u.loc.place with
  | .hbm => s.orderByte u.tag u.loc.off u.byte (some u.hart)
  | .scratch c =>
    (s.onCluster c (fun k => { k with scratch := k.scratch.write u.loc.off u.byte })).breakReservations u.loc (some u.hart) none
  | _ => s

end State

/-- The unpublished bytes that a publication takes, and those that stay: the bytes that satisfy a test, and the earlier ones of the
same core to the same places, which they overwrite and which therefore come first in coherence order (R210, R213). -/
def splitUnpub (p : Unpub → Bool) : List Unpub → List Unpub × List Unpub
  | [] => ([], [])
  | u :: t =>
    let r := splitUnpub p t
    if p u || t.any (fun v => p v && v.loc == u.loc && v.tag == u.tag) then (u :: r.1, r.2) else (r.1, u :: r.2)

namespace State

/-- The unpublished bytes of a core that satisfy a test are published, each line of device memory with its ordering step, whose
acknowledgements the later releases of the storing harts await; from then on a hart that has read one awaits its trackers, and the byte
itself no more (R213, R216, R225). -/
def publishWhere (s : State) (core : Nat) (p : Unpub → Bool) : State :=
  let r := splitUnpub p (s.core core).unpub
  let t := r.1.foldl publishByte (s.onCore core (fun c => { c with unpub := r.2 }))
  let dev := r.1.filter (fun u => u.loc.place == .hbm)
  let t := ((dev.map (fun u => (u.tag, lineOf u.loc.off))).dedup).foldl (fun s l =>
    s.orderLine l.1 l.2 (some core) ((dev.filter (fun u => u.key == lineKey l.1 l.2)).map Unpub.hart).dedup) t
  { t with harts := Tab.mapVals (fun (x : Hart) =>
      { x with scReads := x.scReads.filter (fun q => !r.1.any (fun u => u.hart == q.1 && u.loc == q.2)) }) t.harts }

/-- The lines of device memory that a publication would order. -/
def linesWhere (s : State) (core : Nat) (p : Unpub → Bool) : List (Nat × Nat) :=
  (((splitUnpub p (s.core core).unpub).1.filter (fun u => u.loc.place == .hbm)).map (fun u => (u.tag, lineOf u.loc.off))).dedup

end State

end Sys2Proof.Machine
end

