-- ==== Sys2Proof/Machine/Float.lean ====
section
/-! DEFINITION. Number formats and their arithmetic (R51 to R65, R99, R102 to R104): every operation computes its exact
value, or the exact value to within a remainder known to be nonzero, and rounds it once. -/

namespace Sys2Proof.Machine.Fp

/-! ### Flags -/

/-- NV, DZ, OF, UF, NX in bits 4 to 0 (R44). -/
def NV : BitVec 5 := 16
def DZ : BitVec 5 := 8
def OF : BitVec 5 := 4
def UF : BitVec 5 := 2
def NX : BitVec 5 := 1

/-! ### Formats -/

/-- A float format (R51): exponent bits, bias, mantissa bits, its largest finite magnitude pattern, whether it has
infinities, and the canonical NaN pattern where it has NaNs (R52). -/
structure Fmt where
  width : Nat
  ebits : Nat
  bias : Nat
  mbits : Nat
  maxMag : Nat
  hasInf : Bool
  nan : Option Nat
  deriving DecidableEq, Repr

def f32 : Fmt := ⟨32, 8, 127, 23, 0x7F7FFFFF, true, some 0x7FC00000⟩
def bf16 : Fmt := ⟨16, 8, 127, 7, 0x7F7F, true, some 0x7FC0⟩
def f16 : Fmt := ⟨16, 5, 15, 10, 0x7BFF, true, some 0x7E00⟩
def e4m3 : Fmt := ⟨8, 4, 7, 3, 0x7E, false, some 0x7F⟩
def e5m2 : Fmt := ⟨8, 5, 15, 2, 0x7B, true, some 0x7E⟩
def e2m1 : Fmt := ⟨4, 2, 1, 1, 0x7, false, none⟩

/-- The format of a type code (R78); FP32 for a code that names no float. -/
def fmtOf (t : Nat) : Fmt :=
  match t with
  | 8 => bf16
  | 9 => f16
  | 10 => e4m3
  | 11 => e5m2
  | 12 => e2m1
  | _ => f32

/-- Does `ftz` affect the format (R60)? -/
def Fmt.flushes (f : Fmt) : Bool := f.width ≥ 16

/-- The pattern of an infinity; the canonical NaN where the format has none. -/
def Fmt.infMag (f : Fmt) : Nat := if f.hasInf then f.maxMag + 1 else f.nan.getD f.maxMag

/-- A value: a NaN, an infinity, or ± m × 2^e. -/
inductive Val where
  | nan (signalling : Bool)
  | inf (neg : Bool)
  | fin (neg : Bool) (m : Nat) (e : Int)
  deriving DecidableEq, Repr

/-- The exponent of the format's smallest subnormal. -/
def Fmt.qmin (f : Fmt) : Int := 1 - (f.bias : Int) - (f.mbits : Int)

/-- The value of a bit pattern (R51, R52). -/
def decode (f : Fmt) (bits : Nat) : Val :=
  let mag := bits % 2 ^ (f.width - 1)
  let neg := (bits >>> (f.width - 1)) % 2 == 1
  let e := mag >>> f.mbits
  let m := mag % 2 ^ f.mbits
  if f.hasInf ∧ mag = f.maxMag + 1 then .inf neg
  else if mag > f.maxMag then .nan (f.width ≥ 16 && !(m >>> (f.mbits - 1) == 1))
  else if e = 0 then .fin neg m f.qmin
  else .fin neg (m + 2 ^ f.mbits) (f.qmin + (e : Int) - 1)

/-- A value with the input flush of R60: a subnormal input of FP32, BF16 or FP16 reads as zero of its sign. -/
def decodeFtz (f : Fmt) (ftz : Bool) (bits : Nat) : Val :=
  match decode f bits with
  | .fin neg m e => if ftz && f.flushes && m < 2 ^ f.mbits then .fin neg 0 e else .fin neg m e
  | v => v

/-- The pattern of a sign and a magnitude. -/
def withSign (f : Fmt) (neg : Bool) (mag : Nat) : Nat := if neg then mag + 2 ^ (f.width - 1) else mag

/-- The canonical NaN (R52); +0 where the format has none (R63). -/
def Fmt.canonNan (f : Fmt) : Nat := f.nan.getD 0

/-! ### Rounding -/

/-- Rounding modes by code: 0 RNE, 1 RTZ, 2 RDN, 3 RUP, 4 RMM (R44). Does the mode carry a magnitude with remainder
`r` out of `2 × half` (and a further nonzero part when `sticky`) upward from the quotient `n`? -/
def roundUp (rm : Nat) (neg : Bool) (n r half : Nat) (sticky : Bool) : Bool :=
  let inexact := r ≠ 0 ∨ sticky
  let above := r > half ∨ (r = half ∧ sticky)
  match rm with
  | 0 => decide (above ∨ (r = half ∧ ¬ sticky ∧ half ≠ 0 ∧ n % 2 = 1))
  | 1 => false
  | 2 => decide (inexact ∧ neg)
  | 3 => decide (inexact ∧ ¬ neg)
  | _ => decide (above ∨ (r = half ∧ half ≠ 0))

/-- A magnitude m × 2^e (and a further part below 2^e when `sticky`) rounded to a multiple of 2^q: the multiple, and
whether it is inexact. -/
def roundAt (rm : Nat) (neg : Bool) (m : Nat) (e q : Int) (sticky : Bool) : Nat × Bool :=
  if q ≤ e then
    let n := m * 2 ^ (e - q).toNat
    (if roundUp rm neg n 0 0 sticky && sticky then n + 1 else n, sticky)
  else
    let sh := (q - e).toNat
    let n := m >>> sh
    let r := m % 2 ^ sh
    (if roundUp rm neg n r (2 ^ (sh - 1)) sticky then n + 1 else n, r != 0 || sticky)

/-- The rounded pattern and the flags raised. -/
structure Res where
  bits : Nat
  flags : BitVec 5 := 0
  deriving DecidableEq, Repr

/-- The outcome of an overflow (R63, R102): the largest finite magnitude where the mode rounds toward zero for the sign or
the result saturates, and otherwise an infinity, or the NaN of a format that has no infinity; E2M1 always clamps. -/
def overflow (f : Fmt) (rm : Nat) (neg sat : Bool) : Nat :=
  let toMax := sat || rm == 1 || (rm == 2 && !neg) || (rm == 3 && neg) || f.nan == none
  if toMax then withSign f neg f.maxMag
  else if f.hasInf then withSign f neg f.infMag else f.canonNan

/-- Round(x, f, rm): an exact nonzero magnitude m × 2^e, with a further part when `sticky`, rounded once (R58 to R60,
R63). -/
def round (f : Fmt) (rm : Nat) (ftz sat neg : Bool) (m : Nat) (e : Int) (sticky : Bool := false) : Res :=
  let lead := e + (Nat.log2 m : Int)
  let qu := lead - (f.mbits : Int)
  let u := roundAt rm neg m e qu sticky
  let emin := f.qmin + (f.mbits : Int)
  let tiny := lead < emin ∧ ¬ (u.1 = 2 ^ (f.mbits + 1) ∧ lead = emin - 1)
  if tiny ∧ ftz ∧ f.flushes then ⟨withSign f neg 0, UF ||| NX⟩
  else
    let q := if qu < f.qmin then f.qmin else qu
    let b := if qu < f.qmin then roundAt rm neg m e f.qmin sticky else u
    let mag := (q - f.qmin).toNat * 2 ^ f.mbits + b.1
    if mag > f.maxMag then ⟨overflow f rm neg sat, OF ||| NX⟩
    else ⟨withSign f neg mag, if b.2 then (if tiny then UF ||| NX else NX) else 0⟩

/-- A value rounded to a format: zeros and infinities keep their sign, a NaN becomes the canonical NaN. -/
def roundVal (f : Fmt) (rm : Nat) (ftz sat : Bool) (v : Val) : Res :=
  match v with
  | .nan _ => ⟨f.canonNan, 0⟩
  | .inf neg => ⟨if f.hasInf then withSign f neg f.infMag else f.canonNan, 0⟩
  | .fin neg m e => if m = 0 then ⟨withSign f neg 0, 0⟩ else round f rm ftz sat neg m e

/-! ### Arithmetic -/

/-- Is a value a signalling NaN? -/
def Val.isSnan : Val → Bool
  | .nan s => s
  | _ => false

/-- Is a value a NaN? -/
def Val.isNan : Val → Bool
  | .nan _ => true
  | _ => false

/-- NV where an operand is a signalling NaN (R59). -/
def snan (vs : List Val) : BitVec 5 := if vs.any Val.isSnan then NV else 0

/-- A finite value as a signed multiple of 2^e'. -/
def scaled (neg : Bool) (m : Nat) (e e' : Int) : Int :=
  let k : Int := (m : Int) * (2 : Int) ^ (e - e').toNat
  if neg then -k else k

/-- The exact sum of two finite values; an exact zero sum of values that are not both zeros of one sign is +0, or −0 when
rounding down. -/
def addFin (rm : Nat) (n1 : Bool) (m1 : Nat) (e1 : Int) (n2 : Bool) (m2 : Nat) (e2 : Int) : Val :=
  let e := if e1 ≤ e2 then e1 else e2
  let k := scaled n1 m1 e1 e + scaled n2 m2 e2 e
  if k = 0 then .fin (if m1 = 0 ∧ m2 = 0 ∧ n1 = n2 then n1 else rm == 2) 0 e
  else .fin (k < 0) k.natAbs e

/-- x + y with NV for ∞ − ∞ and for a signalling NaN. -/
def add (rm : Nat) (x y : Val) : Val × BitVec 5 :=
  match x, y with
  | .nan a, .nan b => (.nan false, if a || b then NV else 0)
  | .nan a, _ => (.nan false, if a then NV else 0)
  | _, .nan b => (.nan false, if b then NV else 0)
  | .inf a, .inf b => if a = b then (.inf a, 0) else (.nan false, NV)
  | .inf a, _ => (.inf a, 0)
  | _, .inf b => (.inf b, 0)
  | .fin n1 m1 e1, .fin n2 m2 e2 => (addFin rm n1 m1 e1 n2 m2 e2, 0)

/-- x with its sign inverted. -/
def Val.neg : Val → Val
  | .nan s => .nan s
  | .inf a => .inf (!a)
  | .fin a m e => .fin (!a) m e

/-- x × y, exact, with NV for 0 × ∞ and for a signalling NaN. -/
def mul (x y : Val) : Val × BitVec 5 :=
  match x, y with
  | .nan a, .nan b => (.nan false, if a || b then NV else 0)
  | .nan a, _ => (.nan false, if a then NV else 0)
  | _, .nan b => (.nan false, if b then NV else 0)
  | .inf a, .inf b => (.inf (a != b), 0)
  | .inf a, .fin b m _ => if m = 0 then (.nan false, NV) else (.inf (a != b), 0)
  | .fin b m _, .inf a => if m = 0 then (.nan false, NV) else (.inf (a != b), 0)
  | .fin a m e, .fin b n k => (.fin (a != b) (m * n) (e + k), 0)

/-- x × y + z with one rounding to come (R103): a product 0 × ∞ raises NV whatever z is. -/
def fma (rm : Nat) (x y z : Val) : Val × BitVec 5 :=
  let p := mul x y
  let r := add rm p.1 z
  (r.1, p.2 ||| r.2)

/-- Number of bits of a magnitude. -/
def bitLen (m : Nat) : Nat := if m = 0 then 0 else Nat.log2 m + 1

/-- The quotient of two nonzero magnitudes to at least 64 bits: multiple, exponent, and whether a part is left. -/
def divMag (m1 : Nat) (e1 : Int) (m2 : Nat) (e2 : Int) : Nat × Int × Bool :=
  let k := 64 + bitLen m2
  let n := m1 * 2 ^ k
  (n / m2, e1 - e2 - (k : Int), n % m2 != 0)

/-- x ÷ y rounded (R102): DZ for a finite nonzero value over zero, NV for 0/0, ∞/∞ and a signalling NaN. -/
def div (f : Fmt) (rm : Nat) (ftz sat : Bool) (x y : Val) : Res :=
  match x, y with
  | .nan a, .nan b => ⟨f.canonNan, if a || b then NV else 0⟩
  | .nan a, _ => ⟨f.canonNan, if a then NV else 0⟩
  | _, .nan b => ⟨f.canonNan, if b then NV else 0⟩
  | .inf _, .inf _ => ⟨f.canonNan, NV⟩
  | .inf a, .fin b _ _ => ⟨withSign f (a != b) f.infMag, 0⟩
  | .fin a _ _, .inf b => ⟨withSign f (a != b) 0, 0⟩
  | .fin a m e, .fin b n k =>
    if n = 0 then (if m = 0 then ⟨f.canonNan, NV⟩ else ⟨withSign f (a != b) f.infMag, DZ⟩)
    else if m = 0 then ⟨withSign f (a != b) 0, 0⟩
    else
      let q := divMag m e n k
      round f rm ftz sat (a != b) q.1 q.2.1 q.2.2

/-- Integer square root by bits: the greatest r below 2^k above `r` with r² ≤ n. -/
def isqrtFrom (n : Nat) : (k : Nat) → (r : Nat) → Nat
  | 0, r => r
  | k + 1, r => isqrtFrom n k (if (r + 2 ^ k) * (r + 2 ^ k) ≤ n then r + 2 ^ k else r)

/-- The integer square root. -/
def isqrt (n : Nat) : Nat := isqrtFrom n (bitLen n / 2 + 1) 0

/-- The square root of m × 2^e, m nonzero, to at least 64 bits. -/
def sqrtMag (m : Nat) (e : Int) : Nat × Int × Bool :=
  let k : Nat := if (e - 128) % 2 = 0 then 128 else 129
  let n := m * 2 ^ k
  let r := isqrt n
  (r, (e - (k : Int)) / 2, r * r != n)

/-- √x rounded (R104): √−0 = −0, NV for a negative nonzero value. -/
def sqrt (f : Fmt) (rm : Nat) (ftz sat : Bool) (x : Val) : Res :=
  match x with
  | .nan a => ⟨f.canonNan, if a then NV else 0⟩
  | .inf true => ⟨f.canonNan, NV⟩
  | .inf false => ⟨withSign f false f.infMag, 0⟩
  | .fin neg m e =>
    if m = 0 then ⟨withSign f neg 0, 0⟩
    else if neg then ⟨f.canonNan, NV⟩
    else
      let q := sqrtMag m e
      round f rm ftz sat false q.1 q.2.1 q.2.2

/-- 1/√x rounded (R104): DZ for ±0 giving ±∞, NV for a negative nonzero value. -/
def rsqrt (f : Fmt) (rm : Nat) (ftz sat : Bool) (x : Val) : Res :=
  match x with
  | .nan a => ⟨f.canonNan, if a then NV else 0⟩
  | .inf true => ⟨f.canonNan, NV⟩
  | .inf false => ⟨withSign f false 0, 0⟩
  | .fin neg m e =>
    if m = 0 then ⟨withSign f neg f.infMag, DZ⟩
    else if neg then ⟨f.canonNan, NV⟩
    else
      -- 1/√(m·2^e) = √(2^k / m) × 2^(−(e + k)/2)
      let k0 := 160 + 2 * bitLen m
      let k : Nat := if (e + (k0 : Int)) % 2 = 0 then k0 else k0 + 1
      let n := 2 ^ k
      let r := isqrt (n / m)
      round f rm ftz sat false r (-((e + (k : Int)) / 2)) (r * r * m != n)

/-- Bits of fraction that the transcendental functions carry. -/
def prec : Nat := 320

/-- Σ 2^prec / (k × 2^k) for k from `k` up, `n` terms: ln 2 in `prec` bits of fraction. -/
def ln2Sum : (n : Nat) → (k : Nat) → Nat
  | 0, _ => 0
  | n + 1, k => 2 ^ prec / (k * 2 ^ k) + ln2Sum n (k + 1)

/-- ln 2 × 2^prec. -/
def ln2 : Nat := ln2Sum 330 1

/-- The Taylor sum of e^y with `prec` bits of fraction, from term `t` = y^k/k!. -/
def expSum (y : Nat) : (n : Nat) → (k : Nat) → (t : Nat) → Nat
  | 0, _, _ => 0
  | n + 1, k, t => t + expSum y n (k + 1) (t * y / 2 ^ prec / (k + 1))

/-- 2^x rounded (R104). -/
def exp2 (f : Fmt) (rm : Nat) (ftz sat : Bool) (x : Val) : Res :=
  match x with
  | .nan a => ⟨f.canonNan, if a then NV else 0⟩
  | .inf true => ⟨withSign f false 0, 0⟩
  | .inf false => ⟨withSign f false f.infMag, 0⟩
  | .fin neg m e =>
    if m = 0 then round f rm ftz sat false 1 0
    else if e + (Nat.log2 m : Int) ≥ 16 then
      -- far beyond every format's range
      if neg then round f rm ftz sat false 1 (-100000) true else round f rm ftz sat false 1 100000 true
    else
      let k := scaled neg m (e + (prec : Int)) 0
      -- k = x × 2^prec, exact while e ≥ −prec
      let n := k / (2 ^ prec : Int)
      let fr := (k % (2 ^ prec : Int)).toNat
      if fr = 0 then round f rm ftz sat false 1 n
      else
        let y := fr * ln2 / 2 ^ prec
        round f rm ftz sat false (expSum y 80 0 (2 ^ prec)) (n - (prec : Int)) true

/-- Digits of log₂ of x/2^prec in [1, 2), `n` of them after the digits in `acc`, by squaring. -/
def log2Digits : (n : Nat) → (x : Nat) → (acc : Nat) → Nat
  | 0, _, acc => acc
  | n + 1, x, acc =>
    let y := x * x / 2 ^ prec
    if y ≥ 2 ^ (prec + 1) then log2Digits n (y / 2) (2 * acc + 1) else log2Digits n y (2 * acc)

/-- log₂ x rounded (R104): DZ for ±0 giving −∞, NV for a negative nonzero value, log₂ 1 = +0. -/
def log2 (f : Fmt) (rm : Nat) (ftz : Bool) (x : Val) : Res :=
  match x with
  | .nan a => ⟨f.canonNan, if a then NV else 0⟩
  | .inf true => ⟨f.canonNan, NV⟩
  | .inf false => ⟨withSign f false f.infMag, 0⟩
  | .fin neg m e =>
    if m = 0 then ⟨withSign f true f.infMag, DZ⟩
    else if neg then ⟨f.canonNan, NV⟩
    else
      let b := Nat.log2 m
      let n : Int := e + (b : Int)
      if m = 2 ^ b then
        (if n = 0 then ⟨withSign f false 0, 0⟩ else round f rm ftz false (n < 0) n.natAbs 0)
      else
        let digits := 128
        let t : Int := n * 2 ^ digits + (log2Digits digits (m * 2 ^ (prec - b)) 0 : Int)
        if t < 0 then round f rm ftz false true (-t - 1).toNat (-(digits : Int)) true
        else round f rm ftz false false t.toNat (-(digits : Int)) true

/-- x rounded to an integral value (R104): NX when the value changes. -/
def rint (f : Fmt) (rm : Nat) (x : Val) : Res :=
  match x with
  | .nan a => ⟨f.canonNan, if a then NV else 0⟩
  | .inf neg => ⟨withSign f neg f.infMag, 0⟩
  | .fin neg m e =>
    if m = 0 then ⟨withSign f neg 0, 0⟩
    else
      let n := roundAt rm neg m e (if e < 0 then 0 else e) false
      let r : Res := if n.1 = 0 then ⟨withSign f neg 0, 0⟩ else round f 1 false false neg n.1 (if e < 0 then 0 else e)
      ⟨r.bits, if n.2 then NX else 0⟩

/-! ### Comparison -/

/-- x − y compared with 0 for values that are not NaNs: less, equal or greater; −0 equals +0. -/
def cmp (x y : Val) : Ordering :=
  match x, y with
  | .inf a, .inf b => if a = b then .eq else if a then .lt else .gt
  | .inf a, _ => if a then .lt else .gt
  | _, .inf b => if b then .gt else .lt
  | .fin n1 m1 e1, .fin n2 m2 e2 =>
    let e := if e1 ≤ e2 then e1 else e2
    compare (scaled n1 m1 e1 e) (scaled n2 m2 e2 e)
  | _, _ => .eq

/-- The sign of a value. -/
def Val.sign : Val → Bool
  | .nan _ => false
  | .inf a => a
  | .fin a _ _ => a

/-- minimumNumber or maximumNumber with −0 below +0 (R99): is the first operand the one chosen? -/
def chooses (isMin : Bool) (x y : Val) : Bool :=
  match cmp x y with
  | .lt => isMin
  | .gt => !isMin
  | .eq => if isMin then x.sign || !y.sign else !x.sign || y.sign

/-- minimumNumber or maximumNumber (R99): a NaN loses to a number, two NaNs give the canonical NaN, a signalling NaN
raises NV. -/
def minMax (f : Fmt) (isMin : Bool) (x y : Val) : Res :=
  let fl := snan [x, y]
  if x.isNan && y.isNan then ⟨f.canonNan, fl⟩
  else if x.isNan then ⟨(roundVal f 0 false false y).bits, fl⟩
  else if y.isNan then ⟨(roundVal f 0 false false x).bits, fl⟩
  else ⟨(roundVal f 0 false false (if chooses isMin x y then x else y)).bits, fl⟩

/-- The eight conditions of R105 on floats, with their flags. -/
def condition (c : Nat) (x y : Val) : Bool × BitVec 5 :=
  let un := x.isNan || y.isNan
  let quiet := snan [x, y]
  let loud := if un then NV else 0
  match c with
  | 0 => (!un && cmp x y == .eq, quiet)
  | 1 => (un || cmp x y != .eq, quiet)
  | 2 => (!un && cmp x y == .lt, loud)
  | 3 => (!un && cmp x y != .gt, loud)
  | 4 => (!un && cmp x y == .gt, loud)
  | 5 => (!un && cmp x y != .lt, loud)
  | 6 => (un, quiet)
  | _ => (!un, quiet)

/-- The class mask of R104, of a pattern as stored. -/
def classify (f : Fmt) (bits : Nat) : Nat :=
  match decode f bits with
  | .nan true => 256
  | .nan false => 512
  | .inf true => 1
  | .inf false => 128
  | .fin neg m _ =>
    if m = 0 then (if neg then 8 else 16)
    else if m < 2 ^ f.mbits then (if neg then 4 else 32)
    else if neg then 2 else 64

/-! ### Conversion -/

/-- A float to a float format (R63). -/
def cvt (f : Fmt) (rm : Nat) (ftz sat : Bool) (v : Val) : Res :=
  match v with
  | .nan s => ⟨f.canonNan, if s || f.nan == none then NV else 0⟩
  | .inf neg =>
    ⟨if sat || f.nan == none then withSign f neg f.maxMag
     else if f.hasInf then withSign f neg f.infMag else f.canonNan, 0⟩
  | .fin neg m e => if m = 0 then ⟨withSign f neg 0, 0⟩ else round f rm ftz sat neg m e

/-- A float to an integer in lo … hi (R64): the result and flags. -/
def toInt (lo hi : Int) (rm : Nat) (v : Val) : Int × BitVec 5 :=
  match v with
  | .nan _ => (0, NV)
  | .inf neg => (if neg then lo else hi, NV)
  | .fin neg m e =>
    let n := roundAt rm neg m e 0 false
    let k : Int := if neg then -(n.1 : Int) else n.1
    if k < lo then (lo, NV) else if k > hi then (hi, NV) else (k, if n.2 then NX else 0)

/-- An integer to a float (R64). -/
def ofInt (f : Fmt) (rm : Nat) (sat : Bool) (k : Int) : Res :=
  if k = 0 then ⟨0, 0⟩ else round f rm false sat (k < 0) k.natAbs 0

/-! ### S10 scales (R55, R65) -/

/-- A scale: a NaN, zero, or m × 2^e. -/
inductive Scale where
  | nan
  | zero
  | val (m : Nat) (e : Int)
  deriving DecidableEq, Repr

/-- The scale of a 16-bit container (R55). -/
def scaleOf (c : Nat) : Scale :=
  if c / 1024 ≠ 0 then .nan
  else
    let e := c / 16
    if e = 0 then .zero else if e = 63 then .nan else .val (16 + c % 16) ((e : Int) - 35)

/-- FP32 to S10 (R65). -/
def toScale (rm : Nat) (sat : Bool) (v : Val) : Res :=
  match v with
  | .nan _ => ⟨0x3F0, NV⟩
  | .inf true => ⟨0x3F0, NV⟩
  | .inf false => ⟨if sat then 0x3EF else 0x3F0, 0⟩
  | .fin neg m e =>
    if m = 0 then ⟨0, 0⟩
    else if neg then ⟨0x3F0, NV⟩
    else
      let lead := e + (Nat.log2 m : Int)
      if lead < -30 then
        -- below 2^−30 the neighbours are 0 and 2^−30: the half-way value is 2^−31
        let above := lead = -31 ∧ m ≠ 2 ^ Nat.log2 m
        let half := lead = -31 ∧ m = 2 ^ Nat.log2 m
        let up := rm = 3 ∨ (rm = 0 ∧ above) ∨ (rm = 4 ∧ (above ∨ half))
        ⟨if up then 0x10 else 0, UF ||| NX⟩
      else
        let n := roundAt rm false m e (lead - 4) false
        let code := (lead + 31).toNat * 16 + (n.1 - 16)
        if code > 0x3EF then ⟨if sat then 0x3EF else 0x3F0, OF ||| NX⟩
        else ⟨code, if n.2 then NX else 0⟩

end Sys2Proof.Machine.Fp
end

