-- ==== Sys2Proof/Machine/Operands.lean ====
section
/-! DEFINITION. Operand forms: element types and packed elements (R53, R57, R62), the second operand of a lane instruction
(R77, R93), writing lanes under Active() (R94), and scalar operands. -/

namespace Sys2Proof.Machine

/-! ### Element types -/

/-- The element type code of an instruction whose default is `dflt` (R72, R78). -/
def tyOf (o : Args) (dflt : Nat) : Nat := if o.ty = 0 then dflt else o.ty.toNat

/-- Is an integer type code signed (R53)? -/
def isSigned (t : Nat) : Bool := t == 1 || t == 3 || t == 5

/-- Is a type code a float? -/
def isFloat (t : Nat) : Bool := 7 ≤ t && t ≤ 12

/-- Bits of an element of a type code. -/
def bitsOfType (t : Nat) : Nat := Rows.typeBits t

/-- Element k of width w of a 32-bit lane (R57). -/
def elem (w k : Nat) (x : W32) : Nat := (x.toNat >>> (w * k)) % 2 ^ w

/-- A lane made of `n` elements of width w, element k given by `f` from k = `k` up (R57). -/
def packFrom (w : Nat) (f : Nat → Nat) : (n : Nat) → (k : Nat) → Nat
  | 0, _ => 0
  | n + 1, k => (f k % 2 ^ w) * 2 ^ (w * k) + packFrom w f n (k + 1)

/-- A lane whose 32/w elements are given by `f` (R57). -/
def pack (w : Nat) (f : Nat → Nat) : W32 := BitVec.ofNat 32 (packFrom w f (32 / w) 0)

/-- The integer that w bits stand for, signed or not (R53, R90). -/
def intOf (signed : Bool) (w n : Nat) : Int :=
  if signed && n ≥ 2 ^ (w - 1) then (n : Int) - (2 : Int) ^ w else n

/-- The w bits of an integer (R90, WrapT). -/
def wrapBits (w : Nat) (k : Int) : Nat := (k % (2 : Int) ^ w).toNat

/-- Least and greatest value of an integer type (R53). -/
def rangeOf (signed : Bool) (w : Nat) : Int × Int :=
  if signed then (-(2 : Int) ^ (w - 1), (2 : Int) ^ (w - 1) - 1) else (0, (2 : Int) ^ w - 1)

/-- An integer clamped to lo … hi. -/
def clamp (lo hi k : Int) : Int := if k < lo then lo else if k > hi then hi else k

/-- An integer narrowed to a type: saturated or wrapped (R90, SatT and WrapT). -/
def narrow (signed sat : Bool) (w : Nat) (k : Int) : Nat :=
  wrapBits w (if sat then clamp (rangeOf signed w).1 (rangeOf signed w).2 k else k)

/-! ### Lane operands -/

/-- Does b come from the immediate of word 2 (R91)? -/
def immForm (o : Args) : Bool := o.xop == 1

/-- Element k of the b operand of lane l for elements of width w: the register's element, or bits [w−1:0] of the
immediate (R93). -/
def elemB (h : Hart) (o : Args) (imm : Bool) (w k l : Nat) : Nat :=
  if imm then o.w2.toNat % 2 ^ w else elem w k (h.V o.b.toNat l)

/-- The whole b operand of lane l (R93). -/
def wordB (h : Hart) (o : Args) (imm : Bool) (l : Nat) : W32 := if imm then o.w2 else h.V o.b.toNat l

/-- The lanes `ls` of register r written with values computed from the hart as it was before the instruction (R94). -/
def writeLanes (h : Hart) (r : Nat) (ls : List Nat) (f : Nat → W32) : Hart :=
  ls.foldl (fun acc l => acc.setV r l (f l)) h

/-- The same for register pairs. -/
def writeLanes64 (h : Hart) (r : Nat) (ls : List Nat) (f : Nat → W64) : Hart :=
  ls.foldl (fun acc l => acc.setV64 r l (f l)) h

/-- An instruction with a lane-register destination: V(d, l) ← f l for l in Active() (R94). -/
def toLanes (o : Args) (f : Hart → Nat → W32) (h : Hart) : Hart :=
  writeLanes h o.d.toNat (active h o) (f h)

/-- A mask of the lanes that satisfy a test. -/
def maskOf (ls : List Nat) (p : Nat → Bool) : W32 :=
  ls.foldl (fun acc l => if p l then acc ||| (1#32 <<< l) else acc) 0

/-- Number of set bits. -/
def popcount (n : Nat) : (bits : Nat) → Nat
  | 0 => 0
  | k + 1 => n % 2 + popcount (n / 2) k

/-- Index of the lowest set bit counted from `i`, or `i + bits` when there is none. -/
def ctzFrom (n : Nat) : (bits : Nat) → (i : Nat) → Nat
  | 0, i => i
  | k + 1, i => if n % 2 = 1 then i else ctzFrom (n / 2) k (i + 1)

/-- Trailing zeros of a w-bit number, w for 0. -/
def ctz (w n : Nat) : Nat := ctzFrom n w 0

/-- Leading zeros of a w-bit number, w for 0. -/
def clz (w n : Nat) : Nat := if n = 0 then w else w - 1 - Nat.log2 n

/-- A w-bit number with its bits reversed. -/
def revBits (n : Nat) : (w : Nat) → Nat
  | 0 => 0
  | k + 1 => (n % 2) * 2 ^ k + revBits (n / 2) k

/-! ### Strides -/

/-- The offset of row i, or column i, from its base under a signed stride (R238, R244). -/
def strideOff (st : W32) (i : Nat) : Int := st.toInt * i

/-- An address displaced by an integer, modulo 2^64. -/
def displace (a : W64) (k : Int) : W64 := a + BitVec.ofInt 64 k

end Sys2Proof.Machine
end

