-- ==== Sys2Proof/Machine/Flags.lean ====
section
/-! DEFINITION. Flags: the FP flags that a lane instruction gathers from its active lanes into `lfcsr.fflags` (R61), and
the done flags that follow from what is outstanding (R42, R83). -/

namespace Sys2Proof.Machine

/-- FP flags ORed into `lfcsr.fflags` (R61). -/
def Hart.orFlags (h : Hart) (f : BitVec 5) : Hart := { h with fflags := h.fflags ||| f }

/-- The OR of the flags that lanes raise. -/
def flagsOf (ls : List Nat) (f : Nat → BitVec 5) : BitVec 5 := ls.foldl (fun acc l => acc ||| f l) 0

/-- A lane's result with the flags it raises. -/
structure LaneRes where
  word : W32
  flags : BitVec 5 := 0
  deriving DecidableEq, Repr

/-- An FP instruction with a lane-register destination: V(d, l) for l in Active(), and the flags of all active lanes
(R61, R94). -/
def toLanesF (o : Args) (f : Hart → Nat → LaneRes) (h : Hart) : Hart :=
  let ls := active h o
  (writeLanes h o.d.toNat ls (fun l => (f h l).word)).orFlags (flagsOf ls (fun l => (f h l).flags))

/-- A lane of packed elements of width w from rounded results (R57). -/
def packRes (w : Nat) (f : Nat → Fp.Res) : LaneRes :=
  ⟨pack w (fun k => (f k).bits), (List.range (32 / w)).foldl (fun acc k => acc ||| (f k).flags) 0⟩

/-- Done flag n is set while an operation attached to it is outstanding: an operation under way, a logged one, or an
engine command (R42, R83). -/
def Hart.doneFlag (h : Hart) (n : Nat) : Bool :=
  h.ops.any (fun p => p.job.flag == n) || h.oplog.any (fun e => e.2.job.flag == n) || h.engFlags.any (fun e => e.flag == n)

/-- Is every `e.cadd` of the hart complete (R177)? -/
def Hart.caddDone (h : Hart) : Bool := !h.engFlags.any EngRef.cadd

/-- The done flags as a mask (R44). -/
def Hart.doneFlags (h : Hart) : BitVec 12 :=
  (List.range 12).foldl (fun acc n => if h.doneFlag n then acc ||| (1#12 <<< n) else acc) 0

/-- Is every flag of a mask clear? -/
def Hart.flagsClear (h : Hart) (w : BitVec 12) : Bool := (h.doneFlags &&& w) == 0

/-- The flag an instruction of class A or B attaches to, 15 for none (R83). -/
def Hart.attachFlag (h : Hart) (classA : Bool) : Nat := if classA then h.att.fa.toNat else h.att.fb.toNat

end Sys2Proof.Machine
end

