-- ==== Sys2Proof/Machine/Translate.lean ====
section
/-! DEFINITION. From an address to a place: the local window, the Sv57 walk of a context's tables, placement and homes, the
TLBs (R144, R145, R151 to R154, R157, R316 to R318). -/

namespace Sys2Proof.Machine

/-! ### Walking (R317, R318) -/

/-- What an access needs of a leaf. -/
inductive Need where
  | load | store | fetch
  deriving DecidableEq, Repr

/-- What translation comes to: a TLB entry; a failure with the reason of R323; an ATS request; or an address that is not
canonical. -/
inductive Walk where
  | ok (e : TlbEntry)
  | fail (reason : Nat)
  | ats (vpn : Nat)
  | noncanonical
  deriving DecidableEq, Repr

/-- Is an address canonical under Sv57: bits [63:57] equal to bit 56? -/
def canonical (va : W64) : Bool := va.toNat < 2 ^ 56 || va.toNat ≥ 2 ^ 64 - 2 ^ 56

/-- Virtual page number of an address, 45 bits. -/
def vpnOf (va : W64) : Nat := bitsOf va.toNat 56 12

/-- The mode whose permissions an access is checked with: M-mode loads and stores with `mstatus.MPRV` use `MPP`. -/
def effMode (h : Hart) (n : Need) : Mode :=
  if h.mode = .m ∧ n ≠ .fetch ∧ h.csr.mstatus.getLsbD 17 then
    (let p := bitsOf h.csr.mstatus.toNat 12 11
     if p = 3 then .m else if p = 1 then .s else .u)
  else h.mode

/-- Sv57 permission of a leaf for an access: U pages from U mode; S mode reaches U pages only for loads and stores with
`SUM`; `MXR` lets loads read executable pages. -/
def permitted (h : Hart) (n : Need) (r w x u : Bool) : Bool :=
  let md := effMode h n
  let mode := match md with
    | .u => u
    | .s => !u || (n != .fetch && h.csr.mstatus.getLsbD 18)
    | .m => true
  mode && match n with
    | .load => r || (x && h.csr.mstatus.getLsbD 19)
    | .store => w
    | .fetch => x

/-- A published byte as a load of a cluster's walker reads it: from the requester-side copy at the walker's own slice, or from the home
(R150, R317). -/
def State.sliceByte (s : State) (cluster pa : Nat) : Byte :=
  let c := s.cluster cluster
  if Tab.has c.copies (lineKey 0 (lineOf pa)) then (oldByte c.old (byteKey 0 pa)).getD (s.byteAt 0 pa) else s.byteAt 0 pa

/-- The page-table entry at a device physical address as a cluster's walker reads it; 0, which is no valid entry, outside HBM. -/
def State.pte (s : State) (cluster pa : Nat) : Nat :=
  if pa + 8 ≤ Config.hbmBytes then leNat ((List.range 8).map (fun i => s.sliceByte cluster (pa + i))) else 0

/-- What a walk meets: the leaf's level, address and value, or a reason for failure. -/
inductive Leaf where
  | at (level addr pte : Nat)
  | bad (reason : Nat)
  deriving DecidableEq, Repr

/-- The Sv57 walk of a cluster's walker from the table at `base`; `level` counts down from 4, and `fuel` bounds it. The physical page of
a host leaf is ignored (R318). -/
def walkTables (s : State) (cluster vpn : Nat) : (fuel : Nat) → (base : Nat) → Leaf
  | 0, _ => .bad 1
  | n + 1, base =>
    let addr := base + 8 * (vpn / 512 ^ n % 512)
    let p := s.pte cluster addr
    let v := bitOf p 0
    let r := bitOf p 1
    let w := bitOf p 2
    let x := bitOf p 3
    if !v || (!r && w) || p ≥ 2 ^ 61 then .bad 1
    else if r || x then
      (if bitsOf p 9 8 = 1 ∨ bitsOf p 9 8 = 2 ∨ bitsOf p 53 10 % 512 ^ n = 0 then .at n addr p else .bad 1)
    else if bitOf p 4 || bitOf p 6 || bitOf p 7 || bitsOf p 60 54 != 0 then .bad 1
    else walkTables s cluster vpn n (bitsOf p 53 10 * 4096)

/-- The table lines of a walk read at their homes as loads are: an owned one is recalled first (R230, R317). -/
def State.readTables (s : State) (cluster vpn : Nat) : (fuel : Nat) → (base : Nat) → State
  | 0, _ => s
  | n + 1, base =>
    let addr := base + 8 * (vpn / 512 ^ n % 512)
    let p := s.pte cluster addr
    let t := if Tab.has (s.cluster cluster).copies (lineKey 0 (lineOf addr)) then s else s.recallOwner (lineKey 0 (lineOf addr))
    if bitOf p 0 && !bitOf p 1 && !bitOf p 3 then State.readTables t cluster vpn n (bitsOf p 53 10 * 4096) else t

/-- The slice a first-touch page comes to, with the touch map as it stands after the swap of R154; none where the page lies
outside the region. -/
def firstTouch (s : State) (c : Context) (cluster pidx : Nat) (va : W64) (page : Nat) : Option (Nat × State) :=
  let e := placeEntry c pidx
  if va.toNat < e.rbase ∨ va.toNat ≥ e.rbase + 4096 * e.rpages then none
  else
    let a := e.map + 2 * ((va.toNat - e.rbase) / 4096)
    let cur := leNat [s.byteAt 0 a, s.byteAt 0 (a + 1)]
    if cur = 0xFFFF then
      let sl := if e.first ≤ cluster ∧ cluster < e.first + e.count then cluster
        else e.first + lineHash (page * 4096) % e.count
      some (sl, s.writePublished 0 none [(a, BitVec.ofNat 8 sl), (a + 1, BitVec.ofNat 8 (sl / 256))])
    else some (cur, s)

/-- Is a device physical address one of a debug module (R373)? -/
def inDmi (pa : Nat) : Bool := Config.dmiBase ≤ pa && pa < Config.dmiBase + Config.cores * 4096

/-- The root table of a hart's translation: the context's on a compute hart, its own `satp` on a tinker; none where the
mode is not translated (M mode, or `satp` bare). -/
def rootOf (s : State) (h : Nat) (n : Need) : Option Nat :=
  let x := s.hart h
  if effMode x n = .m then none
  else if x.tinker then (if bitsOf x.csr.satp.toNat 63 60 = 10 then some (bitsOf x.csr.satp.toNat 43 0 * 4096) else none)
  else match (s.core (coreOf h)).holder with
    | some p => some (Tab.get s.ctxs {} p).root.toNat
    | none => none

/-- The context of a hart by PASID; 2^20 and up, which no context has, for a tinker. -/
def ctxOf (s : State) (h : Nat) : Nat :=
  if (s.hart h).tinker then 2 ^ 20 + coreOf h else ((s.core (coreOf h)).holder).getD (2 ^ 21)

/-- The A bit of a leaf set, and the D bit for a store, by an atomic at its home where they are clear (R317). -/
def State.markLeaf (s : State) (addr : Nat) (store : Bool) : State :=
  let p := leNat ((List.range 8).map (fun i => s.byteAt 0 (addr + i)))
  let q := p ||| 64 ||| (if store then 128 else 0)
  if q = p then s else s.writePublished 0 none ((List.range 8).map (fun i => (addr + i, BitVec.ofNat 8 (q / 256 ^ i))))

/-- The walk of an address for a hart (R317, R318): the leaf checked, A and D set where the access needs them, kind and
placement looked at. -/
def walk (s : State) (h : Nat) (va : W64) (n : Need) : Walk × State :=
  if !canonical va then (.noncanonical, s)
  else
    match rootOf s h n with
    | none =>
      let vpn := va.toNat / 4096
      (if va.toNat < Config.hbmBytes then
        .ok ⟨ctxOf s h, 0, vpn, vpn, true, true, true, true, true, false, 0, 0, none⟩ else .fail 1, s)
    | some root =>
      let cl := clusterOf (coreOf h)
      let s := s.readTables cl (vpnOf va) 5 root
      match walkTables s cl (vpnOf va) 5 root with
      | .bad r => (.fail r, s)
      | .at level addr p =>
        let x := s.hart h
        if !permitted x n (bitOf p 1) (bitOf p 2) (bitOf p 3) (bitOf p 4) then (.fail 2, s)
        else if bitsOf p 9 8 = 3 then (.fail 4, s)
        else
          let c := s.placeTable (ctxOf s h)
          let host := bitsOf p 9 8 != 0
          let pmode := bitsOf p 60 59
          let pidx := bitsOf p 58 54
          let d := bitOf p 7 || n == .store
          let set (s : State) : State := s.markLeaf addr (n == .store)
          let ppn := bitsOf p 53 10
          let page := ppn + vpnOf va % 512 ^ level
          let e : TlbEntry := ⟨ctxOf s h, level, vpnOf va, ppn, bitOf p 1, bitOf p 2, bitOf p 3, bitOf p 4, d, host, pmode,
            pidx, none⟩
          if pmode = 3 ∨ !(placeEntry c pidx).valid then (.fail 3, s)
          else if host then (.ats (vpnOf va), set s)
          else if page * 4096 + 4096 > Config.hbmBytes ∧ ¬ (x.tinker ∧ inDmi (page * 4096)) then (.fail 1, s)
          else if pmode = 2 then
            match firstTouch (set s) c (clusterOf (coreOf h)) pidx va page with
            | some (sl, t) => (.ok { e with level := 0, ppn := page, slice := some sl }, t)
            | none => (.fail 3, s)
          else (.ok e, set s)

/-! ### TLBs (R316) -/

/-- Does a TLB entry cover a page of a context? -/
def TlbEntry.covers (e : TlbEntry) (pasid vpn : Nat) : Bool := e.pasid == pasid && e.vpn / 512 ^ e.level == vpn / 512 ^ e.level

/-- Physical byte address through an entry. -/
def TlbEntry.pa (e : TlbEntry) (va : W64) : Nat := (e.ppn + vpnOf va % 512 ^ e.level) * 4096 + va.toNat % 4096

/-- The set of a TLB of `sets` sets that an entry goes to: the number of its page, of its own size (log 43). -/
def TlbEntry.setOf (e : TlbEntry) (sets : Nat) : Nat := e.vpn / 512 ^ e.level % sets

/-- An entry added to a TLB of sets and ways, in place of one for the same page; the oldest of its set leaves when the set is full. -/
def tlbAdd (sets ways : Nat) (t : List TlbEntry) (e : TlbEntry) : List TlbEntry :=
  let t' := t.filter (fun x => !(x.pasid == e.pasid && x.vpn / 512 ^ e.level == e.vpn / 512 ^ e.level && x.level == e.level))
  let full := t'.filter (fun x => x.setOf sets == e.setOf sets)
  (if full.length < ways then t' else t'.eraseP (fun x => x.setOf sets == e.setOf sets)) ++ [e]

/-- An entry put into both TLBs of a core: 64 entries, fully associative, and 256 sets of 8 ways (R316). -/
def State.fillTlb (s : State) (core : Nat) (e : TlbEntry) : State :=
  (s.onCore core (fun c => { c with l1tlb := tlbAdd 1 64 c.l1tlb e })).onCluster (clusterOf core)
    (fun c => { c with tlb := tlbAdd 256 8 c.tlb e })

/-- A lookup of an address for an access: a hit carries the permission the access needs, and for a store the D bit
(R316, R317). -/
def State.tlbLookup (s : State) (h : Nat) (va : W64) (n : Need) : Option TlbEntry :=
  let x := s.hart h
  (s.tlbs (coreOf h)).find? (fun e =>
    e.covers (ctxOf s h) (vpnOf va) && permitted x n e.r e.w e.x e.u && (n != .store || e.d))

/-! ### The local window (R144, R145) -/

/-- Is an address in the local window? -/
def inLocal (va : W64) : Bool := va.toNat / 2 ^ 48 == 0xFF00

/-- Is an address in the domain window (R157)? -/
def inDomain (va : W64) : Bool := va.toNat / 2 ^ 56 == 0xFE

/-- The launch of a hart. -/
def State.launchOf (s : State) (h : Nat) : Option Launch := (s.hart h).home.bind (fun p => s.launches.look p.launch)

/-- The cohort of a hart. -/
def State.cohortOf (s : State) (h : Nat) : Option Cohort :=
  (s.hart h).home.bind (fun p => (s.launchOf h).bind (fun l => l.cohorts.look p.cohort))

/-- Block n of a hart's cohort, with the size of its scratchpad allocation. -/
def State.blockAt (s : State) (h n : Nat) : Option (Block × Nat) :=
  match s.launchOf h, s.cohortOf h with
  | some l, some c => (c.blocks[n]?).map (fun b => (b, l.record.scratch))
  | _, _ => none

/-- The block-in-cohort index of a hart. -/
def State.bicOf (s : State) (h : Nat) : Nat := ((s.hart h).home.map Home.block).getD 16

/-- A byte range of a block's scratchpad. -/
def State.scratchAt (s : State) (h n off size : Nat) : Option Loc :=
  match s.blockAt h n with
  | some (b, len) => if off + size ≤ len ∧ ¬ b.retired then some ⟨.scratch b.cluster, b.scratchBase + off⟩ else none
  | none => none

/-- The place that a local-window address names for an access of `size` bytes, or none where R145 faults it. -/
def State.localAt (s : State) (h : Nat) (va : W64) (size : Nat) (store atomic : Bool) : Option Loc :=
  let x := s.hart h
  let core := coreOf h
  let o := va.toNat % 2 ^ 48
  if x.tinker then none
  else if o < 0x800000 then (if o + size ≤ x.tcmSize then some ⟨.tcm core, x.tcmBase + o⟩ else none)
  else if o < 0x1000000 then
    (if o - 0x800000 + size ≤ Config.tcmBytes ∧ x.mode ≠ .u then some ⟨.tcm core, o - 0x800000⟩ else none)
  else if o < 0x2000000 then s.scratchAt h (s.bicOf h) (o - 0x1000000) size
  else if o < 0x3000000 then
    (if o - 0x2000000 + size ≤ Config.lidBytes ∧ !store ∧ !atomic then some ⟨.lid core, o - 0x2000000⟩ else none)
  else if o < 0x10000000 then
    (if o - 0x3000000 + size ≤ Config.accBytes ∧ (size = 4 ∨ size = 8) ∧ !atomic then some ⟨.acc core, o - 0x3000000⟩ else none)
  else if o < 0x20000000 then s.scratchAt h ((o - 0x10000000) / 0x1000000) (o % 0x1000000) size
  else none

/-! ### The domain window (R157, R279, R280) -/

/-- Module and offset that a domain-window address names. -/
def windowOf (va : W64) : Nat × Nat := (bitsOf va.toNat 55 46, bitsOf va.toNat 45 0)

/-- A gate field of a core (R279). -/
def Core.gateField (c : Core) (n : Nat) : Nat := (Tab.get c.gate 0 n).toNat

/-- Is the gate open? -/
def Core.gateOpen (c : Core) : Bool := bitOf (c.gateField 0) 16

/-- Does the gate admit a destination core of the module (R280)? -/
def Core.admitsCore (c : Core) (core : Nat) : Bool :=
  c.gateOpen && (List.range 4).any (fun i =>
    let f := c.gateField (i + 1)
    bitOf f 24 && bitsOf f 11 0 ≤ core && core ≤ bitsOf f 23 12)

/-- Does the gate admit a module of the domain (R280)? -/
def Core.admitsModule (c : Core) (m : Nat) : Bool :=
  c.gateOpen && (List.range 4).any (fun i =>
    let f := c.gateField (i + 1)
    bitOf f 52 && bitsOf f 41 32 ≤ m && m ≤ bitsOf f 51 42)

/-- Does the gate admit a domain-window access to module m at offset o (R280)? -/
def Core.admitsWindow (c : Core) (m o : Nat) : Bool :=
  c.admitsModule m && (List.range 4).any (fun i =>
    let f := c.gateField (i + 5)
    bitsOf f 33 0 ≤ o / 4096 && o / 4096 < bitsOf f 33 0 + bitsOf f 63 34)

/-- The context of a hart. -/
def State.ctx (s : State) (h : Nat) : Context := Tab.get s.ctxs {} (ctxOf s h)

/-- Is a domain-window access of a hart admitted at issue: a compute hart, a gang, a module of the domain, and a gate that
allows it (R157, R280, R282, R367)? -/
def State.windowAllowed (s : State) (h : Nat) (va : W64) : Bool :=
  let (m, o) := windowOf va
  !(s.hart h).tinker && (s.ctx h).gang != 0 && m < s.domain.size && (s.core (coreOf h)).admitsWindow m o

end Sys2Proof.Machine
end

