-- ==== Sys2Proof/Machine/Access.lean ====
section
/-! DEFINITION. Accesses to memory: what a byte reads as to a hart, atomics and their operations, the checks at issue,
performing a memory job, releases and acquires, and fault records (R161 to R174, R209 to R219, R290, R297 to R306, R316 to
R327). -/

namespace Sys2Proof.Machine

/-! ### Reading -/

/-- The hart's own latest store to a location that has not been performed. -/
def State.ownPending (s : State) (h : Nat) (loc : Loc) : Option Byte :=
  (s.hart h).ops.reverse.findSome? (fun p => (p.writes.reverse.find? (fun w => w.1 = loc)).map Prod.snd)

/-- What a byte reads as to a hart of world `tag`, host memory aside (R165, R209, R212, R297). -/
def State.readByte (s : State) (h tag : Nat) (loc : Loc) : Byte :=
  match s.ownPending h loc with
  | some b => b
  | none =>
    let core := coreOf h
    match loc.place with
    | .hbm => (unpubByte (s.core core) tag loc).getD (s.copyByte core tag loc.off)
    | .scratch c => (unpubByte (s.core core) tag loc).getD ((s.cluster c).scratch.read loc.off)
    | .tcm c => (s.core c).tcm.read loc.off
    | .lid c => (s.core c).lid.read loc.off
    | .acc c => (s.core c).acc.read loc.off
    | .host => s.hostMem.read loc.off
    | .window _ => 0

/-- The location i bytes further on. -/
def Loc.plus (l : Loc) (i : Nat) : Loc := ⟨l.place, l.off + i⟩

/-- The bytes of an element as a number. -/
def State.readRaw (s : State) (h tag : Nat) (loc : Loc) (size : Nat) : Nat :=
  leNat ((List.range size).map (fun i => s.readByte h tag (loc.plus i)))

/-! ### Atomic operations (R170, R173) -/

/-- The FP32 atomics: RNE, no flush, any NaN gives the canonical NaN (R173). -/
def fpAtomic (op o b : Nat) : Fp.Res :=
  let x := Fp.decode Fp.f32 o
  let y := Fp.decode Fp.f32 b
  if x.isNan || y.isNan then ⟨Fp.f32.canonNan, Fp.snan [x, y]⟩
  else if op = 10 then
    let v := Fp.add 0 x y
    let r := Fp.roundVal Fp.f32 0 false false v.1
    ⟨r.bits, r.flags ||| v.2⟩
  else Fp.minMax Fp.f32 (op == 11) x y

/-- The new value of an atomic's location from the old value, operand B (for `cas` the new value N) and compare value C
(R170), and the FP flags it raises (R173). -/
def amoNew (op size o b c : Nat) : Nat × BitVec 5 :=
  let w := 8 * size
  let s (n : Nat) : Int := intOf true w n
  match op with
  | 0 => ((o + b) % 2 ^ w, 0)
  | 1 => (Nat.land o b, 0)
  | 2 => (Nat.lor o b, 0)
  | 3 => (Nat.xor o b, 0)
  | 4 => (if s b < s o then b else o, 0)
  | 5 => (if s b > s o then b else o, 0)
  | 6 => (if b < o then b else o, 0)
  | 7 => (if b > o then b else o, 0)
  | 8 => (b, 0)
  | 9 => (if o = c then b else o, 0)
  | n => ((fpAtomic n o b).bits, (fpAtomic n o b).flags)

/-! ### The external log of a world (R304 to R306) -/

/-- The 32 bytes in which a message's header is kept: the header word of R198 with its own priority, the reply address, the
send time, and the key, the destination and the write flag (log 12). -/
def Msg.headerBytes (m : Msg) : List Byte :=
  leBytes 8 (m.tag + m.source * 2 ^ 8 + m.prio * 2 ^ 20 + m.len * 2 ^ 22 + 2 ^ 29 + (if m.last then 2 ^ 30 else 0)
      + (if m.write.isSome then 2 ^ 31 else 0) + m.gang * 2 ^ 32 + m.srcModule * 2 ^ 48 + (if m.remote then 2 ^ 58 else 0))
    ++ leBytes 8 m.reply.toNat ++ leBytes 6 m.time ++ leBytes 2 m.key ++ leBytes 2 m.core ++ leBytes 2 m.dstModule
    ++ leBytes 4 m.arrival

/-- Hart slot and core offset of a hart within its context (R305): the slot in bits [2:0], and from bit 3 up the number of cores with lower
numbers that the context holds (DESIGN CHOICE, log 12). -/
def State.logHart (s : State) (h : Nat) : Nat :=
  let core := coreOf h
  slotOf h + 8 * (s.cores.filter (fun e => e.1 < core && e.2.holder == (s.core core).holder)).length

/-- The 192 bytes of an entry of a hart (R305). -/
def LogRec.bytes (e : LogRec) (who : Nat) : List Byte :=
  let d := e.data.take 128
  leBytes 1 e.kind ++ leBytes 1 e.op ++ leBytes 2 (who % 65536) ++ leBytes 4 e.cword.toNat ++ leBytes 8 e.addr.toNat
    ++ leBytes 16 e.bmask.toNat ++ d ++ List.replicate (128 - d.length) 0
    ++ (match e.msg with
        | some m => m.headerBytes
        | none => List.replicate 32 0)

/-- A change to a world entry. -/
def State.onWorld (s : State) (tag : Nat) (f : World → World) : State :=
  { s with worlds := Tab.set s.worlds {} tag (f (Tab.get s.worlds {} tag)) }

/-- Entries added to a world's external log, and their bytes written at its place in HBM (R305). -/
def State.appendLog (s : State) (tag : Nat) (es : List LogRec) : State :=
  let w := Tab.get s.worlds {} tag
  let t := s.onWorld tag (fun w => { w with log := w.log ++ es })
  if es = [] then s else t.putHbm (w.logbase + 192 * w.log.length) (es.flatMap (fun e => e.bytes (s.logHart e.hart)))

/-- Bytes from `a` up with a log entry's write applied, where it covers them (R306). -/
def LogRec.apply (e : LogRec) (a : Nat) (bs : List Byte) : List Byte :=
  match e.kind with
  | 1 =>
    bs.zipIdx.map (fun p =>
      let x := a + p.2
      if e.addr.toNat ≤ x ∧ x < e.addr.toNat + 128 ∧ e.bmask.getLsbD (x - e.addr.toNat) then e.data.getD (x - e.addr.toNat) 0
      else p.1)
  | 2 =>
    let size := if e.op / 16 = 1 then 8 else 4
    if a ≤ e.addr.toNat ∧ e.addr.toNat + size ≤ a + bs.length then
      let k := e.addr.toNat - a
      let o := leNat ((bs.drop k).take size)
      let x := leNat (e.data.take size)
      let y := leNat ((e.data.drop 8).take size)
      let n := if e.op % 16 = 9 then amoNew 9 size o y x else amoNew (e.op % 16) size o x 0
      bs.take k ++ leBytes size n.1 ++ bs.drop (k + size)
    else bs
  | _ => bs

/-- One element of an `e.cadd`: the sum and the flags (R241). -/
def caddNew (ty : Nat) (sat : Bool) (o b : Nat) : Nat × BitVec 5 :=
  if ty = 7 then
    let r := fpAtomic 10 o b
    (r.bits, r.flags)
  else
    let sg := ty != 6
    (narrow sg sat 32 (intOf sg 32 o + intOf sg 32 b), 0)

/-- Bytes `off` to `off + n − 1` of a descriptor as a number. -/
def fieldOf (bs : List Byte) (off n : Nat) : Nat := leNat ((bs.drop off).take n)

/-- A copy descriptor read; none when a reserved byte is not zero (R238). -/
def copyDesc (bs : List Byte) : Option CopyDesc :=
  if fieldOf bs 0x2C 4 = 0 ∧ fieldOf bs 0x38 8 = 0 ∧ fieldOf bs 0x28 1 < 16 then
    some { src := BitVec.ofNat 64 (fieldOf bs 0 8), dst := BitVec.ofNat 64 (fieldOf bs 8 8), rowbytes := fieldOf bs 0x10 4,
           rows := fieldOf bs 0x14 4, sstride := BitVec.ofNat 32 (fieldOf bs 0x18 4),
           dstride := BitVec.ofNat 32 (fieldOf bs 0x1C 4), bar := BitVec.ofNat 64 (fieldOf bs 0x20 8),
           split := fieldOf bs 0x28 1, cnt := fieldOf bs 0x29 1, cmask := fieldOf bs 0x2A 2,
           idx := BitVec.ofNat 64 (fieldOf bs 0x30 8) }
  else none

/-- The bytes of the continuations that lead a list of entries, and the entries after them. -/
def continuations : List LogRec → List Byte × List LogRec
  | [] => ([], [])
  | e :: es =>
    if e.kind = 6 then
      let r := continuations es
      (e.data.take (popcount e.bmask.toNat 128) ++ r.1, r.2)
    else ([], e :: es)

/-- Byte j of row r of a copy command in a world's log, as its replay would read it: from the continuations where they hold it, else
where the hart's translation of the source finds it now; none for another module's memory, or a page that does not translate
(R305, R307, log 65). -/
def State.loggedByte (s : State) (h tag : Nat) (d : CopyDesc) (op : Nat) (stream : List Byte) (r j : Nat) : Option Byte :=
  let src (q : Nat) : W64 := displace d.src (strideOff d.sstride (if op = 3 then leNat ((stream.drop (4 * q)).take 4) else q))
  let va := src r + BitVec.ofNat 64 j
  let at_ (e : TlbEntry) : Byte := if e.host then s.hostMem.read (e.pa va) else s.readByte h tag ⟨.hbm, e.pa va⟩
  if inLocal (src r) then
    let first := if op = 3 ∨ op = 4 then 4 * d.rows else 0
    stream[first + d.rowbytes * ((List.range r).filter (fun q => inLocal (src q))).length + j]?
  else if inDomain va then none
  else match s.tlbLookup h va .load, (walk s h va .load).1 with
    | some e, _ => some (at_ e)
    | none, .ok e => some (at_ e)
    | none, _ => none

/-- Bytes from `a` up with the rows of a logged copy command written over them, or with the elements of a logged `e.cadd` added
(R304 to R306). -/
def State.applyCopy (s : State) (h tag : Nat) (e : LogRec) (stream : List Byte) (a : Nat) (bs : List Byte) : List Byte :=
  match copyDesc (e.data.take 64) with
  | none => bs
  | some d =>
    let o : Args := if e.cword = 0 then {} else parseArgs 0x100 e.cword 0 0 0
    let row (bs : List Byte) (r : Nat) : List Byte :=
      let base := (displace d.dst (strideOff d.dstride (if e.op = 4 then leNat ((stream.drop (4 * r)).take 4) else r))).toNat
      let byte (j : Nat) : Option Byte := s.loggedByte h tag d e.op stream r j
      let put (p : Byte × Nat) : Byte :=
        let j := a + p.2 - base
        let k := j / 4 * 4
        if a + p.2 < base ∨ base + d.rowbytes ≤ a + p.2 then p.1
        else if e.op ≠ 2 then (byte j).getD p.1
        else if base + k < a ∨ a + bs.length < base + k + 4 then p.1
        else
          let old := leNat ((bs.drop (base + k - a)).take 4)
          let add := leNat ((List.range 4).map (fun i => (byte (k + i)).getD 0))
          BitVec.ofNat 8 ((caddNew (tyOf o 5) o.sat old add).1 / 256 ^ (j - k))
      if base + d.rowbytes ≤ a ∨ a + bs.length ≤ base then bs else bs.zipIdx.map put
    (List.range d.rows).foldl row bs

/-- Bytes from `a` up with the writes of a log's entries applied in order (R306). -/
def State.applyLog (s : State) (h tag a : Nat) : List LogRec → List Byte → List Byte
  | [], bs => bs
  | e :: es, bs =>
    State.applyLog s h tag a es (if e.kind = 5 then s.applyCopy h tag e (continuations es).1 a bs else e.apply a bs)

/-- The logs that a world's loads take bytes from: its ancestors' from the root down, then its own (R306). -/
def logChain (s : State) : (fuel : Nat) → (tag : Nat) → List LogRec
  | 0, _ => []
  | n + 1, tag =>
    if tag = 0 then []
    else logChain s n (Tab.get s.worlds {} tag).parent ++ (Tab.get s.worlds {} tag).log

/-- An element of host memory or of the domain window as hart h of world `tag` reads it: the target's bytes under the
writes its log and its ancestors' logs hold (R306). The words beside it are there for added elements that reach into them. -/
def State.underLog (s : State) (h tag : Nat) (va : W64) (size : Nat) (target : Nat → Byte) : Nat :=
  let base := va.toNat / 8 * 8 - 8
  let words := (List.range 24).map (fun i => target (base + i))
  let seen := s.applyLog h tag base (logChain s 6 tag) words
  leNat ((seen.drop (va.toNat - base)).take size)

/-- An element as a load reads it. -/
def State.readElem (s : State) (h tag : Nat) (va : W64) (loc : Loc) (size : Nat) : Nat :=
  if loc.place = .host ∧ tag ≠ 0 then
    s.underLog h tag va size (fun a => s.readByte h tag ⟨.host, loc.off + a - va.toNat⟩)
  else s.readRaw h tag loc size

/-! ### Where lanes go (R144, R157, R162, R316) -/

/-- What becomes of a lane's address at issue. -/
inductive Reach where
  | here (loc : Loc)
  | miss
  | window
  | bad (cause : Nat)
  deriving DecidableEq, Repr

/-- The access fault of a kind of access. -/
def MemKind.accessCause (k : MemKind) : Nat := if k = .load then 5 else 7

/-- What the leaf of an access must allow. -/
def MemKind.need (k : MemKind) : Need := if k = .load then .load else .store

/-- The place of an address for a hart, or why it has none at issue (R145, R157, R163). -/
def State.reach (s : State) (h : Nat) (va : W64) (size : Nat) (k : MemKind) : Reach :=
  if inLocal va then
    match s.localAt h va size (k == .store) (k == .amo || k == .amoNr) with
    | some l => .here l
    | none => .bad k.accessCause
  else if inDomain va then (if s.windowAllowed h va then .window else .bad 31)
  else
    match rootOf s h k.need with
    | none =>
      if va.toNat + size ≤ Config.hbmBytes ∨ ((s.hart h).tinker ∧ inDmi va.toNat) then .here ⟨.hbm, va.toNat⟩ else .bad k.accessCause
    | some _ =>
      if !canonical va then .bad k.accessCause
      else
        match s.tlbLookup h va k.need with
        | some e => .here ⟨if e.host then .host else .hbm, e.pa va⟩
        | none => .miss

/-- The lowest-numbered lane of a list that fails a test with a cause. -/
def firstBad (ls : List LaneReq) (f : LaneReq → Option Nat) : Option (Nat × W64) :=
  ls.findSome? (fun l => (f l).map (fun c => (c, l.addr)))

/-- The lowest byte of a local-window access that faults, from the access's own address up; any other faulting access is named by its
address (R145, R162). -/
def State.badByte (s : State) (h : Nat) (va : W64) (size : Nat) (k : MemKind) : W64 :=
  if inLocal va then
    va + BitVec.ofNat 64 (((List.range size).find? (fun i =>
      (s.localAt h (va + BitVec.ofNat 64 i) 1 (k == .store) (k == .amo || k == .amoNr)).isNone)).getD 0)
  else va

/-- Is an address one of the lid view (R145)? -/
def inLid (va : W64) : Bool := inLocal va && 0x2000000 ≤ va.toNat % 2 ^ 48 && va.toNat % 2 ^ 48 < 0x2000000 + Config.lidBytes

/-- Does a world take no write: it has an open fork (R301)? -/
def State.sealedWorld (s : State) (tag : Nat) : Bool := tag != 0 && (Tab.get s.worlds {} tag).state == .sealed

/-- The precise traps of R162: misalignment of any lane first, then bounds, canonical form and the gate; a write to the lid view inside a
world (R304), and one of any kind to memory in a sealed world, before anything is translated (R301). -/
def State.issueFault (s : State) (h : Nat) (job : MemJob) : Option (Nat × W64) :=
  match firstBad job.lanes (fun l =>
      if l.addr.toNat % job.size = 0 then none else some (if job.kind = .load then 4 else 6)) with
  | some f => some f
  | none =>
    match firstBad job.lanes (fun l =>
        match s.reach h l.addr job.size job.kind with
        | .bad c => some (if job.tag ≠ 0 ∧ job.kind ≠ .load ∧ inLid l.addr then 26 else c)
        | _ => none) with
    | some f => some (f.1, if f.1 = 26 then 7 else s.badByte h f.2 job.size job.kind)
    | none => if job.kind ≠ .load ∧ job.lanes.any (fun l => !inLocal l.addr) ∧ s.sealedWorld job.tag then some (26, 5) else none

/-! ### Worlds and host memory at issue (R174, R290, R301 to R304) -/

/-- Lanes outside the local window. -/
def MemJob.outside (job : MemJob) : List LaneReq := job.lanes.filter (fun l => !inLocal l.addr)

/-- Has the host accepted HOSTATOMIC on the link of the hart's context (R174, R357)? -/
def State.hostAtomic (s : State) (h : Nat) : Bool := bitOf (Tab.get s.fns {} (s.ctx h).link).features 0

/-- Number of external-log entries that a job's lanes outside device memory take (R304): one for each distinct line of a
store, one for each lane of an atomic. -/
def logLanes (job : MemJob) (deferred : List LaneReq) : Nat :=
  if job.kind = .store then ((deferred.map (fun l => l.addr.toNat / 128)).dedup).length else deferred.length

/-- Lines of device memory that a hart's stores not yet performed will take in its L1. -/
def Hart.pendingLines (x : Hart) : List Nat :=
  ((x.ops.flatMap (fun p => (p.writes.filter (fun w => w.1.place == .hbm)).map (fun w => lineKey p.job.tag (lineOf w.1.off))))).dedup

/-- Overlay pages that stores already issued, and a job's on some more lines of core `core`, will take of the root's on that core: with
more than eight lines of an L1 set holding unpublished stores, the oldest go to the overlay (R143, R214). -/
def State.pagesToCome (s : State) (core : Nat) (keys : List Nat) : List Nat :=
  let dirty := (s.core core).dirtyLines
  let later := (s.harts.filter (fun e => coreOf e.1 == core)).flatMap (fun e => e.2.pendingLines) ++ keys
  let out (k : Nat) : List Nat :=
    let ls := (sameSet k (dirty ++ later)).dedup
    ls.take (ls.length - Config.l1Ways)
  (((later.flatMap out).filter (fun k => k / 2 ^ 40 == 0)).map pageOfKey).dedup

/-- Overlay pages that a root store or atomic on some lines needs beyond those that the context's issued stores will take, and the number
with them; one more where the environment says that the core must evict (R214, log 43). -/
def State.pagesNeeded (s : State) (h : Nat) (keys : List Nat) : Nat × Nat :=
  let p := ctxOf s h
  let pages := (Tab.get s.ctxs {} p).pages
  let mine := (s.cores.filter (fun c => c.2.holder == some p)).map Prod.fst
  let before := ((mine.flatMap (fun c => s.pagesToCome c [])).dedup).filter (fun q => !pages.contains q)
  let own := (s.pagesToCome (coreOf h) keys).filter (fun q => !pages.contains q && !before.contains q)
  let n := max own.length (if (s.hart h).noSpace then 1 else 0)
  (n, before.length + n)

/-- Is an operation one that host memory does not take: an atomic, unless the host has accepted HOSTATOMIC and it is a fetch-add, swap
or compare-and-swap (R174)? -/
def State.refusedByHost (s : State) (h : Nat) (job : MemJob) : Bool :=
  (job.kind == .amo || job.kind == .amoNr) && !(s.hostAtomic h && (job.op == 0 || job.op == 8 || job.op == 9))

/-- Is the place of an access one that takes no such atomic (R174)? -/
def State.noHostAtomic (s : State) (h : Nat) (job : MemJob) (p : Loc) : Bool := p.place == .host && s.refusedByHost h job

/-- The world faults and host faults of a job whose lanes are all placed (R174, R214, R290, R301 to R304): cause and `stval`. -/
def State.worldFault (s : State) (h : Nat) (job : MemJob) (place : LaneReq → Option Loc) : Option (Nat × W64) :=
  if job.kind = .load ∨ job.outside = [] then none
  else
    let w := Tab.get s.worlds {} job.tag
    let isHost (l : LaneReq) : Bool := (place l).any (fun p => p.place == .host)
    let far := job.outside.filter (fun l => isHost l || inDomain l.addr)
    let new := ((job.outside.filter (fun l => (place l).any (fun p => p.place == .hbm))).map (fun l => vpnOf l.addr)).dedup.filter
      (fun p => !w.pages.contains p)
    if job.tag ≠ 0 ∧ w.state = .sealed then some (26, 5)
    else if job.tag ≠ 0 ∧ job.kind = .amo ∧ far ≠ [] then some (26, 6)
    else match firstBad (job.outside.filter isHost) (fun _ => if s.refusedByHost h job then some 30 else none) with
    | some f => some f
    | none =>
      if job.tag = 0 then
        (let keys := (job.outside.filterMap (fun l => (place l).bind (fun p =>
            if p.place = .hbm then some (lineKey 0 (lineOf p.off)) else none))).dedup
         let n := s.pagesNeeded h keys
         if keys ≠ [] ∧ n.1 ≠ 0 ∧ s.rootSpent (ctxOf s h) n.2 then some (26, 3) else none)
      else if w.log.length + logLanes job far > 128 then some (26, 4)
      else if new ≠ [] ∧ (w.pages.length + new.length > w.quota ∨ w.pages.length + new.length > 65535
          ∨ s.overlayUsed w.pasid + new.length > (Tab.get s.ctxs {} w.pasid).ovpages) then some (26, 3)
      else none

/-! ### Performing -/

/-- Bytes written at their place in one step, as an atomic or a barrier step writes them (R172, R184). -/
def State.writeNow (s : State) (h tag : Nat) (loc : Loc) (bs : List Byte) : State :=
  match loc.place with
  | .hbm => s.writePublished tag (some h) (bs.zipIdx.map (fun p => (loc.off + p.2, p.1)))
  | .scratch c =>
    (s.onCluster c (fun k => { k with scratch := k.scratch.writeBytes loc.off bs })).breakReservations loc (some h) none
  | _ => (bs.zipIdx).foldl (fun s p => s.performByte h tag (loc.plus p.2) p.1) s

/-- Is an unpublished byte one of some bytes of a world? -/
def Unpub.within (tag : Nat) (loc : Loc) (size : Nat) (u : Unpub) : Bool :=
  u.tag == tag && u.loc.place == loc.place && loc.off ≤ u.loc.off && u.loc.off < loc.off + size

/-- The performed stores of a hart's core to some bytes published, as an atomic does first (R172). -/
def State.publishCovered (s : State) (h tag : Nat) (loc : Loc) (size : Nat) : State :=
  s.publishWhere (coreOf h) (Unpub.within tag loc size)

/-- The value an atomic combines with: the latest published one at its place. -/
def State.latest (s : State) (tag : Nat) (loc : Loc) (size : Nat) : Nat :=
  leNat ((List.range size).map (fun i =>
    match loc.place with
    | .hbm => s.published tag (loc.off + i)
    | .scratch c => (s.cluster c).scratch.read (loc.off + i)
    | .tcm c => (s.core c).tcm.read (loc.off + i)
    | .lid c => (s.core c).lid.read (loc.off + i)
    | .acc c => (s.core c).acc.read (loc.off + i)
    | .host => s.hostMem.read (loc.off + i)
    | .window _ => 0))

/-- FP flags ORed into a context's memory-arithmetic flag word (R173). -/
def State.raiseMaf (s : State) (pasid : Nat) (f : BitVec 5) : State :=
  if f = 0 then s
  else { s with ctxs := Tab.set s.ctxs {} pasid (let c := Tab.get s.ctxs {} pasid; { c with maf := c.maf ||| f }) }

/-! ### Where an atomic runs (R228 to R230) -/

/-- Does an atomic with return run in the core's L1: the context's policy, or the predictor below the threshold (R228,
R229)? -/
def State.runsLocally (s : State) (h line : Nat) : Bool :=
  let p := (s.ctx h).policy.toNat
  match p % 4 with
  | 0 => (s.core (coreOf h)).counter line < p / 4 % 4
  | 1 => false
  | _ => true

/-- A core obtains a line in state 10: another owner's copy is recalled, at which its counter rises, sharers are invalidated, the entry
names the core, and the line takes its place in the L1 (R143, R214, R228, R230). -/
def State.takeOwnership (s : State) (h tag line slice : Nat) : State :=
  let core := coreOf h
  let key := lineKey tag line
  let e := s.dirEntry key
  if e.st = 2 ∧ e.ptrs = [core] ∧ (s.core core).holds key then s
  else
    let sl := if e.st = 0 then slice else e.slice
    let s := if e.st = 2 ∧ e.ptrs ≠ [core] then s.onCore core (fun c => c.setCounter line (min 3 (c.counter line + 1))) else s
    let t := ((s.orderLine tag line (some core) [h]).makeRoom sl key).deliverTo sl (clusterOf core)
    ((t.onCore core (fun c => c.drop key)).fillL1 core { line := key, owned := true }).setDir key { slice := sl, st := 2, ptrs := [core] }

/-- An atomic that a core has performed on a line that it owns is counted, and its counter falls (R228). -/
def State.ownAtomic (s : State) (h tag line slice : Nat) : State :=
  let core := coreOf h
  let key := lineKey tag line
  (s.onCore core (fun c => { c.setCounter line (c.counter line - 1) with
    l1 := c.l1.map (fun l => if l.line = key then { l with owned := true, atomics := l.atomics + 1 } else l) })).setDir key
      { slice, st := 2, ptrs := [core] }

/-- One lane's step of an atomic: the old value, the flags, and the state after it (R171, R172). An atomic with return on device
memory runs in the core's L1 with ownership of the line, or like every other at the home, which takes back an owned line first
(R228 to R230). -/
def State.atomicStep (s : State) (h : Nat) (job : MemJob) (l : LaneReq) (loc : Loc) : Nat × BitVec 5 × State :=
  let line := lineOf loc.off
  let key := lineKey job.tag line
  let dev := loc.place = .hbm
  let slice := s.homeOf (coreOf h) loc.off
  let t := (if dev then s.makeVersion job.tag loc.off else s).publishCovered h job.tag loc job.size
  let here := dev ∧ job.kind = .amo ∧ t.runsLocally h line
  let t := if here then t.takeOwnership h job.tag line slice else if dev then t.recallOwner key else t
  let o := t.latest job.tag loc job.size
  let n := amoNew job.op job.size o (l.b.toNat % 2 ^ (8 * job.size)) (l.c.toNat % 2 ^ (8 * job.size))
  let bs := leBytes job.size n.1
  let u := (if here then t.writeOwned job.tag h (bs.zipIdx.map (fun p => (loc.off + p.2, p.1))) else t.writeNow h job.tag loc bs).raiseMaf
    (ctxOf s h) n.2
  (o, n.2, if here then u.ownAtomic h job.tag line slice else u)

/-! ### Debug modules as memory (R372, R373) -/

/-- Does a location lie in a debug module? -/
def Loc.isDmi (l : Loc) : Bool := l.place == .hbm && inDmi l.off

/-- The hart slots that a debug module selects: `hartsel` below 8, and the array mask with `hasel`. -/
def Dm.selected (m : Dm) : List Nat :=
  (List.range 8).filter (fun i => m.hartsel == i || (m.hasel && bitOf m.hawindow i))

/-- `dmstatus` over the selected harts (R372, R375). -/
def State.dmStatus (s : State) (core : Nat) : Nat :=
  let m := (s.core core).dm
  let hs := m.selected
  let x (i : Nat) : Hart := s.hart (hartAt core i)
  let away (i : Nat) : Bool := !(x i).live || !(x i).resident
  let halted (i : Nat) : Bool := !away i && (x i).dbg.halted
  let runs (i : Nat) : Bool := !away i && !(x i).dbg.halted
  let both (p : Nat → Bool) (b : Nat) : Nat := (if hs.any p then 2 ^ b else 0) + (if hs.all p && hs != [] then 2 ^ (b + 1) else 0)
  3 + 2 ^ 7 + both halted 8 + both runs 10 + both away 12 + (if m.hartsel ≥ 8 then 2 ^ 14 + 2 ^ 15 else 0) + both m.acks.contains 16 + 2 ^ 22

/-- A register of a debug module read; any that R372 does not name reads zero. -/
def State.dmRead (s : State) (core reg : Nat) : Nat :=
  let m := (s.core core).dm
  match reg with
  | 0x04 => bitsOf m.data.toNat 31 0
  | 0x05 => bitsOf m.data.toNat 63 32
  | 0x10 => (if m.active then 1 else 0) + m.hartsel % 1024 * 2 ^ 16 + m.hartsel / 1024 * 2 ^ 6 + (if m.hasel then 2 ^ 26 else 0)
  | 0x11 => s.dmStatus core
  | 0x12 => 2 * 2 ^ 20
  | 0x15 => m.hawindow
  | 0x16 => 2 + m.cmderr * 2 ^ 8 + (if m.command.isSome then 2 ^ 12 else 0) + 4 * 2 ^ 24
  | 0x17 => 0
  | 0x40 => (((List.range 8).filter (fun i => (s.hart (hartAt core i)).dbg.halted)).map (fun i => 2 ^ i)).sum
  | r => if 0x20 ≤ r ∧ r < 0x24 then (m.progbuf.getD (r - 0x20) 0).toNat else 0

/-- A register of a debug module written: an inactive module takes only `dmcontrol`; a halt asked for a hart that is not resident
is discarded (R372, R375). -/
def State.dmWrite (s : State) (core reg v : Nat) : State :=
  let m := (s.core core).dm
  let put (n : Dm) : State := s.onCore core (fun c => { c with dm := n })
  if reg = 0x10 then
    if !bitOf v 0 then put {}
    else
      let n := { m with active := true, hartsel := bitsOf v 25 16 + bitsOf v 15 6 * 1024, hasel := bitOf v 26 }
      let here (i : Nat) : Bool := (s.hart (hartAt core i)).live && (s.hart (hartAt core i)).resident
      let halted (i : Nat) : Bool := (s.hart (hartAt core i)).dbg.halted
      if bitOf v 31 then put { n with halts := n.selected.filter (fun i => here i && !halted i) }
      else if bitOf v 30 then
        put { n with halts := [], resumes := n.selected.filter halted, acks := m.acks.filter (fun i => !n.selected.contains i) }
      else put { n with halts := [] }
  else if !m.active then s
  else match reg with
    | 0x04 => put { m with data := BitVec.ofNat 64 (bitsOf m.data.toNat 63 32 * 2 ^ 32 + v) }
    | 0x05 => put { m with data := BitVec.ofNat 64 (v * 2 ^ 32 + bitsOf m.data.toNat 31 0) }
    | 0x15 => put { m with hawindow := v % 256 }
    | 0x16 => put { m with cmderr := (m.cmderr &&& (7 - bitsOf v 10 8)) }
    | 0x17 => if m.cmderr = 0 ∧ m.command = none then put { m with command := some (BitVec.ofNat 32 v) } else s
    | r => if 0x20 ≤ r ∧ r < 0x24 then
        put { m with progbuf := (m.progbuf ++ List.replicate (4 - m.progbuf.length) 0).set (r - 0x20) (BitVec.ofNat 32 v) } else s

/-- Core and register of an address of a debug module. -/
def dmOf (pa : Nat) : Nat × Nat := ((pa - Config.dmiBase) / 4096, (pa - Config.dmiBase) % 4096 / 4)

/-- A store to a debug module performed: one of 4 bytes writes its register, any other is ignored (R373). -/
def State.dmStore (s : State) (p : PendOp) : State :=
  match p.writes with
  | w :: _ =>
    let r := dmOf w.1.off
    if p.job.kind = .store ∧ p.job.size = 4 ∧ w.1.off % 4 = 0 then s.dmWrite r.1 r.2 (leNat ((p.writes.take 4).map Prod.snd)) else s
  | [] => s

/-- What a load of a debug module gives: a register for 4 bytes, zero for any other width (R373). -/
def State.dmLoad (s : State) (l : Loc) (size : Nat) : Nat :=
  let r := dmOf l.off
  if size = 4 ∧ l.off % 4 = 0 then s.dmRead r.1 r.2 % 2 ^ 32 else 0

/-- One operation of a hart performed: a store at its core, a no-return atomic at its place (R209). A release store is
published with its release (R167). -/
def State.performOp (s : State) (h : Nat) (p : PendOp) : State :=
  if (p.writes.map Prod.fst ++ p.locs).any Loc.isDmi then s.dmStore p
  else if p.job.kind = .store then
    let t := p.writes.foldl (fun s w => s.performByte h p.job.tag w.1 w.2) s
    if p.job.rel ∧ p.job.scope ≠ 0 then
      t.publishWhere (coreOf h) (fun u => u.hart == h && u.tag == p.job.tag && p.writes.any (fun w => w.1 == u.loc))
    else t
  else (p.job.lanes.zip p.locs).foldl (fun s l => (s.atomicStep h p.job l.1 l.2).2.2) s

/-- Is an operation a store or no-return atomic, which waits to be performed, and is performed here? -/
def PendOp.waits (p : PendOp) : Bool := (p.job.kind == .store || p.job.kind == .amoNr) && p.acks == []

/-- Lines of device memory among some locations, under a tag. -/
def devLines (tag : Nat) (ls : List Loc) : List (Nat × Nat) :=
  ((ls.filter (fun l => l.place == .hbm && !l.isDmi)).map (fun l => (tag, lineOf l.off))).dedup

/-- Lines that an operation orders at their homes when it is performed: those of a no-return atomic or of a release store (R167,
R172). -/
def PendOp.homeLines (p : PendOp) : List (Nat × Nat) :=
  if p.job.kind = .store then (if p.job.rel ∧ p.job.scope ≠ 0 then devLines p.job.tag (p.writes.map Prod.fst) else [])
  else devLines p.job.tag p.locs

/-- Does a location lie in a tile that a matrix command is computing? An element of it is written between commands (R146). -/
def State.tileBusy (s : State) (l : Loc) : Bool :=
  match l.place with
  | .acc c => (s.core c).engine.any (fun k => k.kind == 5 && k.begun && k.mat.mode % 8 == l.off / 0x4000)
  | _ => false

/-- Does a tile of the store hold the partial sums of a command that a save has stopped? No hart reads it before the command goes on, and
no other command takes it (R70, R265). -/
def Core.tileHeld (c : Core) (t : Nat) : Bool := c.engine.any (fun k => k.kind == 5 && k.begun && k.stopped && k.mat.mode % 8 == t)

/-- Does a location lie in such a tile? -/
def State.tilePartial (s : State) (l : Loc) : Bool :=
  match l.place with
  | .acc c => (s.core c).tileHeld (l.off / 0x4000)
  | _ => false

/-- The oldest store or no-return atomic of a hart performed; it is outstanding no more. One whose home has no free tracker, or is
migrating the page, or whose tile the array computes on, waits there (R146, R225, R231). -/
def State.performOldest (s : State) (h : Nat) : State :=
  match (s.hart h).ops.find? PendOp.waits with
  | some p =>
    if (p.writes.map Prod.fst).any s.tileBusy then s
    else if s.canOrderAll p.homeLines (some (coreOf h)) then
      (s.onHart h (fun x => { x with ops := x.ops.eraseP PendOp.waits })).performOp h p
    else s.snoopAll p.homeLines
  | none => s

/-- Every store and no-return atomic of a hart performed, in program order, as far as their homes take them. -/
def State.drainOwn (s : State) (h : Nat) : State :=
  ((s.hart h).ops.filter PendOp.waits).foldl (fun s _ => s.performOldest h) s

/-- Does a no-return atomic of the hart that has not been performed touch any of some byte ranges? -/
def Hart.atomicPending (x : Hart) (locs : List Loc) (size : Nat) : Bool :=
  x.ops.any (fun p => p.job.kind == .amoNr && p.locs.any (fun l => locs.any (fun m =>
    l.place == m.place && l.off < m.off + size && m.off < l.off + p.job.size)))

/-- A loaded element widened for its destination (R164). -/
def extend (signed : Bool) (size n : Nat) : W64 :=
  if signed then BitVec.ofInt 64 (intOf true (8 * size) n) else BitVec.ofNat 64 n

/-- The register cells that the values of a job's lanes go to. -/
def destCells (d : Dest) (vs : List (Nat × W64)) : List (Nat × W32) × List (Nat × W64) :=
  match d with
  | .none => ([], [])
  | .x n => ([], vs.map (fun v => (n, v.2)))
  | .v r => (vs.map (fun v => (32 * r + v.1, v.2.setWidth 32)), [])
  | .v64 r =>
    (vs.map (fun v => (32 * r + v.1, v.2.setWidth 32)) ++ vs.map (fun v => (32 * (r + 1) + v.1, v.2.extractLsb' 32 32)), [])

/-- The effect of a load instruction on its core's L1: missing lines are fetched, read counts fall and a `vld.rc` sets
them (R155, R168, R225). -/
def State.touchLines (s : State) (h : Nat) (job : MemJob) (locs : List (LaneReq × Loc)) : State :=
  let core := coreOf h
  let dev := locs.filter (fun l => l.2.place == .hbm)
  let t := dev.foldl (fun s l => s.homeRead core job.tag l.2.off) s
  let keys := (dev.map (fun l => lineKey (s.seenTag job.tag l.2.off) (lineOf l.2.off))).dedup
  let had (k : Nat) : Bool := (s.core core).holds k
  let count (e : L1Line) : Option L1Line :=
    if !keys.contains e.line then some e
    else if job.rc ≠ 0 then (if had e.line && e.count == 0 then some e else some { e with count := job.rc })
    else if e.count = 1 then none
    else some { e with count := e.count - 1 }
  let u := t.onCore core (fun c => { c with l1 := c.l1.filterMap count })
  u.onCore core (fun c => { c with old := c.old.filter (fun b => c.holds (keyOfByte b.1)) })

/-- The other harts of a core whose unpublished bytes a load or atomic returned (R216). -/
def State.foreignReads (s : State) (h : Nat) (job : MemJob) (locs : List (LaneReq × Loc)) : List (Nat × Loc) :=
  let us := (s.core (coreOf h)).unpub.filter (fun u => u.hart != h && u.tag == job.tag)
  (us.filter (fun u => locs.any (fun l =>
    l.2.place == u.loc.place && l.2.off ≤ u.loc.off && u.loc.off < l.2.off + job.size))).map (fun u => (u.hart, u.loc))

/-- What a hart has read is noted for its next `fence.sc`: unpublished stores of its core, and lines whose publication is not
complete (R216). -/
def State.noteReads (s : State) (h : Nat) (job : MemJob) (locs : List (LaneReq × Loc)) : State :=
  let seen := s.foreignReads h job locs
  let keys := (locs.filter (fun l => l.2.place == .hbm)).map (fun l => lineKey (s.seenTag job.tag l.2.off) (lineOf l.2.off))
  let note (t : Tracker) : Tracker :=
    if keys.contains (lineKey t.tag t.line) ∧ !t.readers.contains h then { t with readers := t.readers ++ [h] } else t
  let t := { s with trackers := Tab.mapVals note s.trackers }
  t.onHart h (fun x => { x with scReads := (x.scReads ++ seen).dedup })

/-- The external-log entries of some bytes by address: one for each line, in the order of the first byte in each, with the last value of
each byte (R304, R305). -/
def lineEntries (h : Nat) (bytes : List (Nat × Byte)) : List LogRec :=
  ((bytes.map (fun b => b.1 / 128)).reverse.dedup.reverse).map (fun line =>
    let here := bytes.filter (fun b => b.1 / 128 == line)
    { kind := 1, hart := h, addr := BitVec.ofNat 64 (line * 128)
      bmask := here.foldl (fun m b => m ||| (1#128 <<< (b.1 % 128))) 0
      data := here.foldl (fun d b => d.set (b.1 % 128) b.2) (List.replicate 128 0) })

/-- The external-log entries of a world that a job's lanes make (R304, R305): a store one for each line, in the order of
the lowest lane that writes each; an atomic one for each lane. -/
def logEntries (h : Nat) (job : MemJob) (ls : List LaneReq) : List LogRec :=
  if job.kind = .store then
    lineEntries h (ls.flatMap (fun l => (leBytes job.size l.b.toNat).zipIdx.map (fun p => (l.addr.toNat + p.2, p.1))))
  else
    ls.map (fun l =>
      let op := job.op + (if job.size = 8 then 16 else 0)
      let ws := if job.op = 9 then leBytes job.size l.c.toNat ++ List.replicate (8 - job.size) 0 ++ leBytes job.size l.b.toNat
        else leBytes job.size l.b.toNat
      { kind := 2, op, hart := h, addr := l.addr, data := ws ++ List.replicate (128 - ws.length) 0 })

/-- Overlay pages that a job's device lanes take for their world (R290). -/
def State.takePages (s : State) (job : MemJob) (locs : List (LaneReq × Loc)) : State :=
  if job.tag = 0 then s
  else
    let ps := ((locs.filter (fun l => l.2.place == .hbm)).map (fun l => vpnOf l.1.addr)).dedup
    s.onWorld job.tag (fun w => { w with pages := w.pages ++ ps.filter (fun p => !w.pages.contains p) })

/-- Values bound for a load, or old values of an atomic with return, put among the hart's outstanding operations. -/
def State.pushValues (s : State) (h : Nat) (job : MemJob) (vs : List (Nat × W64)) (f : BitVec 5) : State :=
  let c := destCells job.dest vs
  s.onHart h (fun x => { x with ops := x.ops ++ [{ job, vw := c.1, xw := c.2, fflags := f }] })

/-- Must the hart's earlier stores and atomics be performed before a job: before an atomic with return, a no-return atomic with an
acquire part, a load that follows a posted write to host memory or a no-return atomic to its bytes, and a load of a debug
module (R165, R171, R219)? -/
def Hart.mustDrain (x : Hart) (job : MemJob) (ls : List Loc) : Bool :=
  match job.kind with
  | .load => ls.any Loc.isDmi || x.atomicPending ls job.size
      || (ls.any (fun l => l.place == .host) && x.ops.any (fun p => (p.writes.map Prod.fst ++ p.locs).any (fun l => l.place == .host)))
  | .amo => true
  | .amoNr => job.acq
  | .store => false

/-- Does the leaf of an address name host memory, as the tables stand (R318)? -/
def State.hostLeaf (s : State) (h : Nat) (va : W64) : Bool :=
  !inLocal va && !inDomain va && canonical va && (match rootOf s h .load with
    | none => false
    | some root => match walkTables s (clusterOf (coreOf h)) (vpnOf va) 5 root with
      | .at _ _ p => bitsOf p 9 8 == 1 || bitsOf p 9 8 == 2
      | .bad _ => false)

/-- Is an access of the hart to host memory, issued before order `n`, still in its operand log? The hart's accesses to host memory
leave in program order (R166, R219). -/
def State.hostLogged (s : State) (h n : Nat) : Bool :=
  (s.hart h).oplog.any (fun e => e.2.engine.isNone && e.2.order < n && e.2.job.lanes.any (fun l => s.hostLeaf h l.addr))

/-- What a job performs before itself, and whether it may go on: accesses of its hart to host memory that are logged leave before one of
its own, a load of a partial tile waits (R265), its earlier operations are performed, and the homes of an atomic's lines can take it now (R166, R171, R225, R231). `n` is
its place in the hart's order. -/
def State.clearWay (s : State) (h n : Nat) (job : MemJob) (ls : List Loc) : Bool × State :=
  if ls.any s.tilePartial || (ls.any (fun l => l.place == .host) && s.hostLogged h n) then (false, s)
  else if !(s.hart h).mustDrain job ls then (true, s)
  else
    let t := s.drainOwn h
    let lines := if job.kind = .load then [] else devLines job.tag ls
    if (t.hart h).ops.any PendOp.waits then (false, t)
    else if t.canOrderAll lines (some (coreOf h)) then (true, t)
    else (false, t.snoopAll lines)

/-- A job with every lane placed, and its way clear: a load binds its values and they return later; a store or no-return atomic
becomes an outstanding operation, and one with an acquire part is performed first; an atomic with return is performed and its old
values return later (R163, R165, R171). In a non-root world, writes that leave the module go to the world's log (R304). -/
def State.perform (s : State) (h : Nat) (job : MemJob) (locs : List (LaneReq × Loc)) : State :=
  match job.kind with
  | .load =>
    let value (l : LaneReq × Loc) : Nat := if l.2.isDmi then s.dmLoad l.2 job.size else s.readElem h job.tag l.1.addr l.2 job.size
    let vs := locs.map (fun l => (l.1.lane, extend job.signed job.size (value l)))
    ((s.noteReads h job locs).touchLines h job locs).pushValues h job vs 0
  | .amo =>
    let r := locs.foldl (fun (acc : List (Nat × W64) × BitVec 5 × State) l =>
      let a := acc.2.2.atomicStep h job l.1 l.2
      (acc.1 ++ [(l.1.lane, extend job.signed job.size a.1)], acc.2.1 ||| a.2.1, a.2.2))
      ([], 0, (s.noteReads h job locs).takePages job locs)
    r.2.2.pushValues h job r.1 r.2.1
  | k =>
    let far := if job.tag = 0 then [] else locs.filter (fun l => l.2.place == .host || inDomain l.1.addr)
    let near := if job.tag = 0 then locs else locs.filter (fun l => !(l.2.place == .host || inDomain l.1.addr))
    let t := (s.takePages job locs).appendLog job.tag (if far = [] then [] else logEntries h job (far.map Prod.fst))
    let ws := (near.map (fun l => (leBytes job.size l.1.b.toNat).zipIdx.map (fun p => (l.2.plus p.2, p.1)))).flatten
    let u := t.onHart h (fun x => { x with ops := x.ops ++
      [{ job := { job with lanes := near.map Prod.fst }, writes := if k = .store then ws else [],
         locs := near.map Prod.snd }] })
    if k = .amoNr ∧ job.acq then u.drainOwn h else u

/-! ### Releases and acquires (R213, R215) -/

/-- Step 1 of a release: every earlier store and atomic of the hart is performed, the logged ones and those of the domain window too
(R213, R321, R369). -/
def State.allPerformed (s : State) (h : Nat) : Bool :=
  let x := s.hart h
  !x.ops.any (fun p => p.waits || p.acks != []) && x.oplog.all (fun e => e.2.engine.isSome || e.2.job.kind == .load)

/-- Is a release of the hart at a scope complete: with every store performed, none of them is unpublished and no tracker of one of
its lines awaits an acknowledgement (R213)? -/
def State.releaseDone (s : State) (h scope : Nat) : Bool :=
  s.allPerformed h && (scope == 0 ||
    (!(s.core (coreOf h)).unpub.any (fun u => u.hart == h) && s.trackers.all (fun t => !t.2.harts.contains h)))

/-- A phase boundary of a hart cancels its reservation (R89, R179). -/
def Hart.boundary (x : Hart) : Hart := { x with reservation := none, rel := none }

/-- An instruction with a release part at a scope: it waits until the release is complete, and then goes on (R167). -/
def afterRelease (code scope : Nat) (s : State) (k : State → Out) : Out :=
  if s.releaseDone s.cur scope then k (s.onMe Hart.boundary)
  else .next (s.onMe (fun x => { x.block code with rel := some scope }))

/-- `Acquire(s)` of a hart (R215). -/
def State.acquire (s : State) (h scope : Nat) : State :=
  (if scope = 0 then s else s.acquireCore (coreOf h)).onHart h (fun x => { x with reservation := none })

/-! ### Fault records (R322, R323) -/

/-- A message put into the network by a core itself (R192). -/
def State.send (s : State) (m : Msg) : State := { s with net := s.net ++ [m] }

/-- The 64-byte fault record of R323 sent by a core to the tinker of the context's fault route; answers the record's sequence
number. `who` names the entry and hart slot. -/
def State.reportAt (s : State) (core pasid who : Nat) (va : W64) (acc reason tag : Nat) : Nat × State :=
  let c := Tab.get s.ctxs {} pasid
  let seq := (s.core core).faultSeq
  let bytes := leBytes 8 va.toNat ++ leBytes 4 pasid ++ leBytes 2 core ++ leBytes 1 who
    ++ leBytes 1 acc ++ leBytes 1 reason ++ leBytes 1 tag ++ List.replicate 6 0 ++ leBytes 8 seq ++ List.replicate 32 0
  let r := c.froute.toNat
  (seq, (s.onCore core (fun k => { k with faultSeq := seq + 1 })).send
    { core := Config.cores + bitsOf r 4 0, tag := bitsOf r 12 5, len := 64, gang := c.gang,
      key := bitsOf ((s.core core).gateField 0) 15 0, time := s.cycle % 2 ^ 48, source := core,
      hart := hartAt core (who / 8 % 8), payload := bytes, pasid })

/-- The fault record of a hart's access. -/
def State.report (s : State) (h entry : Nat) (va : W64) (acc reason tag : Nat) : Nat × State :=
  s.reportAt (coreOf h) (ctxOf s h) (entry + 8 * slotOf h) va acc reason tag

/-- The `acc` byte of a fault record (R323). -/
def accByte (x : Hart) (k : MemKind) (engine held : Bool) : Nat :=
  (if k = .load then 0 else 1) + (if k = .amo ∨ k = .amoNr then 2 else 0) + (if engine then 4 else 0)
    + (if held then 8 else 0) + (if x.mode = .u then 16 else 0)

/-- Who asked the host for a translation: entry `n` of a hart's log, 8 its standard access and 9 its fetch at a pc, or 15 an access of its
core for a message or of the device (R318, R326). -/
def askerOf (h n : Nat) (pc : W64 := 0) : Nat := (pc.toNat * 2 ^ 40 + h) * 16 + n

/-- The negative answer of the host to who asked, taken. -/
def State.atsAnswer (s : State) (asker pasid vpn : Nat) : Option (Nat × State) :=
  (s.atsBad.find? (fun b => b.1 == asker && b.2.1 == pasid && b.2.2.1 == vpn)).map (fun b =>
    (b.2.2.2, { s with atsBad := s.atsBad.erase b }))

/-- The host asked for a translation, once (R318). -/
def State.askHost (s : State) (link pasid vpn core asker : Nat) : State :=
  if s.ats.any (fun a => a.asker == asker && a.pasid == pasid && a.vpn == vpn) then s
  else { s with ats := s.ats ++ [{ link, pasid, vpn, core, asker }] }

/-- Nobody waits any more for what one asked of the host: late answers are for nobody (R276, R318). -/
def State.forgetAsker (s : State) (asker : Nat) : State :=
  { s with ats := s.ats.filter (fun a => a.asker != asker), atsBad := s.atsBad.filter (fun b => b.1 != asker) }

/-- A walk for one address: on success the TLBs hold the page; otherwise the reason of R323 where the walk has failed, and
none where an ATS request is under way (R317, R318, R322). A negative answer serves the walk that asked; a later walk
of the page asks again (R276, R318). -/
def State.translate (s : State) (asker h : Nat) (va : W64) (n : Need) : Option Nat × Bool × State :=
  match walk s h va n with
  | (.ok e, t) => (none, true, t.fillTlb (coreOf h) e)
  | (.fail r, t) => (some r, false, t)
  | (.noncanonical, t) => (some 1, false, t)
  | (.ats vpn, t) =>
    let link := (t.ctx h).link
    let pasid := ctxOf t h
    match t.atsAnswer asker pasid vpn with
    | some r => (some r.1, false, r.2)
    | none =>
      match (t.tlbs (coreOf h)).find? (fun e => e.host && e.covers pasid vpn) with
      | some e => if n = .store ∧ e.w ∧ !e.d then (none, true, t.fillTlb (coreOf h) { e with d := true }) else (some 2, false, t)
      | none => (none, false, t.askHost link pasid vpn (coreOf h) asker)

/-! ### Accesses that no hart's TLB serves: messages, replies and other modules -/

/-- What translation in a context comes to for an access that a message or another module makes (R157, R199, R200). -/
inductive CtxPlace where
  | at (l : Loc)
  | fail (reason : Nat)
  | wait
  deriving DecidableEq, Repr

/-- The unit by which the device itself makes an access for a context that no core of the context makes: launch records, completion
records and requests of other modules. Host pages that ATS has translated for it are kept under the unit, beside no core's TLB
(DESIGN CHOICE, log 11). -/
def deviceCore : Nat := 4092

/-- A virtual address of a context translated from one of its cores, or from `deviceCore`, with user permission to read or to write; host
pages through ATS. A page that its home is migrating is waited for, until the leaf names the new page (R231, R232). -/
def State.ctxPlace (s : State) (pasid core : Nat) (va : W64) (store : Bool) : CtxPlace × State :=
  let c := Tab.get s.ctxs {} pasid
  let s := if canonical va then s.readTables (clusterOf core) (vpnOf va) 5 c.root.toNat else s
  if !canonical va then (.fail 1, s)
  else match walkTables s (clusterOf core) (vpnOf va) 5 c.root.toNat with
    | .bad r => (.fail r, s)
    | .at level addr p =>
      if !bitOf p 4 || !(if store then bitOf p 2 else bitOf p 1) then (.fail 2, s)
      else if bitsOf p 9 8 = 3 then (.fail 4, s)
      else
        let t := s.markLeaf addr store
        let page := bitsOf p 53 10 + vpnOf va % 512 ^ level
        if bitsOf p 60 59 = 3 ∨ !(placeEntry c (bitsOf p 58 54)).valid then (.fail 3, s)
        else if bitsOf p 9 8 ≠ 0 then
          match (t.cluster (clusterOf core)).tlb.find? (fun e => e.host && e.covers pasid (vpnOf va)) with
          | some e => if store && !e.w then (.fail 2, t) else (.at ⟨.host, e.pa va⟩, t)
          | none =>
            match t.atsAnswer (askerOf (hartAt core 0) 15) pasid (vpnOf va) with
            | some r => (.fail r.1, r.2)
            | none => (.wait, t.askHost c.link pasid (vpnOf va) core (askerOf (hartAt core 0) 15))
        else if page * 4096 + 4096 > Config.hbmBytes then (.fail 1, t)
        else if t.migrating.contains page then (.wait, t)
        else if bitsOf p 60 59 = 2 then
          (match firstTouch t c (clusterOf core) (bitsOf p 58 54) va page with
           | some r => (.at ⟨.hbm, page * 4096 + va.toNat % 4096⟩, r.2)
           | none => (.fail 3, s))
        else (.at ⟨.hbm, page * 4096 + va.toNat % 4096⟩, t)

/-- Bytes written at a place under a world's tag, and published. -/
def State.writePlace (s : State) (tag : Nat) (l : Loc) (bs : List Byte) : State :=
  match l.place with
  | .hbm => s.writePublished tag none (bs.zipIdx.map (fun p => (l.off + p.2, p.1)))
  | .host => { s with hostMem := s.hostMem.writeBytes l.off bs }
  | .scratch c => s.onCluster c (fun k => { k with scratch := k.scratch.writeBytes l.off bs })
  | .tcm c => s.onCore c (fun k => { k with tcm := k.tcm.writeBytes l.off bs })
  | _ => s

/-! ### The domain window (R157, R366, R367, R395) -/

/-- Number of a flow for `fseq` (R349). -/
def flowKey (p : Packet) : Nat := p.vc * 2 ^ 34 + p.dstModule * 2 ^ 24 + p.dstCore * 2 ^ 12 + p.srcCore

/-- A packet put into a Wale port, with the next `fseq` of its flow (R349, R366). -/
def State.inject (s : State) (p : Packet) : State :=
  let k := flowKey p
  let n := Tab.get s.flows 0 k
  { s with wale := s.wale ++ [{ p with fseq := n }], flows := Tab.set s.flows 0 k ((n + 1) % 65536) }

/-- Is traffic of a gang held back: it has been switched out and `g.resume` has not admitted it yet (R288, R352)? -/
def State.gangHeld (s : State) (gang : Nat) : Bool := gang != 0 && (Tab.get s.gangs {} gang).out

/-- The context that runs a gang on the module (R157). -/
def State.contextOfGang (s : State) (g : Nat) : Option (Nat × Context) :=
  if g = 0 then none else s.ctxs.find? (fun c => c.2.gang == g && c.2.bound && !c.2.killed)

/-- Does a target hold a request until it is confirmed: the store or atomic of a lane (R395)? -/
def windowHolds : WindowOp → Bool
  | .store _ | .atomic .. => true
  | _ => false

/-- The new bytes of the elements of an `e.cadd` (R241). -/
def caddBytes (ty : Nat) (sat : Bool) : (n : Nat) → (old add : List Byte) → List Byte
  | 0, _, _ => []
  | n + 1, old, add => leBytes 4 (caddNew ty sat (leNat (old.take 4)) (leNat (add.take 4))).1 ++ caddBytes ty sat n (old.drop 4) (add.drop 4)

/-- A request performed at the place that its address translates to, and published there (R157, R166, R172, R241). The flags of an FP
atomic belong to the context that issued it, which takes them from the old value in the answer (R173, log 20). -/
def State.windowPerform (s : State) (l : Loc) (op : WindowOp) : WindowReply × State :=
  match op with
  | .load n =>
    let t := if l.place = .hbm then s.recallOwner (lineKey 0 (lineOf l.off)) else s
    (.data ((List.range n).map (fun i => match l.place with
      | .host => t.hostMem.read (l.off + i)
      | _ => t.byteAt 0 (l.off + i))), t)
  | .confirm _ => (.done, s)
  | .store bs | .put bs => (.done, s.writePlace 0 l bs)
  | .add ty sat bs =>
    if l.place ≠ .hbm then (.wrongPlace, s)
    else
      let t := s.recallOwner (lineKey 0 (lineOf l.off))
      let old := (List.range bs.length).map (fun i => t.byteAt 0 (l.off + i))
      (.data old, t.writePlace 0 l (caddBytes ty sat (bs.length / 4) old bs))
  | .atomic op n c b =>
    if l.place ≠ .hbm ∧ l.place ≠ .host then (.wrongPlace, s)
    else
      let t := if l.place = .hbm then s.recallOwner (lineKey 0 (lineOf l.off)) else s
      let old := leNat ((List.range n).map (fun i => if l.place = .hbm then t.byteAt 0 (l.off + i) else t.hostMem.read (l.off + i)))
      let new := (amoNew op n old (b.toNat % 2 ^ (8 * n)) (c.toNat % 2 ^ (8 * n))).1
      (.data (leBytes n old), t.writePlace 0 l (leBytes n new))

/-- Does an address name the module's own domain window (R157)? -/
def State.ownWindow (s : State) (va : W64) : Bool := inDomain va && (windowOf va).1 == s.domain.module

/-- What an `sc` through the domain window writes: 0 where the target has performed it and gives the old value, 1 where it only answers,
since it found the reservation lost (log 20). -/
def answerStatus (r : WindowReply) : W64 :=
  match r with
  | .data _ => 0
  | _ => 1

/-- The bytes that a load of a lane asks its target for, from an address up: those of the element; in a non-root world, whose log may
hold additions to values that reach beyond them, the 24 bytes around it that lie in its page (R306, log 65). -/
def MemJob.span (job : MemJob) (l : LaneReq) : W64 × Nat :=
  if job.tag = 0 then (l.addr, job.size)
  else
    let page := l.addr.toNat / 4096 * 4096
    let a := max page (l.addr.toNat / 8 * 8 - 8)
    (BitVec.ofNat 64 a, min (page + 4096) (l.addr.toNat / 8 * 8 + 16) - a)

/-- An element of the domain window as a load reads it, of the bytes that its target gave: with what the world's logs write over them
(R306). -/
def State.spanValue (s : State) (h : Nat) (job : MemJob) (l : LaneReq) (v : Nat) : Nat :=
  let sp := job.span l
  if job.tag = 0 then v
  else s.underLog h job.tag l.addr job.size (fun a =>
    if sp.1.toNat ≤ a ∧ a < sp.1.toNat + sp.2 then BitVec.ofNat 8 (v / 256 ^ (a - sp.1.toNat)) else 0)

/-- The request that a lane of a job makes of its target (R157, R395). -/
def MemJob.windowOp (job : MemJob) (l : LaneReq) : WindowOp :=
  match job.kind with
  | .load => .load (job.span l).2
  | .store => .store (leBytes job.size l.b.toNat)
  | _ => .atomic job.op job.size l.c l.b

/-- The request packet of a lane, on virtual channel 0: kind 4 a read with its size, 2 a write, 3 an atomic with its operation, operand
and compare value (R349, R366, R367; their places in the packet are log 20's). -/
def State.requestPacket (s : State) (h : Nat) (job : MemJob) (l : LaneReq) : Packet :=
  { kind := (match job.kind with
      | .load => 4
      | .store => 2
      | _ => 3)
    vc := 0, srcModule := s.domain.module, dstModule := (windowOf l.addr).1, srcCore := coreOf h, gang := (s.ctx h).gang
    offset := (windowOf (if job.kind = .load then (job.span l).1 else l.addr)).2, tag := job.op
    payload := match job.kind with
      | .load => leBytes 1 (job.span l).2
      | .store => leBytes job.size l.b.toNat
      | _ => leBytes job.size l.b.toNat ++ leBytes job.size l.c.toNat }

/-- The sequence number that a packet would take (R349). -/
def State.seqOf (s : State) (p : Packet) : Nat := Tab.get s.flows 0 (flowKey p)

/-- The confirmation of a lane's request of a sequence number, on its way behind it: the target performs what it holds, or with `ok`
false gives it up (R395, log 20). -/
def State.confirmPacket (s : State) (h : Nat) (va : W64) (seq : Nat) (ok : Bool) : Packet :=
  { kind := 6, vc := 0, srcModule := s.domain.module, dstModule := (windowOf va).1, srcCore := coreOf h, gang := (s.ctx h).gang
    offset := (windowOf va).2, tag := if ok then 0 else 1, payload := leBytes 2 seq }

/-- The lanes of a job that other modules perform, confirmed to them: an operation of the hart that is outstanding until they have
acknowledged every lane (R369, R395). -/
def State.confirmFar (s : State) (h : Nat) (job : MemJob) (asked : Tab Nat) : State :=
  (job.lanes.foldl (fun (s : State) l => s.inject (s.confirmPacket h l.addr (Tab.get asked 0 l.lane) true)) s).onHart h (fun x =>
    { x with ops := x.ops ++ [{ job, acks := job.lanes.map LaneReq.lane }] })

/-- The requests that have left for some lanes given up: the targets perform none of them (R395). -/
def State.giveUp (s : State) (h : Nat) (job : MemJob) (asked : Tab Nat) : State :=
  if job.kind = .load then s
  else (job.lanes.filter (fun l => Tab.has asked l.lane)).foldl (fun (s : State) l =>
    s.inject (s.confirmPacket h l.addr (Tab.get asked 0 l.lane) false)) s

/-- The place of an address in the module's own domain window: the offset added to the domain base of the context that runs the
sender's gang, translated through that context's tables; none where no context runs the gang (R157). -/
def State.ownPlace (s : State) (h : Nat) (va : W64) (store : Bool) : Option CtxPlace × State :=
  match s.contextOfGang (s.ctx h).gang with
  | none => (none, s)
  | some (p, c) =>
    let r := s.ctxPlace p (coreOf h) (c.domain + BitVec.ofNat 64 (windowOf va).2) store
    (some r.1, r.2)

/-- An access of a hart to the module's own domain window performed at its place, after the stores of its core to the bytes, which are
published first; a load gives what the hart may read there (R157, R172, R212). -/
def State.ownPerform (s : State) (h : Nat) (job : MemJob) (l : LaneReq) (loc : Loc) : WindowReply × State :=
  match job.kind with
  | .load => (.data ((List.range (job.span l).2).map (fun i => s.readByte h 0 ⟨loc.place, loc.off + i + (job.span l).1.toNat - l.addr.toNat⟩)), s)
  | _ =>
    let t := (s.drainOwn h).publishCovered h 0 loc job.size
    (match loc.place with
      | .hbm => t.noteBytes 0 loc.off job.size
      | .host => (List.range job.size).foldl (fun s i => s.noteStore 0 (loc.plus i) (s.hostMem.read (loc.off + i))) t
      | _ => t).windowPerform loc (job.windowOp l)

end Sys2Proof.Machine
end

