-- ==== Sys2Proof/Machine/MaskStack.lean ====
section
/-! DEFINITION. CTRL minors 0 to 6 and clause headers: mask logic and moves, divergent regions on the mask stack,
mask-stack access, hart branches and waits (R39 to R41, R82, R83, R118 to R130). -/

namespace Sys2Proof.Machine

/-! ### The stack as a list, top first -/

/-- The 32 bytes of an entry (R39). -/
def MaskEntry.bytes (e : MaskEntry) : List Byte :=
  leBytes 4 e.mask.toNat ++ [e.kind, 0, 0, 0] ++ leBytes 8 e.rpc.toNat ++ leBytes 8 e.ppc.toNat ++ leBytes 8 0

/-- The entry that 32 bytes hold (R39). -/
def MaskEntry.ofBytes (bs : List Byte) : MaskEntry :=
  { mask := BitVec.ofNat 32 (leNat (bs.take 4)), kind := bs.getD 4 0
    rpc := BitVec.ofNat 64 (leNat ((bs.drop 8).take 8)), ppc := BitVec.ofNat 64 (leNat ((bs.drop 16).take 8)) }

/-- Byte offset in the core's TCM of spilled entry k, counted from the bottom (R40, R41). -/
def spillAt (h : Hart) (k : Nat) : Nat := h.tcmBase + h.tcmSize + 32 * k

/-- The spilled entries from index `n - 1` down to 0. -/
def spilled (h : Hart) (tcm : Memory) : (n : Nat) → List MaskEntry
  | 0 => []
  | n + 1 => MaskEntry.ofBytes (tcm.readBytes (spillAt h n) 32) :: spilled h tcm n

/-- Entries put into the spill area, the first of the list at the highest index: one that stands there spilled already stays as its bytes
are (R40, R41). -/
def spill (h : Hart) (tcm : Memory) : List MaskEntry → Memory
  | [] => tcm
  | e :: es =>
    if es.length < h.depth - 16 ∧ MaskEntry.ofBytes (tcm.readBytes (spillAt h es.length) 32) = e then spill h tcm es
    else (spill h tcm es).writeBytes (spillAt h es.length) e.bytes

/-- The whole mask stack of the hart, top first (R40). -/
def State.stackOf (s : State) : List MaskEntry :=
  let h := s.me
  h.stack ++ spilled h (s.core s.myCore).tcm (h.depth - 16)

/-- The mask stack written: the top 16 entries in hardware, those below in the spill area (R40). -/
def State.withStack (s : State) (st : List MaskEntry) : State :=
  let h := s.me
  let t := if st.length ≤ 16 then s
    else s.onCore s.myCore (fun c => { c with tcm := spill h c.tcm (st.drop 16) })
  t.setMe { h with stack := st.take 16, depth := st.length }

/-- What an instruction on the stack comes to: the stack and pc it leaves, a mask-stack fault with its `stval` (R40), or an
illegal operand. -/
inductive StackRes where
  | ok (st : List MaskEntry) (pc : W64)
  | fault (sub : Nat)
  | bad
  deriving DecidableEq, Repr

/-- Kind codes of R122. -/
def kIf : Byte := 1
def kElse : Byte := 2
def kLoop : Byte := 3
def kUser : Byte := 4

/-- Is a kind IF or ELSE? -/
def isBranchKind (k : Byte) : Bool := k == kIf || k == kElse

/-- Push(e): cause 27 with stval 1 at depth 80 (R40, R122). -/
def pushThen (st : List MaskEntry) (e : MaskEntry) (pc : W64) : StackRes :=
  if st.length < 80 then .ok (e :: st) pc else .fault 1

/-- Parent(): the mask below the top, all ones when there is none (R122). -/
def parentMask (below : List MaskEntry) : W32 :=
  match below with
  | [] => 0xFFFFFFFF
  | e :: _ => e.mask

/-- m0 of a stack (R38). -/
def topMask (st : List MaskEntry) : W32 := parentMask st

/-- Settle() with control at `pc`: a branch entry whose mask has become zero runs its pending path, or goes to its join
(R122). -/
def settle (st : List MaskEntry) (pc : W64) : StackRes :=
  match st with
  | [] => .ok st pc
  | e :: below =>
    if e.mask = 0 ∧ isBranchKind e.kind then
      if e.kind = kIf ∧ e.ppc ≠ 0 ∧ parentMask below ≠ 0 then
        .ok ({ mask := parentMask below, kind := kElse, rpc := e.rpc, ppc := 0 } :: below) e.ppc
      else .ok st e.rpc
    else .ok st pc

/-- An instruction on the mask stack, under its guard. -/
def stackOp (i : Instr) (f : Hart → List MaskEntry → StackRes) (s : State) : Out :=
  guarded i s
    (match f s.me s.stackOf with
     | .ok st pc => .next ((s.withStack st).onMe (fun h => h.goto pc))
     | .fault n => trap 27 (BitVec.ofNat 64 n) s
     | .bad => illegal i s)

/-- The address a signed number of words from an instruction's word 0 (R123, R128). -/
def wordTarget (pc : W64) (off : W64) : W64 := pc + (off <<< 2)

/-! ### Mask logic and moves (R120, R121) -/

/-- m[d] ← f (m[a]) (m[b]). -/
def maskLogic (f : W32 → W32 → W32) (o : Args) (h : Hart) : Hart := h.setM o.d.toNat (f (h.M o.a.toNat) (h.M o.b.toNat))

/-- `mand`. -/
def execMand (o : Args) (s : State) : Out := hartOp (.mand o) o (maskLogic (· &&& ·) o) s

/-- `mor`. -/
def execMor (o : Args) (s : State) : Out := hartOp (.mor o) o (maskLogic (· ||| ·) o) s

/-- `mxor`. -/
def execMxor (o : Args) (s : State) : Out := hartOp (.mxor o) o (maskLogic (· ^^^ ·) o) s

/-- `mandn`. -/
def execMandn (o : Args) (s : State) : Out := hartOp (.mandn o) o (maskLogic (fun a b => a &&& ~~~ b) o) s

/-- `morn`. -/
def execMorn (o : Args) (s : State) : Out := hartOp (.morn o) o (maskLogic (fun a b => a ||| ~~~ b) o) s

/-- `mxnor`. -/
def execMxnor (o : Args) (s : State) : Out := hartOp (.mxnor o) o (maskLogic (fun a b => ~~~ (a ^^^ b)) o) s

/-- `mmov`. -/
def execMmov (o : Args) (s : State) : Out := hartOp (.mmov o) o (fun h => h.setM o.d.toNat (h.M o.a.toNat)) s

/-- `mset`. -/
def execMset (o : Args) (s : State) : Out := hartOp (.mset o) o (fun h => h.setM o.d.toNat o.w2) s

/-- `mfx`. -/
def execMfx (o : Args) (s : State) : Out :=
  hartOp (.mfx o) o (fun h => h.setM o.d.toNat ((h.X o.a.toNat).setWidth 32)) s

/-- `mtx`. -/
def execMtx (o : Args) (s : State) : Out :=
  hartOp (.mtx o) o (fun h => h.setX o.d.toNat ((h.M o.a.toNat).setWidth 64)) s

/-- `mpopc`. -/
def execMpopc (o : Args) (s : State) : Out :=
  hartOp (.mpopc o) o (fun h => h.setX o.d.toNat (BitVec.ofNat 64 (popcount (h.M o.a.toNat).toNat 32))) s

/-- `mffs`: 32 for an empty mask. -/
def execMffs (o : Args) (s : State) : Out :=
  hartOp (.mffs o) o (fun h => h.setX o.d.toNat (BitVec.ofNat 64 (ctz 32 (h.M o.a.toNat).toNat))) s

/-! ### Divergent regions (R123 to R125) -/

/-- The signed word offset in the low half of word 2, and in the high half. -/
def elseOff (o : Args) : W64 := (o.w2.extractLsb' 0 16 : BitVec 16).signExtend 64
def joinOff (o : Args) : W64 := (o.w2.extractLsb' 16 16 : BitVec 16).signExtend 64

/-- `lif` and `lifn`: the lanes that take the condition first, the others pending (R123, R124). -/
def openIf (negate : Bool) (o : Args) (h : Hart) (st : List MaskEntry) : StackRes :=
  let cur := topMask st
  let c := h.M o.a.toNat
  let t := if negate then cur &&& ~~~ c else cur &&& c
  let f := cur &&& ~~~ t
  let els := wordTarget h.pc (elseOff o)
  let join := wordTarget h.pc (joinOff o)
  if t ≠ 0 then
    pushThen st { mask := t, kind := kIf, rpc := join, ppc := if f ≠ 0 then els else 0 } (h.nextPc o.words)
  else pushThen st { mask := f, kind := kElse, rpc := join, ppc := 0 } (if f ≠ 0 then els else join)

/-- `lif`. -/
def execLif (o : Args) (s : State) : Out := stackOp (.lif o) (openIf false o) s

/-- `lifn`. -/
def execLifn (o : Args) (s : State) : Out := stackOp (.lifn o) (openIf true o) s

/-- `lelse` (R123). -/
def doElse (st : List MaskEntry) : StackRes :=
  match st with
  | [] => .fault 2
  | e :: below =>
    if e.kind = kIf then
      let f := parentMask below &&& ~~~ e.mask
      if e.ppc ≠ 0 ∧ f ≠ 0 then .ok ({ mask := f, kind := kElse, rpc := e.rpc, ppc := 0 } :: below) e.ppc
      else .ok st e.rpc
    else if e.kind = kElse then .ok st e.rpc
    else .fault 2

/-- `lelse`. -/
def execLelse (o : Args) (s : State) : Out := stackOp (.lelse o) (fun _ st => doElse st) s

/-- `ljoin` with control next at `next` (R123). -/
def doJoin (next : W64) (st : List MaskEntry) : StackRes :=
  match st with
  | [] => .fault 2
  | e :: below =>
    let f := parentMask below &&& ~~~ e.mask
    if e.kind = kIf ∧ e.ppc ≠ 0 ∧ f ≠ 0 then
      .ok ({ mask := f, kind := kElse, rpc := e.rpc, ppc := 0 } :: below) e.ppc
    else if isBranchKind e.kind then settle below next
    else .fault 2

/-- `ljoin`. -/
def execLjoin (o : Args) (s : State) : Out := stackOp (.ljoin o) (fun h st => doJoin (h.nextPc o.words) st) s

/-- `lloop` (R125): the exit offset is word 2. -/
def execLloop (o : Args) (s : State) : Out :=
  stackOp (.lloop o) (fun h st =>
    let exit := wordTarget h.pc (o.w2.signExtend 64)
    if topMask st = 0 then .ok st exit
    else pushThen st { mask := topMask st, kind := kLoop, rpc := exit, ppc := h.nextPc o.words } (h.nextPc o.words)) s

/-- The stack with lanes `b` removed from every entry from the top down to the highest LOOP, and the entries from that
LOOP down; none where there is no LOOP (R125). -/
def dropLanes (b : W32) : List MaskEntry → Option (List MaskEntry × List MaskEntry)
  | [] => none
  | e :: below =>
    let e' := { e with mask := e.mask &&& ~~~ b }
    if e.kind = kLoop then some ([], e' :: below)
    else (dropLanes b below).map (fun p => (e' :: p.1, p.2))

/-- `lbrk` (R125). -/
def doBreak (c : W32) (next : W64) (st : List MaskEntry) : StackRes :=
  match dropLanes (topMask st &&& c) st with
  | some (above, k :: below) => if k.mask = 0 then .ok below k.rpc else settle (above ++ k :: below) next
  | _ => .fault 2

/-- `lbrk`. -/
def execLbrk (o : Args) (s : State) : Out :=
  stackOp (.lbrk o) (fun h st => doBreak (h.M o.a.toNat) (h.nextPc o.words) st) s

/-- `lcont` (R125). -/
def doCont (c : W32) (st : List MaskEntry) : StackRes :=
  match st with
  | [] => .fault 2
  | e :: below =>
    if e.kind = kLoop then
      let t := e.mask &&& c
      if t ≠ 0 then .ok ({ e with mask := t } :: below) e.ppc else settle below e.rpc
    else .fault 2

/-- `lcont`. -/
def execLcont (o : Args) (s : State) : Out := stackOp (.lcont o) (fun h st => doCont (h.M o.a.toNat) st) s

/-! ### Mask-stack access (R127) -/

/-- `ms.push`. -/
def execMsPush (o : Args) (s : State) : Out :=
  stackOp (.msPush o) (fun h st =>
    pushThen st { mask := topMask st &&& h.M o.a.toNat, kind := kUser, rpc := 0, ppc := 0 } (h.nextPc o.words)) s

/-- `ms.pop`. -/
def execMsPop (o : Args) (s : State) : Out :=
  stackOp (.msPop o) (fun h st =>
    match st with
    | [] => .fault 2
    | _ :: below => .ok below (h.nextPc o.words)) s

/-- `ms.depth`. -/
def execMsDepth (o : Args) (s : State) : Out :=
  hartOp (.msDepth o) o (fun h => h.setX o.d.toNat (BitVec.ofNat 64 h.depth)) s

/-- A read of entry X(a) into X(d); cause 27 with stval 2 at or beyond the depth (R127). -/
def stackRead (i : Instr) (o : Args) (f : MaskEntry → W64) (s : State) : Out :=
  guarded i s
    (match s.stackOf[(s.me.X o.a.toNat).toNat]? with
     | some e => .next (s.onMe (fun h => (h.setX o.d.toNat (f e)).advance o.words))
     | none => trap 27 2 s)

/-- `ms.rdm`. -/
def execMsRdm (o : Args) (s : State) : Out :=
  stackRead (.msRdm o) o (fun e => (e.kind.setWidth 64 <<< 32) ||| e.mask.setWidth 64) s

/-- `ms.rdr`. -/
def execMsRdr (o : Args) (s : State) : Out := stackRead (.msRdr o) o (fun e => e.rpc) s

/-- `ms.rdp`. -/
def execMsRdp (o : Args) (s : State) : Out := stackRead (.msRdp o) o (fun e => e.ppc) s

/-- A write of entry X(a) from X(d) (R127). -/
def stackWrite (o : Args) (f : W64 → MaskEntry → MaskEntry) (h : Hart) (st : List MaskEntry) : StackRes :=
  let n := (h.X o.a.toNat).toNat
  match st[n]? with
  | some e => .ok (st.set n (f (h.X o.d.toNat) e)) (h.nextPc o.words)
  | none => .fault 2

/-- `ms.wrm`: a kind outside 1–4 or bits [63:40] nonzero is illegal. -/
def execMsWrm (o : Args) (s : State) : Out :=
  stackOp (.msWrm o) (fun h st =>
    let w := (h.X o.d.toNat).toNat
    if 1 ≤ w / 2 ^ 32 ∧ w / 2 ^ 32 ≤ 4 then
      stackWrite o (fun w e => { e with mask := w.setWidth 32, kind := w.extractLsb' 32 8 }) h st
    else .bad) s

/-- `ms.wrr`. -/
def execMsWrr (o : Args) (s : State) : Out :=
  stackOp (.msWrr o) (stackWrite o (fun w e => { e with rpc := w &&& ~~~ 3#64 })) s

/-- `ms.wrp`. -/
def execMsWrp (o : Args) (s : State) : Out :=
  stackOp (.msWrp o) (stackWrite o (fun w e => { e with ppc := w &&& ~~~ 3#64 })) s

/-! ### Hart branches on a mask (R128) -/

/-- A hart branch taken when `f m0 m[a]` holds. -/
def maskBranch (i : Instr) (o : Args) (f : W32 → W32 → Bool) (s : State) : Out :=
  guarded i s (.next (s.onMe (fun h =>
    h.goto (if f h.m0 (h.M o.a.toNat) then wordTarget h.pc (o.imm.signExtend 64) else h.nextPc o.words))))

/-- `mbz`. -/
def execMbz (o : Args) (s : State) : Out := maskBranch (.mbz o) o (fun m c => (m &&& c) == 0) s

/-- `mbnz`. -/
def execMbnz (o : Args) (s : State) : Out := maskBranch (.mbnz o) o (fun m c => (m &&& c) != 0) s

/-- `mball`. -/
def execMball (o : Args) (s : State) : Out := maskBranch (.mball o) o (fun m c => (m &&& ~~~ c) == 0) s

/-- `mbnall`. -/
def execMbnall (o : Args) (s : State) : Out := maskBranch (.mbnall o) o (fun m c => (m &&& ~~~ c) != 0) s

/-! ### Waits (R83, R129, R130) -/

/-- The n of a `pause` or `bbhint`: d × 64 + a (R129, R268). -/
def n12 (o : Args) : Nat := o.d.toNat * 64 + o.a.toNat

/-- `pause n`: the interval of R31 begins; `pause 0` has no effect beyond its issue slot. -/
def execPause (o : Args) (s : State) : Out :=
  hartOp (.pause o) o (fun h => if n12 o = 0 then h else { h with pauseEnd := s.cycle + n12 o, pauseLen := n12 o }) s

/-- `yield`: waits until the other ready harts of its core have issued, or 16 clk have passed, and then issues again and ends; a hart
that waits so is ready no sooner (R34, R129; `State.ready`). -/
def execYield (o : Args) (s : State) : Out :=
  guarded (.yield o) s (.next (s.onMe (fun h =>
    if h.inLine 11 then h.advance o.words else h.block 11 (BitVec.ofNat 64 s.cycle))))

/-- The flags `dfwait` names: df0–df5 in a, df6–df11 in d (R130). -/
def dfMask (o : Args) : BitVec 12 := (o.d.extractLsb' 0 6 : BitVec 6) ++ (o.a.extractLsb' 0 6 : BitVec 6)

/-- An instruction that waits until the done flags of a mask are clear, then has its effect (R83, R130). -/
def whenClear (code : Nat) (w : BitVec 12) (f : Hart → Hart) (s : State) : Out :=
  if s.me.flagsClear w then .next (s.onMe f) else .next (s.onMe (fun h => h.block code (w.setWidth 64)))

/-- `dfwait`. -/
def execDfwait (o : Args) (s : State) : Out :=
  guarded (.dfwait o) s (whenClear 2 (dfMask o) (fun h => h.advance o.words) s)

/-- A clause header: waits for its flags, then sets the attachment (R83). -/
def execClh (wait : BitVec 12) (fa fb : BitVec 4) (s : State) : Out :=
  whenClear 1 wait (fun h => { h with att := { fa, fb } }.advance 1) s

end Sys2Proof.Machine
end

