-- ==== Sys2Proof/Machine/Memory.lean ====
section
/-! DEFINITION. The MEM instructions: lane and uniform loads and stores, atomics, fences and cache control (R159 to R178),
with the operand log that holds an instruction whose pages are not translated (R320, R321). -/

namespace Sys2Proof.Machine

/-! ### The operand log (R320, R321) -/

/-- Pages that an entry's lanes name outside the local window. -/
def MemJob.pages (job : MemJob) : List Nat := (job.outside.map (fun l => l.addr.toNat / 4096)).dedup

/-- The place in a hart's log beside its eight entries: the instruction that waits in the coalescer for an entry, or for an earlier
access to its pages, while the hart's other instructions go on (R320, R321). -/
def coalescerEntry : Nat := 8

/-- Does a logged instruction with an ordering part hold back every later MEM, engine and synchronisation instruction (R167)? -/
def Hart.logOrdered (x : Hart) : Bool :=
  x.oplog.any (fun e => e.2.engine.isNone && (e.2.job.acq || e.2.job.rel)) || x.ops.any (fun p => p.acks != [] && p.job.acq)

/-- Must a MEM, engine or synchronisation instruction of the hart wait behind a logged one with an ordering part, or behind the one in
the coalescer (R167, R320)? -/
def Hart.ordered (x : Hart) : Bool := x.logOrdered || Tab.has x.oplog coalescerEntry

/-- Does a page of the job lie in an occupied entry, unless both are loads (R321)? -/
def Hart.conflicts (x : Hart) (job : MemJob) : Bool :=
  x.oplog.any (fun e => !(e.2.job.kind == .load && job.kind == .load) && e.2.job.pages.any job.pages.contains)

/-- The hart waits in the coalescer with its instruction (R232, R321, R326); wait code 17 (log 10). -/
def inCoalescer (s : State) : Out := .next (s.onMe (fun x => x.block 17 1))

/-- Was the last verdict that the hart asked for, or still awaits, on the instruction at its pc and this address (R326)? -/
def Hart.heldOn (x : Hart) (va : W64) (fetch : Bool) : Bool := x.heldFor == (x.pc, va, fetch)

/-- Is a standard access or fetch of the instruction at the pc one that an UNRESOLVABLE verdict has come for (R326)? -/
def Hart.unresolvable (x : Hart) (va : W64) (fetch : Bool) : Bool := x.heldBad && x.heldOn va fetch

/-- The verdict has been used: the access has trapped, or its page is translated after all. -/
def Hart.settled (x : Hart) (va : W64) (fetch : Bool) : Hart := if x.unresolvable va fetch then { x with heldBad := false } else x

/-- A standard access or fetch whose page has failed waits at its instruction for the verdict on its fault record. Cut off by an interrupt
and issued again, it waits on for the verdict that it asked for (R34, R326); wait code 17 (log 10). -/
def State.awaitVerdict (s : State) (h : Nat) (va : W64) (fetch : Bool) (acc reason tag : Nat) : State :=
  let x := s.hart h
  if x.heldSeq.isSome && x.heldOn va fetch then s.onHart h (fun x => x.block 17)
  else
    let r := s.report h 0 va acc reason tag
    r.2.onHart h (fun x => { x.block 17 with heldSeq := some r.1, heldBad := false, heldFor := (x.pc, va, fetch) })

/-- The location of a lane that is reached, a domain-window lane's among them, which the gate has admitted at issue (R281). -/
def State.placeOf (s : State) (h : Nat) (job : MemJob) (l : LaneReq) : Option Loc :=
  if inDomain l.addr then some ⟨.window (windowOf l.addr).1, (windowOf l.addr).2⟩
  else match s.reach h l.addr job.size job.kind with
    | .here p => some p
    | _ => none

/-- Are the lanes through the domain window left to the world's log: stores and no-return atomics of a non-root world
(R304)? -/
def MemJob.logged (job : MemJob) : Bool := job.tag != 0 && (job.kind == .store || job.kind == .amoNr)

/-- Does a page of the job miss the TLBs (R320)? -/
def State.misses (s : State) (h : Nat) (job : MemJob) : Bool :=
  job.lanes.any (fun l => s.reach h l.addr job.size job.kind == .miss)

/-- Must the job take an operand-log entry: a page misses, or a lane names the domain window (R320, R395)? -/
def State.needsEntry (s : State) (h : Nat) (job : MemJob) : Bool :=
  s.misses h job || (!job.logged && job.lanes.any (fun l => inDomain l.addr))

/-- Every lane with its location. -/
def State.located (s : State) (h : Nat) (job : MemJob) : List (LaneReq × Loc) :=
  job.lanes.filterMap (fun l => (s.placeOf h job l).map (fun p => (l, p)))

/-- Lanes whose page the old home is migrating, with that page (R231). -/
def State.movedPages (s : State) (ls : List (LaneReq × Loc)) : List (W64 × Nat) :=
  (ls.filter (fun l => l.2.place == .hbm && s.migrating.contains (l.2.off / 4096))).map (fun l => (l.1.addr, l.2.off / 4096))

/-- A core drops its translations of a physical page (R232). -/
def State.dropPage (s : State) (core page : Nat) : State :=
  let keep (e : TlbEntry) : Bool := e.host || !(e.ppn ≤ page && page < e.ppn + 512 ^ e.level)
  (s.onCore core (fun c => { c with l1tlb := c.l1tlb.filter keep })).onCluster (clusterOf core)
    (fun c => { c with tlb := c.tlb.filter keep })

/-- MOVED for a physical page: the core drops its translations of it, and holds its accesses to the virtual pages that they
translated (R232). -/
def State.refusePage (s : State) (core page : Nat) : State :=
  let es := (s.tlbs core).filter (fun e => !e.host && e.ppn ≤ page && page < e.ppn + 512 ^ e.level)
  let hs := (es.map (fun e => (e.pasid, e.vpn / 512 ^ e.level * 512 ^ e.level + (page - e.ppn)))).dedup
  (s.dropPage core page).onCore core (fun c => { c with held := c.held ++
    (hs.filter (fun e => !c.held.any (fun k => k.pasid == e.1 && k.vpn == e.2))).map (fun e => ({ pasid := e.1, vpn := e.2, page } : HeldPage)) })

/-- Is an entry of the pages held the one of a page of a context? -/
def HeldPage.names (k : HeldPage) (pasid vpn : Nat) : Bool := k.pasid == pasid && k.vpn == vpn

/-- A request of a hart's instruction at `pc` to a held page takes its place behind those that wait there already (R232). -/
def State.queueAt (s : State) (h : Nat) (pc : W64) (va : W64) : State :=
  s.onCore (coreOf h) (fun c => { c with held := c.held.map (fun k =>
    if k.names (ctxOf s h) (vpnOf va) ∧ !k.harts.contains (h, pc) then { k with harts := k.harts ++ [(h, pc)] } else k) })

/-- MOVED for an access of a hart (R232). -/
def State.refuse (s : State) (h : Nat) (pc va : W64) (page : Nat) : State :=
  let p := ctxOf s h
  ((s.refusePage (coreOf h) page).onCore (coreOf h) (fun c =>
    { c with held := if c.held.any (fun k => k.names p (vpnOf va)) then c.held else c.held ++ [{ pasid := p, vpn := vpnOf va, page }] })).queueAt h pc va

/-- Does a core hold its accesses to the page of an address (R232)? -/
def State.heldAt (s : State) (h : Nat) (va : W64) : Bool :=
  !inLocal va && !inDomain va && (s.core (coreOf h)).held.any (fun k => k.names (ctxOf s h) (vpnOf va))

/-- Does a request still wait at the coalescer, or in its hart's operand log? That of a hart that has been interrupted has left its
place. -/
def State.waitsHeld (s : State) (q : Nat × W64) : Bool :=
  let x := s.hart q.1
  (x.wait.code == 17 && x.wait.a == 1 && x.pc == q.2) || x.oplog.any (fun e => e.2.job.pc == q.2)

/-- The requests to a held page, but one, that still wait. -/
def State.othersHeld (s : State) (k : HeldPage) (q : Nat × W64) : List (Nat × W64) := k.harts.filter (fun r => r != q && s.waitsHeld r)

/-- May a request to a held page go: none of those that still wait came before it (R232)? -/
def State.turnAt (s : State) (q : Nat × W64) (va : W64) : Bool :=
  (s.core (coreOf q.1)).held.all (fun k => !k.names (ctxOf s q.1) (vpnOf va)
    || (k.harts.filter (fun r => r == q || s.waitsHeld r)).head?.all (· == q))

/-- A held page walked again: its accesses go on, in the order in which they came, once the leaf in place names a page that no home
refuses; until then they neither fault nor enter the operand log. The page is held no more when none is left (R232). -/
def State.rewalk (s : State) (h : Nat) (pc va : W64) (n : Need) : Bool × State :=
  let q := (h, pc)
  if !s.heldAt h va then (true, s)
  else if !s.turnAt q va then (false, s.queueAt h pc va)
  else match walk s h va n with
    | (.ok e, t) =>
      if t.migrating.contains (e.pa va / 4096) then (false, s.queueAt h pc va)
      else (true, (t.fillTlb (coreOf h) e).onCore (coreOf h) (fun c =>
        { c with held := c.held.filterMap (fun k =>
            if !k.names (ctxOf s h) (vpnOf va) then some k
            else if s.othersHeld k q = [] then none
            else some { k with harts := s.othersHeld k q }) }))
    | _ => (false, s.queueAt h pc va)

/-- The held pages of some addresses walked again. -/
def State.rewalkAll (s : State) (h : Nat) (pc : W64) (vas : List W64) (n : Need) : Bool × State :=
  vas.foldl (fun acc va => let r := acc.2.rewalk h pc va n; (acc.1 && r.1, r.2)) (true, s)

/-- The lowest free entry of an operand log; the coalescer when all eight are occupied. -/
def Hart.freeEntry (x : Hart) : Nat := Tab.free x.oplog coalescerEntry 0

/-- The job put at a place of the operand log, in state 1 (R320). -/
def Hart.enterAt (x : Hart) (n : Nat) (job : MemJob) : Hart :=
  { x with
    oplog := Tab.ins x.oplog n
      { job, active := maskOf (job.lanes.map LaneReq.lane) (fun _ => true), att := x.att, state := .walking,
        npage := job.pages.length, order := x.nextOrder }
    nextOrder := x.nextOrder + 1 }

/-- The job entered in the lowest free entry of the operand log, or left in the coalescer until one clears (R320). -/
def Hart.enterLog (x : Hart) (job : MemJob) : Hart := x.enterAt x.freeEntry job

/-- The instruction in the coalescer goes into the operand log, once an entry is free and no earlier one holds a page of it (R320,
R321). -/
def Hart.leaveCoalescer (x : Hart) : Hart :=
  match x.oplog.look coalescerEntry with
  | none => x
  | some e =>
    let y := { x with oplog := Tab.del x.oplog coalescerEntry }
    if y.conflicts e.job ∨ y.freeEntry = coalescerEntry then x else { y with oplog := Tab.ins y.oplog y.freeEntry e }

/-- A MEM job after its release part: performed at once, or entered in the operand log; then its acquire part, and control
falls through (R163, R167). It stays in the coalescer behind a logged access to its pages and while the log is full, and the hart goes on;
the hart waits with it while the home migrates one of its pages, and until its way is clear. World and host faults of a job whose pages
all hit are precise (R327). -/
def runJob (words : Nat) (job : MemJob) (s : State) : Out :=
  let h := s.cur
  if s.me.conflicts job then .next (s.onMe (fun x => (x.enterAt coalescerEntry job).advance words))
  else
    let r := s.rewalkAll h job.pc (job.lanes.map LaneReq.addr) job.kind.need
    let s := r.2
    let log : Out := .next (s.onMe (fun x => (x.enterLog job).advance words))
    if !r.1 then inCoalescer s
    else if s.misses h job then log
    else
      match s.worldFault h job (s.placeOf h job) with
      | some f => trap f.1 f.2 s
      | none =>
        if s.needsEntry h job then log
        else
          let ls := s.located h job
          match s.movedPages ls with
          | p :: _ => inCoalescer (s.refuse h job.pc p.1 p.2)
          | [] =>
            let w := s.clearWay h s.me.nextOrder job (ls.map Prod.snd)
            if !w.1 then inCoalescer w.2
            else
              let t := if job.lanes = [] then w.2 else w.2.perform h job ls
              .next ((if job.acq then t.acquire h job.scope else t).onMe (fun x => x.advance words))

/-- A MEM job at issue: it waits behind an ordered logged instruction, takes its precise traps, and makes its release
part (R162, R167, R329). -/
def issueJob (words : Nat) (job : MemJob) (s : State) : Out :=
  if s.me.ordered then inCoalescer s
  else
    match s.issueFault s.cur job with
    | some f => trap f.1 f.2 s
    | none => if job.rel then afterRelease 8 job.scope s (runJob words job) else runJob words job s

/-! ### Building jobs (R161, R164, R170) -/

/-- The displacement of a lane or uniform form. -/
def dispOf (o : Args) : W64 := o.w2.signExtend 64

/-- Bytes of an element of a MEM type code, `dflt` standing for code 0. -/
def sizeOfType (dflt t : Nat) : Nat := if t = 0 then dflt else bitsOfType t / 8

/-- Is a loaded element sign-extended: a signed integer type is. R164 names `.i8` and `.i16`, and has uniform loads of 32-bit types
extend in the same way, from which that of `.i32` into a 64-bit register is signed (DEDUCED, log 54). -/
def signedType (t : Nat) : Bool := t == 1 || t == 3 || t == 5

/-- What every job of a hart carries: pc, words, world, attachment, ordering part and the mode that its pages are checked
with. -/
def jobOf (i : Instr) (o : Args) (classA : Bool) (h : Hart) : MemJob :=
  { kind := .load, size := 4, lanes := [], acq := o.ord.toNat % 2 = 1, rel := o.ord.toNat / 2 = 1, scope := o.rsc.toNat,
    flag := h.attachFlag classA, pc := h.pc, words := ((encode i) ++ [0, 0]).take 3, tag := h.tag, mode := h.mode,
    mstatus := h.csr.mstatus }

/-- The address of lane l: a base register with a lane offset, or a register pair's full address (R161). -/
def laneAddr (pair : Bool) (off : W64) (o : Args) (h : Hart) (l : Nat) : W64 :=
  if pair then h.V64 o.b.toNat l + off else h.X o.a.toNat + (h.V o.b.toNat l).signExtend 64 + off

/-- The address of lane l of `vlds` and `vsts` (R161). -/
def scratchAddr (o : Args) (h : Hart) (l : Nat) : W64 :=
  0xFF00000001000000 + (((h.X o.a.toNat).setWidth 32 + h.V o.b.toNat l + o.w2 : W32).setWidth 64)

/-- Bytes of an element of a lane load or store: 8 in the double forms, otherwise those of the type. -/
def laneSize (o : Args) (dbl : Bool) : Nat := if dbl then 8 else sizeOfType 4 o.ty.toNat

/-- The job of a lane load of the type in `c.type`, or of 8 bytes. -/
def loadJob (i : Instr) (o : Args) (dbl : Bool) (rc : Nat) (addr : Hart → Nat → W64) (h : Hart) : MemJob :=
  { jobOf i o true h with
    kind := .load, size := laneSize o dbl, signed := signedType o.ty.toNat, rc,
    lanes := (active h o).map (fun l => { lane := l, addr := addr h l }),
    dest := if dbl then .v64 o.d.toNat else .v o.d.toNat }

/-- What lane l of a lane store stores. -/
def storeData (o : Args) (dbl : Bool) (h : Hart) (l : Nat) : W64 :=
  if dbl then h.V64 o.d.toNat l else (h.V o.d.toNat l).setWidth 64

/-- The job of a lane store. -/
def storeJob (i : Instr) (o : Args) (dbl : Bool) (addr : Hart → Nat → W64) (h : Hart) : MemJob :=
  { jobOf i o false h with
    kind := .store, size := laneSize o dbl,
    lanes := (active h o).map (fun l => { lane := l, addr := addr h l, b := storeData o dbl h l }) }

/-- A lane load. -/
def laneLoad (i : Instr) (o : Args) (dbl : Bool) (rc : Nat) (addr : Hart → Nat → W64) (s : State) : Out :=
  guarded i s (issueJob o.words (loadJob i o dbl rc addr s.me) s)

/-- A lane store. -/
def laneStore (i : Instr) (o : Args) (dbl : Bool) (addr : Hart → Nat → W64) (s : State) : Out :=
  guarded i s (issueJob o.words (storeJob i o dbl addr s.me) s)

/-! ### Lane loads and stores (R165, R168) -/

/-- `vld` with a scalar base. -/
def execVld (o : Args) (s : State) : Out := laneLoad (.vld o) o false 0 (laneAddr false (dispOf o) o) s

/-- `vld` with an address pair. -/
def execVldPair (o : Args) (s : State) : Out := laneLoad (.vldPair o) o false 0 (laneAddr true (dispOf o) o) s

/-- `vld64`, either form. -/
def execVld64 (o : Args) (s : State) : Out := laneLoad (.vld64 o) o true 0 (laneAddr (o.xop == 3) (dispOf o) o) s

/-- `vst`, either form. -/
def execVst (o : Args) (s : State) : Out := laneStore (.vst o) o false (laneAddr (o.xop == 1) (dispOf o) o) s

/-- `vst64`, either form. -/
def execVst64 (o : Args) (s : State) : Out := laneStore (.vst64 o) o true (laneAddr (o.xop == 3) (dispOf o) o) s

/-- `vlds`. -/
def execVlds (o : Args) (s : State) : Out := laneLoad (.vlds o) o false 0 (scratchAddr o) s

/-- `vsts`. -/
def execVsts (o : Args) (s : State) : Out := laneStore (.vsts o) o false (scratchAddr o) s

/-- `vld.rc`: the count is `xop`. -/
def execVldRc (o : Args) (s : State) : Out := laneLoad (.vldRc o) o false o.xop.toNat (laneAddr false (dispOf o) o) s

/-! ### Uniform loads and stores (R169) -/

/-- The address of a uniform load or store (R169). -/
def uniAddr (o : Args) (h : Hart) : W64 := h.X o.a.toNat + o.imm.signExtend 64

/-- The job of `uld`. -/
def uldJob (o : Args) (h : Hart) : MemJob :=
  { jobOf (.uld o) o true h with
    kind := .load, size := sizeOfType 8 o.ty.toNat, signed := signedType o.ty.toNat,
    lanes := [{ lane := 0, addr := uniAddr o h }], dest := .x o.d.toNat }

/-- `uld`. -/
def execUld (o : Args) (s : State) : Out := guarded (.uld o) s (issueJob o.words (uldJob o s.me) s)

/-- The job of `ust`. -/
def ustJob (o : Args) (h : Hart) : MemJob :=
  { jobOf (.ust o) o false h with
    kind := .store, size := sizeOfType 8 o.ty.toNat, lanes := [{ lane := 0, addr := uniAddr o h, b := h.X o.d.toNat }] }

/-- `ust`. -/
def execUst (o : Args) (s : State) : Out := guarded (.ust o) s (issueJob o.words (ustJob o s.me) s)

/-! ### Atomics (R170 to R173) -/

/-- The address of lane l of a lane atomic: `cas` has no displacement (R170). -/
def atomicAddr (o : Args) (h : Hart) (l : Nat) : W64 :=
  laneAddr false (if o.xop.toNat % 16 = 9 then 0 else dispOf o) o h l

/-- The job of a lane atomic, with return or without. -/
def atomicJob (i : Instr) (o : Args) (ret : Bool) (h : Hart) : MemJob :=
  let dbl := Rows.wide o
  let op := o.xop.toNat % 16
  let reg (r l : Nat) : W64 := if dbl then h.V64 r l else (h.V r l).setWidth 64
  { jobOf i o ret h with
    kind := if ret then .amo else .amoNr, size := if dbl then 8 else 4, op,
    lanes := (active h o).map (fun l =>
      { lane := l, addr := atomicAddr o h l, b := reg (if op = 9 then o.w2.toNat else o.d.toNat) l, c := reg o.d.toNat l }),
    dest := if ret then (if dbl then .v64 o.d.toNat else .v o.d.toNat) else .none }

/-- A lane atomic. -/
def laneAtomic (i : Instr) (o : Args) (ret : Bool) (s : State) : Out :=
  guarded i s (issueJob o.words (atomicJob i o ret s.me) s)

/-- `vamo` with return. -/
def execVamo (o : Args) (s : State) : Out := laneAtomic (.vamo o) o true s

/-- `vamo.cas`. -/
def execVamoCas (o : Args) (s : State) : Out := laneAtomic (.vamoCas o) o true s

/-- `vamo.nr`. -/
def execVamoNr (o : Args) (s : State) : Out := laneAtomic (.vamoNr o) o false s

/-- The job of `uamo`; with d = x0 it returns nothing (R170). -/
def uamoJob (o : Args) (h : Hart) : MemJob :=
  let dbl := Rows.wide o
  let op := o.xop.toNat % 16
  let ret := o.d != 0
  { jobOf (.uamo o) o ret h with
    kind := if ret then .amo else .amoNr, size := if dbl then 8 else 4, signed := !dbl, op,
    lanes := [{ lane := 0, addr := h.X o.a.toNat + (if op = 9 then 0 else dispOf o), b := h.X o.b.toNat, c := h.X o.d.toNat }],
    dest := if ret then .x o.d.toNat else .none }

/-- `uamo`. -/
def execUamo (o : Args) (s : State) : Out := guarded (.uamo o) s (issueJob o.words (uamoJob o s.me) s)

/-! ### Fences (R175, R176) -/

/-- Every earlier load of the hart has its value bound: none is held in the operand log (R175). -/
def Hart.bound (x : Hart) : Bool := x.oplog.all (fun e => e.2.engine.isSome || e.2.job.kind != .load)

/-- A fence of the MEM family: it waits behind a logged instruction with an ordering part, as every MEM instruction does (R167). -/
def fenceOp (i : Instr) (s : State) (k : Out) : Out := guarded i s (if s.me.ordered then inCoalescer s else k)

/-- An acquire fence at a scope, then control falls through. -/
def acquireFence (words scope : Nat) (s : State) : Out :=
  if s.me.bound then .next ((s.acquire s.cur scope).onMe (fun x => x.advance words))
  else .next (s.onMe (fun x => x.block 8))

/-- `fence.acq`. -/
def execFenceAcq (o : Args) (s : State) : Out := fenceOp (.fenceAcq o) s (acquireFence o.words o.rsc.toNat s)

/-- `fence.rel`. -/
def execFenceRel (o : Args) (s : State) : Out :=
  fenceOp (.fenceRel o) s (afterRelease 8 o.rsc.toNat s (fun s => .next (s.onMe (fun x => x.advance o.words))))

/-- `fence.ar`. -/
def execFenceAr (o : Args) (s : State) : Out :=
  fenceOp (.fenceAr o) s (afterRelease 8 o.rsc.toNat s (acquireFence o.words o.rsc.toNat))

/-- The bound of R369 on the close of a tick: 2 L_w,max + 256, with the longest leg of a core, 222 clk from the middle column of dies
(R158, R394). -/
def closeBound (size : Nat) : Nat := 2 * (2 * 222 + (if size ≤ 64 then 60 * 2 + 120 else 60 * 4 + 120 * 3)) + 256

/-- Has tick boundary `t` come, and at domain scope closed on every module (R176, R216)? A module that has lost the heartbeat waits for
twice the bound on the close instead (R366). -/
def State.tickReached (s : State) (t scope : Nat) : Bool :=
  let d := s.domain
  t ≤ s.cycle && (scope ≤ 3 || d.size == 0 || (if d.lost then t + 2 * closeBound d.size ≤ s.cycle else t ≤ d.closed * 256))

/-- `fence.sc`: a release, which also waits for the publication of what the hart has read; the next tick; an acquire. The
hart's wait holds the tick once the release is complete (R176, R216). -/
def execFenceSc (o : Args) (s : State) : Out :=
  let scope := o.rsc.toNat
  let x := s.me
  let unread := (s.core s.myCore).unpub.any (fun u => x.scReads.contains (u.hart, u.loc))
    || s.trackers.any (fun t => t.2.readers.contains s.cur)
  fenceOp (.fenceSc o) s
    (if x.wait.code = 8 ∧ x.wait.a = 1 then
      (if s.tickReached x.wait.b.toNat scope then
        .next ((s.acquire s.cur scope).onMe (fun x => { x with scReads := [] }.advance o.words))
       else .next s)
     else if unread then .next (s.onMe (fun x => { x.block 8 with rel := some scope }))
     else afterRelease 8 scope s (fun s =>
       .next (s.onMe (fun x => x.block 8 1 (BitVec.ofNat 64 ((s.cycle / 256 + 1) * 256))))))

/-! ### Cache control (R177, R178) -/

/-- The device address that a `cctl` function finds by a TLB hit, if any: aligned, translated and within device memory. R178
gives no element size; an address is aligned that is a multiple of 4, the size of a default element (DESIGN CHOICE, log 39). -/
def State.cctlAt (s : State) (o : Args) : Option (W64 × Nat) :=
  let va := s.me.X o.a.toNat + dispOf o
  if va.toNat % 4 ≠ 0 then none
  else match s.reach s.cur va 4 .load with
    | .here l => if l.place = .hbm ∧ l.off < Config.hbmBytes then some (va, l.off) else none
    | _ => none

/-- A `cctl` function on a line. -/
def lineControl (i : Instr) (o : Args) (f : W64 → Nat → State → State) (s : State) : Out :=
  guarded i s (if s.me.ordered then inCoalescer s else
    match s.cctlAt o with
    | some p => .next ((f p.1 p.2 s).onMe (fun x => x.advance o.words))
    | none => .next (s.onMe (fun x => x.advance o.words)))

/-- `cctl.pf1`: the line into the core's L1, as for a load; a home that migrates the page refuses it (R178, R231). -/
def execCctlPf1 (o : Args) (s : State) : Out :=
  lineControl (.cctlPf1 o) o (fun _ pa s =>
    if s.migrating.contains (pa / 4096) then s.refusePage s.myCore (pa / 4096) else s.homeRead s.myCore s.me.tag pa) s

/-- `cctl.pf2`: the line into its home slice, which no load's value shows. -/
def execCctlPf2 (o : Args) (s : State) : Out := lineControl (.cctlPf2 o) o (fun _ _ s => s) s

/-- `cctl.inv`: the core's copy dropped, unless the line holds a performed unpublished store. -/
def execCctlInv (o : Args) (s : State) : Out :=
  lineControl (.cctlInv o) o (fun _ pa s =>
    let c := s.core s.myCore
    if c.unpub.any (fun u => u.loc.place == .hbm && lineOf u.loc.off == lineOf pa) then s
    else s.leaveL1 s.myCore (lineKey (s.seenTag s.me.tag pa) (lineOf pa))) s

/-- Is every earlier atomic of the hart performed (R177)? A logged one is not; an entry of an engine command is none. -/
def Hart.atomicsDone (x : Hart) : Bool :=
  !x.ops.any (fun p => p.job.kind == .amoNr || (p.acks != [] && p.job.kind == .amo))
    && x.oplog.all (fun e => e.2.engine.isSome || (e.2.job.kind != .amo && e.2.job.kind != .amoNr))

/-- `cctl.maf`: reads the flag word; on a tinker it reads zero (R177). -/
def execCctlMaf (o : Args) (s : State) : Out :=
  let x := s.me
  guarded (.cctlMaf o) s
    (if x.ordered then inCoalescer s
     else if x.tinker then .next (s.onMe (fun x => (x.setX o.d.toNat 0).advance o.words))
     else if x.atomicsDone && x.caddDone then
      .next (s.onMe (fun x => (x.setX o.d.toNat ((s.ctx s.cur).maf.setWidth 64)).advance o.words))
     else .next (s.onMe (fun x => x.block 17 1)))

/-- `cctl.mafclr`: clears the bits of the flag word that are set in X(a) [4:0] (R177). -/
def execCctlMafclr (o : Args) (s : State) : Out :=
  let x := s.me
  let keep : BitVec 5 := ~~~ ((x.X o.a.toNat).setWidth 5)
  let p := ctxOf s s.cur
  guarded (.cctlMafclr o) s
    (if x.ordered then inCoalescer s
     else .next ((if x.tinker then s
      else { s with ctxs := Tab.set s.ctxs {} p (let c := s.ctx s.cur; { c with maf := c.maf &&& keep }) }).onMe
      (fun x => x.advance o.words)))

end Sys2Proof.Machine
end

