-- ==== Sys2Proof/Machine/Sha.lean ====
section
/-! DEFINITION. SHA-256, with which Hallmark extends measurements and saves are digested (R344, R384). The spec names the
hash; its definition is that of FIPS 180-4 (PRESUMED, log 13). -/

namespace Sys2Proof.Machine.Sha

/-- The 64 round constants. -/
def k : List W32 :=
  [0x428a2f98, 0x71374491, 0xb5c0fbcf, 0xe9b5dba5, 0x3956c25b, 0x59f111f1, 0x923f82a4, 0xab1c5ed5]
  ++ [0xd807aa98, 0x12835b01, 0x243185be, 0x550c7dc3, 0x72be5d74, 0x80deb1fe, 0x9bdc06a7, 0xc19bf174]
  ++ [0xe49b69c1, 0xefbe4786, 0x0fc19dc6, 0x240ca1cc, 0x2de92c6f, 0x4a7484aa, 0x5cb0a9dc, 0x76f988da]
  ++ [0x983e5152, 0xa831c66d, 0xb00327c8, 0xbf597fc7, 0xc6e00bf3, 0xd5a79147, 0x06ca6351, 0x14292967]
  ++ [0x27b70a85, 0x2e1b2138, 0x4d2c6dfc, 0x53380d13, 0x650a7354, 0x766a0abb, 0x81c2c92e, 0x92722c85]
  ++ [0xa2bfe8a1, 0xa81a664b, 0xc24b8b70, 0xc76c51a3, 0xd192e819, 0xd6990624, 0xf40e3585, 0x106aa070]
  ++ [0x19a4c116, 0x1e376c08, 0x2748774c, 0x34b0bcb5, 0x391c0cb3, 0x4ed8aa4a, 0x5b9cca4f, 0x682e6ff3]
  ++ [0x748f82ee, 0x78a5636f, 0x84c87814, 0x8cc70208, 0x90befffa, 0xa4506ceb, 0xbef9a3f7, 0xc67178f2]

/-- The initial hash value. -/
def init : List W32 :=
  [0x6a09e667, 0xbb67ae85, 0x3c6ef372, 0xa54ff53a, 0x510e527f, 0x9b05688c, 0x1f83d9ab, 0x5be0cd19]

/-- The message with its padding: a 1 bit, zeros, and its length in bits. -/
def pad (bs : List Byte) : List Byte :=
  let n := bs.length
  bs ++ [0x80] ++ List.replicate ((119 - n % 64) % 64) 0
    ++ (List.range 8).map (fun i => BitVec.ofNat 8 (8 * n / 256 ^ (7 - i)))

/-- Four bytes as a big-endian word. -/
def word (bs : List Byte) : W32 := bs.getD 0 0 ++ bs.getD 1 0 ++ bs.getD 2 0 ++ bs.getD 3 0

/-- The schedule: each new word from the last sixteen, newest first. -/
def expand : (n : Nat) → List W32 → List W32
  | 0, w => w
  | n + 1, w =>
    let x := w.getD 14 0
    let y := w.getD 1 0
    let s0 := x.rotateRight 7 ^^^ x.rotateRight 18 ^^^ (x >>> 3)
    let s1 := y.rotateRight 17 ^^^ y.rotateRight 19 ^^^ (y >>> 10)
    expand n ((w.getD 15 0 + s0 + w.getD 6 0 + s1) :: w)

/-- One round. -/
def round (h : List W32) (kw : W32) : List W32 :=
  match h with
  | [a, b, c, d, e, f, g, hh] =>
    let t1 := hh + (e.rotateRight 6 ^^^ e.rotateRight 11 ^^^ e.rotateRight 25) + ((e &&& f) ^^^ (~~~ e &&& g)) + kw
    let t2 := (a.rotateRight 2 ^^^ a.rotateRight 13 ^^^ a.rotateRight 22) + ((a &&& b) ^^^ (a &&& c) ^^^ (b &&& c))
    [t1 + t2, a, b, c, d + t1, e, f, g]
  | _ => h

/-- One block of sixteen words. -/
def block (h w : List W32) : List W32 :=
  let ws := (expand 48 w.reverse).reverse
  List.zipWith (· + ·) h (List.foldl round h (List.zipWith (· + ·) k ws))

/-- The blocks of a padded message. -/
def blocks : (n : Nat) → List Byte → List W32 → List W32
  | 0, _, h => h
  | n + 1, bs, h => blocks n (bs.drop 64) (block h ((List.range 16).map (fun i => word (bs.drop (4 * i)))))

/-- The 32-byte digest of a byte string. -/
def digest (bs : List Byte) : List Byte :=
  let p := pad bs
  (blocks (p.length / 64) p init).flatMap (fun w => (List.range 4).map (fun i => w.extractLsb' (24 - 8 * i) 8))

/-- A measurement register extended by a digest (R384). -/
def extend (m d : List Byte) : List Byte := digest (m ++ d)

end Sys2Proof.Machine.Sha
end

