-- ==== Sys2Proof/Machine/Fetch.lean ====
section
/-! DEFINITION. Instruction fetch: the words at the pc as the hart's own fetch sees them, with its traps and waits, the
triggers that watch it, and the measurement of code pages (R75, R87, R88, R326, R377, R384). -/

namespace Sys2Proof.Machine

/-! ### What fetch sees (R88) -/

/-- A byte as a hart's fetch sees it: the hart's own store that its last `fence.i` took in, else the published byte, or what it was
before the first store of a hart since that `fence.i` or the hart's start (R88). -/
def State.codeByte (s : State) (h : Nat) (l : Loc) : Byte :=
  let x := s.hart h
  match x.fetchOwn.look (codeKey x.tag l) with
  | some b => b
  | none =>
    let k := codeKey (s.seenTag x.tag l.off) l
    match s.written.find? (fun w => x.fenceSeq ≤ w.1 && w.2.1 == k) with
    | some w => w.2.2
    | none =>
      match l.place with
      | .hbm => s.published x.tag l.off
      | .host => s.hostMem.read l.off
      | _ => 0

/-- Number of a line in a hart's fetch; host lines follow the device's. -/
def fetchKey (l : Loc) : Nat := if l.place = .host then 2 ^ 50 + l.off / 128 else l.off / 128

/-- A line put into a hart's fetch; with four lines of its set there, the first leaves (R143; each hart of a core sees the core's
instruction cache as R88 lets it, and the model keeps one for each). -/
def Hart.fillFetch (x : Hart) (k : Nat) (bs : List Byte) : Hart :=
  let set := (x.icache.map Prod.fst).filter (fun j => j % Config.l1iSets == k % Config.l1iSets)
  let t := match set with
    | j :: js => if js.length + 1 < Config.l1iWays then x.icache else Tab.del x.icache j
    | [] => x.icache
  { x with icache := Tab.ins t k bs }

/-- The line of a location in the hart's fetch, captured if the hart does not hold it. -/
def State.fetchLine (s : State) (h : Nat) (l : Loc) : List Byte × State :=
  let k := fetchKey l
  match (s.hart h).icache.look k with
  | some bs => (bs, s)
  | none =>
    let bs := (List.range 128).map (fun i => s.codeByte h ⟨l.place, l.off / 128 * 128 + i⟩)
    (bs, s.onHart h (fun x => x.fillFetch k bs))

/-! ### Measurement of code pages (R384) -/

/-- Number of a page among a context's measured pages. -/
def measureKey (l : Loc) : Nat := l.off / 4096 + (if l.place = .host then 2 ^ 45 else 0)

/-- A code page at its first use by the context extends the context's measurement with the digest of its bytes. -/
def State.measure (s : State) (h : Nat) (l : Loc) : State :=
  let p := ctxOf s h
  let c := Tab.get s.ctxs {} p
  if (s.hart h).tinker ∨ c.measured.contains (measureKey l) then s
  else
    let bs := (List.range 4096).map (fun i =>
      let a := l.off / 4096 * 4096 + i
      if l.place = .host then s.hostMem.read a else s.byteAt 0 a)
    let d := { c with measured := c.measured ++ [measureKey l], cmeas := Sha.extend c.cmeas (Sha.digest bs) }
    { s with ctxs := Tab.set s.ctxs {} p d }

/-! ### Words -/

/-- What reading a word at an address comes to: the word, a trap with its cause, or a wait. -/
inductive FetchWord where
  | word (w : W32) (s : State)
  | trap (cause : Nat) (tval : W64) (s : State)
  | wait (s : State)

/-- A word at a location. -/
def State.wordAt (s : State) (h : Nat) (va : W64) (l : Loc) : FetchWord :=
  match s.movedPages [((⟨0, va, 0, 0⟩ : LaneReq), l)] with
  | p :: _ => .wait ((s.refuse h (s.hart h).pc p.1 p.2).onHart h (fun x => x.block 17 1))
  | [] =>
    let r := s.fetchLine h l
    .word (BitVec.ofNat 32 (leNat ((r.1.drop (l.off % 128)).take 4))) (r.2.onHart h (fun x => x.settled va true))

/-- The word at a virtual address as the hart fetches it (R88, R326). -/
def State.fetchWord (s : State) (h : Nat) (va : W64) : FetchWord :=
  let x := s.hart h
  if inLocal va ∨ inDomain va then .trap 1 va s
  else match rootOf s h .fetch with
    | none => if va.toNat + 4 ≤ Config.hbmBytes then s.wordAt h va ⟨.hbm, va.toNat⟩ else .trap 1 va s
    | some _ =>
      let here (e : TlbEntry) (s : State) : FetchWord :=
        let l : Loc := ⟨if e.host then .host else .hbm, e.pa va⟩
        (s.measure h l).wordAt h va l
      let w := s.rewalk h x.pc va .fetch
      let s := w.2
      if !canonical va then .trap 1 va s
      else if !w.1 then .wait (s.onHart h (fun x => x.block 17 1))
      else match s.tlbLookup h va .fetch with
        | some e => here e s
        | none =>
          if x.unresolvable va true then .trap 12 va (s.onHart h (fun x => x.settled va true))
          else match s.translate (askerOf h 9 x.pc) h va .fetch with
            | (some reason, _, t) => .wait (t.awaitVerdict h va true (8 + (if x.mode = .u then 16 else 0)) reason x.tag)
            | (none, true, t) =>
              (match t.tlbLookup h va .fetch with
               | some e => here e t
               | none => .wait (t.onHart h (fun x => x.block 17 3)))
            | (none, false, t) => .wait (t.onHart h (fun x => x.block 17 3))

/-- `n` words from an address up. -/
def fetchWords (h : Nat) : (n : Nat) → (va : W64) → List W32 → State → (List W32 × State) ⊕ FetchWord
  | 0, _, ws, s => .inl (ws, s)
  | n + 1, va, ws, s =>
    match s.fetchWord h va with
    | .word w t => fetchWords h n (va + 4) (ws ++ [w]) t
    | r => .inr r

/-! ### Instructions -/

/-- What fetching the instruction at a hart's pc comes to. -/
inductive Fetched where
  | instr (i : Instr) (s : State)
  | trap (cause : Nat) (tval : W64) (s : State)
  | wait (s : State)

/-- What words stand for: an instruction, or an encoding that R87 refuses. -/
def instrOf (ws : List W32) : Instr :=
  match decodeWords ws with
  | (.ok i, _) => i
  | (.reject _, _) => .illegalInstruction (ws.headD 0)

/-- The instruction at the pc of a hart: word 0 says how many words it has, and every word is read before it issues (R75,
R88). -/
def State.fetch (s : State) (h : Nat) : Fetched :=
  let pc := (s.hart h).pc
  if pc.toNat % 4 ≠ 0 then .trap 0 pc s
  else match fetchWords h 1 pc [] s with
    | .inl (ws, t) =>
      (match fetchWords h (wordCount (ws.headD 0) - 1) (pc + 4) ws t with
       | .inl (ws, u) => .instr (instrOf ws) u
       | .inr (.trap c v u) => .trap c v u
       | .inr (.wait u) => .wait u
       | .inr (.word _ u) => .wait u)
    | .inr (.trap c v t) => .trap c v t
    | .inr (.wait t) => .wait t
    | .inr (.word _ t) => .wait t

/-- The instruction that a hart would fetch now, without an effect. -/
def State.peek (s : State) (h : Nat) : Option Instr :=
  match s.fetch h with
  | .instr i _ => some i
  | _ => none

/-! ### Triggers (R372, R377) -/

/-- The address that an instruction's standard or uniform access names, and whether it loads and stores. -/
def accessOf (i : Instr) (x : Hart) : Option (W64 × Bool × Bool) :=
  match i with
  | .standardAccess op _ rs1 imm => some (x.X rs1.toNat + imm.signExtend 64, !op.isStore, op.isStore)
  | .lr o => some (x.X o.rs1.toNat, true, false)
  | .sc o => some (x.X o.rs1.toNat, false, true)
  | .amo _ o => some (x.X o.rs1.toNat, true, true)
  | .uld o => some (x.X o.a.toNat + o.imm.signExtend 64, true, false)
  | .ust o => some (x.X o.a.toNat + o.imm.signExtend 64, false, true)
  | .uamo o => some (x.X o.a.toNat + (if o.xop.toNat % 16 = 9 then 0 else dispOf o), true, true)
  | _ => none

/-- Does a trigger watch the hart's mode? -/
def Trigger.watches (t : Trigger) (md : Mode) : Bool :=
  bitsOf t.data1.toNat 63 60 == 6 && (match md with
    | .u => t.data1.getLsbD 3
    | .s => t.data1.getLsbD 4
    | .m => t.data1.getLsbD 6)

/-- The address at which a trigger matches the instruction at the pc, if it does. -/
def Trigger.matches (t : Trigger) (x : Hart) (i : Option Instr) : Option W64 :=
  if !t.watches x.mode then none
  else if t.data1.getLsbD 2 && t.data2 == x.pc then some x.pc
  else match i.bind (fun i => accessOf i x) with
    | some (a, ld, st) => if ((t.data1.getLsbD 0 && ld) || (t.data1.getLsbD 1 && st)) && t.data2 == a then some a else none
    | none => none

/-- Action of a trigger: 1 enters Debug Mode. -/
def Trigger.action (t : Trigger) : Nat := bitsOf t.data1.toNat 15 12

/-- The first trigger of a hart that matches with one of some actions, and the address. -/
def Hart.triggered (x : Hart) (i : Option Instr) (halts : Bool) : Option (Nat × W64) :=
  if x.tinker ∨ x.dbg.halted then none
  else x.dbg.triggers.findSome? (fun e =>
    if (e.2.action == 1) = halts then (e.2.matches x i).map (fun a => (e.1, a)) else none)

end Sys2Proof.Machine
end

