-- ==== Sys2Proof/Machine/Csr.lean ====
section
/-! DEFINITION. The CSRs: the device CSRs of R44, the counters of R89 and the registers of the RISC-V privileged
architecture, with the field rules of R6, and the window's growth and shrinking (R36, R45, R204). -/

namespace Sys2Proof.Machine

/-! ### The window and the pool (R20, R36, R204) -/

/-- Registers of a core's pool that no window of a live or reserved hart holds. -/
def State.poolFree (s : State) (core : Nat) : Nat :=
  Config.poolRegs - ((s.harts.filter (fun e => coreOf e.1 == core && e.2.live && !e.2.tinker)).map (fun e => e.2.window)).sum

/-- Is a lane register of `lo` … `hi − 1` pending on the scoreboard or held by an operand-log entry (R45, R204)? -/
def Hart.windowPending (x : Hart) (lo hi : Nat) : Bool :=
  let inRange (r : Nat) : Bool := lo ≤ r && r < hi
  let dest (d : Dest) : Bool := match d with
    | .v r => inRange r
    | .v64 r => inRange r || inRange (r + 1)
    | _ => false
  x.ops.any (fun p => p.vw.any (fun c => inRange (c.1 / 32)) || dest p.job.dest) || x.oplog.any (fun e => dest e.2.job.dest)

/-- The window set to W′: registers added read zero, registers removed lose their contents (R36). -/
def Hart.setWindow (x : Hart) (w : Nat) : Hart := { x with window := w, v := x.v.filter (fun c => c.1 < 32 * w) }

/-- Harts of a core that wait on a claim, in order; one that took an interrupt has left the order until it claims again
(R34, R204). -/
def State.claimers (s : State) (core : Nat) : List Nat := (s.core core).claims.filter (fun k => (s.hart k).inLine 7)

/-- Can the pool of a core meet a claim of a hart up to W′ registers, no earlier claim waiting (R204)? -/
def State.canClaim (s : State) (h w : Nat) : Bool :=
  w ≤ (s.hart h).window
    || (w - (s.hart h).window ≤ s.poolFree (coreOf h) && ((s.claimers (coreOf h)).head?.getD h == h))

/-! ### Reading -/

/-- A field as bits of a 64-bit word from bit `lo` up. -/
def field (n lo : Nat) : W64 := BitVec.ofNat 64 n <<< lo

/-- A Boolean as a bit. -/
def flagBit (b : Bool) (i : Nat) : W64 := if b then 1#64 <<< i else 0

/-- `coreid` of a hart (R44). -/
def coreId (h : Nat) : W64 :=
  if h < Config.harts then BitVec.ofNat 64 h
  else field ((h - Config.harts) % 16) 0 ||| field (9 + (h - Config.harts) / 16) 11

/-- `lfcsr` (R44). -/
def Hart.lfcsr (x : Hart) : W64 := x.fflags.setWidth 64 ||| (x.frm.setWidth 64 <<< 5) ||| flagBit x.ftz 8

/-- Overlay quota and pages in use of the hart's world, the root's kept with its context (R44, R294). A tinker has no world: its quota is
what was written, and it has no page in use (log 61). -/
def State.quotaOf (s : State) (h : Nat) : Nat × Nat :=
  let x := s.hart h
  if x.tinker then (x.wquota, 0)
  else if x.tag = 0 then ((s.ctx h).quota, (s.ctx h).pages.length)
  else
    let w := Tab.get s.worlds {} x.tag
    (w.quota, w.pages.length)

/-- The bits of `mstatus` that `sstatus` shows. -/
def sstatusMask : W64 := 0x3000C0122

/-- The bits of `mstatus` that a write changes: no FS, VS or XS, and fixed widths. -/
def mstatusMask : W64 := 0x7E19AA

/-- Mask of a bounded CSR. -/
def maskTo (bits : Nat) : W64 := BitVec.ofNat 64 (2 ^ bits - 1)

/-- `satp`: on a compute hart Sv57 with the context's root page (R317). -/
def State.satpOf (s : State) (h : Nat) : W64 :=
  let x := s.hart h
  if x.tinker then x.csr.satp else field 10 60 ||| ((s.ctx h).root >>> 12)

/-- The trigger that `tselect` names. -/
def Dbg.trigger (d : Dbg) : Trigger := Tab.get d.triggers {} d.tselect

/-- `wctl` of a quota and pages in use: more pages than its field of 16 bits holds, which the root may come to use, read as a free value
(R6, R44, log 61). -/
def wctlWord (q : Nat × Nat) : W64 := field q.1 0 ||| field (if q.2 < 65536 then q.2 else (Config.usedField q.2).toNat) 32

/-- The value of a CSR, none where the hart has no CSR of that number (R44). Privilege is checked apart. The counters of hardware
performance events and their selectors read zero (R3; PRESUMED, log 61). -/
def csrValue (s : State) (n : Nat) : Option W64 :=
  let x := s.me
  let c := x.csr
  let unlessTinker (w : W64) : Option W64 := some (if x.tinker then 0 else w)
  let debug (w : W64) : Option W64 := if x.dbg.running.isSome then some w else none
  match n with
  | 0xC00 | 0xC01 | 0xB00 => some (BitVec.ofNat 64 s.cycle)
  | 0xC02 | 0xB02 => some x.instret
  | 0xCC0 => unlessTinker x.coord
  | 0xCC1 => unlessTinker x.launchAddr
  | 0xCC2 => unlessTinker (field x.tag 0 ||| field x.windex 6 ||| field x.wdepth 9)
  | 0xCC3 => some (BitVec.ofNat 64 (s.cycle / 256))
  | 0xCC4 => some (coreId s.cur)
  | 0x800 => unlessTinker x.lfcsr
  | 0x801 => some (x.doneFlags.setWidth 64)
  | 0x802 => unlessTinker (BitVec.ofNat 64 x.depth)
  | 0x803 => unlessTinker (BitVec.ofNat 64 (x.window / 16))
  | 0x804 => some x.uitvec
  | 0x805 => some x.uiepc
  | 0x806 => some (x.ucTag.setWidth 64 ||| (x.ucPrio.setWidth 64 <<< 8) ||| flagBit x.uie 31)
  | 0x808 => unlessTinker x.sbase
  | 0x809 => unlessTinker (x.sshift.setWidth 64)
  | 0x5C0 => some (field x.oplogidx 0 ||| field (((x.oplog.filter (fun e => e.1 < 8)).map (fun e => 2 ^ e.1)).sum) 8)
  | 0x5C1 => some (BitVec.ofNat 64 x.pcmsel)
  | 0x5C2 => some (Tab.get x.pcmdat 0 x.pcmsel)
  | 0x5C3 =>
    some (wctlWord (s.quotaOf s.cur))
  | 0x5C4 =>
    some (if x.tinker then 0
      else field (s.ctx s.cur).gang 0 ||| flagBit ((Tab.get s.gangs {} (s.ctx s.cur).gang).st == 1) 16)
  | 0x100 => some (c.mstatus &&& sstatusMask)
  | 0x104 => some (c.mie &&& c.mideleg)
  | 0x105 => some c.stvec
  | 0x106 => some c.scounteren
  | 0x10A => some c.senvcfg
  | 0x140 => some c.sscratch
  | 0x141 => some c.sepc
  | 0x142 => some c.scause
  | 0x143 => some c.stval
  | 0x144 => some (c.mip &&& c.mideleg)
  | 0x180 => some (s.satpOf s.cur)
  | 0x300 => some c.mstatus
  | 0x301 => some (field 2 62 ||| 0x141101)
  | 0x302 => some c.medeleg
  | 0x303 => some c.mideleg
  | 0x304 => some c.mie
  | 0x305 => some c.mtvec
  | 0x306 => some c.mcounteren
  | 0x30A => some c.menvcfg
  | 0x340 => some c.mscratch
  | 0x341 => some c.mepc
  | 0x342 => some c.mcause
  | 0x343 => some c.mtval
  | 0x344 => some c.mip
  | 0xF11 | 0xF12 | 0xF13 | 0xF15 => some 0
  | 0xF14 => some (BitVec.ofNat 64 s.cur)
  | 0x7A0 => if x.tinker then none else some (BitVec.ofNat 64 x.dbg.tselect)
  | 0x7A1 => if x.tinker then none else some (x.dbg.trigger.data1 ||| flagBit x.dbg.trigger.hit 22)
  | 0x7A2 => if x.tinker then none else some x.dbg.trigger.data2
  | 0x7A4 => if x.tinker then none else some (1#64 <<< 6)
  | 0x7B0 => debug (x.dbg.dcsr ||| 0x40000000)
  | 0x7B1 => debug x.dbg.dpc
  | 0x7B2 => debug x.dbg.dscratch0
  | 0x7B3 => debug x.dbg.dscratch1
  | _ => if (0xB03 ≤ n ∧ n ≤ 0xB1F) ∨ (0x323 ≤ n ∧ n ≤ 0x33F) then some 0 else none

/-! ### Writing -/

/-- Some bits of a register replaced. -/
def merge (old new mask : W64) : W64 := (old &&& ~~~ mask) ||| (new &&& mask)

/-- `mstatus` after a write of `mask`ed bits: `MPP` keeps a legal mode. -/
def writeStatus (old new mask : W64) : W64 :=
  let w := merge old new mask
  if bitsOf w.toNat 12 11 = 2 then merge w old 0x1800 else w

/-- `type` 6 trigger control as stored: the bits that `mcontrol6` has here (R372): action, match on equality, modes and
kinds of access. -/
def triggerMask : W64 := 0x000000000040F05F

/-- A change to the trigger that `tselect` names. -/
def Dbg.setTrigger (d : Dbg) (t : Trigger) : Dbg := { d with triggers := Tab.set d.triggers {} d.tselect t }

/-- A CSR of the hart itself written, each field by its rule (R6, R44). A write of `mcycle` is ignored: it reads the device cycle counter,
which every core shares, and the spec gives no way to change it (R8, R89; DESIGN CHOICE, log 61). -/
def Hart.writeCsr (x : Hart) (n : Nat) (w : W64) : Hart :=
  let c := x.csr
  match n with
  | 0x800 => if x.tinker then x else { x with fflags := w.setWidth 5, frm := w.extractLsb' 5 3, ftz := w.getLsbD 8 }
  | 0x804 => { x with uitvec := w }
  | 0x805 => { x with uiepc := w &&& ~~~ 3#64 }
  | 0x806 => { x with ucTag := w.setWidth 8, ucPrio := w.extractLsb' 8 2, uie := w.getLsbD 31 }
  | 0x808 => if x.tinker then x else { x with sbase := w &&& ~~~ 1#64 }
  | 0x809 => if x.tinker then x else { x with sshift := w.setWidth 6 }
  | 0x5C1 => { x with pcmsel := bitsOf w.toNat 3 0 }
  | 0x5C2 => { x with pcmdat := Tab.set x.pcmdat 0 x.pcmsel (w &&& ~~~ 2#64) }
  | 0x100 => { x with csr := { c with mstatus := writeStatus c.mstatus w (sstatusMask &&& mstatusMask) } }
  | 0x104 => { x with csr := { c with mie := merge c.mie w c.mideleg } }
  | 0x105 => { x with csr := { c with stvec := w &&& ~~~ 2#64 } }
  | 0x106 => { x with csr := { c with scounteren := w &&& 7 } }
  | 0x10A => { x with csr := { c with senvcfg := w &&& 1 } }
  | 0x140 => { x with csr := { c with sscratch := w } }
  | 0x141 => { x with csr := { c with sepc := w &&& ~~~ 3#64 } }
  | 0x142 => { x with csr := { c with scause := w } }
  | 0x143 => { x with csr := { c with stval := w } }
  | 0x144 => { x with csr := { c with mip := merge c.mip w (c.mideleg &&& 2) } }
  | 0x180 =>
    if bitsOf w.toNat 63 60 = 0 ∨ bitsOf w.toNat 63 60 = 10 then { x with csr := { c with satp := w &&& ~~~ (0xFFFF#64 <<< 44) } } else x
  | 0x300 => { x with csr := { c with mstatus := writeStatus c.mstatus w mstatusMask } }
  | 0x302 => { x with csr := { c with medeleg := (w &&& 0xFF00B3FF) ||| (if x.tinker then 0 else 0xFF000000) } }
  | 0x303 => { x with csr := { c with mideleg := w &&& 0x222 } }
  | 0x304 => { x with csr := { c with mie := w &&& 0xAAA } }
  | 0x305 => { x with csr := { c with mtvec := w &&& ~~~ 2#64 } }
  | 0x306 => { x with csr := { c with mcounteren := w &&& 7 } }
  | 0x30A => { x with csr := { c with menvcfg := w &&& 1 } }
  | 0x340 => { x with csr := { c with mscratch := w } }
  | 0x341 => { x with csr := { c with mepc := w &&& ~~~ 3#64 } }
  | 0x342 => { x with csr := { c with mcause := w } }
  | 0x343 => { x with csr := { c with mtval := w } }
  | 0x344 => { x with csr := { c with mip := merge c.mip w 0x222 } }
  | 0xB02 => { x with instret := w }
  | 0x7A0 => if w.toNat < 4 then { x with dbg := { x.dbg with tselect := w.toNat } } else x
  | 0x7A1 =>
    { x with dbg := x.dbg.setTrigger { x.dbg.trigger with data1 := (6#64 <<< 60) ||| (w &&& triggerMask), hit := w.getLsbD 22 } }
  | 0x7A2 => { x with dbg := x.dbg.setTrigger { x.dbg.trigger with data2 := w } }
  | 0x7B0 => { x with dbg := { x.dbg with dcsr := merge x.dbg.dcsr w 0xB807 } }
  | 0x7B1 => { x with dbg := { x.dbg with dpc := w &&& ~~~ 3#64 } }
  | 0x7B2 => { x with dbg := { x.dbg with dscratch0 := w } }
  | 0x7B3 => { x with dbg := { x.dbg with dscratch1 := w } }
  | _ => x

/-- `wctl.quota` written: the quota of the hart's world (R44, R303). -/
def State.setQuota (s : State) (q : Nat) : State :=
  let x := s.me
  if x.tinker then s.onMe (fun x => { x with wquota := q })
  else if x.tag = 0 then { s with ctxs := Tab.set s.ctxs {} (ctxOf s s.cur) { s.ctx s.cur with quota := q } }
  else
    { s with worlds := Tab.set s.worlds {} x.tag (let w := Tab.get s.worlds {} x.tag; { w with quota := q }) }

/-- `msdepth` written: the entries above a value at most the depth are discarded (R44). -/
def State.cutStack (s : State) (n : Nat) : State :=
  let st := s.stackOf
  if s.me.tinker ∨ n > st.length then s else s.withStack (st.drop (st.length - n))

/-- `regwin` written: a claim or give of 16 × n registers; 0, above 16, or a claim that the pool cannot meet leaves the window
as it is (R44). -/
def State.resize (s : State) (n : Nat) : State :=
  if s.me.tinker ∨ n = 0 ∨ 16 < n then s
  else if 16 * n ≤ s.me.window ∨ s.canClaim s.cur (16 * n) then s.onMe (fun x => x.setWindow (16 * n))
  else s

/-- A CSR written. -/
def csrPut (s : State) (n : Nat) (w : W64) : State :=
  match n with
  | 0x802 => s.cutStack (bitsOf w.toNat 6 0)
  | 0x803 => s.resize (bitsOf w.toNat 4 0)
  | 0x5C3 => s.setQuota (bitsOf w.toNat 31 0)
  | _ => s.onMe (fun x => x.writeCsr n w)

/-! ### The CSR instructions -/

/-- Does a CSR instruction write its CSR? -/
def csrWrites (o : CsrArgs) : Bool := o.op == .rw || o.src != 0

/-- The operand of a CSR instruction. -/
def csrOperand (o : CsrArgs) (x : Hart) : W64 := if o.useImm then o.src.setWidth 64 else x.X o.src.toNat

/-- The value a CSR instruction writes. -/
def csrNew (o : CsrArgs) (x : Hart) (old : W64) : W64 :=
  match o.op with
  | .rw => csrOperand o x
  | .rs => old ||| csrOperand o x
  | .rc => old &&& ~~~ csrOperand o x

/-- May a counter be read: `mcounteren` below M mode, and `scounteren` too in U mode (R89)? -/
def counterOk (x : Hart) (n : Nat) : Bool :=
  x.mode == .m || (x.csr.mcounteren.getLsbD n && (x.mode == .s || x.csr.scounteren.getLsbD n))

/-- May the hart make this access: its mode, read-only numbers, the counters, and `satp` (R12, R44, R89, R317)? The
read-only device CSRs that a tinker does not have ignore writes there (R44). -/
def csrAllowed (o : CsrArgs) (x : Hart) : Bool :=
  let n := o.csr.toNat
  bitsOf n 9 8 ≤ x.mode.code
    && !(csrWrites o && bitsOf n 11 10 == 3 && !(x.tinker && 0xCC0 ≤ n && n ≤ 0xCC2))
    && !(0xC00 ≤ n && n ≤ 0xC02 && !counterOk x (n - 0xC00))
    && !(n == 0x180 && ((csrWrites o && !x.tinker) || (x.mode == .s && x.csr.mstatus.getLsbD 20)))

/-- A CSR instruction whose waits are over: rd takes the old value, and the CSR the new one where the instruction writes
(R44); a write of `minstret` stands in place of the count of its own instruction. -/
def csrRun (i : Instr) (o : CsrArgs) (s : State) : Out :=
  let x := s.me
  let n := o.csr.toNat
  match csrValue s n with
  | some old =>
    if csrAllowed o x then
      let t := if csrWrites o then csrPut s n (csrNew o x old) else s
      let u := t.onMe (fun y => (y.setX o.rd.toNat old).advance 1)
      .next (if csrWrites o ∧ n = 0xB02 then u.onMe (fun y => { y with instret := csrNew o x old }) else u)
    else illegal i s
  | none => illegal i s

/-- A CSR instruction on a CSR with no row of its own. -/
def execCsrWrite (o : CsrArgs) (s : State) : Out := csrRun (.csrWrite o) o s

/-- A CSR instruction on `lfcsr`: it issues after every earlier instruction of the hart that can raise a flag has completed,
of which only FP atomics with return are ever outstanding (R61). -/
def execLfcsrAccess (o : CsrArgs) (s : State) : Out :=
  let x := s.me
  let raises (j : MemJob) : Bool := j.kind == .amo && 10 ≤ j.op && j.op ≤ 12
  if x.ops.any (fun p => raises p.job) || x.oplog.any (fun e => e.2.engine.isNone && raises e.2.job) then
    .next (s.onMe (fun x => x.block 17 1))
  else csrRun (.lfcsrAccess o) o s

/-- A CSR instruction on `dflags`: writing 1 to `drain` holds it until every done flag is clear (R44, R45). -/
def execDflagsDrain (o : CsrArgs) (s : State) : Out :=
  let x := s.me
  if csrWrites o && (csrNew o x (x.doneFlags.setWidth 64)).getLsbD 12 then
    (if x.doneFlags = 0 then csrRun (.dflagsDrain o) o s else .next (s.onMe (fun x => x.block 13)))
  else csrRun (.dflagsDrain o) o s

/-- A CSR instruction on `msdepth`. -/
def execMsdepthWrite (o : CsrArgs) (s : State) : Out := csrRun (.msdepthWrite o) o s

/-- A CSR instruction on `regwin`; a shrink waits for a register still pending (R45). -/
def execRegwinWrite (o : CsrArgs) (s : State) : Out :=
  let x := s.me
  let n := bitsOf (csrNew o x (BitVec.ofNat 64 (x.window / 16))).toNat 4 0
  if csrWrites o && !x.tinker && 1 ≤ n && n ≤ 16 && 16 * n < x.window && x.windowPending (16 * n) x.window then
    .next (s.onMe (fun x => x.block 14 (BitVec.ofNat 64 (16 * n))))
  else csrRun (.regwinWrite o) o s

end Sys2Proof.Machine
end

