-- ==== Sys2Proof/Machine/Matrix.lean ====
section
/-! DEFINITION. The arithmetic of the matrix array: operand elements from the bytes of a block, scales, float and integer
accumulation, and the status bits that a command sets (R54 to R57, R66 to R70, R244, R248, R259). -/

namespace Sys2Proof.Machine

/-! ### The status word (R248) -/

/-- FMT: a T3 or S10 code outside its legal set was read. -/
def stFmt : BitVec 5 := 1
/-- NANSC: a NaN scale was read. -/
def stNanSc : BitVec 5 := 2
/-- SPEC: an accumulator element became NaN or infinite within a block. -/
def stSpec : BitVec 5 := 4
/-- SAT: an integer store clipped. -/
def stSat : BitVec 5 := 8
/-- DROP: a command was ended by `oplog.drop`. -/
def stDrop : BitVec 5 := 16

/-! ### Descriptors (R243, R244) -/

/-- Type code of A. -/
def MatDesc.aType (d : MatDesc) : Nat := d.fmt % 16
/-- Type code of B. -/
def MatDesc.bType (d : MatDesc) : Nat := d.fmt / 16
/-- Tile. -/
def MatDesc.tile (d : MatDesc) : Nat := d.mode % 8
/-- The tile is cleared first. -/
def MatDesc.zero (d : MatDesc) : Bool := bitOf d.mode 3
/-- The store saturates. -/
def MatDesc.sat (d : MatDesc) : Bool := bitOf d.mode 4
/-- The command asks for scales. -/
def MatDesc.scl (d : MatDesc) : Bool := bitOf d.mode 5
/-- Do scales apply? -/
def MatDesc.scaled (d : MatDesc) : Bool := d.aType == 12 || d.scl
/-- Is it an integer command? -/
def MatDesc.integer (d : MatDesc) : Bool := d.aType == 1
/-- K blocks. -/
def MatDesc.blocks (d : MatDesc) : Nat := d.k / 32

/-- Bytes of a block of 32 elements of a type code; 8 for T3 (R54, R57, R258). -/
def blockBytes (t : Nat) : Nat := if t = 13 then 8 else 4 * bitsOfType t

/-- Is a descriptor's format and mode legal, its views apart (R239, R243)? -/
def MatDesc.ok (d : MatDesc) : Bool :=
  d.astride.toNat % 8 == 0 && d.bstride.toNat % 8 == 0 && 32 ≤ d.k && d.k ≤ 8192 && d.k % 32 == 0
    && ((d.aType == d.bType && 8 ≤ d.aType && d.aType ≤ 12) || (d.aType == 1 && (d.bType == 1 || d.bType == 13)))
    && d.mode < 64 && (!d.scl || d.aType == 10 || d.aType == 11) && (!d.sat || d.integer) && d.split ≤ 8

/-- Where block b of row or column i begins (R244). -/
def MatDesc.rowAt (base : W64) (st : W32) (t i b : Nat) : W64 := displace base (strideOff st i + (b * blockBytes t : Nat))

/-- The address of a scale container: row or column i, block b (R244). -/
def scaleAddr (sbase : W64) (sshift : Nat) (off st : W32) (t i b : Nat) : W64 :=
  displace sbase (((off.toInt + strideOff st i + (b * blockBytes t : Nat)) / (2 : Int) ^ sshift) * 2)

/-! ### Elements (R54, R57) -/

/-- Element k of a block's bytes, in a type of w bits (R57). -/
def packedAt (w : Nat) (bs : List Byte) (k : Nat) : Nat := leNat (((bs.drop (w * k / 8)).take ((w + 7) / 8))) >>> (w * k % 8) % 2 ^ w

/-- Trit k of a block's bytes: −1, 0 or 1; a code of 243 and up gives zeros (R54, R259). -/
def tritAt (bs : List Byte) (k : Nat) : Int :=
  let c := (bs.getD (k / 5) 0).toNat
  if c ≥ 243 then 0 else ((c / 3 ^ (k % 5) % 3 : Nat) : Int) - 1

/-- Does a T3 block hold a code outside 0 … 242 in the bytes that are read, 0 to 6 (R259)? -/
def badTrits (bs : List Byte) : Bool := (bs.take 7).any (fun b => b.toNat ≥ 243)

/-- The integer element k of a block of type t. -/
def intAt (t : Nat) (bs : List Byte) (k : Nat) : Int := if t = 13 then tritAt bs k else intOf true 8 (packedAt 8 bs k)

/-! ### Float accumulation (R66, R67) -/

/-- The exact sum of the 32 products of a block. -/
def blockSum (t : Nat) (as bs : List Byte) : Fp.Val :=
  (List.range 32).foldl (fun acc k =>
    (Fp.add 0 acc (Fp.mul (Fp.decode (Fp.fmtOf t) (packedAt (bitsOfType t) as k))
      (Fp.decode (Fp.fmtOf t) (packedAt (bitsOfType t) bs k))).1).1) (.fin false 0 0)

/-- Does a block's row or column hold a NaN element? -/
def blockNan (t : Nat) (bs : List Byte) : Bool :=
  (List.range 32).any (fun k => (Fp.decode (Fp.fmtOf t) (packedAt (bitsOfType t) bs k)).isNan)

/-- The exact scaled sum S of a block, a NaN where R67 has the accumulator become one. -/
def scaledSum (t : Nat) (as bs : List Byte) (sa sb : Fp.Scale) : Fp.Val :=
  if blockNan t as || blockNan t bs then .nan false
  else match sa, sb with
    | .nan, _ => .nan false
    | _, .nan => .nan false
    | .zero, _ => .fin false 0 0
    | _, .zero => .fin false 0 0
    | .val ma ea, .val mb eb =>
      match blockSum t as bs with
      | .fin neg m e => if m = 0 then .fin false 0 0 else .fin neg (m * ma * mb) (e + ea + eb)
      | v => v

/-- Is a value finite? -/
def Fp.Val.isFin : Fp.Val → Bool
  | .fin _ _ _ => true
  | _ => false

/-- One block applied to an accumulator element: the new FP32 bits, and SPEC where R67 sets it. -/
def accumulate (acc : Nat) (s : Fp.Val) : Nat × BitVec 5 :=
  let o := Fp.decode Fp.f32 acc
  let r := (Fp.roundVal Fp.f32 0 false false (Fp.add 0 o s).1).bits
  let n := Fp.decode Fp.f32 r
  (r, if (o.isFin && !n.isFin) || (!o.isFin && !o.isNan && n.isNan) then stSpec else 0)

/-- The scale of a list of containers, 1.0 where no scales apply. -/
def scaleAt (d : MatDesc) (cs : List Nat) (i : Nat) : Fp.Scale := if d.scaled then Fp.scaleOf (cs.getD i 0) else .val 1 0

/-- One element of a float command over its blocks. -/
def floatCell (d : MatDesc) (bs : List BlockOps) (acc i j : Nat) : Nat × BitVec 5 :=
  bs.foldl (fun p o =>
    let r := accumulate p.1 (scaledSum d.aType (o.a.getD i []) (o.b.getD j []) (scaleAt d o.sa i) (scaleAt d o.sb j))
    (r.1, p.2 ||| r.2)) (acc, 0)

/-- One element of an integer command (R69). -/
def intCell (d : MatDesc) (bs : List BlockOps) (acc i j : Nat) : Nat × BitVec 5 :=
  let t : Int := (bs.map (fun o => ((List.range 32).map (fun k =>
    intAt d.aType (o.a.getD i []) k * intAt d.bType (o.b.getD j []) k)).sum)).sum
  let v := intOf true 32 acc + t
  (narrow true d.sat 32 v, if d.sat && v != clamp (rangeOf true 32).1 (rangeOf true 32).2 v then stSat else 0)

/-- FMT and NANSC of the operands a command read (R244, R259). -/
def operandStatus (d : MatDesc) (bs : List BlockOps) : BitVec 5 :=
  let scales := if d.scaled then (bs.map (fun o => o.sa ++ o.sb)).flatten else []
  (if (d.bType == 13 && bs.any (fun o => o.b.any badTrits)) || scales.any (fun c => c ≥ 1024) then stFmt else 0)
    ||| (if scales.any (fun c => Fp.scaleOf c == .nan) then stNanSc else 0)

/-- A whole command on a tile of 4,096 elements, element (i, j) at 64 i + j: the new tile and the status bits (R66, R69,
R244). -/
def runMatrix (d : MatDesc) (bs : List BlockOps) (tile : List Nat) : List Nat × BitVec 5 :=
  let es := (List.range 4096).map (fun n =>
    let acc := if d.zero then 0 else tile.getD n 0
    if d.integer then intCell d bs acc (n / 64) (n % 64) else floatCell d bs acc (n / 64) (n % 64))
  (es.map Prod.fst, es.foldl (fun f e => f ||| e.2) (operandStatus d bs))

end Sys2Proof.Machine
end

