-- ==== Sys2Proof/Machine/MemEvents.lean ====
section
/-! DEFINITION. The steps of memory that no hart issues: values that return, stores performed, homes and their
invalidations, walks, ATS answers, deferred traps, and the instructions that settle a logged instruction (R83, R163, R172,
R213 to R215, R223 to R232, R276, R316 to R328, R395). A step that is not due changes nothing. -/

namespace Sys2Proof.Machine

/-! ### Values and stores -/

/-- The cells of a returned operation written in one step (R163); an FP atomic also raises its lanes' flags (R173). -/
def Hart.writeBack (x : Hart) (p : PendOp) : Hart :=
  let y := p.vw.foldl (fun x c => { x with v := Tab.set x.v 0 c.1 c.2 }) x
  (p.xw.foldl (fun x c => x.setX c.1 c.2) y).orFlags p.fflags

/-- LOAD_RETURN: the value of outstanding operation `focus.item` of the hart arrives (R163). -/
def execLoadReturn (s : State) : Out :=
  let x := s.me
  match x.ops[s.focus.item]? with
  | some p =>
    if p.waits ∨ p.acks ≠ [] then .next s
    else .next (s.setMe ({ x with ops := x.ops.eraseIdx s.focus.item }.writeBack p))
  | none => .next s

/-- Is the hart's oldest operation that waits to be performed of a kind? -/
def Hart.oldestIs (x : Hart) (k : MemKind) : Bool :=
  match x.ops.find? PendOp.waits with
  | some p => p.job.kind == k
  | none => false

/-- STORE_PERFORMED: the hart's oldest outstanding store is performed at its core (R83, R209). -/
def execStorePerformed (s : State) : Out :=
  if s.me.oldestIs .store then .next (s.performOldest s.cur) else .next s

/-- HOME_ATOMIC: the hart's oldest outstanding no-return atomic is performed at its place (R172). -/
def execHomeAtomic (s : State) : Out :=
  if s.me.oldestIs .amoNr then .next (s.performOldest s.cur) else .next s

/-! ### Publication (R213, R214, R225) -/

/-- The overlay pages of a context's root that still hold pending lines (R214, R302). -/
def State.trimPages (s : State) (pasid : Nat) : State :=
  let c := Tab.get s.ctxs {} pasid
  let held (p : Nat) : Bool := s.cores.any (fun k => k.2.unpub.any (fun u =>
    u.evicted && u.tag == 0 && u.loc.place == .hbm && u.loc.off / 4096 == p))
  { s with ctxs := Tab.set s.ctxs {} pasid { c with pages := c.pages.filter held } }

/-- The unpublished byte with which a releasing hart's next line is named: the first, or the first of line `focus.item` when
`focus.code` is 1. -/
def State.nextToOrder (s : State) : Option Unpub :=
  let us := (s.core s.myCore).unpub.filter (fun u => u.hart == s.cur)
  if s.focus.code = 1 then us.find? (fun u => u.loc.place == .hbm && lineKey u.tag (lineOf u.loc.off) == s.focus.item)
  else us.head?

/-- HOME_ORDER: one line of the release in progress on the hart reaches its home and is ordered, with the same line's
bytes of other harts of the core when `focus.unit` is 1 (R213, R225). It waits for a free tracker, and while the home is
migrating the page. -/
def execHomeOrder (s : State) : Out :=
  let h := s.cur
  let core := s.myCore
  match s.me.rel, s.nextToOrder with
  | some scope, some u =>
    if scope = 0 ∨ !s.allPerformed h then .next s
    else
      let same (v : Unpub) : Bool :=
        (v.hart == h || s.focus.unit == 1) && v.tag == u.tag && v.loc.place == u.loc.place && v.loc.off / 128 == u.loc.off / 128
      let lines := s.linesWhere core same
      if s.canOrderAll lines (some core) then .next ((s.publishWhere core same).trimPages (ctxOf s h)) else .next (s.snoopAll lines)
  | _, _ => .next s

/-- RELEASE_COMPLETE: the hart's release is complete and its instruction goes on (R213). -/
def execReleaseComplete (s : State) : Out :=
  match s.me.rel with
  | some scope => if s.releaseDone s.cur scope then .next (s.onMe Hart.woken) else .next s
  | none => .next s

/-- INVALIDATION_ARRIVE: the invalidation of tracker `focus.item` reaches cluster `focus.unit`, after those that its slice sent
there before (R226). -/
def execInvalidationArrive (s : State) : Out :=
  match s.trackers.look s.focus.item with
  | some t =>
    let earlier (k : Tracker) : Bool := k.slice == t.slice && k.order < t.order && k.sent.contains s.focus.unit
    if t.sent.contains s.focus.unit ∧ !s.trackers.any (fun k => earlier k.2) then
      .next { s.invalidate (lineKey t.tag t.line) s.focus.unit with
        trackers := Tab.ins (Tab.del s.trackers s.focus.item) s.focus.item { t with sent := t.sent.erase s.focus.unit } }
    else .next s
  | none => .next s

/-- INVALIDATION_ACK: the acknowledgement of cluster `focus.unit` is counted in tracker `focus.item`, after those that it sent to the
slice before; a full count frees it (R225, R226). -/
def execInvalidationAck (s : State) : Out :=
  match s.trackers.look s.focus.item with
  | some t =>
    let earlier (k : Tracker) : Bool := k.slice == t.slice && k.order < t.order && k.unacked.contains s.focus.unit
    if t.unacked.contains s.focus.unit ∧ ¬ t.sent.contains s.focus.unit ∧ !s.trackers.any (fun k => earlier k.2) then
      let u := t.unacked.erase s.focus.unit
      .next { s with
        trackers := if u = [] then Tab.del s.trackers s.focus.item
          else Tab.ins (Tab.del s.trackers s.focus.item) s.focus.item { t with unacked := u } }
    else .next s
  | none => .next s

/-- A requester-side copy put into a slice; with all 16 ways of its set in use, the copy with the lowest key leaves, whose cores drop
theirs at their next acquire, and its home learns it (R143, R227; DESIGN CHOICE, log 43). -/
def State.evictCopy (s : State) (slice key : Nat) : State :=
  let mask := Tab.get (s.cluster slice).copies 0 key
  let t := s.onCluster slice (fun c => { c with copies := Tab.del c.copies key, old := c.old.filter (fun e => keyOfByte e.1 != key) })
  let v := (List.range 4).foldl (fun s i => if bitOf mask i then s.onCore (slice * 4 + i) (deferAt key) else s) t
  v.setDir key ((v.dirEntry key).evict (4096 + slice))

/-- The copies of a slice in the set of a line. -/
def Cluster.copySet (c : Cluster) (key : Nat) : List Nat :=
  (c.copies.map Prod.fst).filter (fun k => k % Config.l2Sets == key % Config.l2Sets)

/-- HOME_READ: a read miss at the home of line `focus.item`: by core `focus.unit` (code 0), by a slice on another die than the home
that keeps a requester-side copy of a root line (code 1), or by a core through its cluster's copy (code 2), unless the copy's
invalidation is under way for a store of the core's own (R150, R210, R225, R227, R296). -/
def execHomeRead (s : State) : Out :=
  let key := s.focus.item
  let u := s.focus.unit
  let pa := key % 2 ^ 40 * 128
  let tag := key / 2 ^ 40
  if s.migrating.contains (pa / 4096) ∨ pa ≥ Config.hbmBytes then .next s
  else match s.focus.code with
    | 0 => if u < Config.cores + Config.tinkers then .next (s.homeRead u tag pa) else .next s
    | 1 =>
      let sl := s.sliceFor (u * 4) key
      let t := (s.takeAcks sl u).recallOwner key
      if u < Config.clusters ∧ tag = 0 ∧ sl / 64 ≠ u / 64 ∧ !Tab.has (s.cluster u).copies key then
        let v := match (t.cluster u).copySet key with
          | k :: ks => if ks.length + 1 < Config.l2Ways then t else t.evictCopy u k
          | [] => t
        let w := (v.makeRoom sl key).deliverTo sl u
        .next ((w.setDir key { (w.dirEntry key).add (4096 + u) with slice := sl }).onCluster u
          (fun c => { c with copies := Tab.ins c.copies key 0 }))
      else .next s
    | _ =>
      let cl := s.cluster (clusterOf u)
      let mine (t : Tracker) : Bool :=
        lineKey t.tag t.line == key && t.sent.contains (clusterOf u) && t.harts.any (fun h => coreOf h == u)
      if u < Config.cores ∧ Tab.has cl.copies key ∧ !(s.core u).holds key ∧ (s.core u).canFill key ∧ !s.trackers.any (fun t => mine t.2) then
        let t := s.fillL1 u { line := key }
        .next ((t.onCore u (fun c => { c with
            old := (cl.old.filter (fun b => keyOfByte b.1 == key)).foldl (fun t b => Tab.ins (Tab.del t b.1) b.1 b.2) c.old })).onCluster
          (clusterOf u) (fun c => { c with
            copies := Tab.ins (Tab.del c.copies key) key (Nat.lor (Tab.get c.copies 0 key) (2 ^ (u % 4))) }))
      else .next s

/-- EVICTION_NOTICE: core `focus.unit`, or with code 1 the slice `focus.unit` with its requester-side copy, no longer holds
line `focus.item`, and its home learns it (R225, R227). -/
def execEvictionNotice (s : State) : Out :=
  let key := s.focus.item
  let u := s.focus.unit
  if s.focus.code = 1 then (if Tab.has (s.cluster u).copies key then .next (s.evictCopy u key) else .next s)
  else if !(s.core u).dirty key then .next (s.leaveL1 u key)
  else .next s

/-- RECALL: the home takes back line `focus.item` from its owner, or, with code 1, from every sharer, before it replaces the
entry (R223, R230). -/
def execRecall (s : State) : Out :=
  let key := s.focus.item
  if (s.dirEntry key).st = 2 ∨ s.focus.code = 1 then .next (s.recallLine key) else .next s

/-- L1_EVICT_PENDING: line `focus.item`, with unpublished stores, leaves the L1 of the hart's core for the L2 as pending, with a
page of the root's overlay. When none is left, the hart's next store or atomic to device memory is the one that needs the space, and
takes cause 26 with no lane performed (R214, R303). -/
def execL1EvictPending (s : State) : Out :=
  let core := s.myCore
  let key := s.focus.item
  if !(s.core core).dirty key then .next s
  else if key / 2 ^ 40 = 0 ∧ !(s.ctx s.cur).pages.contains (pageOfKey key) ∧ s.rootSpent (ctxOf s s.cur) 1 then
    .next (s.onMe (fun x => { x with noSpace := true }))
  else .next (s.pendLine core key)

/-! ### Migration (R231, R232) -/

/-- A location moved from a page to another. -/
def Loc.moved (l : Loc) (old new : Nat) : Loc :=
  if l.place = .hbm ∧ l.off / 4096 = old then ⟨.hbm, new * 4096 + l.off % 4096⟩ else l

/-- The refused requests of a core to a page, sent again to its new home: its unpublished stores, and its harts' operations, in their
order; its translations of the old page go (R232). -/
def State.resend (s : State) (core old new : Nat) : State :=
  let move (l : Loc) : Loc := l.moved old new
  let hart (x : Hart) : Hart :=
    { x with
      ops := x.ops.map (fun p => { p with writes := p.writes.map (fun w => (move w.1, w.2)), locs := p.locs.map move })
      scReads := x.scReads.map (fun r => (r.1, move r.2))
      wait := if x.wait.code = 17 ∧ x.wait.a = 1 then {} else x.wait }
  let t := (s.refusePage core old).onCore core (fun c => { c with unpub := c.unpub.map (fun u => { u with loc := move u.loc }) })
  { t with harts := t.harts.map (fun e => if coreOf e.1 = core then (e.1, hart e.2) else e) }

/-- PAGE_MIGRATING: the tinker `cur` marks page `focus.item` migrating at its old home (code 0), recalls every entry of the page and
copies its lines, the worlds' versions among them, to page `focus.unit` (code 2), or frees the old page (code 1), after which no
core has a request to it (R231, R232). -/
def execPageMigrating (s : State) : Out :=
  let p := s.focus.item
  if !s.me.tinker then .next s
  else match s.focus.code with
    | 0 => .next (if s.migrating.contains p then s else { s with migrating := s.migrating ++ [p] })
    | 1 =>
      let t := match s.moves.look p with
        | some q =>
          (s.cores.map Prod.fst).foldl (fun (s : State) c => s.resend c p q) ({ s with winHeld := s.winHeld.map (fun (w : WindowReq × Loc) => (w.1, w.2.moved p q)) } : State)
        | none => s
      .next { t with migrating := t.migrating.erase p, moves := Tab.del t.moves p }
    | _ =>
      let q := s.focus.unit
      if s.migrating.contains p ∧ q ≠ p ∧ q * 4096 + 4096 ≤ Config.hbmBytes then
        let keys := (s.dir.map Prod.fst).filter (fun k => pageOfKey k == p || pageOfKey k == q)
        let t := keys.foldl (fun s k => s.recallLine k) s
        .next { t.putHbm (q * 4096) ((List.range 4096).map (fun i => t.hbmByte (p * 4096 + i))) with
          vers := t.vers.map (fun v => if v.line / 32 = p then { v with line := q * 32 + v.line % 32 } else v)
          moves := Tab.ins (Tab.del t.moves p) p q }
      else .next s

/-- Does the leaf in place for a held page name a given physical page (R232)? -/
def State.leafAt (s : State) (core : Nat) (k : HeldPage) (page : Nat) : Bool :=
  let root := if k.pasid ≥ 2 ^ 20 then bitsOf (s.hart (hartAt (k.pasid - 2 ^ 20) 0)).csr.satp.toNat 43 0 * 4096
    else (Tab.get s.ctxs {} k.pasid).root.toNat
  match walkTables s (clusterOf core) k.vpn 5 root with
  | .at level _ p => bitsOf p 53 10 + k.vpn % 512 ^ level == page
  | .bad _ => false

/-- MOVED_REPLY: the hart's core drops its translation of the migrating page `focus.item`; once the page has been copied and the new leaf
is in place for every virtual page that it held for it, its refused requests go to the new page in their order (R232). -/
def execMovedReply (s : State) : Out :=
  let old := s.focus.item
  if !s.migrating.contains old then .next s
  else
    let t := s.refusePage s.myCore old
    match s.moves.look old with
    | some new =>
      if ((t.core s.myCore).held.filter (fun k => k.page == old)).all (fun k => t.leafAt s.myCore k new) then .next (t.resend s.myCore old new)
      else .next t
    | none => .next t

/-! ### Walks and the operand log (R316 to R322) -/

/-- A computation made with the mode and `mstatus` that a logged instruction had at issue (R317). -/
def State.asIssued (s : State) (h : Nat) (job : MemJob) (f : State → State) : State :=
  let x := s.hart h
  (f (s.onHart h (fun x => { x with mode := job.mode, csr := { x.csr with mstatus := job.mstatus } }))).onHart h
    (fun y => { y with mode := x.mode, csr := { y.csr with mstatus := x.csr.mstatus } })

/-- A log entry written. -/
def Hart.setEntry (x : Hart) (n : Nat) (e : LogEntry) : Hart := { x with oplog := Tab.ins (Tab.del x.oplog n) n e }

/-- A log entry cleared. -/
def Hart.clearEntry (x : Hart) (n : Nat) : Hart := { x with oplog := Tab.del x.oplog n }

/-- The values that domain-window targets answered, among an operation's values: a load's under the world's log. -/
def State.answered (s : State) (h : Nat) (e : LogEntry) (ls : List LaneReq) : List (Nat × W64) :=
  ls.map (fun l =>
    let v := Tab.get e.answers 0 l.lane
    (l.lane, extend e.job.signed e.job.size (if e.job.kind = .load then s.spanValue h e.job l v else v)))

/-- One lane of a root's store or atomic performed at its place, which may lie in the module's own domain window: the old value, the FP
flags, and the state after it (R157, R165, R171). -/
def State.stepLane (s : State) (h : Nat) (job : MemJob) (l : LaneReq) : Nat × BitVec 5 × State :=
  if s.ownWindow l.addr then
    match s.ownPlace h l.addr true with
    | (some (.at p), t) =>
      let a := t.ownPerform h job l p
      let o := match a.1 with
        | .data bs => leNat bs
        | _ => 0
      let f := if job.kind = .store then 0 else
        (amoNew job.op job.size o (l.b.toNat % 2 ^ (8 * job.size)) (l.c.toNat % 2 ^ (8 * job.size))).2
      (o, f, a.2.raiseMaf (ctxOf s h) f)
    | (_, t) => (0, 0, t)
  else match s.placeOf h job l with
    | none => (0, 0, s)
    | some p =>
      if job.kind = .store then
        let ws := (leBytes job.size l.b.toNat).zipIdx.map (fun b => (p.plus b.2, b.1))
        (0, 0, (s.onHart h (fun x => { x with ops := x.ops ++ [{ job := { job with lanes := [l] }, writes := ws, locs := [p] }] })).drainOwn h)
      else s.atomicStep h job l p

/-- Lanes of a root's store or atomic performed in increasing order of lanes: the old values by lane, the flags, and the state after
them (R165, R171). -/
def State.stepLanes (s : State) (h : Nat) (job : MemJob) (ls : List LaneReq) : List (Nat × W64) × BitVec 5 × State :=
  ls.foldl (fun acc l =>
    let a := acc.2.2.stepLane h job l
    (acc.1 ++ [(l.lane, extend job.signed job.size a.1)], acc.2.1 ||| a.2.1, a.2.2)) ([], 0, s)

/-- The last outstanding operation of a hart changed. -/
def Hart.onLast (x : Hart) (f : PendOp → PendOp) : Hart := { x with ops := x.ops.modify (x.ops.length - 1) f }

/-- The lanes of a job that other modules perform, after the lanes performed here: they are confirmed to their targets; with no such lane
the acquire part follows. One operation holds the values of all lanes of an atomic, which are written in one step (R163, R171, R395). -/
def State.finishFar (s : State) (h : Nat) (job : MemJob) (away : List LaneReq) (asked : Tab Nat) : State :=
  let far := { job with lanes := away }
  if away = [] then (if job.acq then s.acquire h job.scope else s)
  else if job.kind ≠ .amo then s.confirmFar h far asked
  else match (s.hart h).ops.getLast? with
    | some p =>
      ((s.onHart h (fun x => { x with ops := x.ops.dropLast })).confirmFar h far asked).onHart h (fun x =>
        x.onLast (fun q => { q with vw := p.vw, xw := p.xw, fflags := p.fflags }))
    | none => s.confirmFar h far asked

/-- The lowest address of a job outside the local window, by which a world fault of its logged instruction is named (R320). -/
def MemJob.lowest (job : MemJob) : W64 := BitVec.ofNat 64 ((job.outside.map (fun l => l.addr.toNat)).min?.getD 0)

/-- A logged MEM instruction whose pages are all translated and whose targets have all answered: its world and host faults
are reported as deferred traps; otherwise its lanes are performed here, the stores and atomics of other modules' lanes are confirmed to
their targets, the entry clears, and its acquire part follows once every lane is performed (R167, R322, R327, R369, R395). While a home
refuses it, or cannot take it yet, or its gang's traffic is held back, it stays (R225, R232, R288). -/
def State.settleEntry (s : State) (h n : Nat) (e : LogEntry) : State :=
  match s.worldFault h e.job (s.placeOf h e.job) with
  | some f =>
    s.onHart h (fun x => { x.setEntry n { e with state := .held, cause := f.1, tval := f.2, fva := if f.1 = 26 then e.job.lowest else f.2 }
      with noSpace := false })
  | none =>
    let far := if e.job.logged then [] else e.job.lanes.filter (fun l => inDomain l.addr)
    let own := far.filter (fun l => s.ownWindow l.addr)
    let away := if e.job.kind = .load then [] else far.filter (fun l => !s.ownWindow l.addr)
    let near := if e.job.logged then e.job.lanes else e.job.lanes.filter (fun l => !inDomain l.addr)
    let job := { e.job with lanes := near }
    let ls := s.located h job
    let ps := ls.map Prod.snd
    match s.movedPages ls with
    | p :: _ => s.refuse h e.job.pc p.1 p.2
    | [] =>
      let w := s.clearWay h e.order job ps
      if !w.1 then w.2
      else if away ≠ [] ∧ s.gangHeld (s.ctx h).gang then s
      else if own ≠ [] ∧ e.job.kind ≠ .load then
        let t := w.2.drainOwn h
        let lines := devLines e.job.tag ps
        if (t.hart h).ops.any PendOp.waits ∨ ps.any t.tileBusy then t
        else if !t.canOrderAll lines (some (coreOf h)) then t.snoopAll lines
        else
          let r := ((t.onHart h (fun x => x.clearEntry n)).noteReads h job ls).stepLanes h e.job (e.job.lanes.filter (fun l => !away.contains l))
          (if e.job.kind = .amo then r.2.2.pushValues h e.job r.1 r.2.1 else r.2.2).finishFar h e.job away e.asked
      else
        let v := own.foldl (fun (acc : LogEntry × State) l =>
          match acc.2.ownPlace h l.addr false with
          | (some (.at p), t) =>
            let a := t.ownPerform h e.job l p
            ({ acc.1 with answers := Tab.ins acc.1.answers l.lane (match a.1 with
                | .data bs => leNat bs
                | _ => 0) }, a.2)
          | (_, t) => (acc.1, t)) (e, w.2)
        let t := (v.2.onHart h (fun x => x.clearEntry n)).perform h job ls
        let here := if e.job.kind = .load then far else []
        (t.onHart h (fun x =>
          let c := destCells e.job.dest (t.answered h v.1 here)
          if here = [] then x else x.onLast (fun p => { p with vw := p.vw ++ c.1, xw := p.xw ++ c.2 }))).finishFar h e.job away e.asked

/-- Have all other modules among the domain-window targets of an entry answered? -/
def State.windowDone (s : State) (e : LogEntry) : Bool :=
  e.job.logged || e.job.lanes.all (fun l => !inDomain l.addr || s.ownWindow l.addr || Tab.has e.answers l.lane)

/-- The request packet of a piece of an engine command: its bytes are those that it has read, and an `e.cadd` names its type and
saturation (R242, R332; log 20). -/
def State.enginePacket (s : State) (h : Nat) (job : MemJob) (k : EngCmd) (l : LaneReq) : Packet :=
  let p := s.requestPacket h job l
  if job.kind = .load then p
  else { p with payload := k.buf.take job.size, tag := if k.kind = 2 then 128 + (if k.sat then 16 else 0) + k.ty else 64 }

/-- The engine command that a log entry suspends. -/
def State.suspendedBy (s : State) (h : Nat) (e : LogEntry) : Option EngCmd :=
  e.engine.bind (fun t => (s.core (coreOf h)).engine.find? (fun k => k.ticket == t))

/-- The requests of an entry's lanes to other modules leave, once each; while the gang's traffic is held back they wait (R288, R367). -/
def State.askTargets (s : State) (h n : Nat) (e : LogEntry) : State :=
  if e.job.logged ∨ s.gangHeld (s.ctx h).gang then s
  else
    let ls := e.job.lanes.filter (fun l => inDomain l.addr && !s.ownWindow l.addr && !Tab.has e.asked l.lane)
    if ls = [] then s
    else
      let r := ls.foldl (fun (acc : Tab Nat × State) l =>
        let p := match s.suspendedBy h e with
          | some k => s.enginePacket h e.job k l
          | none => s.requestPacket h e.job l
        (Tab.ins acc.1 l.lane (acc.2.seqOf p), acc.2.inject p)) (e.asked, s)
      r.2.onHart h (fun x => x.setEntry n { e with asked := r.1 })

/-- The lanes of an entry in the module's own domain window looked up as a target does: those held with a cause, for want of a context of
the gang or since host memory does not take the atomic, those whose page fails with its reason, and whether all the others are
placed (R157, R174, R395). -/
def State.ownLanes (s : State) (h : Nat) (e : LogEntry) : List (W64 × Nat) × List (W64 × Nat) × Bool × State :=
  (if e.job.logged then [] else e.job.lanes.filter (fun l => s.ownWindow l.addr)).foldl (fun acc l =>
    match acc.2.2.2.ownPlace h l.addr (e.job.kind != .load) with
    | (none, t) => (acc.1 ++ [(l.addr, 31)], acc.2.1, acc.2.2.1, t)
    | (some (.fail r), t) => (acc.1, acc.2.1 ++ [(l.addr, r)], acc.2.2.1, t)
    | (some .wait, t) => (acc.1, acc.2.1, false, t)
    | (some (.at p), t) =>
      (if t.noHostAtomic h e.job p then acc.1 ++ [(l.addr, 30)] else acc.1, acc.2.1, acc.2.2.1 && !(p.place == .hbm && t.migrating.contains (p.off / 4096)), t)) ([], [], true, s)

/-- The failure of a list of translations at the lowest address. -/
def lowestFail (fs : List (W64 × Nat)) : Option (W64 × Nat) :=
  fs.foldl (fun b f => match b with
    | none => some f
    | some g => if f.1.toNat < g.1.toNat then some f else b) none

/-- The walk of every page of an entry that misses: the entry is settled, waits for an ATS answer or a target, or sends a
fault record and awaits its verdict (R317, R322). Each page is walked once, for its lowest lane (R163). An engine command's entry clears
when its page is translated (R242). -/
def State.walkEntry (s : State) (h n : Nat) : State :=
  match (s.hart h).oplog.look n with
  | none => s
  | some e =>
    if e.state ≠ .walking ∧ e.state ≠ .replaying then s
    else s.asIssued h e.job (fun s =>
      let held := s.rewalkAll h e.job.pc (e.job.lanes.map LaneReq.addr) e.job.kind.need
      let s := held.2
      if !held.1 then s else
      let first (l : LaneReq) : Bool := (e.job.lanes.find? (fun k => k.addr.toNat / 4096 == l.addr.toNat / 4096)) == some l
      let r := (e.job.lanes.filter first).foldl (fun (acc : List (W64 × Nat) × Bool × State) l =>
        let missing := match acc.2.2.reach h l.addr e.job.size e.job.kind with
          | .miss => true
          | .bad _ => e.engine.isSome && !canonical l.addr && !inLocal l.addr && !inDomain l.addr
          | _ => false
        match missing with
        | true =>
          match acc.2.2.translate (askerOf h n) h l.addr e.job.kind.need with
          | (some reason, _, t) => (acc.1 ++ [(l.addr, reason)], acc.2.1, t)
          | (none, ok, t) => (acc.1, acc.2.1 && ok, t)
        | false => acc) ([], true, s)
      let t := r.2.2
      match lowestFail r.1 with
      | some f =>
        let a := t.report h n f.1 (accByte (t.hart h) e.job.kind e.engine.isSome false) f.2 e.job.tag
        a.2.onHart h (fun x => x.setEntry n { e with state := .verdict, seq := a.1, fva := f.1 })
      | none =>
        if !r.2.1 then t
        else
          let o := t.ownLanes h e
          match o.1, lowestFail o.2.1 with
          | v :: _, _ => o.2.2.2.onHart h (fun x => x.setEntry n { e with state := .held, cause := v.2, tval := v.1, fva := v.1 })
          | [], some f =>
            let a := o.2.2.2.report h n f.1 (accByte (t.hart h) e.job.kind e.engine.isSome false) f.2 e.job.tag
            a.2.onHart h (fun x => x.setEntry n { e with state := .verdict, seq := a.1, fva := f.1 })
          | [], none =>
            if !o.2.2.1 then o.2.2.2
            else if e.engine.isSome ∧ ¬ e.job.lanes.any (fun l => inDomain l.addr && !s.ownWindow l.addr) then
              o.2.2.2.onHart h (fun x => x.clearEntry n)
            else if e.engine.isSome then o.2.2.2.askTargets h n e
            else if o.2.2.2.windowDone e then o.2.2.2.settleEntry h n e
            else o.2.2.2.askTargets h n e)

/-- WALK_DONE: the walks of entry `focus.item` of the hart finish; for the place beside the entries, its instruction leaves the
coalescer (R317, R320, R322). -/
def execWalkDone (s : State) : Out :=
  .next (if s.focus.item = coalescerEntry then s.onMe Hart.leaveCoalescer else s.walkEntry s.cur s.focus.item)

/-- The effect of a verdict on a hart (R324): an entry that holds the fault walks again or is held for cause 24; a standard
access or fetch issues again and, when unresolvable, traps (R326). -/
def State.applyVerdict (s : State) (h n seq : Nat) (resolved : Bool) : State :=
  let x := s.hart h
  if x.heldSeq.any (fun q => q % 2 ^ 48 == seq) then
    (s.forgetAsker (askerOf h (if x.heldFor.2.2 then 9 else 8) x.heldFor.1)).setHart h
      { x with heldSeq := none, heldBad := !resolved, wait := if x.wait.code = 17 ∧ x.wait.a = 0 then {} else x.wait }
  else
    match x.oplog.look n with
    | some e =>
      if e.state = .verdict ∧ e.seq % 2 ^ 48 = seq then
        if resolved then (s.forgetAsker (askerOf h n)).onHart h (fun x => x.setEntry n { e with state := .walking })
        else s.onHart h (fun x => x.setEntry n { e with state := .held, cause := 24, tval := e.fva })
      else s
    | none => s

/-- A shootdown of a cluster's TLBs (R319): the entries of the context it serves that match an address and size. -/
def State.shootdown (s : State) (cluster word : Nat) : State :=
  match (s.cluster cluster).ctx with
  | none => s
  | some p =>
    let all := bitOf word 60
    let size := bitsOf word 59 56
    let vpn := bitsOf word 55 12
    let hit (e : TlbEntry) : Bool := e.pasid == p && (all ||
      (let g := max size e.level
       e.vpn % 2 ^ 44 / 512 ^ g == vpn / 512 ^ g))
    let t := s.onCluster cluster (fun c => { c with tlb := c.tlb.filter (fun e => !hit e) })
    (List.range 4).foldl (fun s i => s.onCore (cluster * 4 + i) (fun c => { c with l1tlb := c.l1tlb.filter (fun e => !hit e) })) t

/-- Do the TLBs of a core hold translations of a context: those of its cluster's context, of a tinker its own, and of the device the
pages that it has asked for (R316, log 11)? -/
def State.tlbServes (s : State) (core pasid : Nat) : Bool := core ≥ Config.cores || (s.cluster (clusterOf core)).ctx == some pasid

/-- ATS_COMPLETION: the answer to a translation request enters both TLBs of every core that asked and still serves the context, with the
permissions granted and the leaf's D bit, or says to each that asked why the page is not translated (R316 to R318). -/
def execAtsCompletion (a : AtsAnswer) (s : State) : Out :=
  let mine (q : AtsReq) : Bool := q.link == a.link && q.pasid == a.pasid && q.vpn == a.vpn
  let t := { s with ats := s.ats.filter (fun q => !mine q) }
  if !s.ats.any mine then .next s
  else if a.error ∨ !a.present then
    .next { t with atsBad := t.atsBad ++ (s.ats.filter mine).map (fun q => (q.asker, a.pasid, a.vpn, if a.error then 6 else 5)) }
  else
    let leaf (f : Nat → Bool) : Bool :=
      match walkTables s (clusterOf deviceCore) a.vpn 5 (Tab.get s.ctxs {} a.pasid).root.toNat with
      | .at _ _ p => f p
      | .bad _ => false
    let e : TlbEntry :=
      { pasid := a.pasid, level := 0, vpn := a.vpn, ppn := a.pa / 4096, r := a.readable && leaf (bitOf · 1),
        w := a.writable && leaf (bitOf · 2), x := a.readable && leaf (bitOf · 3), u := leaf (bitOf · 4), d := leaf (bitOf · 7),
        host := true, pmode := 0, pidx := 0, slice := none }
    .next ((s.ats.filter (fun q => mine q && s.tlbServes q.core a.pasid)).foldl (fun s q => s.fillTlb q.core e) t)

/-- ATS_INVALIDATE: matching entries leave every TLB, after the accesses that used them have reached the host link; while one cannot
leave yet, the request waits (R318). -/
def execAtsInvalidate (pasid vpn level : Nat) (every : Bool) (s : State) : Out :=
  let hit (e : TlbEntry) : Bool :=
    e.host && e.pasid == pasid && (every || e.vpn / 512 ^ level == vpn / 512 ^ level)
  let t := (s.harts.filter (fun x => x.2.ops.any (fun p => p.writes.any (fun w => w.1.place == .host)
    || p.locs.any (fun l => l.place == .host)))).foldl (fun s x => s.drainOwn x.1) s
  let left := t.harts.any (fun x => x.2.ops.any (fun p => p.waits && (p.writes.map Prod.fst ++ p.locs).any (fun l => l.place == .host)))
  .next <| if left then t else { t with
    cores := t.cores.map (fun c => (c.1, { c.2 with l1tlb := c.2.l1tlb.filter (fun e => !hit e) }))
    clusters := t.clusters.map (fun c => (c.1, { c.2 with tlb := c.2.tlb.filter (fun e => !hit e) })) }

/-- FP flags that an `e.cadd` raised at its target, from the old bytes in the answer (R173, R241). -/
def State.caddFlags (s : State) (h : Nat) (e : LogEntry) (old : List Byte) : BitVec 5 :=
  match s.suspendedBy h e with
  | some k =>
    if k.ty = 7 then
      (List.range (e.job.size / 4)).foldl (fun f i =>
        f ||| (fpAtomic 10 (leNat ((old.drop (4 * i)).take 4)) (leNat ((k.buf.drop (4 * i)).take 4))).flags) 0
    else 0
  | none => 0

/-- A target acknowledges that it has performed lane `lane` of outstanding operation `i` of the hart, with an atomic's old value: the
last one completes a store, and an acquire part follows it. A store with a destination is an `sc`, whose status it writes (R171,
R173, R369, R395). -/
def State.acknowledge (s : State) (i lane : Nat) (a : WindowReply) : State :=
  match s.me.ops[i]? with
  | none => s
  | some p =>
    match p.job.lanes.find? (fun l => l.lane == lane && p.acks.contains lane) with
    | none => s
    | some l =>
      let old := leNat (match a with
        | .data bs => bs
        | _ => [])
      let sc := p.job.kind == .store && p.job.dest != .none
      let v := if sc then answerStatus a else extend p.job.signed p.job.size old
      let f := if p.job.kind = .store then 0 else
        (amoNew p.job.op p.job.size old (l.b.toNat % 2 ^ (8 * p.job.size)) (l.c.toNat % 2 ^ (8 * p.job.size))).2
      let c := destCells p.job.dest [(lane, v)]
      let q : PendOp :=
        { p with
          vw := p.vw ++ c.1, xw := p.xw ++ c.2, acks := p.acks.erase lane, fflags := if p.job.kind = .amo then p.fflags ||| f else p.fflags
          job := if sc ∧ p.acks.erase lane = [] then { p.job with kind := .amo } else p.job }
      let all := q.acks == []
      let t := (s.raiseMaf (ctxOf s s.cur) f).onMe (fun x =>
        { x with ops := if all && q.job.kind != .amo then x.ops.eraseIdx i else x.ops.set i q })
      if all && p.job.acq then t.acquire s.cur p.job.scope else t

/-- What an entry comes to when a target has answered: once every lane that asked is answered and some failed, no target performs any, and
the entry is held with the cause and the address of the lowest of these (R327, R395). -/
def State.settleAnswers (s : State) (h n : Nat) (e : LogEntry) : State :=
  let asked := e.job.lanes.filter (fun l => Tab.has e.asked l.lane)
  match asked.find? (fun l => Tab.has e.fails l.lane), asked.all (fun l => Tab.has e.answers l.lane || Tab.has e.fails l.lane) with
  | some l, true =>
    let cause := Tab.get e.fails 0 l.lane
    (s.giveUp h { e.job with lanes := if e.engine.isSome then [] else asked.filter (fun l => Tab.has e.answers l.lane) } e.asked).onHart h
      (fun x => x.setEntry n { e with
        state := .held, cause, fva := l.addr, tval := if cause = 29 then (e.job.words.headD 0).setWidth 64 else l.addr })
  | _, _ => s.onHart h (fun x => x.setEntry n e)

/-- WINDOW_ANSWER: a target module answers lane `focus.code` of entry `focus.item` of the hart, or its standard access when
`focus.item` is 8: a load's bytes, that it holds the lane, or why not, upon which no target performs any lane; with `focus.item` 16 or
above it acknowledges lane `focus.code` of outstanding operation `focus.item` − 16 (R395). -/
def execWindowAnswer (a : WindowReply) (s : State) : Out :=
  let n := s.focus.item
  let l := s.focus.code
  if s.gangHeld (s.ctx s.cur).gang then .next s
  else if n = 8 then
    (if s.me.wait.code = 17 ∧ s.me.wait.a = 2 then .next (s.onMe (fun x => { x with winAnswer := some (a, x.wait.b.toNat), wait := {} }))
     else .next s)
  else if 16 ≤ n then .next (s.acknowledge (n - 16) l a)
  else match s.me.oplog.look n with
    | some e =>
      let note (e : LogEntry) : Out := .next (s.settleAnswers s.cur n e)
      let hold (cause : Nat) : Out := note { e with fails := Tab.ins e.fails l cause }
      let engine (f : EngCmd → EngCmd) (ticket : Nat) : Out :=
        .next ((s.onMe (fun x => x.clearEntry n)).onCore s.myCore (fun c =>
          { c with engine := c.engine.map (fun k => if k.ticket = ticket then f k else k) }))
      if (e.state ≠ .walking ∧ e.state ≠ .replaying) ∨ Tab.has e.answers l ∨ Tab.has e.fails l ∨ !Tab.has e.asked l then .next s
      else match a, e.engine with
        | .data bs, some k =>
          if e.job.kind = .load then engine (fun c => { c with answer := some bs }) k
          else match engine (fun c => { c with acked := true }) k with
            | .next t => .next (t.raiseMaf (ctxOf s s.cur) (s.caddFlags s.cur e bs))
            | r => r
        | .done, some k => engine (fun c => { c with acked := true }) k
        | .refused, _ => hold 31
        | .unresolvable, _ => hold 24
        | .wrongPlace, _ => hold (if e.engine.isSome then 29 else 30)
        | .done, none => if e.job.kind = .load then .next s else
            note { e with answers := Tab.ins e.answers l 0 }
        | .data bs, none => if e.job.kind ≠ .load then .next s else
            note { e with answers := Tab.ins e.answers l (leNat bs) }
    | none => .next s

/-! ### Deferred traps and their settling (R276, R327, R328) -/

/-- The held entry that is due first: the oldest issue (R327). -/
def Hart.dueEntry (x : Hart) : Option (Nat × LogEntry) :=
  (x.oplog.filter (fun e => e.2.state == .held)).foldl (fun b e =>
    match b with
    | none => some e
    | some f => if e.2.order < f.2.order then some e else b) none

/-- Must the instruction at the pc issue next: `pcm.ret` has returned to it (R278)? -/
def Hart.mustIssue (x : Hart) : Bool := x.passed && x.wait.code == 0

/-- May a deferred trap be taken: U mode, or S mode with `SIE`, outside the shadow context (R327)? -/
def Hart.mayDefer (x : Hart) : Bool :=
  !x.mustIssue && !x.inShadow && (x.mode == .u || (x.mode == .s && x.csr.mstatus.getLsbD 1))

/-- Is a deferred trap due at the hart's boundary, and may it be taken there? -/
def Hart.defers (x : Hart) : Bool := x.dueEntry.isSome && x.mayDefer

/-- Interrupts pending for S mode or above that are enabled in `mie` (R89). -/
def Hart.pendingInterrupts (x : Hart) : W64 := x.csr.mip &&& x.csr.mie

/-- The interrupt that would be taken first of some pending ones: external, software, timer, M's before S's. -/
def firstInterrupt (w : W64) : Option Nat := [11, 3, 7, 9, 1, 5].find? (fun i => w.getLsbD i)

/-- The interrupt that a hart takes at its boundary: one that is pending and enabled, of a mode above its own, or of its own
mode with that mode's interrupts enabled; none while the instruction at the pc must issue first. -/
def Hart.interruptDue (x : Hart) : Option Nat :=
  let w := if x.mustIssue then 0 else x.pendingInterrupts
  let toM := if x.mode = .m ∧ ¬ x.csr.mstatus.getLsbD 3 then 0 else w &&& ~~~ x.csr.mideleg
  let toS := if x.mode = .m ∨ (x.mode = .s ∧ ¬ x.csr.mstatus.getLsbD 1) then 0 else w &&& x.csr.mideleg
  match firstInterrupt toM with
  | some i => some i
  | none => firstInterrupt toS

/-- DEFERRED_TRAP: the hart takes the trap of its oldest held entry, with `oplogidx.entry` naming it (R327). -/
def execDeferredTrap (s : State) : Out :=
  let x := s.me
  match x.dueEntry with
  | some (n, e) =>
    if x.mayDefer then
      .next { takeTrap s.cur false e.cause e.tval (s.onMe (fun x => { x with oplogidx := n })) with trapped := true }
    else .next s
  | none => .next s

/-- An instruction on entry X(a)[2:0] of the hart's log, which must be occupied (R276). -/
def onEntry (i : Instr) (o : Args) (s : State) (k : Nat → LogEntry → Out) : Out :=
  let v := (s.me.X o.a.toNat).toNat
  guarded i s (match s.me.oplog.look v with
    | some e => if v < 8 then k v e else illegal i s
    | none => illegal i s)

/-- The engine command of an entry reads the index of its row again (R240, R276). -/
def State.indexAgain (s : State) (h : Nat) (e : LogEntry) : State :=
  match e.engine with
  | some t => s.onCore (coreOf h) (fun c => { c with engine := c.engine.map (fun k => if k.ticket = t then { k with index := none } else k) })
  | none => s

/-- `replay`: the logged instruction is entered again from its logged operands, and nothing that was asked for it before counts
(R276). -/
def execReplay (o : Args) (s : State) : Out :=
  onEntry (.replay o) o s (fun n e =>
    .next (((s.forgetAsker (askerOf s.cur n)).indexAgain s.cur e).onMe (fun x =>
      (x.setEntry n { e with state := .replaying, answers := [], asked := [], fails := [] }).advance o.words)))

/-- `oplog.pc`. -/
def execOplogPc (o : Args) (s : State) : Out :=
  onEntry (.oplogPc o) o s (fun _ e => .next (s.onMe (fun x => (x.setX o.d.toNat e.job.pc).advance o.words)))

end Sys2Proof.Machine
end

