-- ==== Sys2Proof/Machine/Sync.lean ====
section
/-! DEFINITION. Barriers, stage queues, windows and roles: CTRL minors 7, 8 and 12, with the steps that end their waits
(R180 to R190, R204, R205). -/

namespace Sys2Proof.Machine

/-! ### Objects at a bank -/

/-- `n` bytes at a bank as the next indivisible step finds them, the core's performed stores to them published first (R172,
R184). -/
def State.atBank (s : State) (h : Nat) (l : Loc) (n : Nat) : Nat × State :=
  let t := (s.drainOwn h).publishCovered h (s.hart h).tag l n
  (t.latest (s.hart h).tag l n, t)

/-- Does a store of the hart to some bytes at a bank still wait to be performed, after everything that its homes could take (R225)? -/
def State.stuckAt (s : State) (h : Nat) (l : Loc) (n : Nat) : Bool :=
  (s.hart h).ops.any (fun p => p.writes.any (fun w => w.1.place == l.place && l.off ≤ w.1.off && w.1.off < l.off + n))

/-- A wider scope: the greater of a scope and a least one (R186, R189). -/
def atLeast (scope least : Nat) : Nat := max scope least

/-- A synchronisation instruction under its guard: it waits behind an ordered logged instruction (R167). -/
def syncOp (i : Instr) (s : State) (k : Out) : Out := guarded i s (if s.me.ordered then inCoalescer s else k)

/-! ### Barriers (R183 to R187) -/

/-- A barrier object (R183). -/
structure Bar where
  members : Nat
  here : Nat
  lead : Nat
  phase : Nat
  expect : Nat
  arrived : Nat
  zeros : Nat
  bexpect : Nat
  brecv : Nat
  deriving DecidableEq, Repr

/-- The object that 32 bytes hold. -/
def Bar.ofNat (n : Nat) : Bar :=
  { members := bitsOf n 31 0, here := bitsOf n 63 32, lead := bitsOf n 127 64, phase := bitsOf n 143 128
    expect := bitsOf n 151 144, arrived := bitsOf n 159 152, zeros := bitsOf n 191 160, bexpect := bitsOf n 223 192
    brecv := bitsOf n 255 224 }

/-- The 32 bytes of an object. -/
def Bar.bytes (o : Bar) : List Byte :=
  leBytes 4 o.members ++ leBytes 4 o.here ++ leBytes 8 o.lead ++ leBytes 2 o.phase ++ leBytes 1 o.expect
    ++ leBytes 1 o.arrived ++ leBytes 4 o.zeros ++ leBytes 4 o.bexpect ++ leBytes 4 o.brecv

/-- Arrives of member h counted toward later phases. -/
def Bar.leadOf (o : Bar) (h : Nat) : Nat := o.lead / 4 ^ h % 4

/-- Is the object consistent (R183)? -/
def Bar.consistent (o : Bar) : Bool :=
  o.expect == popcount o.members 32 && o.arrived == popcount o.here 32
    && (List.range 32).all (fun h => bitOf o.members h || (!bitOf o.here h && o.leadOf h == 0))
    && o.zeros == 0 && o.brecv != 0xFFFFFFFF

/-- One phase completed: leads of the members move into `here`, whose bits of other harts stay (R184). -/
def Bar.nextPhase (o : Bar) : Bar :=
  let ahead (h : Nat) : Bool := bitOf o.members h && o.leadOf h > 0
  let here := ((List.range 32).map (fun h => if ahead h ∨ (!bitOf o.members h && bitOf o.here h) then 2 ^ h else 0)).sum
  { o with
    phase := (o.phase + 1) % 65536, brecv := o.brecv - o.bexpect, here, arrived := popcount here 32
    lead := ((List.range 32).map (fun h => (if ahead h then o.leadOf h - 1 else o.leadOf h) * 4 ^ h)).sum }

/-- Is the object's phase complete: the condition of the loop of `Complete` (R184)? -/
def Bar.full (o : Bar) : Bool := (o.expect > 0 || o.bexpect > 0) && o.arrived == o.expect && o.brecv ≥ o.bexpect

/-- The first phases of Complete(o). -/
def completeFrom (o : Bar) : (fuel : Nat) → Bar
  | 0 => o
  | n + 1 => if o.full then completeFrom o.nextPhase n else o

/-- Complete(o) (R184). No lead is left after five phases, and the phases that follow then differ in `phase` and `brecv` alone. -/
def Bar.complete (o : Bar) : Bar :=
  let c := completeFrom o 5
  if c.full ∧ c.bexpect > 0 then { c with phase := (c.phase + c.brecv / c.bexpect) % 65536, brecv := c.brecv % c.bexpect } else c

/-- Done(o, t) (R184). -/
def Bar.done (o : Bar) (t : Nat) : Bool :=
  let d := (o.phase + 65536 - t % 65536) % 65536
  1 ≤ d && d ≤ 32768

/-- Arrive(o) of member h: the token and the object, or none where the hart waits for the next completion (R184). -/
def Bar.arrive (o : Bar) (h : Nat) : Option (Nat × Bar) :=
  if !bitOf o.here h then
    some (o.phase, ({ o with here := o.here + 2 ^ h, arrived := o.arrived + 1 } : Bar).complete)
  else if o.leadOf h < 3 then
    some ((o.phase + o.leadOf h + 1) % 65536, ({ o with lead := o.lead + 4 ^ h } : Bar).complete)
  else none

/-- Where a barrier address leads: the place of the object, or the trap of R187. -/
def State.barPlace (s : State) (h : Nat) (va : W64) : Loc ⊕ Nat :=
  let o := va.toNat % 2 ^ 48
  let own := o < 0x800000 || (0x1000000 ≤ o && o < 0x2000000)
    || (0x10000000 ≤ o && o < 0x20000000 && (o - 0x10000000) / 0x1000000 == s.bicOf h)
  if va.toNat % 32 ≠ 0 ∨ !inLocal va ∨ !own then .inr 28
  else match s.localAt h va 32 true true with
    | some l => .inl l
    | none => .inr 7

/-- The hart's index in its block, 32 for a hart of no block. -/
def Hart.hib (x : Hart) : Nat := (x.home.map Home.hib).getD 32

/-- A barrier instruction: the traps of R187, then what it does with the place of its object. -/
def barOp (i : Instr) (o : Args) (s : State) (k : Loc → State → Out) : Out :=
  let va := s.me.X o.a.toNat
  syncOp i s (match s.barPlace s.cur va with
    | .inl l => k l s
    | .inr c => trap c va s)

/-- One indivisible step on the object at a place: cause 28 when it is inconsistent (R184, R187). -/
def barStep (va : W64) (l : Loc) (s : State) (k : Bar → State → Out) : Out :=
  let r := s.atBank s.cur l 32
  let b := Bar.ofNat r.1
  if r.2.stuckAt s.cur l 32 then inCoalescer r.2
  else if b.consistent then k b r.2 else trap 28 va s

/-- The object written back. -/
def State.putBar (s : State) (l : Loc) (b : Bar) : State := s.writeNow s.cur s.me.tag l b.bytes

/-- An arrive of the hart on an object: cause 28 when it is no member, a wait for the next completion when it already leads by three; an
`init` of the object completes nothing, and the hart waits on (R184, R186). -/
def barArrive (va : W64) (l : Loc) (s : State) (k : Nat → State → Out) : Out :=
  barStep va l s (fun b t =>
    let h := s.me.hib
    if h ≥ 32 ∨ !bitOf b.members h then trap 28 va s
    else match b.arrive h with
      | some (tok, b') => k tok (t.putBar l b')
      | none => .next (s.onMe (fun x => x.block 3 va (BitVec.ofNat 64 (b.phase + 65536)))))

/-- A wait for Done(o, t), then an acquire (R186). -/
def barAwait (o : Args) (scope : Nat) (va : W64) (l : Loc) (tok : Nat) (s : State) : Out :=
  barStep va l s (fun b t =>
    if b.done tok then
      .next ((t.acquire s.cur scope).onMe (fun x =>
        { x with arrivals := x.arrivals.filter (fun a => !(a.1 == x.pc && a.2.1 == va)) }.advance o.words))
    else .next (s.onMe (fun x => x.block 3 va (BitVec.ofNat 64 (tok + 65536)))))

/-- `bar.arrive`. -/
def execBarArrive (o : Args) (s : State) : Out :=
  let va := s.me.X o.a.toNat
  barOp (.barArrive o) o s (fun l s => afterRelease 3 (atLeast o.rsc.toNat 1) s (fun s =>
    barArrive va l s (fun tok s => .next (s.onMe (fun x => (x.setX o.d.toNat (BitVec.ofNat 64 tok)).advance o.words)))))

/-- `bar.wait`. -/
def execBarWait (o : Args) (s : State) : Out :=
  let va := s.me.X o.a.toNat
  barOp (.barWait o) o s (fun l s =>
    barAwait o (atLeast o.rsc.toNat 1) va l (bitsOf (s.me.X o.b.toNat).toNat 15 0) s)

/-- `bar.sync`: the arrival is made once, and the hart keeps its token while it waits (R34, R186). A `bar.sync` at the same pc on the
same object address is the wait resumed, whoever issues it (DESIGN CHOICE, log 56). -/
def execBarSync (o : Args) (s : State) : Out :=
  let va := s.me.X o.a.toNat
  let scope := atLeast o.rsc.toNat 1
  barOp (.barSync o) o s (fun l s =>
    match s.me.arrivals.find? (fun a => a.1 == s.me.pc && a.2.1 == va) with
    | some a => barAwait o scope va l a.2.2 s
    | none =>
      afterRelease 3 scope s (fun s => barArrive va l s (fun tok s =>
        barAwait o scope va l tok (s.onMe (fun x => { x with arrivals := (x.pc, va, tok) :: x.arrivals })))))

/-- `bar.test`. -/
def execBarTest (o : Args) (s : State) : Out :=
  let va := s.me.X o.a.toNat
  barOp (.barTest o) o s (fun l s => barStep va l s (fun b t =>
    if b.done (bitsOf (s.me.X o.b.toNat).toNat 15 0) then
      .next ((t.acquire s.cur (atLeast o.rsc.toNat 1)).onMe (fun x => (x.setX o.d.toNat 1).advance o.words))
    else .next (t.onMe (fun x => (x.setX o.d.toNat 0).advance o.words))))

/-- `bar.init`. -/
def execBarInit (o : Args) (s : State) : Out :=
  let va := s.me.X o.a.toNat
  let m := (s.me.X o.d.toNat).toNat
  let n := (s.me.X o.b.toNat).toNat
  barOp (.barInit o) o s (fun l s => barStep va l s (fun b t =>
    if m ≥ 2 ^ 32 ∨ n ≥ 2 ^ 32 ∨ (m = 0 ∧ n = 0) then trap 28 va s
    else
      let b' : Bar := { b with members := m, here := 0, lead := 0, arrived := 0, brecv := 0, expect := popcount m 32, bexpect := n }
      .next ((t.putBar l b'.complete).onMe (fun x => x.advance o.words))))

/-- `bar.bytes`. -/
def execBarBytes (o : Args) (s : State) : Out :=
  let va := s.me.X o.a.toNat
  barOp (.barBytes o) o s (fun l s => barStep va l s (fun b t =>
    .next ((t.putBar l ({ b with bexpect := bitsOf (s.me.X o.b.toNat).toNat 31 0 } : Bar).complete).onMe (fun x => x.advance o.words))))

/-- The object after the removal of member h by `bar.drop` (R186). -/
def Bar.drop (b : Bar) (h : Nat) : Bar :=
  let here := if bitOf b.here h then b.here - 2 ^ h else b.here
  ({ b with members := b.members - 2 ^ h, here, expect := b.expect - 1, arrived := popcount here 32 } : Bar).complete

/-- `bar.drop`. -/
def execBarDrop (o : Args) (s : State) : Out :=
  let va := s.me.X o.a.toNat
  let h := s.me.hib
  barOp (.barDrop o) o s (fun l s => afterRelease 3 (atLeast o.rsc.toNat 1) s (fun s => barStep va l s (fun b t =>
    if h ≥ 32 ∨ !bitOf b.members h ∨ b.leadOf h ≠ 0 then trap 28 va s
    else .next ((t.putBar l (b.drop h)).onMe (fun x => x.advance o.words)))))

/-- BARRIER_WAKE: a hart that waits at a barrier whose phase is done, or whose arrive is possible again, goes on (R186). -/
def execBarrierWake (s : State) : Out :=
  let x := s.me
  if x.wait.code ≠ 3 then .next s
  else match s.barPlace s.cur x.wait.a with
    | .inl l =>
      let b := Bar.ofNat (s.atBank s.cur l 32).1
      .next (if b.done (x.wait.b.toNat - 65536) || !b.consistent then s.onMe (fun x => { x with wait := {} }) else s)
    | .inr _ => .next (s.onMe (fun x => { x with wait := {} }))

/-! ### Stage queues (R188, R189) -/

/-- A queue header (R188). -/
structure Queue where
  base : Nat
  esize : Nat
  cap : Nat
  stages : Nat
  head : Nat
  count : Nat
  allow : Nat
  pushes : Nat
  /-- the reserved bytes -/
  zeros : Nat := 0
  deriving DecidableEq, Repr

/-- The header that 32 bytes hold. -/
def Queue.ofNat (n : Nat) : Queue :=
  { base := bitsOf n 31 0, esize := bitsOf n 47 32, cap := bitsOf n 55 48, stages := bitsOf n 63 56, head := bitsOf n 71 64
    count := bitsOf n 79 72, allow := bitsOf n 127 96, pushes := bitsOf n 191 128, zeros := bitsOf n 95 80 + bitsOf n 255 192 }

/-- Does a header keep to the limits of R188, its ring within an allocation of `len` bytes? -/
def Queue.ok (q : Queue) (len : Nat) : Bool :=
  q.base % 4 == 0 && q.esize % 4 == 0 && 4 ≤ q.esize && q.esize ≤ 128 && 1 ≤ q.cap && q.head < q.cap && q.count ≤ q.cap
    && q.base + q.cap * q.esize ≤ len && q.zeros == 0

/-- Allowance of a role. -/
def Queue.allowOf (q : Queue) (role : Nat) : Nat := q.allow / 256 ^ role % 256

/-- Offsets of the own scratchpad view and of the views of blocks (R144). -/
def scratchView (o : Nat) : Bool := (0x1000000 ≤ o && o < 0x2000000) || (0x10000000 ≤ o && o < 0x20000000)

/-- Where a queue address leads: the header's place with the start and size of its allocation; none where it is misaligned
or lies in no block's scratchpad (R189). -/
def State.queuePlace (s : State) (h : Nat) (va : W64) : Option (Loc × Nat × Nat) :=
  let o := va.toNat % 2 ^ 48
  let n := if 0x1000000 ≤ o ∧ o < 0x2000000 then s.bicOf h else if 0x10000000 ≤ o ∧ o < 0x20000000 then (o - 0x10000000) / 0x1000000 else 16
  if va.toNat % 32 ≠ 0 ∨ !inLocal va then none
  else match s.blockAt h n, s.localAt h va 32 true true with
    | some b, some l => some (l, b.1.scratchBase, b.2)
    | _, _ => none

/-- The hart's core notes a queue header it has named; it tracks the last eight (R190). -/
def State.trackQueue (s : State) (l : Loc) : State :=
  s.onCore s.myCore (fun c => { c with queues := (l :: c.queues.filter (fun q => q != l)).take 8 })

/-- A queue operation's header, its traps of R189 taken; `sizes` says which entry sizes the form takes. A header in a
scratchpad view beyond the view's size, or in the view of no live block, takes the store access fault of R145 (log 41). -/
def queueStep (va : W64) (sizes : Nat → Bool) (s : State) (k : Queue → Loc → Nat → State → Out) : Out :=
  match s.queuePlace s.cur va with
  | some (l, base, len) =>
    let r := s.atBank s.cur l 32
    let q := Queue.ofNat r.1
    if r.2.stuckAt s.cur l 32 then inCoalescer r.2
    else if q.ok len && sizes q.esize then k q l base (r.2.trackQueue l) else trap 28 va s
  | none =>
    trap (if va.toNat % 32 ≠ 0 ∨ !inLocal va ∨ !scratchView (va.toNat % 2 ^ 48) then 28 else 7) va s

/-- `head`, `count` and `pushes` of a header written back. -/
def State.putQueue (s : State) (l : Loc) (q : Queue) : State :=
  ((s.writeNow s.cur s.me.tag (l.plus 8) (leBytes 1 q.head ++ leBytes 1 q.count)).writeNow s.cur s.me.tag (l.plus 16)
    (leBytes 8 q.pushes))

/-- Harts of a core that wait to push to, or to pop from, the queue of a header, in order of issue; one that took an interrupt has
left the line until it issues again (R34, R189). -/
def State.queueLine (s : State) (core : Nat) (l : Loc) (push : Bool) : List Nat :=
  ((s.core core).queueWait.filter (fun e => e.2.1 == l && e.2.2 == push && (s.hart e.1).inLine 4)).map Prod.fst

/-- Is it the hart's turn at a queue: no other hart of its core issued there earlier and waits (R189)? -/
def State.queueTurn (s : State) (h : Nat) (l : Loc) (push : Bool) : Bool := (s.queueLine (coreOf h) l push).head?.getD h == h

/-- The hart's operation takes its place in the line of a queue when it issues first, its release part still to come (R189). -/
def State.lineUp (s : State) (l : Loc) (push : Bool) : State :=
  s.onCore s.myCore (fun c =>
    { c with queueWait := if s.me.inLine 4 && c.queueWait.contains (s.cur, l, push) then c.queueWait
                          else c.queueWait.filter (fun e => e.1 != s.cur) ++ [(s.cur, l, push)] })

/-- The hart waits at a queue, behind those of its core that issued there before it (R189). -/
def waitAtQueue (va : W64) (l : Loc) (push : Bool) (s : State) : Out :=
  .next ((s.lineUp l push).onMe (fun x => x.block 4 va (if push then 0 else 1)))

/-- The hart's turn is taken: it waits at no queue. -/
def State.leaveQueue (s : State) : State :=
  s.onCore s.myCore (fun c => { c with queueWait := c.queueWait.filter (fun e => e.1 != s.cur) })

/-- A push of `esize` bytes (R189). It waits at the queue from its issue on, behind those of its core that issued earlier. -/
def queuePush (i : Instr) (o : Args) (sizes : Nat → Bool) (data : Hart → Nat → List Byte) (s : State) : Out :=
  let va := s.me.X o.a.toNat
  syncOp i s (queueStep va sizes s (fun q l _ _ =>
    let room := q.allowOf s.me.role.toNat
    if room = 0 then trap 28 va s
    else afterRelease 4 (atLeast o.rsc.toNat 1) (s.lineUp l true) (fun s => queueStep va sizes s (fun q l base t =>
      if q.count < min q.cap room ∧ s.queueTurn s.cur l true then
        let e := q.base + (q.head + q.count) % q.cap * q.esize
        let u := t.leaveQueue.writeNow s.cur s.me.tag ⟨l.place, base + e⟩ (data s.me q.esize)
        .next ((u.putQueue l { q with count := q.count + 1, pushes := (q.pushes + 1) % 2 ^ 64 }).onMe (fun x => x.advance o.words))
      else waitAtQueue va l true t))))

/-- A pop of `esize` bytes, then an acquire (R189). -/
def queuePop (i : Instr) (o : Args) (sizes : Nat → Bool) (put : Nat → List Byte → Hart → Hart) (s : State) : Out :=
  let va := s.me.X o.a.toNat
  syncOp i s (queueStep va sizes s (fun q l base t =>
    if q.count > 0 ∧ s.queueTurn s.cur l false then
      let e : Loc := ⟨l.place, base + q.base + q.head * q.esize⟩
      let r := t.leaveQueue.atBank s.cur e q.esize
      let u := r.2.putQueue l { q with head := (q.head + 1) % q.cap, count := q.count - 1 }
      .next ((u.acquire s.cur (atLeast o.rsc.toNat 1)).onMe (fun x => (put q.esize (leBytes q.esize r.1) x).advance o.words))
    else waitAtQueue va l false t))

/-- Entry sizes of the scalar forms. -/
def scalarSize (n : Nat) : Bool := n == 4 || n == 8

/-- The first lanes of a register as bytes. -/
def laneBytes (x : Hart) (r n : Nat) : List Byte := ((List.range (n / 4)).map (fun l => leBytes 4 (x.V r l).toNat)).flatten

/-- Bytes put into the first lanes of a register; the other lanes keep their values. -/
def putLanes (r : Nat) (bs : List Byte) (x : Hart) : Hart :=
  (List.range (bs.length / 4)).foldl (fun x l => x.setV r l (BitVec.ofNat 32 (leNat ((bs.drop (4 * l)).take 4)))) x

/-- `q.push`. -/
def execQPush (o : Args) (s : State) : Out :=
  queuePush (.qPush o) o scalarSize (fun x n => leBytes n (x.X o.d.toNat).toNat) s

/-- `q.vpush`; a lane register outside the window has already trapped as R36 says, so that R189's cause 28 for it is never due
(log 41). -/
def execQVpush (o : Args) (s : State) : Out :=
  queuePush (.qVpush o) o (fun _ => o.d.toNat < s.me.window) (fun x n => laneBytes x o.d.toNat n) s

/-- `q.pop`. -/
def execQPop (o : Args) (s : State) : Out :=
  queuePop (.qPop o) o scalarSize (fun _ bs x => x.setX o.d.toNat (BitVec.ofNat 64 (leNat bs))) s

/-- `q.vpop`; as for `q.vpush` (log 41). -/
def execQVpop (o : Args) (s : State) : Out := queuePop (.qVpop o) o (fun _ => o.d.toNat < s.me.window) (fun _ bs x => putLanes o.d.toNat bs x) s

/-- `q.count`. -/
def execQCount (o : Args) (s : State) : Out :=
  syncOp (.qCount o) s (queueStep (s.me.X o.a.toNat) (fun _ => true) s (fun q _ _ t =>
    .next (t.onMe (fun x => (x.setX o.d.toNat (BitVec.ofNat 64 q.count)).advance o.words))))

/-- QUEUE_WAKE: a waiting push finds room, or a waiting pop finds an entry, and the first hart of the line goes on (R189). -/
def execQueueWake (s : State) : Out :=
  let x := s.me
  if x.wait.code ≠ 4 ∨ x.rel.isSome then .next s
  else match s.queuePlace s.cur x.wait.a with
    | some (l, _, _) =>
      let q := Queue.ofNat (s.atBank s.cur l 32).1
      let ends := if x.wait.b = 1 then q.count > 0 else q.count < min q.cap (q.allowOf x.role.toNat)
      .next (if ends && s.queueTurn s.cur l (x.wait.b != 1) then s.onMe Hart.woken else s)
    | none => .next (s.onMe (fun x => { x with wait := {} }))

/-! ### Windows and roles (R204, R205) -/

/-- The immediate of `claim`, `give`, `tryclaim` and `role`. -/
def immN (o : Args) : Nat := o.imm.toNat

/-- A grant of W′ registers; the hart waits no more. -/
def State.grant (s : State) (h w : Nat) : State :=
  (s.onHart h (fun x => if w ≤ x.window then x else x.setWindow w)).onCore (coreOf h) (fun c => { c with claims := c.claims.erase h })

/-- `claim n`. -/
def execClaim (o : Args) (s : State) : Out :=
  let w := 16 * immN o
  guarded (.claim o) s
    (if s.canClaim s.cur w then .next ((s.grant s.cur w).onMe (fun x => x.advance o.words))
     else
       .next ((s.onCore s.myCore (fun c => { c with claims := if s.me.inLine 7 && c.claims.contains s.cur then c.claims else c.claims.erase s.cur ++ [s.cur] })).onMe
         (fun x => x.block 7 (BitVec.ofNat 64 w))))

/-- `tryclaim`. -/
def execTryclaim (o : Args) (s : State) : Out :=
  let w := 16 * immN o
  let can := w ≤ s.me.window || (s.claimers s.myCore == [] && s.canClaim s.cur w)
  guarded (.tryclaim o) s
    (.next ((if can then s.grant s.cur w else s).onMe (fun x =>
      (x.setX o.d.toNat (if can then 1 else 0)).advance o.words)))

/-- `give n`: waits until no register given up is pending or logged (R204). -/
def execGive (o : Args) (s : State) : Out :=
  let w := 16 * immN o
  guarded (.give o) s
    (if w ≥ s.me.window then .next (s.onMe (fun x => x.advance o.words))
     else if s.me.windowPending w s.me.window then .next (s.onMe (fun x => x.block 14 (BitVec.ofNat 64 w)))
     else .next (s.onMe (fun x => (x.setWindow w).advance o.words)))

/-- `role xd, n`. -/
def execRole (o : Args) (s : State) : Out :=
  guarded (.role o) s (.next (s.onMe (fun x =>
    ({ x.setX o.d.toNat (x.role.setWidth 64) with role := BitVec.ofNat 2 (immN o) }).advance o.words)))

/-- CLAIM_GRANT: the pool of core `focus.unit` meets its earliest waiting claim (R204). -/
def execClaimGrant (s : State) : Out :=
  match s.claimers s.focus.unit with
  | h :: _ =>
    if (s.hart h).wait.code = 7 ∧ s.canClaim h (s.hart h).wait.a.toNat then .next (s.onHart h Hart.woken) else .next s
  | [] => .next s

/-- YIELD_EXPIRE: 16 clk have passed since the hart's `yield` (R129). -/
def execYieldExpire (s : State) : Out :=
  let x := s.me
  if x.wait.code = 11 ∧ x.wait.a.toNat + 16 ≤ s.cycle then .next (s.onMe Hart.woken) else .next s

/-- PAUSE_EXPIRE: the hart's `pause` interval has passed (R31). -/
def execPauseExpire (s : State) : Out :=
  if s.me.pauseEnd ≠ 0 ∧ s.me.pauseEnd ≤ s.cycle then .next (s.onMe (fun x => { x with pauseEnd := 0, pauseLen := 0 })) else .next s

end Sys2Proof.Machine
end

