-- ==== Sys2Proof/Machine/Engines.lean ====
section
/-! DEFINITION. The copy engine and the array queue: where a command's bytes lie, how it runs row by row and block by
block, what it promises, and how it ends (R146, R185, R217, R236 to R246, R252 to R267). -/

namespace Sys2Proof.Machine

/-! ### Distances and latencies (R158, R263, R369, R394) -/

/-- Distance of two naturals. -/
def apart (a b : Nat) : Nat := (a - b) + (b - a)

/-- The home figure of R158 between two clusters. -/
def homeFigure (a b : Nat) : Nat :=
  let h := apart (a % 64 / 8) (b % 64 / 8) + apart (a % 8) (b % 8)
  let x := apart (a / 64 / 3) (b / 64 / 3) + apart (a / 64 % 3) (b / 64 % 3)
  24 + 4 * h + 90 * x

/-- The L2 path from a cluster to E-die `e` (R394). -/
def edgeFigure (a e : Nat) : Nat :=
  let d := a / 64 % 3
  24 + 4 * (if e = 0 then a % 8 else 7 - a % 8) + 90 * ((if e = 0 then d else 2 - d) + 1)

/-- The E-die nearest to a cluster (R394). -/
def nearestEdie (a : Nat) : Nat :=
  let d := a / 64 % 3
  if d = 0 then 0 else if d = 2 then 1 else if a % 8 < 4 then 0 else 1

/-! ### Ranges of the local window (R145, R238) -/

/-- What a local-window range of a command is: a place, a part of a block that has retired, or no range of one view. -/
inductive LocalRange where
  | at (l : Loc)
  | gone
  | bad
  deriving DecidableEq, Repr

/-- The range of `size` bytes at a local-window address for an engine command of a hart. -/
def State.localRange (s : State) (h : Nat) (va : W64) (size : Nat) : LocalRange :=
  let o := va.toNat % 2 ^ 48
  if 0x3000000 ≤ o ∧ o < 0x4000000 then
    (if o - 0x3000000 + size ≤ Config.accBytes ∧ !(s.hart h).tinker then .at ⟨.acc (coreOf h), o - 0x3000000⟩ else .bad)
  else match s.localAt h va size false false with
    | some l => .at l
    | none =>
      let n := if o < 0x10000000 then s.bicOf h else (o - 0x10000000) / 0x1000000
      let view : Bool := (0x1000000 ≤ o && o < 0x2000000) || (0x10000000 ≤ o && o < 0x20000000)
      match s.blockAt h n with
      | some (b, len) => if view && b.retired && o % 0x1000000 + size ≤ len then .gone else .bad
      | none => .bad

/-- The least address and the length of a row pattern: `rows` rows of `n` bytes, `stride` apart. -/
def rowSpan (base : W64) (stride : W32) (rows n : Nat) : W64 × Nat :=
  let k := strideOff stride (rows - 1)
  (if k < 0 then displace base k else base, k.natAbs + n)

/-- Does a range lie in one view of the local window as it stands, and in one that `ok` admits by its offset (R145)? -/
def State.inView (s : State) (h : Nat) (r : W64 × Nat) (ok : Nat → Bool) : Bool :=
  inLocal r.1 && ok (r.1.toNat % 2 ^ 48)
    && (match s.localRange h r.1 r.2 with
        | .at _ => true
        | _ => false)

/-- Offsets of the hart's own TCM view. -/
def ownTcm (o : Nat) : Bool := o < 0x800000
/-- Offsets of the own scratchpad view. -/
def ownScratch (o : Nat) : Bool := 0x1000000 ≤ o && o < 0x2000000
/-- Offsets of the lid view. -/
def lidView (o : Nat) : Bool := 0x2000000 ≤ o && o < 0x3000000
/-- Offsets of the accumulator view. -/
def accView (o : Nat) : Bool := 0x3000000 ≤ o && o < 0x10000000
/-- Offsets of the scratchpad views of blocks. -/
def blockView (o : Nat) : Bool := 0x10000000 ≤ o && o < 0x20000000
/-- Own TCM or own scratchpad view. -/
def ownView (o : Nat) : Bool := ownTcm o || ownScratch o

/-- The 64 bytes of a descriptor at an address, as the hart reads them; none where it is misplaced (R235, R238). -/
def State.descriptor (s : State) (h : Nat) (va : W64) : Option (List Byte) :=
  if va.toNat % 64 = 0 ∧ s.inView h (va, 64) ownView then
    match s.localRange h va 64 with
    | .at l => some ((List.range 64).map (fun i => s.readByte h (s.hart h).tag (l.plus i)))
    | _ => none
  else none

/-- The 64 bytes of a copy descriptor, as the external log keeps them (R305). -/
def CopyDesc.bytes (d : CopyDesc) : List Byte :=
  leBytes 8 d.src.toNat ++ leBytes 8 d.dst.toNat ++ leBytes 4 d.rowbytes ++ leBytes 4 d.rows ++ leBytes 4 d.sstride.toNat
    ++ leBytes 4 d.dstride.toNat ++ leBytes 8 d.bar.toNat ++ leBytes 1 d.split ++ leBytes 1 d.cnt ++ leBytes 2 d.cmask
    ++ leBytes 4 0 ++ leBytes 8 d.idx.toNat ++ leBytes 8 0

/-- A matrix descriptor read; none when a reserved byte is not zero (R243). -/
def matDesc (bs : List Byte) : Option MatDesc :=
  if fieldOf bs 0x1D 3 = 0 ∧ fieldOf bs 0x28 24 = 0 ∧ fieldOf bs 0x1C 1 < 16 then
    some { abase := BitVec.ofNat 64 (fieldOf bs 0 8), bbase := BitVec.ofNat 64 (fieldOf bs 8 8),
           astride := BitVec.ofNat 32 (fieldOf bs 0x10 4), bstride := BitVec.ofNat 32 (fieldOf bs 0x14 4),
           k := fieldOf bs 0x18 2, fmt := fieldOf bs 0x1A 1, mode := fieldOf bs 0x1B 1, split := fieldOf bs 0x1C 1,
           aoff := BitVec.ofNat 32 (fieldOf bs 0x20 4), boff := BitVec.ofNat 32 (fieldOf bs 0x24 4) }
  else none

/-- The 64 bytes of a matrix descriptor. -/
def MatDesc.bytes (d : MatDesc) : List Byte :=
  leBytes 8 d.abase.toNat ++ leBytes 8 d.bbase.toNat ++ leBytes 4 d.astride.toNat ++ leBytes 4 d.bstride.toNat ++ leBytes 2 d.k
    ++ leBytes 1 d.fmt ++ leBytes 1 d.mode ++ leBytes 1 d.split ++ leBytes 3 0 ++ leBytes 4 d.aoff.toNat ++ leBytes 4 d.boff.toNat
    ++ List.replicate 24 0

/-- Count of a command in bytes (R238). -/
def CopyDesc.count (d : CopyDesc) : Nat := d.rowbytes * d.rows

/-- The span of the source rows. -/
def CopyDesc.srcSpan (d : CopyDesc) : W64 × Nat := rowSpan d.src d.sstride d.rows d.rowbytes

/-- The span of the destination rows. -/
def CopyDesc.dstSpan (d : CopyDesc) : W64 × Nat := rowSpan d.dst d.dstride d.rows d.rowbytes

/-- The index of row r of an indexed copy as it stands. -/
def State.peekIndex (s : State) (h : Nat) (idx : W64) (r : Nat) : Nat :=
  match s.localRange h (idx + BitVec.ofNat 64 (4 * r)) 4 with
  | .at l => s.readRaw h (s.hart h).tag l 4
  | _ => 0

/-- The address of row r of a side of a copy; one that an index moves is where the index, as it stands, puts it (R240). -/
def State.rowOf (s : State) (h minor : Nat) (d : CopyDesc) (store : Bool) (r : Nat) : W64 :=
  let i := if minor = (if store then 4 else 3) then s.peekIndex h d.idx r else r
  if store then displace d.dst (strideOff d.dstride i) else displace d.src (strideOff d.sstride i)

/-- The checks of R238 on a copy command of a kind: minor 0 to 4, or 6 for the copy of an `e.cmma`. In a non-root world the lid view is
left to R237's check. -/
def State.copyOk (s : State) (h minor : Nat) (d : CopyDesc) : Bool :=
  let indexed := minor == 3 || minor == 4
  let blocks := (s.cohortOf h).map (fun c => c.blocks) |>.getD []
  let dstViews (o : Nat) : Bool :=
    if minor = 1 then ownScratch o else if minor = 6 then ownView o || lidView o
    else (!lidView o || (s.hart h).tag != 0) && !accView o
  1 ≤ d.rowbytes && d.rowbytes ≤ 2 ^ 24 && 1 ≤ d.rows && d.rows ≤ 2 ^ 20 && d.split ≤ 12
    && (d.dst == 0) == (d.cnt != 0)
    && (if minor = 1 then
          d.cmask != 0 && d.dst != 0 && (List.range 16).all (fun n => !bitOf d.cmask n || (blocks[n]?).any (fun b => !b.retired))
        else d.cmask == 0)
    && (if indexed then d.idx.toNat % 4 == 0 && s.inView h (d.idx, 4 * d.rows) ownView else d.idx == 0)
    && (minor != 2 || (d.src.toNat % 4 == 0 && d.rowbytes % 4 == 0))
    && (!inLocal d.src || minor == 3 || s.inView h d.srcSpan (fun _ => true))
    && (d.dst == 0 || (if inLocal d.dst then (minor == 4 || s.inView h d.dstSpan dstViews) && dstViews (d.dst.toNat % 2 ^ 48)
          else minor != 1 && minor != 6))
    && !(minor == 2 && !inLocal d.dst && !inDomain d.dst && s.hostLeaf h d.dst)
    && (d.bar == 0 || (d.bar.toNat % 32 == 0
          && s.inView h (d.bar, 32) (fun o => if minor = 1 then ownScratch o else ownView o || blockView o)))

/-- The first page of a run of bytes that lies in the domain window where the gate does not allow it (R157, R280). -/
def State.shutAt (s : State) (h : Nat) (va : W64) (n : Nat) : Option W64 :=
  ((List.range ((va.toNat % 4096 + n + 4095) / 4096)).map (fun i =>
    if i = 0 then va else BitVec.ofNat 64 ((va.toNat / 4096 + i) * 4096))).find? (fun a => inDomain a && !s.windowAllowed h a)

/-- The gate fault of a command, some page of whose rows names a domain window that the gate does not allow (R157, R280, R329); a side
that an index moves is tested with the indices as they stand at issue (log 65). -/
def State.copyGate (s : State) (h minor : Nat) (d : CopyDesc) : Option W64 :=
  let rows (store : Bool) : Option W64 := (List.range d.rows).findSome? (fun r => s.shutAt h (s.rowOf h minor d store r) d.rowbytes)
  match rows false with
  | some va => some va
  | none => if d.dst = 0 then none else rows true

/-- Does a run of bytes reach into the domain window? -/
def reachesDomain (va : W64) (n : Nat) : Bool := inDomain va || inDomain (va + BitVec.ofNat 64 (n - 1))

/-- The indices for which the gate was asked at issue: kept where one of them moves a row into the domain window (R329). -/
def State.gatedRows (s : State) (h minor : Nat) (d : CopyDesc) : List Nat :=
  if minor ≠ 3 ∧ minor ≠ 4 then []
  else if (List.range d.rows).any (fun r => reachesDomain (s.rowOf h minor d (minor == 4) r) d.rowbytes) then
    (List.range d.rows).map (s.peekIndex h d.idx)
  else []

/-- The checks of R243 on a matrix command: format, mode and the views of its operands. -/
def State.matOk (s : State) (h : Nat) (d : MatDesc) : Bool :=
  let views (o : Nat) : Bool := ownView o || lidView o
  d.ok && s.inView h (rowSpan d.abase d.astride 64 (d.blocks * blockBytes d.aType)) views
    && s.inView h (rowSpan d.bbase d.bstride 64 (d.blocks * blockBytes d.bType)) views

/-! ### Modelled times (R254, R258, R260, R263) -/

/-- The home slice of an address under a context's tables as they stand, for a walker of a cluster; a first-touch page has the slice
that its touch map gives it, or would (R153, R154). None where no leaf is valid. -/
def State.sliceUnder (s : State) (c : Context) (cluster root : Nat) (va : W64) : Option Nat :=
  match walkTables s cluster (vpnOf va) 5 root with
  | .at level _ p =>
    let page := bitsOf p 53 10 + vpnOf va % 512 ^ level
    let touched := if bitsOf p 60 59 = 2 then (firstTouch s c cluster (bitsOf p 58 54) va page).map Prod.fst else none
    some (homeSlice c (bitsOf p 60 59) (bitsOf p 58 54) touched (page * 4096 + va.toNat % 4096))
  | .bad _ => none

/-- The figure of a domain-window access (R263, R369): 2 L_w with the requester's leg and that of the target line's home slice, plus
the home figure from the port, plus 280. Which slice is the home the tables of the module that the address names say: those of the
module's own context here, and of another module a free value (R157). -/
def State.windowFigure (s : State) (me h : Nat) (va : W64) : Nat × State :=
  let own := (s.contextOfGang (s.ctx h).gang).bind (fun c =>
    s.sliceUnder c.2 me c.2.root.toNat (c.2.domain + BitVec.ofNat 64 (windowOf va).2))
  let d := s.draw
  let far := match s.ownWindow va, own with
    | true, some c => c
    | _, _ => d.1.toNat % 576
  let sigma := if s.domain.size ≤ 64 then 1 else 3
  let leg (c : Nat) : Nat := edgeFigure c (nearestEdie c) + 6
  (2 * (leg me + leg far + 60 * (sigma + 1) + 120 * sigma) + edgeFigure far (nearestEdie far) + 280, d.2)

/-- The load-to-use figure of R158 of a place, HBM at a miss. A page whose leaf is not valid at acceptance has no home: the requester's
own cluster stands for it (DESIGN CHOICE, log 9). -/
def State.figure (s : State) (h : Nat) (va : W64) : Nat × State :=
  let me := clusterOf (coreOf h)
  let o := va.toNat % 2 ^ 48
  if inLocal va then
    (if o < 0x1000000 then 5
     else if ownScratch o then 6
     else if lidView o then 14
     else if accView o then 6
     else if (o - 0x10000000) / 0x1000000 = s.bicOf h then 6
     else match s.blockAt h ((o - 0x10000000) / 0x1000000) with
       | some (b, _) => homeFigure me b.cluster - 14
       | none => 6, s)
  else if inDomain va then s.windowFigure me h va
  else if s.hostLeaf h va then (700 + edgeFigure me (s.ctx h).link, s)
  else
    let slice := match rootOf s h .load with
      | some root => (s.sliceUnder (s.ctx h) me root va).getD me
      | none => tableSlice va.toNat
    (homeFigure me slice + 280, s)

/-- Lines of 128 bytes that n bytes at an address touch. -/
def linesOf (va : W64) (n : Nat) : Nat := (va.toNat % 128 + n + 127) / 128

/-- Writes of at most 128 bytes that a segment of n bytes into the lid takes, bank by bank (R254, R262). -/
def lidWrites (o n : Nat) : Nat :=
  let first := min n (65536 - o % 65536)
  (first + 127) / 128 + (n - first) / 65536 * 512 + ((n - first) % 65536 + 127) / 128

/-- n of R263: the larger of the source lines read and the destination writes, counted as R254 does, with the indices of an `e.gath`
as they stand at acceptance. -/
def State.transfers (s : State) (k : EngCmd) : Nat :=
  let d := k.cop
  let src := ((List.range d.rows).map (fun r => linesOf (s.rowOf k.hart k.kind d false r) d.rowbytes)).sum
  let dst :=
    if d.dst = 0 then src
    else if inLocal d.dst ∧ lidView (d.dst.toNat % 2 ^ 48) then
      ((List.range d.rows).map (fun r => lidWrites ((displace d.dst (strideOff d.dstride r)).toNat % 2 ^ 24) d.rowbytes)).sum
    else d.rows * ((d.rowbytes + 127) / 128)
  max src dst

/-- Does a range of the scale cache hold the container at an address? -/
def Core.inRange (r : W64 × Nat) (a : W64) : Bool := (a - r.1).toNat % 2 == 0 && (a - r.1).toNat / 2 < r.2

/-- Is the scale at an address in the scale cache (R244, R260)? -/
def Core.cached (c : Core) (a : W64) : Option Nat :=
  let k := (a - c.scaleBase).toNat
  if k % 2 = 0 then c.scales[k / 2]? else none

/-- The range of the scale cache when a matrix command accepted now comes to be taken: that of the last `e.scale` that waits in the
array's order, or the cache's own (R245, R260). -/
def Core.scaleRange (c : Core) : W64 × Nat :=
  match (c.array.filterMap (fun t => c.engine.find? (fun k => k.ticket == t))).reverse.find? (fun k => k.kind == 7) with
  | some k => (k.sbase, k.scount)
  | none => (c.scaleBase, c.scales.length)

/-- Bytes of a lid bank that each bank's part of n bytes at an offset takes: the banks with their bytes (R258, R261). -/
def bankParts (o n : Nat) : List (Nat × Nat) :=
  let first := min n (65536 - o % 65536)
  [(o / 65536, first), (o / 65536 + 1, n - first)]

/-- The addresses of the scale containers of K block b: those of A, then those of B (R244). -/
def MatDesc.scaleAddrs (d : MatDesc) (sbase : W64) (sshift b : Nat) : List W64 :=
  if d.scaled then
    (List.range 64).map (fun i => scaleAddr sbase sshift d.aoff d.astride d.aType i b)
      ++ (List.range 64).map (fun i => scaleAddr sbase sshift d.boff d.bstride d.bType i b)
  else []

/-- Clk of K block b of a command (R258). -/
def State.blockTime (s : State) (core : Nat) (d : MatDesc) (sbase : W64) (sshift b : Nat) : Nat :=
  let arith := if d.integer then (if d.bType = 13 then 4 else 16) else if d.aType ≤ 9 then 32 else if d.aType = 12 then 8 else 16
  let ab := 64 * blockBytes d.aType
  let bb := 64 * blockBytes d.bType
  let oa := d.abase.toNat % 2 ^ 48
  let ob := d.bbase.toNat % 2 ^ 48
  let inPlace (f : Nat → Bool) : Nat := (if f oa then ab else 0) + (if f ob then bb else 0)
  let parts := (List.range 64).flatMap (fun j =>
    bankParts ((MatDesc.rowAt d.bbase d.bstride d.bType j b).toNat % 2 ^ 24) (blockBytes d.bType))
  let busiest := (parts.map (fun p => ((parts.filter (fun q => q.1 == p.1)).map Prod.snd).sum)).foldl max 0
  let range := (s.core core).scaleRange
  let hit := Core.inRange range
  let misses := ((d.scaleAddrs sbase sshift b).filter (fun a => !hit a)).map (fun a => a.toNat / 128)
  [arith, inPlace ownTcm / 128, inPlace ownScratch / 256, if lidView oa then ab / 128 else 0,
   if lidView ob then (busiest + 1) / 2 else 0, 600 * misses.dedup.length].foldl max 1

/-- The gate fault of a matrix command: a scale outside the cache's range that lies in a domain window which the gate does not allow (R280,
R329). -/
def State.scaleGate (s : State) (h : Nat) (d : MatDesc) (sbase : W64) (sshift : Nat) : Option W64 :=
  let range := (s.core (coreOf h)).scaleRange
  (List.range d.blocks).findSome? (fun b =>
    (d.scaleAddrs sbase sshift b).findSome? (fun a => if Core.inRange range a then none else s.shutAt h a 2))

/-- The block times of a matrix command (R258). -/
def State.blockTimesOf (s : State) (core : Nat) (d : MatDesc) (sbase : W64) (sshift : Nat) : List Nat :=
  (List.range d.blocks).map (s.blockTime core d sbase sshift)

/-- The modelled time of a matrix command (R258). -/
def matrixTime (d : MatDesc) (blocks : List Nat) : Nat := (if d.zero then 0 else 128) + blocks.sum + 128

/-- Copies of a core that are active (R253). -/
def Core.activeCopies (c : Core) : List EngCmd := c.engine.filter (fun k => k.kind ≤ 4 && k.started.isSome && !k.stopped)

/-- Time left of a command under way. -/
def EngCmd.left (k : EngCmd) (now : Nat) : Nat :=
  match k.started with
  | some t => k.time - (now - t)
  | none => k.time

/-- The least of some numbers. -/
def leastOf : List Nat → Nat
  | [] => 0
  | a :: t => t.foldl min a

/-- The clk until each copy of a list of queued ones ends, with the time at which four slots are busy until (R253,
R263): the ends, and the slots after them. -/
def queueCopies (slots : List Nat) : List EngCmd → List (Nat × Nat) × List Nat
  | [] => ([], slots)
  | k :: ks =>
    let q := leastOf slots
    let r := queueCopies (slots.erase q ++ [q + k.time]) ks
    ((k.ticket, q + k.time) :: r.1, r.2)

/-- The copies' ends, by ticket, and the four slots after them. -/
def Core.copyEnds (c : Core) (now : Nat) : List (Nat × Nat) × List Nat :=
  let act := c.activeCopies
  let busy := act.map (fun k => k.left now)
  let r := queueCopies (busy ++ List.replicate (4 - busy.length) 0) (c.engine.filter (fun k => k.kind ≤ 4 && k.started.isNone && !k.stopped))
  (act.map (fun k => (k.ticket, k.left now)) ++ r.1, r.2)

/-- Block times still modelled for an array command: what is left of its time but its write-back (R263). An `e.scale` has no block
times: all of its time left counts (DESIGN CHOICE, log 9). -/
def EngCmd.blocksLeft (k : EngCmd) (now : Nat) : Nat :=
  if k.kind = 7 then k.left now else min k.blockTimes.sum (k.left now - 128)

/-- A command by ticket. -/
def Core.command (c : Core) (t : Nat) : Option EngCmd := c.engine.find? (fun k => k.ticket == t)

/-- The array commands that have their place and are not stopped, in order. -/
def Core.arrayCommands (c : Core) : List EngCmd := (c.array.filterMap c.command).filter (fun k => !k.stopped)

/-- The command that the array computes, or takes next: the one it has taken, else one that a save had stopped, else the first, unless
its tile is held (R70, R256, R266). -/
def Core.arrayHead (c : Core) : Option EngCmd :=
  let ks := c.arrayCommands
  match ks.find? (fun k => k.started.isSome) with
  | some k => some k
  | none => match ks.find? EngCmd.begun with
    | some k => some k
    | none => ks.head?.filter (fun k => k.kind == 7 || !c.tileHeld k.mat.tile)

/-- Block times ahead of a place in the array. -/
def blocksAhead (ks : List EngCmd) (now : Nat) : Nat := (ks.map (fun k => k.blocksLeft now)).sum

/-- The remaining modelled time of a command (R264). -/
def Core.remaining (c : Core) (k : EngCmd) (now : Nat) : Nat :=
  if k.kind ≤ 4 then ((c.copyEnds now).1.find? (fun e => e.1 == k.ticket)).elim k.time Prod.snd
  else if c.array.contains k.ticket then
    (match k.started with
     | some _ => k.left now
     | none => blocksAhead (c.arrayCommands.takeWhile (fun a => a.ticket != k.ticket)) now + k.time)
  else
    let copy := ((c.copyEnds now).1.find? (fun e => e.1 == (k.ticket + 65535) % 65536)).elim 0 Prod.snd
    max copy (blocksAhead c.arrayCommands now) + k.time

/-- Every current promise recomputed at a clk; none decreases (R264). -/
def Core.repromise (c : Core) (now : Nat) : Core :=
  { c with engine := c.engine.map (fun k => { k with promise := max k.promise (now + c.remaining k now + 32) }) }

/-! ### The bytes of a command -/

/-- A command by its core and ticket, written. -/
def State.setCommand (s : State) (core : Nat) (k : EngCmd) : State :=
  s.onCore core (fun c => { c with engine := c.engine.map (fun e => if e.ticket = k.ticket then k else e) })

/-- The number under which a command's unpublished bytes are kept. -/
def EngCmd.writer (k : EngCmd) : Nat := 2 ^ 24 + coreOf k.hart * 65536 + k.ticket

/-- The log job that stands for a command at `n` bytes (R320). -/
def EngCmd.job (k : EngCmd) (store : Bool) (va : W64) (n : Nat) : MemJob :=
  { kind := if !store then .load else if k.kind = 2 then .amoNr else .store, size := n, lanes := [{ lane := 0, addr := va }]
    pc := k.pc, words := (k.words ++ [0, 0, 0]).take 3, tag := k.tag, mode := k.mode, mstatus := k.mstatus }

/-- Is the command suspended in its hart's operand log (R242)? -/
def State.suspended (s : State) (k : EngCmd) : Bool := (s.hart k.hart).oplog.any (fun e => e.2.engine == some k.ticket)

/-- The command suspended at a page, or at `n` bytes of the domain window: an entry whose page is to be walked, or one that is held
for a deferred trap when `cause` names one (R242, R320, R327). With the log full it stays where it is. -/
def State.suspend (s : State) (k : EngCmd) (store : Bool) (va : W64) (n : Nat := 1) (cause : Option (Nat × W64) := none) : State :=
  let x := s.hart k.hart
  if x.freeEntry ≥ 8 then s
  else
    let e : LogEntry :=
      { job := k.job store va n, engine := some k.ticket, active := 0, att := {}, npage := 1
        state := if cause.isSome then .held else .walking
        fva := va, order := k.order
        cause := (cause.map Prod.fst).getD 0, tval := (cause.map Prod.snd).getD 0 }
    s.onHart k.hart (fun x => { x with oplog := Tab.ins x.oplog x.freeEntry e })

/-- `stval` of an engine command fault (R235). -/
def EngCmd.word (k : EngCmd) : W64 := (k.words.headD 0).setWidth 64

/-- What a run of bytes comes to for a command. -/
inductive CmdRange where
  /-- parts of the range in order: a location and a length, or none for a block that has retired -/
  | parts (ps : List (Option Loc × Nat))
  | window
  /-- the first page that is not translated -/
  | miss (va : W64)
  | fault (cause : Nat) (tval : W64)
  deriving DecidableEq, Repr

/-- The pages of a run of translated addresses. -/
def pagesOf (s : State) (h : Nat) (k : MemKind) : (fuel : Nat) → (va : W64) → (n : Nat) → CmdRange
  | 0, _, _ => .parts []
  | f + 1, va, n =>
    if n = 0 then .parts []
    else
      let m := min n (4096 - va.toNat % 4096)
      match s.reach h va 1 k with
      | .here l =>
        match pagesOf s h k f (va + BitVec.ofNat 64 m) (n - m) with
        | .parts ps => .parts ((some l, m) :: ps)
        | r => r
      | .miss => .miss va
      | .bad _ => .miss va
      | .window => .window

/-- May a command write at an offset of the local window: not the accumulator view, and the lid view only as the copy of an `e.cmma`
(R238, R262)? -/
def EngCmd.mayWrite (k : EngCmd) (o : Nat) : Bool := !accView o && (!lidView o || (k.kind == 0 && k.paired))

/-- Where a run of bytes of a command lies, with the rights the command had at issue. The gate is asked no more (R281). -/
def State.cmdRange (s : State) (k : EngCmd) (store : Bool) (va : W64) (n : Nat) : CmdRange :=
  let t := s.onHart k.hart (fun x => { x with mode := k.mode, csr := { x.csr with mstatus := k.mstatus } })
  if inLocal va then
    (if store ∧ !k.mayWrite (va.toNat % 2 ^ 48) then .fault 29 k.word
     else match t.localRange k.hart va n with
      | .at l => .parts [(some l, n)]
      | .gone => .parts [(none, n)]
      | .bad => .fault 29 k.word)
  else if inDomain va then .window
  else pagesOf t k.hart (k.job store va 1).kind (n / 4096 + 2) va n

/-- What a piece of a command comes to: its parts, the address at which it is suspended with the bytes of it and the cause of a deferred
trap, or nothing yet (R232, R242). -/
inductive Piece where
  | parts (ps : List (Option Loc × Nat)) (s : State)
  | suspended (va : W64) (n : Nat) (cause : Option (Nat × W64)) (s : State)
  | waits (s : State)
  deriving DecidableEq, Repr

/-- Does a read by a command wait for stores of its hart that were issued before it and are in the operand log, or through the domain
window unacknowledged (R212, R217, R333)? -/
def State.olderStores (s : State) (k : EngCmd) (va : W64) : Bool :=
  let x := s.hart k.hart
  !inLocal va && (x.oplog.any (fun e => e.2.engine.isNone && e.2.order < k.order && e.2.job.kind != .load)
    || (inDomain va && x.ops.any (fun p => p.acks != [])))

/-- Bytes `off` to `off + n − 1` of a row of a command. A row of the local window lies in its view as a whole (R240); a page that a home
refuses is waited for (R232), and so is a tile that a stopped command holds (R265); a row in the module's own domain window lies where the
gang's context has it (R157), and one of another module has no parts here. -/
def State.piece (s : State) (k : EngCmd) (store : Bool) (row : W64) (off n : Nat) : Piece :=
  let va := row + BitVec.ofNat 64 off
  let kind := (k.job store va 1).kind
  let heldTile (p : Option Loc × Nat) : Bool := p.1.any (fun l => s.tilePartial (l.plus off) || s.tilePartial (l.plus (off + n - 1)))
  if inLocal row then
    match s.cmdRange k store row k.cop.rowbytes with
    | .parts ps => if ps.any heldTile then .waits s else .parts (ps.map (fun p => (p.1.map (fun l => l.plus off), n))) s
    | _ => .suspended row 1 (some (29, k.word)) s
  else if !store ∧ s.olderStores k va then .waits s
  else
    let t := s.onHart k.hart (fun x => { x with mode := k.mode, csr := { x.csr with mstatus := k.mstatus } })
    let r := t.rewalk k.hart k.pc va kind.need
    let u := r.2.onHart k.hart (fun x => { x with mode := (s.hart k.hart).mode, csr := { x.csr with mstatus := (s.hart k.hart).csr.mstatus } })
    if !r.1 then .waits s
    else match u.cmdRange k store va n with
      | .parts ps =>
        (match ps.findSome? (fun p => p.1.bind (fun l => if l.place = .hbm ∧ u.migrating.contains (l.off / 4096) then some l else none)) with
         | some l => .waits (u.refuse k.hart k.pc va (l.off / 4096))
         | none => .parts ps u)
      | .miss a => .suspended a 1 none u
      | .fault c v => .suspended va 1 (some (c, v)) u
      | .window =>
        if !u.ownWindow va then .suspended va n none u
        else match u.ownPlace k.hart va store with
          | (some (.at l), w) => .parts [(some l, n)] w
          | (some .wait, w) => .waits w
          | (some (.fail _), w) => .suspended va n none w
          | (none, w) => .suspended va n (some (31, va)) w

/-- The bytes of a range as the engine reads them: the core's performed stores to them are published first, and the
latest published bytes of the command's world are read (R217, R297, R306). -/
def State.readParts (s : State) (k : EngCmd) : (va : W64) → List (Option Loc × Nat) → List Byte × State
  | _, [] => ([], s)
  | va, (l, n) :: ps =>
    match l with
    | none =>
      let r := State.readParts s k (va + BitVec.ofNat 64 n) ps
      (List.replicate n 0 ++ r.1, r.2)
    | some l =>
      let t := s.publishCovered k.hart k.tag l n
      let bs := (List.range n).map (fun i =>
        if l.place = .host then BitVec.ofNat 8 (t.underLog k.hart k.tag (va + BitVec.ofNat 64 i) 1
            (fun a => t.hostMem.read (l.off + a - va.toNat)))
        else BitVec.ofNat 8 (t.latest k.tag (l.plus i) 1))
      let r := State.readParts t k (va + BitVec.ofNat 64 n) ps
      (bs ++ r.1, r.2)

/-- Bytes written by a command at the parts of a range: performed, and published only when the command completes (R237);
those of a block that has retired are discarded. -/
def State.writeParts (s : State) (k : EngCmd) : List (Option Loc × Nat) → List Byte → State
  | [], _ => s
  | (l, n) :: ps, bs =>
    let t := match l with
      | none => s
      | some l => ((bs.take n).zipIdx).foldl (fun s p => s.performByte k.writer k.tag (l.plus p.2) p.1) s
    State.writeParts t k ps (bs.drop n)

/-- The location of each byte of some parts. -/
def partLocs (ps : List (Option Loc × Nat)) : List (Option Loc) :=
  ps.flatMap (fun p => (List.range p.2).map (fun i => p.1.map (fun l => l.plus i)))

/-- One element of an `e.cadd` added at the places of its four bytes, which two pages may share: a single-copy atomic at its home or bank
(R172, R241). -/
def State.addElem (s : State) (k : EngCmd) (ls : List Loc) (src : List Byte) : State :=
  let t := ls.foldl (fun s l => s.publishCovered k.hart k.tag l 1) s
  let o := leNat (ls.map (fun l => BitVec.ofNat 8 (t.latest k.tag l 1)))
  let r := caddNew k.ty k.sat o (leNat src)
  let new := leBytes 4 r.1
  let first := ls.headD ⟨.hbm, 0⟩
  let u := if (ls.zipIdx).all (fun p => p.1 == first.plus p.2) then t.writeNow k.writer k.tag first new
    else (ls.zip new).foldl (fun s p => s.writeNow k.writer k.tag p.1 [p.2]) t
  u.raiseMaf (ctxOf s k.hart) r.2

/-- The elements of a piece of an `e.cadd`, in order; those of a block that has retired are discarded (R238, R241). -/
def State.addElems (s : State) (k : EngCmd) : (n : Nat) → List (Option Loc) → List Byte → State
  | 0, _, _ => s
  | n + 1, ls, bs =>
    let here := (ls.take 4).filterMap id
    let t := if here.length = 4 then s.addElem k here (bs.take 4) else s
    State.addElems t k n (ls.drop 4) (bs.drop 4)

/-- Overlay pages of its world that a command's write of some parts would take (R290, R303). -/
def State.newPages (s : State) (k : EngCmd) : (va : W64) → List (Option Loc × Nat) → List Nat
  | _, [] => []
  | va, (l, n) :: ps =>
    let rest := State.newPages s k (va + BitVec.ofNat 64 n) ps
    if k.tag = 0 ∨ !l.any (fun l => l.place == .hbm) ∨ (Tab.get s.worlds {} k.tag).pages.contains (vpnOf va) ∨ rest.contains (vpnOf va)
    then rest else vpnOf va :: rest

/-- May a world take some more pages (R303)? -/
def State.mayTake (s : State) (tag n : Nat) : Bool :=
  let w := Tab.get s.worlds {} tag
  n = 0 || (w.pages.length + n ≤ w.quota && w.pages.length + n ≤ 65535
    && s.overlayUsed w.pasid + n ≤ (Tab.get s.ctxs {} w.pasid).ovpages)

/-! ### Running a copy (R240 to R242, R253 to R255) -/

/-- What one step of a command comes to: it goes on, it is suspended or waits, or it has nothing left to do. -/
inductive Prog where
  | more (s : State)
  | stuck (s : State)
  | over (s : State)
  deriving DecidableEq, Repr

/-- The state that a step leaves. -/
def Prog.state : Prog → State
  | .more s => s
  | .stuck s => s
  | .over s => s

/-- Split granule of a copy in bytes; 0 for none (R239). -/
def EngCmd.granule (k : EngCmd) : Nat := if k.cop.split = 0 then 0 else 2 ^ (k.cop.split + 7)

/-- Source and destination address of position p of a command's count, its row's index read where it has one (R240). -/
def EngCmd.addrsAt (k : EngCmd) (p : Nat) : W64 × W64 :=
  let d := k.cop
  let r := p / d.rowbytes
  let i := (k.index.map Prod.snd).getD 0
  (displace d.src (strideOff d.sstride (if k.kind = 3 then i else r)),
   displace d.dst (strideOff d.dstride (if k.kind = 4 then i else r)))

/-- Bytes of the piece at position p: to the end of the row, of the 128-byte source line, of the page on either side, and of the split
granule, and whole elements of an `e.cadd`, one of them through the domain window (R239, R241, R242, R253, R349). -/
def State.pieceLen (s : State) (k : EngCmd) (p : Nat) : Nat :=
  let off := p % k.cop.rowbytes
  let r := k.cop.rowbytes - off
  let a := k.addrsAt p
  let base := ((s.contextOfGang (s.ctx k.hart).gang).map (fun c => c.2.domain.toNat)).getD 0
  let page (row : W64) : Nat :=
    let va := (row + BitVec.ofNat 64 off).toNat
    if inLocal row then r
    else if inDomain row then min 128 (min (4096 - va % 4096) (4096 - (base + va) % 4096))
    else 4096 - va % 4096
  let line := 128 - (a.1.toNat + off) % 128
  let g := if k.granule = 0 then r else k.granule - p % k.granule
  let n := min (min (min r line) g) (min (page a.1) (if k.cop.dst = 0 ∨ k.kind = 1 then r else page a.2))
  if k.kind ≠ 2 then n else if inDomain a.2 then 4 else max 4 (n / 4 * 4)

/-- Would publishing the core's stores to some parts find its homes ready (R217, R225)? -/
def State.coverLines (s : State) (k : EngCmd) (ps : List (Option Loc × Nat)) : List (Nat × Nat) :=
  (ps.flatMap (fun p => match p.1 with
    | some l => s.linesWhere (coreOf k.hart) (Unpub.within k.tag l p.2)
    | none => [])).dedup

/-- A piece that cannot go on: the command is suspended, or waits. -/
def State.held (s : State) (k : EngCmd) (store : Bool) (va : W64) (n : Nat) (cause : Option (Nat × W64)) : Prog :=
  .stuck (s.suspend k store va n cause)

/-- A row's index taken for the row. The gate is asked for a row that the index moves into the domain window, but for the index with
which it was asked at issue (R240, R280, R281, log 65). -/
def State.takeIndex (s : State) (k : EngCmd) (r i : Nat) : Prog :=
  let d := k.cop
  let store := k.kind == 4
  let row := if store then displace d.dst (strideOff d.dstride i) else displace d.src (strideOff d.sstride i)
  match (if k.gated[r]? = some i then none else s.shutAt k.hart row d.rowbytes) with
  | some va => s.held k store va 1 (some (31, va))
  | none => .more (s.setCommand (coreOf k.hart) { k with index := some (r, i) })

/-- The index of a row read, when the row is processed (R240); of a command replayed from a world's log, as it was captured (R305). -/
def State.readIndex (s : State) (k : EngCmd) (r : Nat) : Prog :=
  let va := k.cop.idx + BitVec.ofNat 64 (4 * r)
  match k.captured with
  | some bs => s.takeIndex k r (leNat ((bs.drop (4 * r)).take 4))
  | none =>
    match s.cmdRange { k with kind := 0 } false va 4 with
    | .parts ps =>
      let b := s.readParts k va ps
      b.2.takeIndex k r (leNat b.1)
    | _ => s.held k false va 1 (some (29, k.word))

/-- Bytes of a command's captured stream for position p, of a source in the local window (R305). -/
def EngCmd.capturedAt (k : EngCmd) (p n : Nat) : Option (List Byte) :=
  k.captured.bind (fun bs =>
    let r := p / k.cop.rowbytes
    let addr (q : Nat) : W64 := displace k.cop.src (strideOff k.cop.sstride (if k.kind = 3 then leNat ((bs.drop (4 * q)).take 4) else q))
    let first := if k.kind = 3 ∨ k.kind = 4 then 4 * k.cop.rows else 0
    let rows := ((List.range r).filter (fun q => inLocal (addr q))).length
    if inLocal (addr r) then some ((bs.drop (first + rows * k.cop.rowbytes + p % k.cop.rowbytes)).take n) else none)

/-- The next piece of the source read (R217, R240, R242). -/
def State.readPiece (s : State) (k : EngCmd) : Prog :=
  let core := coreOf k.hart
  let n := s.pieceLen k k.got
  let row := (k.addrsAt k.got).1
  let off := k.got % k.cop.rowbytes
  let va := row + BitVec.ofNat 64 off
  let took (t : State) (bs : List Byte) : Prog := .more (t.setCommand core { k with got := k.got + n, buf := k.buf ++ bs, answer := none })
  match k.capturedAt k.got n, k.answer with
  | some bs, _ => took s bs
  | none, some bs =>
    took s ((List.range n).map (fun i => BitVec.ofNat 8 (s.underLog k.hart k.tag (va + BitVec.ofNat 64 i) 1 (fun x => bs.getD (x - va.toNat) 0))))
  | none, none =>
    match s.piece k false row off n with
    | .parts ps t =>
      let lines := t.coverLines k ps
      if !t.canOrderAll lines (some core) then .stuck (t.snoopAll lines)
      else
        let b := t.readParts k va ps
        took b.2 b.1
    | .suspended a m c t => t.held k false a m c
    | .waits t => .stuck t

/-- Lines of a run of device bytes placed in the core's L1 with a read count (R155, R240). -/
def State.fillLines (s : State) (k : EngCmd) (ps : List (Option Loc × Nat)) : State :=
  let core := coreOf k.hart
  let lines := ((ps.map (fun p => match p.1 with
    | some l => if l.place = .hbm then (List.range ((l.off % 128 + p.2 + 127) / 128)).map (fun i => lineOf l.off + i) else []
    | none => [])).flatten).dedup
  lines.foldl (fun s n =>
    let key := lineKey (s.seenTag k.tag (n * 128)) n
    let held := (s.core core).l1.any (fun e => e.line == key && e.count == 0)
    let t := s.homeRead core k.tag (n * 128)
    if held then t
    else t.onCore core (fun c => { c with l1 := c.l1.map (fun e => if e.line = key then { e with count := k.cop.cnt } else e) })) s

/-- The follow-on of a copy takes its place in the array order (R246). -/
def State.followOn (s : State) (k : EngCmd) : State :=
  let core := coreOf k.hart
  let t := (k.ticket + 1) % 65536
  if k.kind = 0 ∧ k.paired ∧ ¬ (s.core core).array.contains t then s.onCore core (fun c => { c with array := c.array ++ [t] }) else s

/-- A command written after a piece of its count; with the last one, the follow-on takes its place at the same clk (R246). -/
def State.passed (s : State) (k : EngCmd) : State :=
  let t := s.setCommand (coreOf k.hart) k
  if k.put ≥ k.cop.count then t.followOn k else t

/-- The next piece of a fill placed in the core's L1 (R155, R240). A fill may be the copy of an `e.cmma`, which R238 does not refuse: it
writes no byte at a destination, and its follow-on takes its place when its last line is placed (DESIGN CHOICE, log 46). -/
def State.fillPiece (s : State) (k : EngCmd) : Prog :=
  let n := s.pieceLen k k.put
  let next (t : State) : Prog := .more (t.passed { k with got := k.put + n, put := k.put + n })
  match s.piece k false (k.addrsAt k.put).1 (k.put % k.cop.rowbytes) n with
  | .parts ps t => next (t.fillLines k ps)
  | .suspended a m c t => if inDomain a ∧ c = none then next t else t.held k false a m c
  | .waits t => .stuck t

/-- Bytes of a piece written at its destination, or added to it; for a multicast at the same offset of every named block
(R240, R255). -/
def State.putPiece (s : State) (k : EngCmd) (row : W64) (off : Nat) (bs : List Byte) (ps : List (Option Loc × Nat)) : State :=
  if k.kind = 1 then
    (List.range 16).foldl (fun s n =>
      if bitOf k.cop.cmask n then
        match s.piece k true (row + BitVec.ofNat 64 (0xF000000 + n * 0x1000000)) off bs.length with
        | .parts ps t => t.writeParts k ps bs
        | _ => s
      else s) s
  else if k.kind = 2 then s.addElems k (bs.length / 4) (partLocs ps) bs
  else s.writeParts k ps bs

/-- A deferred trap that the write of some parts takes: an `e.cadd` to a place that takes none (R238, R332), or no room in the overlay
for a world's page or the root's line (R214, R290, R303). -/
def State.pieceFault (s : State) (k : EngCmd) (va : W64) (ps : List (Option Loc × Nat)) : Option (Nat × W64) :=
  let adds (l : Loc) : Bool := match l.place with
    | .hbm | .tcm _ | .scratch _ => true
    | _ => false
  if k.kind = 2 ∧ !ps.all (fun p => p.1.all adds) then some (29, k.word)
  else if !s.mayTake k.tag (s.newPages k va ps).length then some (26, 3)
  else none

/-- Bytes of a world's copy that its index has moved out of the module's device memory entered in the world's log, or a deferred trap
where the log is full (R237, R304, log 65). -/
def State.logPiece (s : State) (k : EngCmd) (va : W64) (bs : List Byte) : State ⊕ (Nat × W64) :=
  let es := lineEntries k.hart (bs.zipIdx.map (fun p => (va.toNat + p.2, p.1)))
  if (Tab.get s.worlds {} k.tag).log.length + es.length > 128 then .inr (26, 4) else .inl (s.appendLog k.tag es)

/-- The next piece of a copy written; with its last byte written, the follow-on takes its place at the same clk (R240, R246). -/
def State.writePiece (s : State) (k : EngCmd) : Prog :=
  let core := coreOf k.hart
  let n := s.pieceLen k k.put
  let row := (k.addrsAt k.put).2
  let off := k.put % k.cop.rowbytes
  let va := row + BitVec.ofNat 64 off
  let next (t : State) : Prog := .more (t.passed { k with put := k.put + n, buf := k.buf.drop n, acked := false })
  let logged (t : State) : Prog := match t.logPiece k va (k.buf.take n) with
    | .inl u => next u
    | .inr f => t.held k true va 1 (some f)
  if k.acked then next s
  else match s.piece k true row off n with
    | .parts ps t =>
      (match t.pieceFault k va ps with
       | some f => t.held k true va 1 (some f)
       | none =>
         if k.tag ≠ 0 ∧ k.kind ≠ 2 ∧ ps.any (fun p => p.1.any (fun l => l.place == .host)) then logged t
         else
         let lines := t.coverLines k (if k.kind = 2 then ps else [])
           ++ (if k.kind = 2 then devLines k.tag ((partLocs ps).filterMap id) else [])
         if !t.canOrderAll lines (some core) then .stuck (t.snoopAll lines)
         else
           let new := t.newPages k va ps
           let u := if new = [] then t else t.onWorld k.tag (fun w => { w with pages := w.pages ++ new })
           next (u.putPiece k row off (k.buf.take n) ps))
    | .suspended a m c t => if k.tag ≠ 0 ∧ k.kind ≠ 2 ∧ c = none ∧ inDomain a then logged t else t.held k true a m c
    | .waits t => .stuck t

/-- May the command's source and destination overlap, so that it reads all of its source before it writes (R240)? Ranges
of different kinds of place never do. -/
def CopyDesc.mayOverlap (d : CopyDesc) : Bool :=
  d.dst != 0 && inLocal d.src == inLocal d.dst

/-- Is a command at a boundary at which a save stops it: a split granule's; for a gang switch one with every byte written too, which waits
for acknowledgements only (R239, R265, R335)? -/
def EngCmd.atBoundary (k : EngCmd) : Bool :=
  if k.kind ≤ 4 then
    (k.granule != 0 && k.put % k.granule == 0 && (k.cop.mayOverlap || k.buf == [])) || (k.gangStop && k.put ≥ k.cop.count)
  else k.kind == 5 && k.mat.split != 0 && k.scs == [] && k.blocks.length % 2 ^ (k.mat.split - 1) == 0

/-- The K blocks that the array has computed for a command applied to the tile that it has loaded, and the tile written to the store, with
the status bits (R66, R69, R257). -/
def Core.applyBlocks (c : Core) (k : EngCmd) : Core × BitVec 5 :=
  let r := runMatrix k.mat k.blocks k.tile
  ({ c with acc := c.acc.writeBytes (k.mat.tile * 0x4000) ((r.1.map (leBytes 4)).flatten) }, r.2)

/-- A command stopped for a save: its modelled time stands still, its partial tile is written back, and the scale cache that it reads goes
with it, unless an `e.scale` before it in the array's order is still to load that (R245, R264 to R266, R343). The exact sums so far
stay with the command (log 46). -/
def Core.stopCommand (c : Core) (k : EngCmd) (now : Nat) : Core :=
  let reload := !c.array.contains k.ticket
    || (c.array.takeWhile (· != k.ticket)).any (fun t => (c.command t).any (fun e => e.kind == 7))
  let k' := { k with
    time := k.left now, started := none, stopping := false, gangStop := false, stopped := true
    cache := if k.kind = 5 ∧ (k.begun ∨ !reload) then some (k.cache.getD (c.scaleBase, c.scales)) else k.cache }
  let c := { c with engine := c.engine.map (fun e => if e.ticket = k.ticket then k' else e) }
  if k.kind = 5 ∧ k.begun then (c.applyBlocks k).1 else c

/-- Does a suspended command wait for what its hart, which a save has stopped, would have to bring: a `replay` or a drop; or at a gang
switch for an answer that is swept with the network (R242, R335, log 46)? -/
def State.parked (s : State) (k : EngCmd) : Bool :=
  (s.hart k.hart).oplog.any (fun e => e.2.engine == some k.ticket && (e.2.state == .held || (k.gangStop && e.2.asked != [])))

/-- One step of an active copy: a row's index read, or the next piece placed in the L1, read, or written (R240). -/
def State.copyStep (s : State) (k : EngCmd) : Prog :=
  let d := k.cop
  let reads := d.dst != 0 && k.got < d.count && (k.buf == [] || d.mayOverlap)
  let r := (if reads then k.got else k.put) / d.rowbytes
  if s.suspended k then .stuck s
  else if k.put ≥ d.count then .over s
  else if (k.kind = 3 ∨ k.kind = 4) ∧ (k.index.map Prod.fst) ≠ some r then s.readIndex k r
  else if d.dst = 0 then s.fillPiece k
  else if reads then s.readPiece k
  else s.writePiece k

/-- The external-log entries of a copy command of a world whose destination is outside the module's memory: its
descriptor, and continuations with the indices and the local-window source rows (R304, R305). -/
def State.copyLog (s : State) (k : EngCmd) : List LogRec × State :=
  let d := k.cop
  let idx := if k.kind = 3 ∨ k.kind = 4 then
      match s.cmdRange { k with kind := 0 } false d.idx (4 * d.rows) with
      | .parts ps => s.readParts k d.idx ps
      | _ => ([], s)
    else ([], s)
  let rows := (List.range d.rows).foldl (fun (acc : List Byte × State) r =>
      let a := displace d.src (strideOff d.sstride (if k.kind = 3 then leNat ((idx.1.drop (4 * r)).take 4) else r))
      if inLocal a then
        match acc.2.cmdRange k false a d.rowbytes with
        | .parts ps =>
          let b := acc.2.readParts k a ps
          (acc.1 ++ b.1, b.2)
        | _ => (acc.1 ++ List.replicate d.rowbytes 0, acc.2)
      else acc) (idx.1, idx.2)
  let stream := rows.1
  let cword := if k.words.length > 1 then k.words.getD 1 0 else 0
  let head : LogRec := { kind := 5, op := k.kind, hart := k.hart, cword, data := d.bytes ++ List.replicate 64 0 }
  let cont (i : Nat) : LogRec :=
    let bs := (stream.drop (128 * i)).take 128
    { kind := 6, hart := k.hart, bmask := BitVec.ofNat 128 (2 ^ bs.length - 1), data := bs ++ List.replicate (128 - bs.length) 0 }
  (head :: (List.range ((stream.length + 127) / 128)).map cont, rows.2)

/-! ### Running the array (R244, R256 to R260) -/

/-- The scale of an address in the scale cache of a command: as it was kept at its stop, or the core's (R245). -/
def State.cachedScale (s : State) (k : EngCmd) (a : W64) : Option Nat :=
  let c := s.core (coreOf k.hart)
  match k.cache with
  | some r => { c with scaleBase := r.1, scales := r.2 }.cached a
  | none => c.cached a

/-- Bytes that a command reads through translation, at most a page of them, before it goes on with `f`: an operand of the array or of
an `e.scale` (R217, R242, R260). -/
def State.fetchBytes (s : State) (k : EngCmd) (va : W64) (n : Nat) (f : List Byte → EngCmd → EngCmd) : Prog :=
  let core := coreOf k.hart
  let took (t : State) (bs : List Byte) : Prog := .more (t.setCommand core (f bs { k with answer := none }))
  match k.answer with
  | some bs => took s ((bs ++ List.replicate n 0).take n)
  | none =>
    if k.kind = 5 ∧ Core.inRange k.cover va ∧ (s.shutAt k.hart va n).isSome then s.held k false va 1 (some (31, va))
    else match s.piece { k with cop := { rowbytes := n } } false va 0 n with
    | .parts ps t =>
      let lines := t.coverLines k ps
      if !t.canOrderAll lines (some core) then .stuck (t.snoopAll lines)
      else
        let b := t.readParts k va ps
        took b.2 b.1
    | .suspended a m c t => t.held k false a m c
    | .waits t => .stuck t

/-- The bytes of a run of the local window. -/
def State.readLocal (s : State) (k : EngCmd) (a : W64) (n : Nat) : List Byte × State :=
  match s.cmdRange k false a n with
  | .parts ps => s.readParts k a ps
  | _ => (List.replicate n 0, s)

/-- The blocks of 64 rows or columns. -/
def State.readSide (s : State) (k : EngCmd) (base : W64) (st : W32) (t b : Nat) : List (List Byte) × State :=
  (List.range 64).foldl (fun (acc : List (List Byte) × State) i =>
    let r := acc.2.readLocal k (MatDesc.rowAt base st t i b) (blockBytes t)
    (acc.1 ++ [r.1], r.2)) ([], s)

/-- One step of the command that the array has taken: the next scale container of a K block, or the operands of the block once its
scales are read (R256, R260), or the next bytes of an `e.scale`. -/
def State.arrayStep (s : State) (k : EngCmd) : Prog :=
  let core := coreOf k.hart
  if s.suspended k then .stuck s
  else if k.kind = 7 then
    (if k.got ≥ 2 * k.scount then .over s
     else
       let va := k.sbase + BitVec.ofNat 64 k.got
       let left := 2 * k.scount - k.got
       let n := if inLocal va then left else if inDomain va then min left 2 else min left (4096 - va.toNat % 4096)
       s.fetchBytes k va n (fun bs k => { k with got := k.got + n, buf := k.buf ++ bs }))
  else
    let d := k.mat
    let n := k.blocks.length
    if n ≥ d.blocks then .over s
    else match (d.scaleAddrs k.sbase k.sshift n)[k.scs.length]? with
      | some a =>
        (match s.cachedScale k a with
         | some c => .more (s.setCommand core { k with scs := k.scs ++ [c] })
         | none => s.fetchBytes k a 2 (fun bs k => { k with scs := k.scs ++ [leNat bs] }))
      | none =>
        let a := s.readSide k d.abase d.astride d.aType n
        let b := a.2.readSide k d.bbase d.bstride d.bType n
        .more (b.2.setCommand core
          { k with scs := [], blocks := k.blocks ++ [{ a := a.1, b := b.1, sa := k.scs.take 64, sb := k.scs.drop 64 }] })

/-- One step of an active command; one that is to stop for a save stops at its boundary (R265). -/
def State.engineStep (s : State) (core ticket : Nat) : Prog :=
  match (s.core core).command ticket with
  | none => .stuck s
  | some k =>
    if k.stopped || k.dropped then .stuck s
    else if k.stopping ∧ (k.atBoundary ∨ s.parked k) then .stuck (s.onCore core (fun c => c.stopCommand k s.cycle))
    else if k.kind ≤ 4 then s.copyStep k else s.arrayStep k

/-! ### Completion (R185, R235 to R237, R248, R255) -/

/-- A byte addition to a barrier object, in one step at its bank (R184, R185). Where `Complete` would not end, which only an
inconsistent object can bring about, the phase is a free value (log 3). -/
def State.credit (s : State) (k : EngCmd) (va : W64) : State :=
  match s.cmdRange k true va 32 with
  | .parts [(some l, _)] =>
    let t := s.publishCovered k.hart k.tag l 32
    let b := Bar.ofNat (t.latest k.tag l 32)
    let n := b.brecv + k.cop.count
    let b' := if n ≥ 2 ^ 32 then { b with brecv := 2 ^ 32 - 1 } else ({ b with brecv := n } : Bar).complete
    if n < 2 ^ 32 ∧ b'.full then
      let d := t.draw
      d.2.writeNow k.writer k.tag l ({ b' with phase := d.1.toNat % 65536 } : Bar).bytes
    else t.writeNow k.writer k.tag l b'.bytes
  | _ => s

/-- The credits of a completed copy: its object, or for a multicast the object of every named block, in increasing order
(R255). -/
def State.credits (s : State) (k : EngCmd) : State :=
  if k.cop.bar = 0 then s
  else if k.kind = 1 then
    (List.range 16).foldl (fun s n =>
      if bitOf k.cop.cmask n then s.credit k (k.cop.bar + BitVec.ofNat 64 (0xF000000 + n * 0x1000000)) else s) s
  else s.credit k k.cop.bar

/-- A command leaves the engine queue: its entry is free, its status bits reach its hart, its done flag follows (the entry of one that
is dropped clears with its `oplog.drop`), and the promises left are recomputed (R248, R252, R264). -/
def State.endCommand (s : State) (k : EngCmd) (st : BitVec 5) : State :=
  let core := coreOf k.hart
  ((s.onCore core (fun c =>
      ({ c with engine := c.engine.filter (fun e => e.ticket != k.ticket), array := c.array.filter (· != k.ticket) } : Core).repromise
        s.cycle)).onHart k.hart (fun x =>
      { x with estat := x.estat ||| st, engFlags := x.engFlags.filter (fun e => e.ticket != k.ticket),
               oplog := if k.dropped then x.oplog else x.oplog.filter (fun e => e.2.engine != some k.ticket) }))

/-- One line of a command's unpublished bytes reaches its home, when the home can take it (R225, R231, R237). -/
def State.publishOne (s : State) (k : EngCmd) (u : Unpub) : State :=
  let core := coreOf k.hart
  let same (v : Unpub) : Bool :=
    v.hart == u.hart && v.tag == u.tag && v.loc.place == u.loc.place && v.loc.off / 128 == u.loc.off / 128
  let lines := s.linesWhere core same
  if s.canOrderAll lines (some core) then s.publishWhere core same else s.snoopAll lines

/-- Every unpublished byte of a command that can be ordered now, line by line. -/
def publishAll (k : EngCmd) : (fuel : Nat) → State → State
  | 0, s => s
  | n + 1, s =>
    match (s.core (coreOf k.hart)).unpub.find? (fun u => u.hart == k.writer) with
    | some u => publishAll k n (s.publishOne k u)
    | none => s

/-- Are a command's writes published: none is held back and every invalidation is acknowledged (R235)? -/
def State.publishedAll (s : State) (k : EngCmd) : Bool :=
  !(s.core (coreOf k.hart)).unpub.any (fun u => u.hart == k.writer) && s.trackers.all (fun t => !t.2.harts.contains k.writer)

/-- Steps of a command until it is over or stuck. -/
def runCommand (core ticket : Nat) : (fuel : Nat) → State → Prog
  | 0, s => .stuck s
  | n + 1, s =>
    match s.engineStep core ticket with
    | .more t => runCommand core ticket n t
    | r => r

/-- Steps that a command takes at most. -/
def EngCmd.fuel (k : EngCmd) : Nat :=
  if k.kind ≤ 4 then k.cop.rows * (8 * (k.cop.rowbytes / 128 + 4) + 2) + 2 else if k.kind = 7 then 2 * k.scount + 2 else k.mat.blocks * 130 + 2

/-- The 4,096 elements of a tile of a core's accumulator store. -/
def Core.tileOf (c : Core) (t : Nat) : List Nat := (List.range 4096).map (fun n => leNat (c.acc.readBytes (t * 0x4000 + 4 * n) 4))

/-- The array takes a command: it loads the tile, unless the command clears it or goes on with its own (R257, R266). -/
def EngCmd.take (k : EngCmd) (c : Core) (now : Nat) : EngCmd :=
  { k with started := some now, begun := true, tile := if k.begun then k.tile else if k.kind = 5 ∧ !k.mat.zero then c.tileOf k.mat.tile else [] }

/-- The tile of a matrix command computed and written back (R66, R69, R257). -/
def State.storeTile (s : State) (k : EngCmd) : State × BitVec 5 :=
  let r := (s.core (coreOf k.hart)).applyBlocks k
  (s.setCore (coreOf k.hart) r.1, r.2)

/-- The scale cache loaded (R245). -/
def State.storeScales (s : State) (k : EngCmd) : State :=
  s.onCore (coreOf k.hart) (fun c =>
    { c with scaleBase := k.sbase, scales := (List.range k.scount).map (fun i => leNat ((k.buf.drop (2 * i)).take 2)) })

/-- A command run to its end: its rows or blocks done, then its writes published, then its barrier credited and its entry
freed; each part as far as it can go now (R235, R237, R240). -/
def State.finish (s : State) (core : Nat) (k : EngCmd) : State :=
  match runCommand core k.ticket k.fuel s with
  | .more t => t
  | .stuck t => t
  | .over t =>
    match (t.core core).command k.ticket with
    | none => t
    | some k =>
      if k.kind ≤ 4 then
        let v := publishAll k ((t.core core).unpub.length) t
        if v.publishedAll k then (v.credits k).endCommand k 0 else v
      else if k.kind = 7 then (t.storeScales k).endCommand k 0
      else
        let r := t.storeTile k
        r.1.endCommand k r.2

/-! ### Starting copies (R253) -/

/-- Bytes that a copy reads or writes: at a place, or somewhere that translation does not tell yet. -/
inductive Span where
  | at (l : Loc) (n : Nat)
  | somewhere
  deriving DecidableEq, Repr

/-- Do two runs of bytes meet, or may they? -/
def Span.meets : Span → Span → Bool
  | .at a n, .at b m => a.place == b.place && a.off < b.off + m && b.off < a.off + n
  | .at a _, .somewhere => a.place == .hbm || a.place == .host
  | .somewhere, .at b _ => b.place == .hbm || b.place == .host
  | .somewhere, .somewhere => true

/-- The places of a run of translated bytes, page by page, under a context's root table as it stands, for a walker of a core: two
addresses may name one byte. -/
def State.pageSpans (s : State) (core pasid : Nat) (root : Option Nat) (va : W64) (n : Nat) : List Span :=
  (List.range ((va.toNat % 4096 + n + 4095) / 4096)).map (fun i =>
    let a := if i = 0 then va else BitVec.ofNat 64 ((va.toNat / 4096 + i) * 4096)
    let m := min (4096 - a.toNat % 4096) (va.toNat + n - a.toNat)
    match root.map (walkTables s (clusterOf core) (vpnOf a) 5) with
    | none => .at ⟨.hbm, a.toNat⟩ m
    | some (.at level _ p) =>
      if bitsOf p 9 8 = 0 then .at ⟨.hbm, (bitsOf p 53 10 + vpnOf a % 512 ^ level) * 4096 + a.toNat % 4096⟩ m
      else (match (s.tlbs core).find? (fun e => e.host && e.covers pasid (vpnOf a)) with
        | some e => .at ⟨.host, e.pa a⟩ m
        | none => .somewhere)
    | some (.bad _) => .somewhere)

/-- The places of a row of a command: a row in another module's window lies at its offset there, one in the module's own where the gang's
context has it (R157). -/
def State.rowSpans (s : State) (k : EngCmd) (row : W64) (n : Nat) : List Span :=
  let core := coreOf k.hart
  if inLocal row then
    match s.localRange k.hart row n with
    | .at l => [.at l n]
    | _ => []
  else if s.ownWindow row then
    match s.contextOfGang (s.ctx k.hart).gang with
    | some c => s.pageSpans core c.1 (some c.2.root.toNat) (c.2.domain + BitVec.ofNat 64 (windowOf row).2) n
    | none => []
  else if inDomain row then [.at ⟨.window (windowOf row).1, (windowOf row).2⟩ n]
  else s.pageSpans core (ctxOf s k.hart) (rootOf s k.hart .load) row n

/-- The destination of row 0 of an `e.mcast` as the view of block n has it (R240, R255). -/
def blockDst (d : CopyDesc) (n : Nat) : W64 := d.dst + BitVec.ofNat 64 (0xF000000 + n * 0x1000000)

/-- The bytes that a copy writes, or with `reads` those it reads too, its index array among them; rows that an index moves lie where the
index, as it stands, puts them (R240, R253). -/
def State.spans (s : State) (k : EngCmd) (reads : Bool) : List Span :=
  let d := k.cop
  let rows (d : CopyDesc) (store : Bool) : List Span :=
    (List.range d.rows).flatMap (fun r => s.rowSpans k (s.rowOf k.hart k.kind d store r) d.rowbytes)
  let w := if d.dst = 0 then []
    else if k.kind = 1 then ((List.range 16).filter (bitOf d.cmask)).flatMap (fun n => rows { d with dst := blockDst d n } true)
    else rows d true
  if !reads then w
  else w ++ rows d false ++ (if k.kind = 3 ∨ k.kind = 4 then s.rowSpans k d.idx (4 * d.rows) else [])

/-- Must a copy wait for an earlier one: same hart, and the earlier writes a byte that it reads or writes (R253)? -/
def State.blockedBy (s : State) (k e : EngCmd) : Bool :=
  e.hart == k.hart && e.kind ≤ 4 && (s.spans e false).any (fun a => (s.spans k true).any a.meets)

/-- Does a copy wait to start for an earlier one? -/
def State.copyWaits (s : State) (core : Nat) (k : EngCmd) : Bool :=
  ((s.core core).engine.takeWhile (fun e => e.ticket != k.ticket)).any (fun e => s.blockedBy k e)

/-- Have the stores and atomics of a command's hart that are not in the operand log been performed, those that can be now among them? The
command reads none of their bytes before (R212, R217, R333). -/
def State.sourceReady (s : State) (k : EngCmd) : Bool := !((s.drainOwn k.hart).hart k.hart).ops.any PendOp.waits

/-- The copy that may start now, while fewer than four are active: one that a save had stopped, else the first in ticket order that no
earlier copy holds back (R253, R266). -/
def State.nextCopy (s : State) (core : Nat) : Option EngCmd :=
  let c := s.core core
  let waits (k : EngCmd) : Bool := k.kind ≤ 4 && k.started.isNone && !k.stopped && s.sourceReady k
  if c.activeCopies.length ≥ 4 then none
  else match c.engine.find? (fun k => waits k && k.begun) with
    | some k => some k
    | none => c.engine.find? (fun k => waits k && !s.copyWaits core k)

end Sys2Proof.Machine
end

