-- ==== Sys2Proof/Machine/EngineOps.lean ====
section
/-! DEFINITION. The engine, matrix and accumulator instructions, SYS minors 0 to 9, `oplog.drop`, and the steps of the two
engines (R233 to R249, R252 to R264, R276). -/

namespace Sys2Proof.Machine

/-! ### Acceptance (R235, R236, R252, R263) -/

/-- Harts of a core that wait for an engine queue entry, in order (R252). -/
def State.engineWaiters (s : State) (core : Nat) : List Nat := (s.core core).engineWait.filter (fun h => (s.hart h).inLine 12)

/-- Can the hart take `n` entries now: they are free, and no other hart began to wait earlier (R252)? -/
def State.entriesFor (s : State) (h n : Nat) : Bool :=
  let core := coreOf h
  (s.core core).engine.length + n ≤ 32 && (s.engineWaiters core).head?.getD h == h

/-- The hart waits for entries with the commands that it has read, behind those that wait already (R235, R252). -/
def waitForEntry (ks : List EngCmd) (s : State) : Out :=
  .next ((s.onCore s.myCore (fun c =>
      { c with engineWait := if s.me.inLine 12 && c.engineWait.contains s.cur then c.engineWait else c.engineWait.erase s.cur ++ [s.cur] })).onMe
    (fun x => { x with queued := ks }.block 12))

/-- A promise word (R236). -/
def promiseWord (ticket value : Nat) : W64 := BitVec.ofNat 64 (ticket % 65536 * 2 ^ 48 + value % 2 ^ 48)

/-- What every command of a hart carries at issue. -/
def commandOf (i : Instr) (o : Args) (kind : Nat) (s : State) : EngCmd :=
  let x := s.me
  { ticket := 0, hart := s.cur, tag := x.tag, mode := x.mode, mstatus := x.csr.mstatus,
    pc := x.pc, words := encode i, order := x.nextOrder, kind, scope := max 2 o.rsc.toNat, ty := tyOf o 5, sat := o.sat,
    sbase := x.sbase, sshift := x.sshift.toNat, cover := (s.core s.myCore).scaleRange }

/-- Commands entered in the queue with the promises given, the array queue taking those that have their place; X(d)
receives the last one's promise word and control falls through (R235, R252). -/
def enterCommands (o : Args) (ks : List EngCmd) (placed : List Nat) (cadd : Bool) (s : State) : Out :=
  let flag := s.me.attachFlag (o.d != 0)
  let last := (ks.getLast?.map (fun k => promiseWord k.ticket k.promise)).getD 0
  .next ((s.onCore s.myCore (fun c =>
      { c with engine := c.engine ++ ks, array := c.array ++ placed, tickets := (c.tickets + ks.length) % 65536,
               engineWait := c.engineWait.erase s.cur })).onMe (fun x =>
    ({ x with engFlags := x.engFlags ++ ks.map (fun (k : EngCmd) => (⟨k.ticket, flag, cadd⟩ : EngRef))
              nextOrder := x.nextOrder + 1, queued := [] }.setX o.d.toNat last).advance o.words))

/-- The modelled time of a copy and the copy with its promise: the first places are those of row 0, where an index puts it, and of an
`e.mcast` that of its first block (R263). -/
def State.timedCopy (s : State) (k : EngCmd) : EngCmd × Nat × State :=
  let c := s.core (coreOf k.hart)
  let first := (((List.range 16).find? (bitOf k.cop.cmask)).map (blockDst k.cop)).getD k.cop.dst
  let ls := s.figure k.hart (s.rowOf k.hart k.kind k.cop false 0)
  let ld := if k.cop.dst = 0 then (0, ls.2)
    else ls.2.figure k.hart (if k.kind = 1 then first else s.rowOf k.hart k.kind k.cop true 0)
  let act := c.activeCopies
  let time := ls.1 + ld.1 + s.transfers k * min 4 (act.length + 1)
  let q := if act.length < 4 then 0 else leastOf (act.map (fun a => a.left s.cycle))
  ({ k with time, promise := s.cycle + q + time + 32 }, q, ld.2)

/-- A matrix command with its times, behind `ahead` clk (R258, R263). -/
def State.timedMatrix (s : State) (k : EngCmd) (ahead : Nat) : EngCmd :=
  let blockTimes := s.blockTimesOf (coreOf k.hart) k.mat k.sbase k.sshift
  let time := matrixTime k.mat blockTimes
  { k with blockTimes, time, promise := s.cycle + ahead + time + 32 }

/-- An `e.scale` with its time, behind `ahead` clk (R260, R263). -/
def State.timedScale (s : State) (k : EngCmd) (ahead : Nat) : EngCmd × State :=
  let f := s.figure k.hart k.sbase
  let time := f.1 + linesOf k.sbase (2 * k.scount)
  ({ k with time, promise := s.cycle + ahead + time + 32 }, f.2)

/-- The commands of an instruction as they are accepted, with tickets, times and promises: a copy, a command of the array, or the two
of an `e.cmma` (R236, R263). -/
def State.takeCommands (s : State) (core : Nat) (ks : List EngCmd) : List EngCmd × State :=
  let c := s.core core
  let ahead := blocksAhead c.arrayCommands s.cycle
  match (ks.zipIdx).map (fun p => { p.1 with ticket := (c.tickets + p.2) % 65536 }) with
  | [k] =>
    if k.kind ≤ 4 then
      let r := s.timedCopy k
      ([r.1], r.2.2)
    else if k.kind = 7 then
      let r := s.timedScale k ahead
      ([r.1], r.2)
    else ([s.timedMatrix k ahead], s)
  | [k, f] =>
    let r := s.timedCopy k
    let all := blocksAhead (c.engine.filter (fun e => e.kind ≥ 5 && !e.stopped)) s.cycle
    ([r.1, r.2.2.timedMatrix f (max (r.2.1 + r.1.time) all)], r.2.2)
  | ks => (ks, s)

/-- The world faults of a copy at acceptance: sealed worlds, the lid view (R237, R301). -/
def State.copyWorldFault (s : State) (d : CopyDesc) : Option Nat :=
  let x := s.me
  if x.tag = 0 ∨ d.dst = 0 then none
  else if inLocal d.dst then (if lidView (d.dst.toNat % 2 ^ 48) then some 7 else none)
  else if s.sealedWorld x.tag then some 5
  else none

/-- Commands that the hart has read and checked take queue entries, or wait for them; its world is looked at again when they are accepted
(R235, R252, R301). -/
def acceptCommands (o : Args) (ks : List EngCmd) (s : State) : Out :=
  if !s.entriesFor s.cur ks.length then waitForEntry ks s
  else match ks.findSome? (fun k => if k.kind ≤ 4 then s.copyWorldFault k.cop else none) with
  | some c => trap 26 (BitVec.ofNat 64 c) s
  | none =>
    let r := s.takeCommands s.myCore ks
    enterCommands o r.1 ((r.1.filter (fun k => k.kind ≥ 5 && !k.paired)).map EngCmd.ticket) (ks.any (fun k => k.kind == 2)) r.2

/-- An engine instruction under its guard, behind an ordered logged instruction (R167). -/
def engineOp (i : Instr) (s : State) (k : Out) : Out := guarded i s (if s.me.ordered then inCoalescer s else k)

/-- Has the hart's instruction read its commands already, and waited since for entries (R235)? -/
def Hart.holdsQueued (x : Hart) : Bool := x.inLine 12 && x.queued.any (fun k => k.pc == x.pc)

/-- An engine command instruction: it reads and checks its commands when it issues, and after a wait goes on with those (R235). -/
def commandOp (i : Instr) (o : Args) (s : State) (k : Out) : Out :=
  engineOp i s (if s.me.holdsQueued then acceptCommands o s.me.queued s else k)

/-- The engine command fault (R235). -/
def engineFault (i : Instr) (s : State) : Out := trap 29 (i.word.setWidth 64) s

/-- Does a run of bytes reach into host memory or the domain window, as the tables stand? -/
def State.outsideAt (s : State) (h : Nat) (va : W64) (n : Nat) : Bool :=
  (List.range ((va.toNat % 4096 + n + 4095) / 4096)).any (fun i =>
    let a := if i = 0 then va else BitVec.ofNat 64 ((va.toNat / 4096 + i) * 4096)
    inDomain a || s.hostLeaf h a)

/-- Is a copy left to its world's log: a row of its destination, with the indices as they stand, reaches into host memory or the domain
window (R237, R304, log 65)? -/
def State.copyDeferred (s : State) (minor : Nat) (d : CopyDesc) : Bool :=
  s.me.tag != 0 && d.dst != 0 && (List.range d.rows).any (fun r =>
    let row := s.rowOf s.cur minor d true r
    !inLocal row && s.outsideAt s.cur row d.rowbytes)

/-- A copy entered in the world's log: its ticket is taken and it is complete at once (R237). -/
def logCopy (o : Args) (k : EngCmd) (s : State) : Out :=
  let r := s.copyLog k
  if (Tab.get s.worlds {} k.tag).log.length + r.1.length > 128 then trap 26 4 s
  else
    .next (((r.2.appendLog k.tag r.1).onCore s.myCore (fun c =>
        { c with tickets := (c.tickets + 1) % 65536, engineWait := c.engineWait.erase s.cur })).onMe (fun x =>
      (x.setX o.d.toNat (promiseWord k.ticket (s.cycle + 32))).advance o.words))

/-- A copy command instruction of minors 0 to 4 (R235, R238). -/
def copyCommand (i : Instr) (o : Args) (minor : Nat) (s : State) : Out :=
  commandOp i o s (match (s.descriptor s.cur (s.me.X o.a.toNat)).bind copyDesc with
    | none => engineFault i s
    | some d =>
      if !s.copyOk s.cur minor d then engineFault i s
      else match s.copyGate s.cur minor d with
        | some va => trap 31 va s
        | none =>
          match s.copyWorldFault d with
          | some c => trap 26 (BitVec.ofNat 64 c) s
          | none =>
            let k := { commandOf i o minor s with cop := d, gated := s.gatedRows s.cur minor d }
            if s.copyDeferred minor d then logCopy o { k with ticket := (s.core s.myCore).tickets % 65536 } s
            else acceptCommands o [k] s)

/-- `e.copy`. -/
def execECopy (o : Args) (s : State) : Out := copyCommand (.eCopy o) o 0 s

/-- `e.mcast`. -/
def execEMcast (o : Args) (s : State) : Out := copyCommand (.eMcast o) o 1 s

/-- `e.cadd`. -/
def execECadd (o : Args) (s : State) : Out := copyCommand (.eCadd o) o 2 s

/-- `e.gath`. -/
def execEGath (o : Args) (s : State) : Out := copyCommand (.eGath o) o 3 s

/-- `e.scat`. -/
def execEScat (o : Args) (s : State) : Out := copyCommand (.eScat o) o 4 s

/-- `e.mma` (R243). -/
def execEMma (o : Args) (s : State) : Out :=
  commandOp (.eMma o) o s (match (s.descriptor s.cur (s.me.X o.a.toNat)).bind matDesc with
    | none => engineFault (.eMma o) s
    | some d =>
      if !s.matOk s.cur d then engineFault (.eMma o) s
      else match s.scaleGate s.cur d s.me.sbase s.me.sshift.toNat with
        | some va => trap 31 va s
        | none => acceptCommands o [{ commandOf (.eMma o) o 5 s with mat := d }] s)

/-- `e.cmma`: both descriptors are checked, and the copy and its follow-on take two entries in one step (R246, R252). -/
def execECmma (o : Args) (s : State) : Out :=
  commandOp (.eCmma o) o s (match (s.descriptor s.cur (s.me.X o.a.toNat)).bind copyDesc,
      (s.descriptor s.cur (s.me.X o.b.toNat)).bind matDesc with
    | some d, some m =>
      if !s.copyOk s.cur 6 d || !s.matOk s.cur m then engineFault (.eCmma o) s
      else match (s.copyGate s.cur 6 d).or (s.scaleGate s.cur m s.me.sbase s.me.sshift.toNat) with
        | some va => trap 31 va s
        | none =>
          match s.copyWorldFault d with
          | some c => trap 26 (BitVec.ofNat 64 c) s
          | none =>
            acceptCommands o [{ commandOf (.eCmma o) o 0 s with cop := d, paired := true },
              { commandOf (.eCmma o) o 5 s with mat := m, paired := true }] s
    | _, _ => engineFault (.eCmma o) s)

/-- `e.scale` (R245, R260). -/
def execEScale (o : Args) (s : State) : Out :=
  let a := s.me.X o.a.toNat
  let n := (s.me.X o.b.toNat).toNat
  commandOp (.eScale o) o s
    (if n = 0 ∨ n > 4096 ∨ a.toNat % 2 = 1 ∨ (inLocal a ∧ !s.inView s.cur (a, 2 * n) (fun _ => true)) then
      engineFault (.eScale o) s
     else match s.shutAt s.cur a (2 * n) with
       | some va => trap 31 va s
       | none => acceptCommands o [{ commandOf (.eScale o) o 7 s with sbase := a, scount := n }] s)

/-! ### Promises and status (R247, R248) -/

/-- Is a ticket of the hart's core outstanding (R236)? -/
def State.outstanding (s : State) (core ticket : Nat) : Bool := ((s.core core).command ticket).isSome

/-- Has the cycle reached a promised value (R247)? -/
def reached (cycle p : Nat) : Bool := (cycle % 2 ^ 48 + 2 ^ 48 - p) % 2 ^ 48 < 2 ^ 47

/-- `e.sleep`. -/
def execESleep (o : Args) (s : State) : Out :=
  let w := s.me.X o.a.toNat
  let ticket := bitsOf w.toNat 63 48
  let p := bitsOf w.toNat 47 0
  engineOp (.eSleep o) s
    (if !s.outstanding s.myCore ticket then .next (s.onMe (fun x => x.advance o.words))
     else if reached s.cycle p then trap 25 (BitVec.ofNat 64 p) s
     else .next (s.onMe (fun x => x.block 6 w)))

/-- `e.poll`: the current promise of an outstanding ticket, always later than now, or 0 (R247, R264). -/
def execEPoll (o : Args) (s : State) : Out :=
  let ticket := bitsOf (s.me.X o.a.toNat).toNat 63 48
  engineOp (.ePoll o) s (match (s.core s.myCore).command ticket with
    | none => .next (s.onMe (fun x => (x.setX o.d.toNat 0).advance o.words))
    | some k =>
      let p := if k.promise > s.cycle then k.promise else s.cycle + (s.core s.myCore).remaining k s.cycle + 32
      .next ((s.setCommand s.myCore { k with promise := p }).onMe (fun x =>
        (x.setX o.d.toNat (promiseWord ticket p)).advance o.words)))

/-- `e.stat`. -/
def execEStat (o : Args) (s : State) : Out :=
  engineOp (.eStat o) s (.next (s.onMe (fun x => (x.setX o.d.toNat (x.estat.setWidth 64)).advance o.words)))

/-- `e.statclr`. -/
def execEStatclr (o : Args) (s : State) : Out :=
  let w := s.me.X o.a.toNat
  engineOp (.eStatclr o) s
    (if w.toNat ≥ 32 then illegal (.eStatclr o) s
     else .next (s.onMe (fun x => { x with estat := x.estat &&& ~~~ (w.setWidth 5) }.advance o.words)))

/-! ### Accumulator instructions (R249) -/

/-- An accumulator instruction: it waits for the hart's earlier matrix commands that name the tile, one that writes the tile for a
command of any hart that computes on it, since it is applied between commands, and every one while a stopped command holds the tile
(R70, R249, R257, R265). -/
def accOp (i : Instr) (o : Args) (writes : Bool) (s : State) (k : Nat → Out) : Out :=
  let t := o.a.toNat
  engineOp i s
    (if (s.core s.myCore).engine.any (fun e => e.kind == 5 && e.mat.tile == t && (e.hart == s.cur || (e.begun && (writes || e.stopped)))) then
      .next (s.onMe (fun x => x.block 17 1))
     else k t)

/-- The byte of the accumulator store at which element (row, col) of a tile lies (R43). -/
def accByteAt (t row col : Nat) : Nat := t * 0x4000 + (row * 64 + col) * 4

/-- Element (row, col) of a tile. -/
def Core.accElem (c : Core) (t row col : Nat) : W32 := BitVec.ofNat 32 (leNat (c.acc.readBytes (accByteAt t row col) 4))

/-- Element (row, col) of a tile written. -/
def Core.setAccElem (c : Core) (t row col : Nat) (w : W32) : Core :=
  { c with acc := c.acc.writeBytes (accByteAt t row col) (leBytes 4 w.toNat) }

/-- `acc.zero`. -/
def execAccZero (o : Args) (s : State) : Out :=
  accOp (.accZero o) o true s (fun t =>
    .next ((s.onCore s.myCore (fun c => { c with acc := c.acc.clear (t * 0x4000) 0x4000 })).onMe (fun x => x.advance o.words)))

/-- `acc.rd`. -/
def execAccRd (o : Args) (s : State) : Out :=
  let row := (s.me.X o.b.toNat).toNat
  accOp (.accRd o) o false s (fun t =>
    if row ≥ 64 then illegal (.accRd o) s
    else
      let c := s.core s.myCore
      .next (s.onMe (fun x =>
        let ls := active x o
        (writeLanes (writeLanes x o.d.toNat ls (fun l => c.accElem t row l)) (o.d.toNat + 1) ls
          (fun l => c.accElem t row (32 + l))).advance o.words)))

/-- `acc.wr`. -/
def execAccWr (o : Args) (s : State) : Out :=
  let row := (s.me.X o.b.toNat).toNat
  accOp (.accWr o) o true s (fun t =>
    if row ≥ 64 then illegal (.accWr o) s
    else
      let x := s.me
      .next ((s.onCore s.myCore (fun c => (active x o).foldl (fun c l =>
        (c.setAccElem t row l (x.V o.d.toNat l)).setAccElem t row (32 + l) (x.V (o.d.toNat + 1) l)) c)).onMe
          (fun x => x.advance o.words)))

/-! ### Dropping (R242, R276) -/

/-- A command ended by `oplog.drop`: what it wrote stays, and once it is published the command is complete: its barrier gets nothing,
the follow-on of a copy is never issued, and DROP is set (R242). Until then it is marked as dropped. -/
def State.dropCommand (s : State) (core ticket : Nat) : State :=
  match (s.core core).command ticket with
  | none => s
  | some k =>
    let k := { k with dropped := true }
    let t := publishAll k ((s.core core).unpub.length) (s.setCommand core k)
    if !t.publishedAll k then t
    else
      let u := t.endCommand k stDrop
      if k.kind = 0 ∧ k.paired then
        (match (u.core core).command ((ticket + 1) % 65536) with
         | some f => if (u.core core).array.contains f.ticket then u else u.endCommand f 0
         | none => u)
      else u

/-- `oplog.drop`: the entry clears with no lane performed; an engine command's entry ends its command, and the instruction waits until
the command is complete (R242, R276). -/
def execOplogDrop (o : Args) (s : State) : Out :=
  let done (n : Nat) (t : State) : Out := .next (t.onMe (fun x => (x.clearEntry n).advance o.words))
  onEntry (.oplogDrop o) o s (fun n e =>
    match e.engine with
    | none =>
      let t := (if e.state = .held then s else (s.forgetAsker (askerOf s.cur n)).giveUp s.cur e.job e.asked).onMe (fun x => x.clearEntry n)
      done n (if e.job.acq then t.acquire s.cur e.job.scope else t)
    | some k =>
      let t := (s.forgetAsker (askerOf s.cur n)).dropCommand s.myCore k
      if ((t.core t.myCore).command k).isSome then .next (t.onMe (fun x => x.block 17 1)) else done n t)

/-! ### The steps of the engines -/

/-- COPY_START: the copy engine of core `focus.unit` starts the first copy that nothing holds back, its hart's earlier stores performed
(R253, R333); with `focus.code` 1, the active copy of ticket `focus.item` is served for a piece of a row (R253, R254). -/
def execCopyStart (s : State) : Out :=
  let core := s.focus.unit
  if s.focus.code = 1 then
    (match (s.core core).command s.focus.item with
     | some k => .next (if k.kind ≤ 4 ∧ k.started.isSome then (s.engineStep core k.ticket).state else s)
     | none => .next s)
  else match s.nextCopy core with
    | some k => .next ((s.drainOwn k.hart).setCommand core { k with started := some s.cycle, begun := true })
    | none => .next s

/-- MATRIX_TAKE: the array of core `focus.unit` takes the next command in its order, its hart's earlier stores performed (R256, R333); with
`focus.code` 1, it goes on with the
one it has taken: scales, or the operands of the next K block. -/
def execMatrixTake (s : State) : Out :=
  let core := s.focus.unit
  match (s.core core).arrayHead with
  | some k =>
    if k.started.isNone then
      let t := s.drainOwn k.hart
      .next (if s.sourceReady k then t.setCommand core (k.take (t.core core) s.cycle) else t)
    else .next (if s.focus.code = 1 then (s.engineStep core k.ticket).state else s)
  | none => .next s

/-- ENGINE_COMPLETE: command `focus.item` of core `focus.unit`, which has started, runs to its end: its writes are
published, its barrier credited, its entry freed and its done flag follows (R235). One that `oplog.drop` has ended is published
(R242). -/
def execEngineComplete (s : State) : Out :=
  let core := s.focus.unit
  match (s.core core).command s.focus.item with
  | some k =>
    .next (if k.dropped then s.dropCommand core k.ticket
           else if k.started.isSome ∧ (k.kind ≤ 4 ∨ (s.core core).arrayHead = some k) then s.finish core k else s)
  | none => .next s

/-- CMMA_FOLLOWON: the last byte of copy `focus.item` of core `focus.unit` is written, and at that clk its follow-on takes its place in
the array order (R246). -/
def execCmmaFollowon (s : State) : Out :=
  match (s.core s.focus.unit).command s.focus.item with
  | some k =>
    .next (if k.kind = 0 ∧ k.paired ∧ k.started.isSome ∧ k.put < k.cop.count ∧ k.put + s.pieceLen k k.put ≥ k.cop.count then
             (s.engineStep s.focus.unit k.ticket).state
           else s)
  | none => .next s

/-- ENGINE_ENTRY_GRANT: freed entries of core `focus.unit` go to the hart that has waited longest (R252). -/
def execEngineEntryGrant (s : State) : Out :=
  match s.engineWaiters s.focus.unit with
  | h :: _ =>
    if (s.hart h).wait.code = 12 ∧ (s.core s.focus.unit).engine.length < 32 then .next (s.onHart h Hart.woken) else .next s
  | [] => .next s

/-- PROMISE_RECOMPUTE: at a heartbeat tick the current promises of core `focus.unit` are computed again; at a completion and a restore the
steps that make them do it (R264). -/
def execPromiseRecompute (s : State) : Out :=
  .next (if s.cycle % 256 = 0 then s.onCore s.focus.unit (fun c => c.repromise s.cycle) else s)

/-- PROMISE_MISSED: the promised cycle of the hart's `e.sleep` passes with the ticket outstanding (R247). -/
def execPromiseMissed (s : State) : Out :=
  let x := s.me
  let p := bitsOf x.wait.a.toNat 47 0
  if x.wait.code = 6 ∧ s.outstanding s.myCore (bitsOf x.wait.a.toNat 63 48) ∧ reached s.cycle p then
    trap 25 (BitVec.ofNat 64 p) s
  else .next s

end Sys2Proof.Machine
end

