-- ==== Sys2Proof/Machine/Messages.lean ====
section
/-! DEFINITION. Messages, tasks and streams: CTRL minors 9 to 11, the arrival of messages, the start of handlers and the
delivery of user interrupts, verdicts and shootdowns, and the delay accounts (R49, R191 to R203, R319, R324, R381). -/

namespace Sys2Proof.Machine

/-! ### Delay accounts (R381) -/

/-- The `who` word of a sender: core, module, remote, tinker, valid (R381). -/
def whoOf (m : Msg) : Nat :=
  m.source % 4096 + (if m.remote then m.srcModule * 4096 + 2 ^ 22 else 0) + (if m.source ≥ Config.cores then 2 ^ 23 else 0) + 2 ^ 31

/-- A doubleword of device memory. -/
def State.dword (s : State) (pa : Nat) : Nat := leNat ((List.range 8).map (fun i => s.byteAt 0 (pa + i)))

/-- A doubleword of device memory written, published. -/
def State.putDword (s : State) (pa v : Nat) : State :=
  s.writePublished 0 none ((List.range 8).map (fun i => (pa + i, BitVec.ofNat 8 (v / 256 ^ i))))

/-- The account slot of a sender on a core: its own, the first free one of 63, or slot 63 (R381). -/
def accountSlot (s : State) (base who : Nat) : Nat :=
  let at_ (i : Nat) : Nat := s.dword (base + 64 * i) % 2 ^ 32
  match (List.range 63).find? (fun i => at_ i == who || at_ i == 0) with
  | some i => i
  | none => 63

/-- Amounts added to the accounts of a sender: messages, transit, wait, run, refusals; the largest transit is kept (R381). -/
def State.account (s : State) (core pasid who msgs transit wait run refused : Nat) : State :=
  let dbase := (Tab.get (Tab.get s.ctxs {} pasid).profile 0 2).toNat
  if dbase = 0 ∨ core ≥ Config.cores then s
  else
    let base := dbase + core * 4096
    let n := accountSlot s base who
    let a := base + 64 * n
    let bump (off k : Nat) (s : State) : State := if k = 0 then s else s.putDword (a + off) ((s.dword (a + off) + k) % 2 ^ 64)
    let t := s.putDword a (if n = 63 then 2 ^ 24 + 2 ^ 31 else who)
    let u := bump 0x30 refused (bump 0x20 run (bump 0x18 wait (bump 0x10 transit (bump 0x08 msgs t))))
    if transit > u.dword (a + 0x28) then u.putDword (a + 0x28) transit else u

/-- A message taken: one message, its transit and its wait. -/
def State.accountTaken (s : State) (core pasid : Nat) (m : Msg) : State :=
  s.account core pasid (whoOf m) 1 ((m.arrival + 2 ^ 48 - m.time) % 2 ^ 48) (s.cycle - m.arrival) 0 0

/-- The run of a handler, or of a user-interrupt routine, ended (R381). -/
def State.accountRun (s : State) (h : Nat) : State :=
  match (s.hart h).taken with
  | some (who, start) => (s.account (coreOf h) (ctxOf s h) who 0 0 0 (s.cycle - start) 0).onHart h (fun x => { x with taken := none })
  | none => s

/-! ### Reply words (R199) -/

/-- A reply word written in its sender's own view, and published: in a world it takes its page of the overlay as a store does, and one
that leaves the module goes to the world's log; where the quota or the log has no room the word is not written (R199, R290, R304,
log 11). -/
def State.writeReply (s : State) (m : Msg) (l : Loc) (word : List Byte) : State :=
  let w := Tab.get s.worlds {} m.wtag
  let page := vpnOf m.reply
  if m.wtag = 0 ∨ w.pasid ≠ m.pasid then s.writePlace 0 l word
  else if l.place = .host then
    (if w.log.length ≥ 128 then s
     else s.appendLog m.wtag (logEntries m.hart { kind := .store, size := 8, lanes := [], pc := 0, words := [], tag := m.wtag }
       [{ lane := 0, addr := m.reply, b := BitVec.ofNat 64 (leNat word) }]))
  else if w.pages.contains page then s.writePlace m.wtag l word
  else if w.pages.length + 1 > w.quota ∨ s.overlayUsed m.pasid + 1 > (Tab.get s.ctxs {} m.pasid).ovpages then s
  else (s.onWorld m.wtag (fun w => { w with pages := w.pages ++ [page] })).writePlace m.wtag l word

/-- A reply word at a message's reply address, translated as its sender's; false where it waits for an answer to an ATS request. An
address that is not translated takes no word (R199, log 11). -/
def State.tryReply (s : State) (m : Msg) (word : List Byte) : Bool × State :=
  if m.source ≥ Config.cores then
    match s.reach m.hart m.reply 8 .store with
    | .here l => (true, s.writePlace 0 l word)
    | .miss =>
      let r := s.translate (askerOf m.hart 15) m.hart m.reply .store
      (match r.2.2.reach m.hart m.reply 8 .store with
       | .here l => (true, r.2.2.writePlace 0 l word)
       | _ => (r.2.1 || r.1.isSome, r.2.2))
    | _ => (true, s)
  else match s.ctxPlace m.pasid m.source m.reply true with
    | (.at l, t) => (true, t.writeReply m l word)
    | (.wait, t) => (false, t)
    | (.fail _, t) => (true, t)

/-- A message whose fate is known, kept until its reply word is written. -/
def Msg.answered (m : Msg) (word : Nat) : Msg :=
  { m with answer := some word, tag := 0, dec := none, write := none, held := none, put := none }

/-- The reply word of a message: status and bytes written, at its reply address in the sender's own view, published; it waits while its
page is being translated. A remote sender's reply leaves as a packet (R199). -/
def State.reply (s : State) (m : Msg) (status bytes : Nat) : State :=
  let word := status + bytes * 65536
  if m.reply = 0 then s
  else if m.remote then
    s.inject { kind := 5, vc := 1, srcModule := s.domain.module, dstModule := m.srcModule, srcCore := m.core, dstCore := m.source
               gang := m.gang, reply := m.reply, payload := leBytes 8 word }
  else
    let r := s.tryReply m (leBytes 8 word)
    if r.1 then r.2 else { r.2 with net := r.2.net ++ [m.answered word] }

/-! ### Sending (R191, R192) -/

/-- A descriptor pair broken into its fields. -/
structure Desc where
  core : Nat
  tag : Nat
  prio : Nat
  len : Nat
  module : Nat
  remote : Bool
  reply : W64
  deriving DecidableEq, Repr

/-- X(a) and X(a + 1) as a descriptor pair; none where a limit of R191 is broken. -/
def descOf (d reply : W64) (lens : Nat → Bool) : Option Desc :=
  let n := d.toNat
  let len := bitsOf n 28 22
  if bitsOf n 31 29 ≠ 0 ∨ n ≥ 2 ^ 43 ∨ len % 4 ≠ 0 ∨ len > 64 ∨ !lens len ∨ reply.toNat % 8 ≠ 0 then none
  else some { core := bitsOf n 11 0, tag := bitsOf n 19 12, prio := bitsOf n 21 20, len, module := bitsOf n 41 32,
              remote := bitOf n 42, reply }

/-- Is a destination admitted: reachable, and allowed by the gate; a tinker has none (R191, R280, R282)? -/
def State.mayReach (s : State) (h core module : Nat) (remote : Bool) : Bool :=
  if (s.hart h).tinker then core < Config.cores + Config.tinkers && (!remote || module < s.domain.size)
  else core < Config.cores
    && (if remote then module < s.domain.size && (s.core (coreOf h)).admitsModule module else (s.core (coreOf h)).admitsCore core)

/-- The release scope of a send (R192). -/
def sendScope (remote : Bool) (scope : Nat) : Nat := if remote then 4 else atLeast scope 3

/-- The header a hart's send carries (R192, R282). -/
def State.header (s : State) (h : Nat) (d : Desc) (payload : List Byte) : Msg :=
  let x := s.hart h
  let core := coreOf h
  { core := d.core, tag := d.tag, prio := d.prio, len := d.len, gang := if x.tinker then 0 else (s.ctx h).gang
    key := if x.tinker then 0 else bitsOf ((s.core core).gateField 0) 15 0, time := s.cycle % 2 ^ 48, reply := d.reply
    source := core, hart := h, dstModule := d.module, srcModule := s.domain.module, remote := d.remote, payload
    pasid := ctxOf s h, wtag := x.tag }

/-- Messages of a core that wait in its outbox. -/
def State.outbox (s : State) (core : Nat) : Nat := (s.net.filter (fun m => m.source == core && !m.inbound && m.answer.isNone)).length

/-- The descriptor word of a message (R191). -/
def Msg.descriptor (m : Msg) : W64 :=
  BitVec.ofNat 64 (m.core + m.tag * 2 ^ 12 + m.prio * 2 ^ 20 + m.len * 2 ^ 22 + m.dstModule * 2 ^ 32
    + (if m.remote then 2 ^ 42 else 0))

/-- A send to another module is refused in a sealed world, at issue (R301). -/
def unsealed (remote : Bool) (s : State) (k : Out) : Out := if remote && s.sealedWorld s.me.tag then trap 26 5 s else k

/-- The last parts of a send: a remote one of a non-root world goes to the world's log, full logs trap; the others wait for room in the
outbox (R192, R304). -/
def place (m : Msg) (s : State) (k : State → Out) : Out :=
  let x := s.me
  let w := Tab.get s.worlds {} x.tag
  if m.remote ∧ x.tag ≠ 0 then
    (if w.log.length ≥ 128 then trap 26 4 s
     else
       k (s.appendLog x.tag [{ kind := 3, hart := s.cur, addr := m.descriptor, msg := some m
                               data := m.payload ++ List.replicate (128 - m.payload.length) 0 }]))
  else if s.outbox s.myCore ≥ 16 then .next (s.onMe (fun x => x.block 5))
  else k (s.send m)

/-- A send of a descriptor pair (R191, R192): limits, gate, release, outbox. -/
def sendDesc (i : Instr) (o : Args) (lens : Nat → Bool) (payload : Hart → Nat → List Byte) (f : Hart → Msg → Msg) (s : State) : Out :=
  let x := s.me
  let d := x.X o.a.toNat
  syncOp i s (match descOf d (x.X (o.a.toNat + 1)) lens with
    | none => illegal i s
    | some e =>
      if !s.mayReach s.cur e.core e.module e.remote then trap 31 (BitVec.ofNat 64 (bitsOf d.toNat 11 0)) s
      else unsealed e.remote s (afterRelease 5 (sendScope e.remote o.rsc.toNat) s (fun s =>
        place (f s.me (s.header s.cur e (payload s.me e.len))) s (fun s => .next (s.onMe (fun x => x.advance o.words))))))

/-- `msg.send`. -/
def execMsgSend (o : Args) (s : State) : Out :=
  sendDesc (.msgSend o) o (fun _ => true) (fun x n => laneBytes x o.b.toNat n) (fun _ m => m) s

/-- `msg.sendx`. -/
def execMsgSendx (o : Args) (s : State) : Out :=
  sendDesc (.msgSendx o) o (fun n => n == 0 || n == 8) (fun x n => leBytes n (x.X o.b.toNat).toNat) (fun _ m => m) s

/-- `msg.sendw`: its write address is X(d), a multiple of 4 (R200). -/
def execMsgSendw (o : Args) (s : State) : Out :=
  if guard (.msgSendw o) s.me && (s.me.X o.d.toNat).toNat % 4 != 0 then illegal (.msgSendw o) s
  else sendDesc (.msgSendw o) o (fun _ => true) (fun x n => laneBytes x o.b.toNat n)
    (fun x m => { m with write := some (x.X o.d.toNat) }) s

/-! ### The tag table and receiving (R193, R197) -/

/-- Mode, priority, enable, slot and handler of a tag entry (R193). -/
def Core.tagWord (c : Core) (tag : Nat) : Nat := (Tab.get c.tags 0 tag).toNat

/-- Effective priority of a message (R193). -/
def Core.effPrio (c : Core) (m : Msg) : Nat := max m.prio (bitsOf (c.tagWord m.tag) 3 2)

/-- `msg.tset`. -/
def execMsgTset (o : Args) (s : State) : Out :=
  let t := (s.me.X o.a.toNat).toNat
  let w := s.me.X o.b.toNat
  let md := bitsOf w.toNat 1 0
  syncOp (.msgTset o) s
    (if t ≥ 256 ∨ md = 3 ∨ w.getLsbD 9 ∨ (s.me.tinker ∧ md ≠ 0) then illegal (.msgTset o) s
     else .next ((s.onCore s.myCore (fun c => { c with tags := Tab.set c.tags 0 t (w &&& 0xFFFFFFFFFFFFFDDF) })).onMe
       (fun x => x.advance o.words)))

/-- `msg.tget`: the entry with its `pend` bit. -/
def execMsgTget (o : Args) (s : State) : Out :=
  let t := (s.me.X o.a.toNat).toNat
  let c := s.core s.myCore
  let w := Tab.get c.tags 0 t ||| flagBit (c.inbox.any (fun m => m.tag == t)) 5
  syncOp (.msgTget o) s
    (if t ≥ 256 then illegal (.msgTget o) s else .next (s.onMe (fun x => (x.setX o.d.toNat w).advance o.words)))

/-- The header word given to a receiver on a module (R198). -/
def headerWord (module : Nat) (c : Core) (m : Msg) : W64 :=
  field m.tag 0 ||| field (m.source % 4096) 8 ||| field (c.effPrio m) 20 ||| field m.len 22 ||| flagBit true 29
    ||| flagBit m.last 30 ||| flagBit m.write.isSome 31 ||| field m.gang 32
    ||| field (if m.remote then m.srcModule else module) 48 ||| flagBit m.remote 58

/-- `msg.recv`: takes the oldest message of a tag in mode 1 or 2, or answers 0 (R197). -/
def execMsgRecv (o : Args) (s : State) : Out :=
  let t := bitsOf (s.me.X o.a.toNat).toNat 7 0
  let c := s.core s.myCore
  let md := bitsOf (c.tagWord t) 1 0
  syncOp (.msgRecv o) s
    (match c.inbox.findIdx? (fun m => m.tag == t && m.dec.isNone) with
     | some n =>
       if md = 1 ∨ md = 2 then
         match c.inbox[n]? with
         | some m =>
           let u := (s.accountTaken s.myCore (ctxOf s s.cur) m).onCore s.myCore (fun c => { c with inbox := c.inbox.eraseIdx n })
           .next ((u.acquire s.cur 3).onMe (fun x =>
             ((putLanes o.b.toNat m.payload x).setX o.d.toNat (headerWord s.domain.module c m)).advance o.words))
         | none => .next s
       else .next (s.onMe (fun x => (x.setX o.d.toNat 0).advance o.words))
     | none => .next (s.onMe (fun x => (x.setX o.d.toNat 0).advance o.words)))

/-! ### Tasks (R201, R202) -/

/-- The task host of a core: the hart in the slot that entry 255 names (R201). -/
def taskHost (c : Core) (core : Nat) : Nat := hartAt core (bitsOf (c.tagWord 255) 8 6)

/-- `task.dec`. -/
def execTaskDec (o : Args) (s : State) : Out :=
  let x := s.me
  let a := (x.X o.a.toNat).toNat
  let off := (x.X o.b.toNat).toNat
  let n := if o.d = 0 then 1 else (x.X o.d.toNat).toNat
  syncOp (.taskDec o) s
    (if a ≥ 4096 ∨ off % 64 ≠ 0 ∨ off ≥ 131072 ∨ n = 0 ∨ n ≥ 2 ^ 31 then illegal (.taskDec o) s
     else if !s.mayReach s.cur a 0 false then trap 31 (BitVec.ofNat 64 a) s
     else afterRelease 5 (sendScope false o.rsc.toNat) s (fun s =>
       let d : Desc := { core := a, tag := 255, prio := 0, len := 0, module := 0, remote := false, reply := 0 }
       place { s.header s.cur d [] with dec := some (off, n) } s (fun s => .next (s.onMe (fun x => x.advance o.words)))))

/-- `task.take`: by the task host only (R202). -/
def execTaskTake (o : Args) (s : State) : Out :=
  let c := s.core s.myCore
  syncOp (.taskTake o) s
    (if s.me.tinker ∨ taskHost c s.myCore ≠ s.cur then illegal (.taskTake o) s
     else match c.ring with
       | off :: rest =>
         .next (((s.onCore s.myCore (fun c => { c with ring := rest })).acquire s.cur 3).onMe (fun x =>
           (x.setX o.d.toNat (BitVec.ofNat 64 off)).advance o.words))
       | [] => .next (s.onMe (fun x => (x.setX o.d.toNat 0xFFFFFFFFFFFFFFFF).advance o.words)))

/-! ### Streams (R203) -/

/-- An open stream's handle in X(a). -/
def handleOf (x : Hart) (o : Args) : Option (Nat × Stream) :=
  let n := (x.X o.a.toNat).toNat
  if n < 4 then (x.streams.look n).map (fun t => (n, t)) else none

/-- `strm.open`; the opening word of a remote route leaves through the outbox as a message does, and reserves the route (R203, R288,
R367). -/
def execStrmOpen (o : Args) (s : State) : Out :=
  let x := s.me
  let d := x.X o.a.toNat
  let rep := x.X (o.a.toNat + 1)
  syncOp (.strmOpen o) s (match descOf d rep (fun n => 4 ≤ n) with
    | none => illegal (.strmOpen o) s
    | some e =>
      if !s.mayReach s.cur e.core e.module e.remote then trap 31 (BitVec.ofNat 64 (bitsOf d.toNat 11 0)) s
      else unsealed e.remote s (afterRelease 5 (sendScope e.remote o.rsc.toNat) s (fun s =>
        let n := Tab.free s.me.streams 4 0
        let give (w : W64) (s : State) : Out := .next (s.onMe (fun x => (x.setX o.d.toNat w).advance o.words))
        let opened (s : State) : State := s.onMe (fun x => { x with streams := Tab.ins x.streams n { desc := d, reply := rep } })
        if n ≥ 4 then give 0xFFFFFFFFFFFFFFFF s
        else if e.remote then
          place { s.header s.cur e [] with opening := true, reply := 0 } s (fun s => give (BitVec.ofNat 64 n) (opened s))
        else give (BitVec.ofNat 64 n) (opened s))))

/-- A block's place in its launch as one number. -/
def Home.key (p : Home) : Nat := 1 + p.hib + 32 * (p.block + 16 * (p.cohort + 2 ^ 32 * p.launch))

/-- What a put names its hart and handle by, beside its core: the handle, the hart slot, and, since another hart may hold the slot when
the acknowledgement comes, the hart's place in its launch (R203, log 57). -/
def putKey (h : Nat) (x : Hart) (n : Nat) : Nat := n % 4 + 4 * (slotOf h + 8 * (x.home.map Home.key).getD 0)

/-- `strm.put`: waits while eight puts of the handle are unacknowledged (R203). -/
def execStrmPut (o : Args) (s : State) : Out :=
  syncOp (.strmPut o) s (match handleOf s.me o with
    | none => illegal (.strmPut o) s
    | some (n, st) =>
      unsealed (bitOf st.desc.toNat 42) s (if st.unacked ≥ 8 then .next (s.onMe (fun x => x.block 16 (BitVec.ofNat 64 n)))
      else match descOf st.desc st.reply (fun _ => true) with
        | none => illegal (.strmPut o) s
        | some e =>
          place { s.header s.cur e (laneBytes s.me o.b.toNat e.len) with put := some (putKey s.cur s.me n) } s (fun s =>
            let logged := e.remote && s.me.tag != 0
            .next (s.onMe (fun x =>
              { x with streams := if logged then x.streams
                  else Tab.ins (Tab.del x.streams n) n { st with unacked := st.unacked + 1 } }.advance o.words)))))

/-- `strm.close`: the release, then its puts, then an empty message with the last bit, and the handle is free (R203). -/
def execStrmClose (o : Args) (s : State) : Out :=
  syncOp (.strmClose o) s (match handleOf s.me o with
    | none => illegal (.strmClose o) s
    | some (n, st) =>
      match descOf st.desc st.reply (fun _ => true) with
      | none => illegal (.strmClose o) s
      | some e =>
        unsealed e.remote s (afterRelease 5 (sendScope e.remote o.rsc.toNat) s (fun s =>
          if st.unacked > 0 then .next (s.onMe (fun x => x.block 16 (BitVec.ofNat 64 n)))
          else place { s.header s.cur { e with len := 0 } [] with last := true } s (fun s =>
            .next (s.onMe (fun x => { x with streams := Tab.del x.streams n }.advance o.words))))))

/-- STRM_PUT_ACK: an acknowledgement of a put of handle `focus.item` returns to the hart (R203). -/
def execStrmPutAck (s : State) : Out :=
  match s.me.streams.look s.focus.item with
  | some st =>
    if st.acks > 0 then
      .next (s.onMe (fun x => { x with
        streams := Tab.ins (Tab.del x.streams s.focus.item) s.focus.item { st with unacked := st.unacked - 1, acks := st.acks - 1 }
        wait := if x.wait.code = 16 then {} else x.wait }))
    else .next s
  | none => .next s

/-! ### Arrival (R194, R196, R199, R200, R202) -/

/-- A message of the network without its place in it. -/
def State.unsend (s : State) (n : Nat) : State := { s with net := s.net.eraseIdx n }

/-- The acknowledgement of a put counted at a hart where the put names it (R203). -/
def Hart.acked (h : Nat) (x : Hart) (key : Nat) : Hart :=
  match x.streams.look (key % 4) with
  | some st =>
    if putKey h x key = key then
      { x with streams := Tab.ins (Tab.del x.streams (key % 4)) (key % 4) { st with acks := min st.unacked (st.acks + 1) } }
    else x
  | none => x

/-- An acknowledgement of a put under way to its hart on a core: the one in its slot, or one that has been swapped out or has left the core
with its context (R203, R343). -/
def State.putAcked (s : State) (core key : Nat) : State :=
  let h := hartAt core (key / 4 % 8)
  let at_ (e : Nat × Hart) : Nat × Hart := if e.1 = h then (e.1, e.2.acked h key) else e
  if putKey h (s.hart h) key = key ∧ ((s.hart h).live || (s.hart h).reserved) then s.onHart h (fun x => x.acked h key)
  else
    { s with
      ctxs := s.ctxs.mapVals (fun c => { c with away := c.away.map (fun (a : Away) => { a with harts := a.harts.map at_ }) })
      launches := s.launches.mapVals (fun l => { l with cohorts := l.cohorts.mapVals (fun k =>
        { k with saved := k.saved.map (fun v => { v with harts := v.harts.map at_ }) }) }) }

/-- A put that has arrived is acknowledged; to another module the acknowledgement goes as a packet that names hart and handle as
the put's packet did (R203, R349, log 57). -/
def State.ackPut (s : State) (m : Msg) : State :=
  match m.put with
  | some n =>
    if m.remote then
      s.inject { kind := 6, vc := 1, srcModule := s.domain.module, dstModule := m.srcModule, srcCore := m.core, dstCore := m.source
                 gang := m.gang, offset := n + 1 }
    else s.putAcked m.source n
  | none => s

/-- Is a message refused where it arrives: no context holds the core, or its key is not the gate's; a tinker's messages are
exempt from the key test, and a tag of the device from a source that is no tinker is refused (R196, R282, R319)? -/
def State.refuses (s : State) (m : Msg) : Bool :=
  let c := s.core m.core
  let fromTinker := m.source ≥ Config.cores
  if m.core ≥ Config.cores then false
  else c.holder.isNone || (!fromTinker && (bitsOf (c.gateField 0) 15 0 != m.key || m.tag == 253 || m.tag == 254))

/-- A refused message: nothing starts, its reply word is REFUSED, and the accounts record it (R196). -/
def State.refuseMsg (s : State) (m : Msg) : State :=
  ((s.account m.core ((s.core m.core).holder.getD 0) (whoOf m) 0 0 0 0 1).ackPut m).reply m 2 0

/-- Must two messages be started in the order in which they were sent: of one hart, or of one core of another module, whose packets do
not name the hart, to one core at one priority (R192)? -/
def Msg.sameFlow (k m : Msg) : Bool :=
  k.core == m.core && k.prio == m.prio && k.inbound == m.inbound && k.answer.isNone
    && (if m.inbound then k.source == m.source && k.srcModule == m.srcModule
        else k.hart == m.hart && k.remote == m.remote && k.dstModule == m.dstModule)

/-- Is an earlier message of the same flow still under way, or an earlier decrement that waits in the inbox (R192, R202)? -/
def State.behind (s : State) (n : Nat) (m : Msg) : Bool :=
  (s.net.take n).any (fun k => k.sameFlow m) || (m.dec.isSome && (s.core m.core).inbox.any (fun k => k.dec.isSome && k.sameFlow m))

/-- What the write of a `msg.sendw` comes to: its segments in address order, and the message as it waits (R200). -/
inductive WriteRes where
  | done (s : State)
  | waits (m : Msg) (s : State)
  | failed (written : Nat) (s : State)

/-- One segment of a message's write in the target core's context; a failing page sends a fault record and waits for its verdict, and
one with the verdict UNRESOLVABLE fails (R200, R322 to R324). A segment that has been written is not written again. -/
def State.writeSegment (s : State) (m : Msg) (off : Nat) (va : W64) (bs : List Byte) : WriteRes :=
  if bs = [] ∨ off < m.wrote then .done s
  else if m.bad then .failed off s
  else
    let pasid := (s.core m.core).holder.getD 0
    match s.ctxPlace pasid m.core va true with
    | (.at l, t) => .done (t.writePlace 0 l bs)
    | (.wait, t) => .waits m t
    | (.fail reason, t) =>
      let q := t.reportAt m.core pasid 0 va (1 + 16) reason 0
      .waits { m with held := some q.1 } q.2

/-- The write of a `msg.sendw` in the target core's context, one segment for each page (R200). -/
def State.messageWrite (s : State) (m : Msg) (va : W64) : WriteRes :=
  let first := min m.payload.length (4096 - va.toNat % 4096)
  match s.writeSegment m 0 va (m.payload.take first) with
  | .done t => t.writeSegment { m with wrote := first } first (va + BitVec.ofNat 64 first) (m.payload.drop first)
  | r => r

/-- A message entered in its core's inbox, with its reply word (R194, R199). -/
def State.enter (s : State) (m : Msg) (bytes : Nat) : State :=
  ((s.onCore m.core (fun c => { c with inbox := c.inbox ++ [{ m with arrival := s.cycle }] })).ackPut m).reply m 0 bytes

/-- A remote message as a packet: a put's names its hart and handle in the offset field, which a message leaves free (log 57). -/
def packetOf (m : Msg) : Packet :=
  { kind := if m.opening then 7 else 1, vc := 2, offset := (m.put.map (· + 1)).getD 0
    srcModule := m.srcModule, dstModule := m.dstModule, srcCore := m.source, dstCore := m.core, gang := m.gang, fseq := m.fseq
    tag := m.tag, prio := m.prio, key := m.key, time := m.time, reply := m.reply, last := m.last, written := m.write
    payload := m.payload }

/-- A packet that carries a message, or the opening word of a stream, as that message. -/
def msgOf (p : Packet) : Msg :=
  { core := p.dstCore, tag := p.tag, prio := p.prio, len := p.payload.length, gang := p.gang, key := p.key, time := p.time
    reply := p.reply, source := p.srcCore, srcModule := p.srcModule, remote := true, last := p.last, write := p.written
    dstModule := p.dstModule, fseq := p.fseq, opening := p.kind == 7
    payload := p.payload, inbound := true, put := if p.offset = 0 then none else some (p.offset - 1) }

/-- Does a message carry something other than a delivery to an inbox: a task decrement, or a device tag from a tinker to a
compute core (R202, R319, R324)? -/
def Msg.special (m : Msg) : Bool :=
  m.dec.isSome || (m.core < Config.cores && (m.tag == 253 || m.tag == 254) && m.source ≥ Config.cores)

/-- Delivery of a message at its core: refused, held back by a full inbox, or entered after its write (R194, R196, R200).
`keep` puts back a message that is not done with, as it then is. -/
def State.deliverMsg (s : State) (m : Msg) (keep : Msg → State → State) : State :=
  if s.refuses m then s.refuseMsg m
  else if (s.core m.core).inbox.length ≥ 64 ∨ m.held.isSome then keep m s
  else match m.write with
    | none => s.enter m 0
    | some va =>
      match s.messageWrite m va with
      | .done t => t.enter m m.payload.length
      | .waits m t => keep m t
      | .failed n t => (t.ackPut m).reply m (if n = 0 then 3 else 1) n

/-- The reply word of a remote message has come back, and is written where the message's sender left its address (R199). -/
def State.replyArrived (s : State) (p : Packet) : State :=
  let mine (m : Msg) : Bool := m.source == p.dstCore && m.core == p.srcCore && m.dstModule == p.srcModule && m.reply == p.reply
  match s.awaited.find? mine with
  | some m =>
    let r := { s with awaited := s.awaited.eraseP mine }.tryReply m p.payload
    if r.1 then r.2 else { r.2 with net := r.2.net ++ [m.answered (leNat p.payload)] }
  | none => s

/-- MSG_ARRIVE: message i of the network arrives at its core, or, when it is remote, leaves by a Wale port, or its reply word is tried
again; or the link takes a packet that waits in a port, the first of its flow, which is then no longer the module's; or a packet
arrives from a Wale port: a message for a core, the reply word of one, or the acknowledgement of a put. A shootdown or verdict of
another module's tinker takes its place among those of the module's own (R194, R199, R203, R319, R324, R366). -/
def execMsgArrive (a : Arrival) (s : State) : Out :=
  match a with
  | .net n =>
    match s.net[n]? with
    | some m =>
      match m.answer with
      | some w =>
        let r := (s.unsend n).tryReply m (leBytes 8 w)
        .next (if r.1 then r.2 else { r.2 with net := r.2.net.insertIdx n m })
      | none =>
        if m.special ∨ s.behind n m ∨ s.gangHeld m.gang then .next s
        else if m.remote ∧ !m.inbound then
          .next ({ s.unsend n with awaited := if m.reply = 0 then s.awaited else s.awaited ++ [m] }.inject (packetOf m))
        else .next ((s.unsend n).deliverMsg m (fun m t => { t with net := t.net.insertIdx n m }))
    | none => .next s
  | .sent n =>
    match s.wale[n]? with
    | some p => .next (if (s.wale.take n).any (fun q => flowKey q == flowKey p && q.kind == p.kind) then s else { s with wale := s.wale.eraseIdx n })
    | none => .next s
  | .wale p =>
    if s.gangHeld p.gang then .next s
    else if p.kind = 5 then .next (s.replyArrived p)
    else if p.kind = 6 ∧ p.offset ≠ 0 ∧ p.dstCore < Config.cores then
      .next (s.putAcked p.dstCore (p.offset - 1))
    else if p.kind = 1 ∧ p.dstCore < Config.cores + Config.tinkers then
      let keep (m : Msg) (t : State) : State := { t with net := t.net ++ [m] }
      .next (if (msgOf p).special || s.behind s.net.length (msgOf p) then keep (msgOf p) s else s.deliverMsg (msgOf p) keep)
    else .next s

/-- The one step of a decrement by n at its core's bank: refused, counted, or its offset appended to the ready ring; none where
the ring has no room for it (R202). -/
def State.decrement (s : State) (m : Msg) (off n : Nat) : Option State :=
  let c := s.core m.core
  let x := s.hart (taskHost c m.core)
  let l : Loc := ⟨.tcm m.core, x.tcmBase + off⟩
  let old := intOf true 32 (leNat (c.tcm.readBytes (l.off + 8) 4))
  let new := old - n
  if !x.live ∨ !x.resident ∨ off + 64 > x.tcmSize ∨ old ≤ 0 then some (s.refuseMsg m)
  else if new > 0 then
    some (((s.writePlace 0 (l.plus 8) (leBytes 4 (wrapBits 32 new))).breakReservations (l.plus 8) none none).reply m 0 0)
  else if c.ring.length ≥ 64 then none
  else
    let st := (c.tcm.read (l.off + 12)).toNat
    let u := (s.writePlace 0 (l.plus 8) (leBytes 4 0)).writePlace 0 (l.plus 12) [BitVec.ofNat 8 (Nat.lor st 1)]
    some (((u.breakReservations (l.plus 8) none none).onCore m.core (fun c =>
      { c with ring := c.ring ++ [off], ringInts := if bitsOf (c.tagWord 255) 1 0 = 1 then c.ringInts + 1 else c.ringInts })).reply m 0 0)

/-- TASK_DEC_ARRIVE: decrement `focus.item` of the network reaches the task host's bank, and one that would overflow the ready
ring waits in the inbox, or in the network while that is full; with code 1, entry `focus.item` of the inbox of core
`focus.unit` is such a decrement and is tried again, after the earlier ones of its hart (R192, R194, R202). -/
def execTaskDecArrive (s : State) : Out :=
  let i := s.focus.item
  if s.focus.code = 1 then
    match (s.core s.focus.unit).inbox[i]? with
    | some m =>
      match m.dec with
      | some (off, n) =>
        if ((s.core s.focus.unit).inbox.take i).any (fun k => k.dec.isSome && k.sameFlow m) then .next s
        else .next (((s.onCore s.focus.unit (fun c => { c with inbox := c.inbox.eraseIdx i })).decrement m off n).getD s)
      | none => .next s
    | none => .next s
  else
    match s.net[i]? with
    | some m =>
      match m.dec with
      | some (off, n) =>
        if s.behind i m then .next s
        else if s.refuses m then .next ((s.unsend i).refuseMsg m)
        else match (s.unsend i).decrement m off n with
          | some t => .next t
          | none =>
            if (s.core m.core).inbox.length ≥ 64 then .next s
            else .next ((s.unsend i).onCore m.core (fun c => { c with inbox := c.inbox ++ [{ m with arrival := s.cycle }] }))
      | none => .next s
    | none => .next s

/-- Has a cluster a posted access that a translation placed and that is not performed yet (R319)? -/
def State.accessesPend (s : State) (cluster : Nat) : Bool :=
  s.harts.any (fun e => clusterOf (coreOf e.1) == cluster && !e.2.tinker && e.2.ops.any (fun p =>
    p.writes.any (fun w => w.1.place == .hbm || w.1.place == .host) || p.locs.any (fun l => l.place == .hbm || l.place == .host)))

/-- SHOOTDOWN: shootdown `focus.item` of the network removes its entries from the TLBs of its core's cluster, and replies
DELIVERED once the cluster's accesses are performed; until then it stays, and the step comes again (R319). -/
def execShootdown (s : State) : Out :=
  match s.net[s.focus.item]? with
  | some m =>
    if m.tag = 253 ∧ m.special ∧ m.dec.isNone then
      let t := s.shootdown (clusterOf m.core) (leNat m.payload)
      .next (if t.accessesPend (clusterOf m.core) then t else (t.unsend s.focus.item).reply m 0 0)
    else .next s
  | none => .next s

/-- A verdict on a message whose write waits, or on another module's request that does (R200, R324, R395). -/
def State.verdictOnMessages (s : State) (core seq : Nat) (resolved : Bool) : State :=
  { s with
    net := s.net.map (fun m =>
      if m.core = core ∧ m.held.any (fun q => q % 2 ^ 48 == seq) then { m with held := none, bad := !resolved } else m)
    winWaits := s.winWaits.map (fun w => if w.core = core ∧ w.seq % 2 ^ 48 = seq then { w with bad := some (!resolved) } else w) }

/-- VERDICT: verdict `focus.item` of the network reaches its core (R324). -/
def execVerdict (s : State) : Out :=
  match s.net[s.focus.item]? with
  | some m =>
    if m.tag = 254 ∧ m.special ∧ m.dec.isNone then
      let w := leNat m.payload
      let resolved := bitsOf w 7 0 == 0
      let h := hartAt m.core (bitsOf w 13 11)
      .next ((((s.unsend s.focus.item).verdictOnMessages m.core (bitsOf w 63 16) resolved).applyVerdict h (bitsOf w 10 8)
        (bitsOf w 63 16) resolved).reply m 0 0)
    else .next s
  | none => .next s

/-! ### Handlers and user interrupts (R49, R194, R195, R202, R376) -/

/-- Is a hart slot free of any hart and of any reservation? -/
def Hart.slotFree (x : Hart) : Bool := !x.live && !x.reserved

/-- The TCM ranges that the harts of a core hold: allocation and spill area (R41). -/
def State.tcmHeld (s : State) (core : Nat) : List (Nat × Nat) :=
  (s.harts.filter (fun e => coreOf e.1 == core && !e.2.slotFree && !e.2.tinker)).map (fun e => (e.2.tcmBase, e.2.tcmSize + 2048))

/-- The lowest offset at which `size` bytes fit beside the ranges held, of a memory of `total` bytes: 0 or the end of a range, rounded up
to a multiple of `unit`. Scratchpad allocations start at multiples of 256 (R148); the spec gives TCM allocations no alignment, and they
start where the range before them ends (DESIGN CHOICE, log 32). -/
def fitAt (unit : Nat) (held : List (Nat × Nat)) (total size : Nat) : Option Nat :=
  let starts := 0 :: held.map (fun r => (r.1 + r.2 + unit - 1) / unit * unit)
  let ok (a : Nat) : Bool := a + size ≤ total && held.all (fun r => a + size ≤ r.1 || r.1 + r.2 ≤ a)
  (starts.filter ok).foldl (fun b a => match b with
    | none => some a
    | some c => some (min a c)) none

/-- Is every resident hart of a core halted, some being so (R376)? -/
def State.coreHeld (s : State) (core : Nat) : Bool :=
  let hs := s.harts.filter (fun e => coreOf e.1 == core && e.2.live && e.2.resident)
  !hs.isEmpty && hs.all (fun e => e.2.dbg.halted)

/-- A fresh handler hart of a compute core, with the core's trap vectors (R138, R194, R385). -/
def handlerHart (s : State) (pc : W64) (base : Nat) (xs : List (Nat × W64)) : Hart :=
  let x : Hart := { Hart.vacant with
    live := true, resident := true, handler := true, pc, window := 16, tcmBase := base, lastIssue := s.cycle
    csr := { Csrs.start with stvec := s.shimVec, mtvec := s.monitorVec }, fenceSeq := s.writes }
  xs.foldl (fun x p => x.setX p.1 p.2) x

/-- A handler started in a free slot of a compute core, with an acquire (R194). -/
def State.startHandler (s : State) (core : Nat) (pc : W64) (xs : List (Nat × W64)) (payload : List Byte)
    (taken : Option (Nat × Nat)) : Option State :=
  match (List.range 8).find? (fun i => (s.hart (hartAt core i)).slotFree), fitAt 1 (s.tcmHeld core) Config.tcmBytes 2048 with
  | some i, some base =>
    if s.poolFree core < 16 then none
    else
      let h := hartAt core i
      let x := putLanes 0 payload (handlerHart s pc base xs)
      some ((s.setHart h { x with taken := taken }).acquire h 3)
  | _, _ => none

/-- The waiting messages of a core that could start, in order of effective priority, then of arrival (R194); a decrement that
waits for the ready ring is none of them. -/
def Core.startOrder (c : Core) (p : Msg → Bool) : List (Nat × Msg) :=
  let ms := (c.inbox.zipIdx.map (fun e => (e.2, e.1))).filter (fun e => p e.2 && e.2.dec.isNone)
  [3, 2, 1, 0].flatMap (fun q => ms.filter (fun e => c.effPrio e.2 == q))

/-- HANDLER_START: core `focus.unit` starts the first waiting spawn-mode message it can, or, with code 1, the first task of
its ready ring, whose record lies with the task host (R194, R195, R201, R202, R376). -/
def execHandlerStart (s : State) : Out :=
  let core := s.focus.unit
  let c := s.core core
  let spawn (m : Msg) : Bool := bitsOf (c.tagWord m.tag) 1 0 == 0 && bitOf (c.tagWord m.tag) 4
  if s.coreHeld core then .next s
  else if s.focus.code = 1 then
    match c.ring with
    | off :: rest =>
      let x := s.hart (taskHost c core)
      let a := x.tcmBase + off
      let dw (k : Nat) : W64 := BitVec.ofNat 64 (leNat (c.tcm.readBytes (a + k) 8))
      if bitsOf (c.tagWord 255) 1 0 ≠ 0 ∨ !bitOf (c.tagWord 255) 4 ∨ !x.live ∨ !x.resident then .next s
      else
        let args := (List.range 6).map (fun i => (10 + i, dw (0x10 + 8 * i)))
        match s.startHandler core (dw 0) (args ++ [(16, BitVec.ofNat 64 off)]) [] none with
        | some t => .next (t.onCore core (fun c => { c with ring := rest }))
        | none => .next s
    | [] => .next s
  else match c.startOrder spawn with
    | (n, m) :: _ =>
      let pc : W64 := BitVec.ofNat 64 (bitsOf (c.tagWord m.tag) 63 10) <<< 2
      let xs : List (Nat × W64) :=
        [(10, headerWord s.domain.module c m), (11, m.reply), (12, BitVec.ofNat 64 m.time), (13, m.write.getD 0), (14, BitVec.ofNat 64 m.key)]
      let taken := some (whoOf m, s.cycle)
      let gone (t : State) : State :=
        (t.accountTaken core (c.holder.getD 0) m).onCore core (fun c => { c with inbox := c.inbox.eraseIdx n })
      if core ≥ Config.cores then
        let h := hartAt core 0
        let x := s.hart h
        if !x.idle then .next s
        else
          let words := (List.range 8).map (fun i => (24 + i, BitVec.ofNat 64 (leNat ((m.payload.drop (8 * i)).take 8))))
          let y := (xs ++ words).foldl (fun x p => x.setX p.1 p.2) { x with x := [], pc, mode := .s, att := {}, idle := false, live := true, lastIssue := s.cycle }
          .next (((gone s).setHart h y).acquire h 3)
      else match s.startHandler core pc xs m.payload taken with
        | some t => .next (gone t)
        | none => .next s
    | [] => .next s

/-- The interrupt-mode message that a hart would take first (R49, R194). -/
def interruptFor (s : State) (h : Nat) : Option (Nat × Msg) :=
  let c := s.core (coreOf h)
  (c.startOrder (fun m => bitsOf (c.tagWord m.tag) 1 0 == 1 && bitOf (c.tagWord m.tag) 4 && !m.delivered
    && bitsOf (c.tagWord m.tag) 8 6 == slotOf h)).head?

/-- May a user interrupt be delivered to a hart (R49)? A deferred trap and an S or M interrupt that are due there come first
(R48). -/
def Hart.mayInterrupt (x : Hart) : Bool :=
  !x.mustIssue && !x.defers && x.interruptDue.isNone && x.live && x.resident && !x.tinker && !x.dbg.halted && x.mode == .u && x.uie && bitsOf x.uitvec.toNat 1 0 == 0
    && x.uitvec.toNat / 4 != 0

/-- Is a ready-ring interrupt due for the hart (R202)? -/
def ringInterrupt (s : State) (h : Nat) : Bool :=
  let c := s.core (coreOf h)
  c.ringInts > 0 && bitsOf (c.tagWord 255) 1 0 == 1 && bitOf (c.tagWord 255) 4 && taskHost c (coreOf h) == h

/-- Is a user interrupt due at the hart's boundary (R49, R202)? -/
def State.userDue (s : State) (h : Nat) : Bool :=
  (s.hart h).mayInterrupt && !s.coreHeld (coreOf h) && (ringInterrupt s h || (interruptFor s h).isSome)

/-- UINT_DELIVER: a user interrupt is delivered to the hart at its boundary (R49, R202). `uicause.prio` is the effective priority of R193
(DESIGN CHOICE, log 58). -/
def execUintDeliver (s : State) : Out :=
  let h := s.cur
  let core := coreOf h
  let c := s.core core
  if !s.me.mayInterrupt ∨ s.coreHeld core then .next s
  else
    let ringPrio := bitsOf (c.tagWord 255) 3 2
    let viaRing := ringInterrupt s h && (match interruptFor s h with
      | some (_, m) => ringPrio > c.effPrio m
      | none => true)
    if viaRing then
      .next ((s.onCore core (fun c => { c with ringInts := c.ringInts - 1 })).onMe (fun x =>
        (x.pauseAt s.cycle).deliver 255 (BitVec.ofNat 2 ringPrio)))
    else match interruptFor s h with
      | some (n, m) =>
        .next ((s.onCore core (fun c => { c with inbox := c.inbox.modify n (fun m => { m with delivered := true }) })).onMe (fun x =>
          { (x.pauseAt s.cycle).deliver (BitVec.ofNat 8 m.tag) (BitVec.ofNat 2 (c.effPrio m)) with taken := some (whoOf m, s.cycle) }))
      | none => .next s

/-- `uiret` (R34, R50); outside U mode it is illegal. The routine's run goes to the sender's account (R381). -/
def execUiret (s : State) : Out := guarded .uiret s (.next ((s.accountRun s.cur).onMe (fun x => x.uiret.pauseAgain x.pauseU s.cycle)))

end Sys2Proof.Machine
end

