-- ==== Sys2Proof/Machine/Rv.lean ====
section
/-! DEFINITION. The standard instructions: integer computing, jumps and branches, loads and stores, `lr`, `sc` and AMOs,
fences, returns from traps, `wfi` and `ebreak` (R3, R47, R88, R89, R179, R326, R377). -/

namespace Sys2Proof.Machine

/-! ### Computing -/

/-- A 32-bit result sign-extended to 64 bits. -/
def sext32 (w : W32) : W64 := w.signExtend 64

/-- The low half of a register. -/
def low32 (w : W64) : W32 := w.setWidth 32

/-- Quotient of the M extension at width w: −1 for a zero divisor, the dividend where the quotient overflows. -/
def quot (signed : Bool) (w a b : Nat) : Nat :=
  if b = 0 then 2 ^ w - 1 else wrapBits w ((intOf signed w a).tdiv (intOf signed w b))

/-- Remainder of the M extension at width w: the dividend for a zero divisor. -/
def remn (signed : Bool) (w a b : Nat) : Nat :=
  if b = 0 then a else wrapBits w ((intOf signed w a).tmod (intOf signed w b))

/-- High half of a product of two 64-bit registers, each signed or not. -/
def mulHi (sa sb : Bool) (a b : W64) : W64 := BitVec.ofInt 64 (intOf sa 64 a.toNat * intOf sb 64 b.toNat / 2 ^ 64)

/-- A Boolean as 0 or 1. -/
def boolWord (b : Bool) : W64 := if b then 1 else 0

/-- OP and OP-32 (RV64I, M, Zba, Zbb). -/
def regOp (op : RegOp) (a b : W64) : W64 :=
  let n := b.toNat % 64
  let m := b.toNat % 32
  let u (w : W64) : W64 := (low32 w).setWidth 64
  match op with
  | .add => a + b
  | .sub => a - b
  | .sll => a <<< n
  | .slt => boolWord (a.slt b)
  | .sltu => boolWord (a.ult b)
  | .xor => a ^^^ b
  | .srl => a >>> n
  | .sra => a.sshiftRight n
  | .or => a ||| b
  | .and => a &&& b
  | .addw => sext32 (low32 a + low32 b)
  | .subw => sext32 (low32 a - low32 b)
  | .sllw => sext32 (low32 a <<< m)
  | .srlw => sext32 (low32 a >>> m)
  | .sraw => sext32 ((low32 a).sshiftRight m)
  | .mul => a * b
  | .mulh => mulHi true true a b
  | .mulhsu => mulHi true false a b
  | .mulhu => mulHi false false a b
  | .div => BitVec.ofNat 64 (quot true 64 a.toNat b.toNat)
  | .divu => BitVec.ofNat 64 (quot false 64 a.toNat b.toNat)
  | .rem => BitVec.ofNat 64 (remn true 64 a.toNat b.toNat)
  | .remu => BitVec.ofNat 64 (remn false 64 a.toNat b.toNat)
  | .mulw => sext32 (low32 a * low32 b)
  | .divw => sext32 (BitVec.ofNat 32 (quot true 32 (low32 a).toNat (low32 b).toNat))
  | .divuw => sext32 (BitVec.ofNat 32 (quot false 32 (low32 a).toNat (low32 b).toNat))
  | .remw => sext32 (BitVec.ofNat 32 (remn true 32 (low32 a).toNat (low32 b).toNat))
  | .remuw => sext32 (BitVec.ofNat 32 (remn false 32 (low32 a).toNat (low32 b).toNat))
  | .sh1add => (a <<< 1) + b
  | .sh2add => (a <<< 2) + b
  | .sh3add => (a <<< 3) + b
  | .sh1addUw => (u a <<< 1) + b
  | .sh2addUw => (u a <<< 2) + b
  | .sh3addUw => (u a <<< 3) + b
  | .addUw => u a + b
  | .andn => a &&& ~~~ b
  | .orn => a ||| ~~~ b
  | .xnor => ~~~ (a ^^^ b)
  | .min => if a.slt b then a else b
  | .minu => if a.ult b then a else b
  | .max => if a.slt b then b else a
  | .maxu => if a.ult b then b else a
  | .rol => a.rotateLeft n
  | .ror => a.rotateRight n
  | .rolw => sext32 ((low32 a).rotateLeft m)
  | .rorw => sext32 ((low32 a).rotateRight m)

/-- OP-IMM and OP-IMM-32 with a 12-bit immediate. -/
def immOp (op : ImmOp) (a k : W64) : W64 :=
  match op with
  | .addi => a + k
  | .slti => boolWord (a.slt k)
  | .sltiu => boolWord (a.ult k)
  | .xori => a ^^^ k
  | .ori => a ||| k
  | .andi => a &&& k
  | .addiw => sext32 (low32 (a + k))

/-- Shifts and rotates by an immediate. -/
def shOp (op : ShOp) (a : W64) (n : Nat) : W64 :=
  match op with
  | .slli => a <<< n
  | .srli => a >>> n
  | .srai => a.sshiftRight n
  | .slliw => sext32 (low32 a <<< n)
  | .srliw => sext32 (low32 a >>> n)
  | .sraiw => sext32 ((low32 a).sshiftRight n)
  | .slliUw => (low32 a).setWidth 64 <<< n
  | .rori => a.rotateRight n
  | .roriw => sext32 ((low32 a).rotateRight n)

/-- Each nonzero byte of a number made all ones. -/
def orBytes (n : Nat) : (k : Nat) → Nat
  | 0 => 0
  | k + 1 => (if n % 256 = 0 then 0 else 255) + 256 * orBytes (n / 256) k

/-- A register's bytes in the opposite order. -/
def revBytes (n : Nat) : (k : Nat) → Nat
  | 0 => 0
  | k + 1 => (n % 256) * 256 ^ k + revBytes (n / 256) k

/-- The unary operations of Zbb. -/
def unOp (op : UnOp) (a : W64) : W64 :=
  match op with
  | .clz => BitVec.ofNat 64 (clz 64 a.toNat)
  | .ctz => BitVec.ofNat 64 (ctz 64 a.toNat)
  | .cpop => BitVec.ofNat 64 (popcount a.toNat 64)
  | .clzw => BitVec.ofNat 64 (clz 32 (low32 a).toNat)
  | .ctzw => BitVec.ofNat 64 (ctz 32 (low32 a).toNat)
  | .cpopw => BitVec.ofNat 64 (popcount (low32 a).toNat 32)
  | .sextB => (a.setWidth 8).signExtend 64
  | .sextH => (a.setWidth 16).signExtend 64
  | .zextH => (a.setWidth 16).setWidth 64
  | .orcB => BitVec.ofNat 64 (orBytes a.toNat 8)
  | .rev8 => BitVec.ofNat 64 (revBytes a.toNat 8)

/-- Branch conditions. -/
def branchTaken (c : BrCond) (a b : W64) : Bool :=
  match c with
  | .eq => a == b
  | .ne => a != b
  | .lt => a.slt b
  | .ge => !a.slt b
  | .ltu => a.ult b
  | .geu => !a.ult b

/-- A jump: a target that is not a multiple of 4 raises the misaligned-fetch trap, and nothing is written (R89). -/
def jumpTo (target : W64) (link : Option (BitVec 5)) (s : State) : Out :=
  if target.toNat % 4 ≠ 0 then trap 0 target s
  else .next (s.onMe (fun x => (match link with
    | some rd => x.setX rd.toNat (x.nextPc 1)
    | none => x).goto target))

/-- A register written, and control falls through. -/
def setReg (rd : BitVec 5) (f : Hart → W64) (s : State) : Out := .next (s.onMe (fun x => (x.setX rd.toNat (f x)).advance 1))

/-- `sfence.vma`: illegal in U mode, and in S mode where `TVM` is set; the translations of the hart's context leave its core's TLB and
its cluster's (R3, R316). -/
def sfence (i : Instr) (s : State) : Out :=
  let x := s.me
  if x.mode = .u ∨ (x.mode = .s ∧ x.csr.mstatus.getLsbD 20) then illegal i s
  else .next (((s.onCore s.myCore (fun c => { c with l1tlb := [] })).onCluster (clusterOf s.myCore)
    (fun c => { c with tlb := c.tlb.filter (fun e => e.pasid != ctxOf s s.cur) })).onMe (fun x => x.advance 1))

/-- A standard instruction that computes, jumps or branches. -/
def execStandardInstruction (op : RvOp) (s : State) : Out :=
  match op with
  | .lui rd k => setReg rd (fun _ => sext32 (k ++ (0 : BitVec 12))) s
  | .auipc rd k => setReg rd (fun x => x.pc + sext32 (k ++ (0 : BitVec 12))) s
  | .jal rd off => jumpTo (s.me.pc + ((off ++ (0 : BitVec 1)).signExtend 64)) (some rd) s
  | .jalr rd rs1 k => jumpTo ((s.me.X rs1.toNat + k.signExtend 64) &&& ~~~ 1#64) (some rd) s
  | .branch c a b off =>
    if branchTaken c (s.me.X a.toNat) (s.me.X b.toNat) then jumpTo (s.me.pc + ((off ++ (0 : BitVec 1)).signExtend 64)) none s
    else .next (s.onMe (fun x => x.advance 1))
  | .imm op rd a k => setReg rd (fun x => immOp op (x.X a.toNat) (k.signExtend 64)) s
  | .sh op rd a n => setReg rd (fun x => shOp op (x.X a.toNat) n.toNat) s
  | .reg op rd a b => setReg rd (fun x => regOp op (x.X a.toNat) (x.X b.toNat)) s
  | .un op rd a => setReg rd (fun x => unOp op (x.X a.toNat)) s
  | .sfenceVma a b => sfence (.standardInstruction (.sfenceVma a b)) s

/-! ### Loads, stores, `lr`, `sc` and AMOs (R89, R179, R326, R395) -/

/-- What a standard access does once its lane is placed, or once a domain-window target has answered: a load's bytes, or that it holds
the lane, which has then been confirmed to it. -/
inductive Reached where
  | at (l : Loc)
  | answer (r : WindowReply)
  | far (asked : Tab Nat)
  deriving DecidableEq, Repr

/-- A standard access of one element: precise traps, then translation, on which the hart waits at the instruction; the trap
of R326 when it is unresolvable; then the rest (R326, R395). -/
def standardPlace (job : MemJob) (s : State) (k : Reached → State → Out) : Out :=
  let h := s.cur
  let x := s.me
  let n := job.kind.need
  let pageFault : Nat := if job.kind = .load then 13 else 15
  match job.lanes with
  | [] => .next s
  | l :: _ =>
    let go (s : State) : Out :=
      match s.reach h l.addr job.size job.kind with
      | .here p =>
        match s.movedPages [(l, p)] with
        | q :: _ => inCoalescer (s.refuse h job.pc q.1 q.2)
        | [] =>
          match s.worldFault h job (s.placeOf h job) with
          | some f => trap f.1 f.2 s
          | none =>
            let w := s.clearWay h x.nextOrder job [p]
            if w.1 then k (.at p) w.2 else inCoalescer w.2
      | .window =>
        (match s.worldFault h job (s.placeOf h job) with
         | some f => trap f.1 f.2 s
         | none =>
           let pageFault : Nat := if job.kind = .load then 13 else 15
           if job.logged then k (.at ⟨.window (windowOf l.addr).1, (windowOf l.addr).2⟩) s
           else if s.ownWindow l.addr then
             (if x.unresolvable l.addr false then trap pageFault l.addr (s.onMe (fun x => x.settled l.addr false))
              else match s.ownPlace h l.addr (job.kind != .load) with
              | (none, t) => trap 31 l.addr t
              | (some (.fail reason), t) => .next (t.awaitVerdict h l.addr false (accByte x job.kind false true) reason job.tag)
              | (some .wait, t) => .next (t.onMe (fun x => x.block 17 3))
              | (some (.at p), t) =>
                if p.place = .hbm ∧ t.migrating.contains (p.off / 4096) then inCoalescer t
                else if t.noHostAtomic h job p then trap 30 l.addr t
                else
                  let w := t.clearWay h x.nextOrder job [p]
                  if !w.1 then inCoalescer w.2
                  else
                    let a := (w.2.onMe (fun x => x.settled l.addr false)).ownPerform h job l p
                    k (.answer a.1) a.2)
           else match s.me.winAnswer with
             | some (.refused, _) => trap 31 l.addr (s.onMe (fun x => { x with winAnswer := none }))
             | some (.unresolvable, _) => trap pageFault l.addr (s.onMe (fun x => { x with winAnswer := none }))
             | some (.wrongPlace, _) => trap 30 l.addr (s.onMe (fun x => { x with winAnswer := none }))
             | some (r, n) =>
               k (if job.kind = .load then .answer r else .far [(l.lane, n)]) (s.onMe (fun x => { x with winAnswer := none }))
             | none =>
               if x.wait.code = 17 ∧ x.wait.a = 2 ∨ s.gangHeld (s.ctx h).gang then .next (s.onMe (fun x => x.block 17 2 x.wait.b))
               else
                 let p := s.requestPacket h job l
                 .next ((s.inject p).onMe (fun x => x.block 17 2 (BitVec.ofNat 64 (s.seqOf p)))))
      | _ => inCoalescer s
    if x.logOrdered || x.conflicts job then inCoalescer s
    else match s.issueFault h job with
      | some f => trap f.1 f.2 s
      | none =>
        let w := s.rewalk h job.pc l.addr n
        let s := w.2
        if !w.1 then inCoalescer s
        else match s.reach h l.addr job.size job.kind with
        | .miss =>
          if x.unresolvable l.addr false then trap pageFault l.addr (s.onMe (fun x => x.settled l.addr false))
          else match s.translate (askerOf h 8 x.pc) h l.addr n with
            | (some reason, _, t) => .next (t.awaitVerdict h l.addr false (accByte x job.kind false true) reason job.tag)
            | (none, true, t) => go t
            | (none, false, t) => .next (t.onMe (fun x => x.block 17 3))
        | .window => go s
        | _ => go (s.onMe (fun x => x.settled l.addr false))

/-- The last outstanding operation of a hart returns at once. -/
def Hart.returnLast (x : Hart) : Hart :=
  match x.ops.getLast? with
  | some p => { x with ops := x.ops.dropLast }.writeBack p
  | none => x

/-- A job of a standard instruction: relaxed parts and no done flag (R83). -/
def standardJob (i : Instr) (k : MemKind) (size : Nat) (addr b : W64) (h : Hart) : MemJob :=
  { kind := k, size, lanes := [{ lane := 0, addr, b }], pc := h.pc, words := ((encode i) ++ [0, 0]).take 3, tag := h.tag,
    mode := h.mode, mstatus := h.csr.mstatus }

/-- Bytes and sign of a standard access. -/
def memOpShape (op : MemOp) : Nat × Bool :=
  match op with
  | .lb => (1, true) | .lh => (2, true) | .lw => (4, true) | .ld => (8, true)
  | .lbu => (1, false) | .lhu => (2, false) | .lwu => (4, false)
  | .sb => (1, false) | .sh => (2, false) | .sw => (4, false) | .sd => (8, false)

/-- A target's answer as a register value: the bytes of a load, zero where it only confirms. -/
def answerValue (signed : Bool) (size : Nat) (r : WindowReply) : W64 :=
  match r with
  | .data bs => extend signed size (leNat (bs.take size))
  | _ => 0

/-- A load through the domain window: the target's bytes under the world's logs (R306). -/
def windowLoad (s : State) (job : MemJob) (va : W64) (signed : Bool) (r : WindowReply) : W64 :=
  extend signed job.size (s.spanValue s.cur job { lane := 0, addr := va } (match r with
    | .data bs => leNat bs
    | _ => 0))

/-- A standard load or store. -/
def execStandardAccess (op : MemOp) (r rs1 : BitVec 5) (imm : BitVec 12) (s : State) : Out :=
  let h := s.cur
  let x := s.me
  let i := Instr.standardAccess op r rs1 imm
  let (size, signed) := memOpShape op
  let va := x.X rs1.toNat + imm.signExtend 64
  if op.isStore then
    let job := standardJob i .store size va (x.X r.toNat) x
    standardPlace job s (fun p s =>
      .next ((match p with
        | .at l => s.perform h job (job.lanes.map (fun q => (q, l)))
        | .answer _ => s
        | .far asked => s.confirmFar h job asked).onMe (fun x => x.advance 1)))
  else
    let job := { standardJob i .load size va 0 x with signed, dest := .x r.toNat }
    standardPlace job s (fun p s =>
      .next (match p with
        | .at l => (s.perform h job (job.lanes.map (fun q => (q, l)))).onMe (fun x => x.returnLast.advance 1)
        | .answer a => s.onMe (fun x => (x.setX r.toNat (windowLoad s job va signed a)).advance 1)
        | .far _ => s))

/-- Operation code of R170 of a standard AMO (R179). -/
def amoCode (op : AmoOp) : Nat :=
  match op with
  | .add => 0 | .and => 1 | .or => 2 | .xor => 3 | .min => 4 | .max => 5 | .minu => 6 | .maxu => 7 | .swap => 8

/-- The acquire part of a standard form, at `.dev` scope (R89). -/
def stdAcquire (aq : Bool) (s : State) : State := if aq then s.acquire s.cur 3 else s

/-- A standard AMO: the `uamo` with return of the same name and size (R179). -/
def execAmo (op : AmoOp) (o : AmoArgs) (s : State) : Out :=
  let h := s.cur
  let x := s.me
  let size := if o.dbl then 8 else 4
  let va := x.X o.rs1.toNat
  let job := { standardJob (.amo op o) .amo size va (x.X o.rs2.toNat) x with op := amoCode op, signed := true, dest := .x o.rd.toNat }
  let run (s : State) : Out := standardPlace job s (fun p s =>
    .next ((match p with
      | .at l => stdAcquire o.aq ((s.perform h job (job.lanes.map (fun q => (q, l)))).onMe Hart.returnLast)
      | .answer a => stdAcquire o.aq (s.onMe (fun x => x.setX o.rd.toNat (answerValue true size a)))
      | .far asked => s.confirmFar h { job with acq := o.aq, scope := 3 } asked).onMe (fun x => x.advance 1)))
  match s.issueFault h job with
  | some f => trap f.1 f.2 s
  | none => if o.rl then afterRelease 8 3 s run else run s

/-- A load for `lr`: the core's copy is dropped first, so that the value reserved is the line's latest at its home. -/
def State.refreshLine (s : State) (h tag : Nat) (l : Loc) : State :=
  if l.place = .hbm then s.leaveL1 (coreOf h) (lineKey (s.seenTag tag l.off) (lineOf l.off)) else s

/-- Where an `lr` or `sc` through the domain window holds its reservation: in the module's own window at the place itself, else at the
window address (R157, R179). -/
def State.windowLoc (s : State) (h : Nat) (va : W64) : Loc :=
  match s.ownWindow va, (s.ownPlace h va false).1 with
  | true, some (.at l) => l
  | _, _ => ⟨.window (windowOf va).1, (windowOf va).2⟩

/-- `lr`: loads and reserves the granule; host memory refuses it with cause 30 (R89, R174, R179). -/
def execLr (o : AmoArgs) (s : State) : Out :=
  let h := s.cur
  let x := s.me
  let size := if o.dbl then 8 else 4
  let va := x.X o.rs1.toNat
  let job := { standardJob (.lr o) .load size va 0 x with signed := true, dest := .x o.rd.toNat }
  let reserve (l : Loc) (s : State) : State := s.onMe (fun x => { x with reservation := some ⟨l, size⟩ }.advance 1)
  let run (s : State) : Out := standardPlace job s (fun p s =>
    match p with
    | .at l =>
      if l.place = .host then trap 30 va s
      else .next (reserve l (stdAcquire o.aq
        (((s.refreshLine h x.tag l).perform h job (job.lanes.map (fun q => (q, l)))).onMe Hart.returnLast)))
    | .answer a =>
      if (s.windowLoc h va).place = .host then trap 30 va s
      else .next (reserve (s.windowLoc h va) (stdAcquire o.aq
        (s.onMe (fun x => x.setX o.rd.toNat (windowLoad s job va true a)))))
    | .far _ => .next s)
  match s.issueFault h job with
  | some f => trap f.1 f.2 s
  | none => if o.rl then afterRelease 8 3 s run else run s

/-- Does a reservation cover a location? -/
def Reservation.covers (r : Reservation) (l : Loc) : Bool := r.loc.place == l.place && r.loc.off / 128 == l.off / 128

/-- `sc`: stores, as an atomic at its place, while the reservation stands, and writes 0; else writes 1 (R89, R179). The
release of `sc.rl` does not cancel the reservation. Through the domain window it asks the target only while a reservation covers the
address. R174 puts cause 30 at the `lr` of host memory and says nothing of an `sc` there, which no `lr` can have preceded: it takes
cause 30 too (DESIGN CHOICE, log 55). -/
def execSc (o : AmoArgs) (s : State) : Out :=
  let h := s.cur
  let x := s.me
  let size := if o.dbl then 8 else 4
  let va := x.X o.rs1.toNat
  let job := { standardJob (.sc o) .amo size va (x.X o.rs2.toNat) x with op := 8 }
  let finish (v : W64) (s : State) : Out :=
    .next ((stdAcquire o.aq s).onMe (fun x => { x.setX o.rd.toNat v with reservation := none }.advance 1))
  let run (s : State) : Out := standardPlace job s (fun p s =>
    match p with
    | .at l =>
      if l.place = .host then trap 30 va s
      else if x.reservation.any (fun r => r.covers l) then
        finish 0 ((s.perform h job (job.lanes.map (fun q => (q, l)))).onMe Hart.returnLast)
      else finish 1 s
    | .answer a => finish (answerStatus a) s
    | .far asked =>
      .next ((s.confirmFar h { job with kind := .store, dest := .x o.rd.toNat, acq := o.aq, scope := 3 } asked).onMe (fun x =>
        { x with reservation := none }.advance 1)))
  match s.issueFault h job with
  | some f => trap f.1 f.2 s
  | none =>
    let go (s : State) : Out :=
      if inDomain va ∧ !s.me.reservation.any (fun r => r.covers (s.windowLoc h va)) then finish 1 s else run s
    if o.rl then afterRelease 8 3 s (fun s => go (s.onMe (fun y => { y with reservation := x.reservation }))) else go s

/-! ### Fences (R88, R89) -/

/-- The standard `fence` of any form: an acquire-release boundary at `.dev` scope. -/
def execFence (_o : FenceArgs) (s : State) : Out := afterRelease 8 3 s (acquireFence 1 3)

/-- Stores that no live hart's fetch still looks behind are counted no longer (R88). -/
def State.pruneStores (s : State) : State :=
  let away := s.ctxs.flatMap (fun c => c.2.away.flatMap (fun a => a.harts.map Prod.snd))
  let saved := s.launches.flatMap (fun l => l.2.cohorts.flatMap (fun c => match c.2.saved with
    | some v => v.harts.map Prod.snd
    | none => []))
  let first := (((s.harts.map Prod.snd ++ away ++ saved).filter Hart.live).map Hart.fenceSeq).foldl min s.writes
  { s with written := s.written.filter (fun w => first ≤ w.1) }

/-- The unpublished stores of a hart, by fetch key. -/
def State.ownCode (s : State) (h : Nat) : Tab Byte :=
  ((s.core (coreOf h)).unpub.filter (fun u => u.hart == h && u.loc.place == .hbm)).foldl (fun t u =>
    Tab.ins (Tab.del t (codeKey u.tag u.loc)) (codeKey u.tag u.loc) u.byte) []

/-- The number of the next store that a hart's fetch is not to see: past every store that is kept. -/
def State.fetchPoint (s : State) : Nat := s.written.foldl (fun n w => max n (w.1 + 1)) s.writes

/-- `fence.i`: the hart's own earlier stores, once they are performed, and what others have published, reach its fetch (R88). -/
def execFenceI (_o : FenceIArgs) (s : State) : Out :=
  let t := s.drainOwn s.cur
  if !t.allPerformed s.cur then inCoalescer t
  else .next (t.onMe (fun x => { x with icache := [], fenceSeq := t.fetchPoint, fetchOwn := t.ownCode s.cur }.advance 1)).pruneStores

/-! ### Returns, waits and breakpoints -/

/-- `sret` and `mret` (R34, R47, R84): illegal below their mode, and `sret` in S mode where `TSR` is set. -/
def execSretMret (m : Bool) (s : State) : Out :=
  let x := s.me
  if m then (if x.mode = .m then .next (s.onMe (fun x => x.mret.pauseAgain x.pauseM s.cycle)) else illegal (.sretMret m) s)
  else if x.mode = .u ∨ (x.mode = .s ∧ x.csr.mstatus.getLsbD 22) then illegal (.sretMret m) s
  else .next (s.onMe (fun x => x.sret.pauseAgain x.pauseS s.cycle))

/-- `wfi` (R89): illegal in U mode, and in S mode where `TW` is set; waits until an interrupt of its mode or higher is
pending. The wait has no code of R345 and is held with code 19. -/
def execWfi (s : State) : Out :=
  let x := s.me
  let wakes := if x.mode = .m then x.pendingInterrupts &&& ~~~ x.csr.mideleg else x.pendingInterrupts
  if x.mode = .u ∨ (x.mode = .s ∧ x.csr.mstatus.getLsbD 21) then illegal .wfi s
  else if wakes = 0 then .next (s.onMe (fun x => x.block 19))
  else .next (s.onMe (fun x => x.advance 1))

/-- Entry into Debug Mode (R372, R374): `dpc` and `dcsr` take the pc, the mode and the reason, and the hart is halted. -/
def Hart.enterDebug (x : Hart) (cause : Nat) : Hart :=
  { x with
    dbg := { x.dbg with
      halted := true, stepping := false, running := none, dpc := x.pc
      dcsr := merge' x.dbg.dcsr (BitVec.ofNat 64 (cause * 64 + x.mode.code)) 0x1C3 }
    mode := .m
    rel := none
    wait := {} }
where
  /-- Some bits of a register replaced. -/
  merge' (old new mask : W64) : W64 := (old &&& ~~~ mask) ||| (new &&& mask)

/-- Does `ebreak` enter Debug Mode: the `dcsr` bit of the current mode (R377)? -/
def Hart.breakHalts (x : Hart) : Bool :=
  !x.tinker && match x.mode with
    | .u => x.dbg.dcsr.getLsbD 12
    | .s => x.dbg.dcsr.getLsbD 13
    | .m => x.dbg.dcsr.getLsbD 15

/-- `ebreak` (R377): Debug Mode, or a breakpoint exception with the pc in `stval`. In the program buffer it ends the
buffer. -/
def execEbreak (s : State) : Out :=
  let x := s.me
  if x.dbg.running.isSome then
    .next (s.setMe { x with dbg := { x.dbg with running := none, progbuf := [] } })
  else if x.breakHalts then .next (s.setMe (x.enterDebug 1))
  else trap 3 x.pc s

/-- A fetched word that R87 refuses: cause 2 with the word, and no other effect. -/
def execIllegalInstruction (word : W32) (s : State) : Out := trap 2 (word.setWidth 64) s

end Sys2Proof.Machine
end

