-- ==== Sys2Proof/Machine/Life.lean ====
section
/-! DEFINITION. Launches, blocks and harts from start to retirement, the end of worlds and contexts, and `ecall` (R9 to R11,
R17 to R29, R195, R203, R275, R284, R310 to R312). -/

namespace Sys2Proof.Machine

/-! ### Launch records (R19, R20) -/

/-- A field of a record. -/
def recField (bs : List Byte) (off n : Nat) : Nat := leNat ((bs.drop off).take n)

/-- The record that 128 bytes hold. -/
def LaunchRec.ofBytes (bs : List Byte) : LaunchRec :=
  { cohorts := recField bs 0x04 4, entry := BitVec.ofNat 64 (recField bs 0x08 8), blocks := recField bs 0x10 1
    harts := recField bs 0x11 1, prio := recField bs 0x12 1, world := recField bs 0x13 1, tickets := recField bs 0x14 2
    stages := BitVec.ofNat 64 (recField bs 0x18 8), windows := (List.range 4).map (fun i => recField bs (0x20 + i) 1)
    scratch := recField bs 0x24 4, tcm := recField bs 0x28 4, args := BitVec.ofNat 64 (recField bs 0x30 8)
    done := BitVec.ofNat 64 (recField bs 0x38 8), seq := BitVec.ofNat 64 (recField bs 0x40 8) }

/-- Stage of hart-in-block h (R18). -/
def LaunchRec.stage (r : LaunchRec) (h : Nat) : Nat := bitsOf r.stages.toNat (2 * h + 1) (2 * h)

/-- Initial window of hart-in-block h. -/
def LaunchRec.window (r : LaunchRec) (h : Nat) : Nat := 16 * r.windows.getD (r.stage h) 1

/-- Cores that a block takes (R14). -/
def LaunchRec.coresOf (r : LaunchRec) : Nat := (r.harts + 7) / 8

/-- Harts of a block on its core k. -/
def LaunchRec.hartsOn (r : LaunchRec) (k : Nat) : List Nat := (List.range r.harts).filter (fun h => h / 8 == k)

/-- Bytes of TCM that a hart takes, its spill area included (R20, R41). -/
def LaunchRec.tcmShare (r : LaunchRec) : Nat := r.tcm + 2048

/-- Registers that a block takes on its core k. -/
def LaunchRec.regsOn (r : LaunchRec) (k : Nat) : Nat := ((r.hartsOn k).map r.window).sum

/-- Does one block fit one cluster (R20)? -/
def LaunchRec.fits (r : LaunchRec) : Bool :=
  (List.range r.coresOf).all (fun k =>
    r.regsOn k ≤ Config.poolRegs && (r.hartsOn k).length * r.tcmShare ≤ Config.tcmBytes)

/-- Does a record pass the checks of R19 and R20 under a priority cap? `host` is true for a record from a host queue, whose
world is 0; a forked record's world field is ignored (R271). -/
def recordOk (bs : List Byte) (cap : Nat) (host : Bool) : Bool :=
  let r := LaunchRec.ofBytes bs
  recField bs 0 2 == 1 && recField bs 2 2 == 0 && 1 ≤ r.cohorts && r.cohorts ≤ 1048576
    && canonical r.entry && r.entry.toNat % 4 == 0 && 1 ≤ r.blocks && r.blocks ≤ 16 && 1 ≤ r.harts && r.harts ≤ 32
    && r.prio ≤ 3 && r.prio ≤ cap && (!host || r.world == 0) && 1 ≤ r.tickets && recField bs 0x16 2 == 0
    && r.stages.toNat < 4 ^ r.harts && r.windows.all (fun w => 1 ≤ w && w ≤ 16)
    && r.scratch % 128 == 0 && r.scratch ≤ Config.scratchBytes && r.tcm % 64 == 0 && r.tcm ≤ Config.tcmBytes
    && recField bs 0x2C 4 == 0 && r.done.toNat % 32 == 0 && recField bs 0x48 56 == 0 && r.fits

/-- The `coord` of a hart (R17). -/
def coordOf (r : LaunchRec) (p : Home) : W64 :=
  BitVec.ofNat 64 (p.hib + p.block * 32 + r.stage p.hib * 1024 + p.cohort * 4096)

/-- A hart as its first residency finds it (R9, R36 to R44, R89): the launch's registers, window and coordinates; x10 and x11
hold the argument pointer and the record's address; everything else is at its reset contents. -/
def State.freshHart (s : State) (l : Launch) (p : Home) (tcmBase : Nat) : Hart :=
  let r := l.record
  { Hart.vacant with
    live := true, resident := false, reserved := true, home := some p, pc := r.entry, window := r.window p.hib
    x := [(10, r.args), (11, l.addr)].filter (fun e => e.2 != 0)
    coord := coordOf r p, launchAddr := l.addr, tag := l.tag, windex := l.windex, wdepth := l.wdepth
    role := BitVec.ofNat 2 (r.stage p.hib), tcmBase, tcmSize := r.tcm
    csr := { Csrs.start with stvec := s.shimVec, mtvec := s.monitorVec }
    lastIssue := s.cycle, fenceSeq := s.writes }

/-! ### Retirement (R10, R24, R27) -/

/-- A change to a launch. -/
def State.onLaunch (s : State) (n : Nat) (f : Launch → Launch) : State :=
  match s.launches.look n with
  | some l => { s with launches := Tab.ins (Tab.del s.launches n) n (f l) }
  | none => s

/-- A change to a cohort of a launch. -/
def State.onCohort (s : State) (n c : Nat) (f : Cohort → Cohort) : State :=
  s.onLaunch n (fun l => match l.cohorts.look c with
    | some k => { l with cohorts := Tab.ins (Tab.del l.cohorts c) c (f k) }
    | none => l)

/-- Is every cohort of a launch retired? -/
def Launch.finished (l : Launch) : Bool := l.next == l.record.cohorts && l.retired == l.record.cohorts

/-- A forked copy that has finished makes its world finished (R272, R294). -/
def State.settleLaunch (s : State) (n : Nat) : State :=
  match s.launches.look n with
  | some l => if l.finished ∧ l.forker.isSome then s.onWorld l.tag (fun w => { w with state := .finished }) else s
  | none => s

/-- The block and cohort of a launch settled after a hart has retired: a block with no live hart retires and frees its slots,
a cohort with no other block left retires (R24, R27). -/
def State.settleCohort (s : State) (n c : Nat) : State :=
  match (s.launches.look n).bind (fun l => l.cohorts.look c) with
  | none => s
  | some k =>
    let gone (b : Block) : Bool := !b.retired && b.harts.all (fun h => !(s.hart h).live)
    let t := ((k.blocks.filter gone).flatMap Block.harts).foldl (fun s h => s.setHart h Hart.vacant) s
    let bs := k.blocks.map (fun b => if gone b then { b with retired := true } else b)
    let done := bs.all Block.retired
    let u := t.onCohort n c (fun k => { k with blocks := bs, phase := if done then .retired else k.phase })
    if done then
      (u.onLaunch n (fun l => { l with retired := l.retired + 1 })).settleLaunch n
    else u

/-- A hart retires: its registers return to the pool; the slot and TCM of a block's hart stay reserved until the block
retires, a handler's are free at once (R27, R396). -/
def State.retireHart (s : State) (h : Nat) : State :=
  let x := s.hart h
  match x.home with
  | some p =>
    (s.setHart h { Hart.vacant with reserved := true, home := x.home, tcmBase := x.tcmBase, tcmSize := x.tcmSize }).settleCohort
      p.launch p.cohort
  | none => s.setHart h Hart.vacant

/-! ### Worlds that end (R273, R275, R310, R311) -/

/-- Commands of a core's engine queue and array dropped that satisfy a test, without completion or credit (R310). -/
def Core.dropCommands (c : Core) (p : EngCmd → Bool) : Core :=
  let gone := (c.engine.filter p).map EngCmd.ticket
  { c with engine := c.engine.filter (fun k => !p k), array := c.array.filter (fun t => !gone.contains t) }

/-- The number under which the module keeps what hart i of a swapped cohort, `h` while it is placed, left behind: no hart slot's, with slot
and core in its low bits. -/
def swapId (placing i h : Nat) : Nat := 2 ^ 40 + ((placing * 512 + i) * 8 + slotOf h) * 4096 + coreOf h

/-- Harts of a cohort that occupy slots. -/
def Cohort.allHarts (k : Cohort) : List Nat := (k.blocks.filter (fun b => !b.retired)).flatMap Block.harts

/-- The numbers of a cohort's harts and those that they have while it is swapped. -/
def Cohort.swapIds (k : Cohort) : List (Nat × Nat) := k.allHarts.zipIdx.map (fun p => (p.1, swapId k.placing p.2 p.1))

/-- A change to every core's own state, of those that their contexts have left too. -/
def State.onUnits (s : State) (f : Core → Core) : State :=
  { s with
    cores := s.cores.mapVals f
    ctxs := s.ctxs.mapVals (fun c => { c with away := c.away.map (fun (a : Away) => { a with unit := f a.unit }) }) }

/-- A launch ends where it stands: its cohorts retire, their harts issue nothing further and their slots are free. -/
def State.endLaunch (s : State) (n : Nat) : State :=
  match s.launches.look n with
  | none => s
  | some l =>
    let mine (h : Nat) (x : Hart) : Bool := (x.home.map Home.launch) == some n && h < 2 ^ 24
    let hs := (s.harts.filter (fun e => mine e.1 e.2)).map Prod.fst
    let t := hs.foldl (fun s h => s.setHart h Hart.vacant) s
    let ids := hs ++ (l.cohorts.filter (fun c => c.2.saved.isSome)).flatMap (fun c => c.2.swapIds.map Prod.snd)
    let u := t.onUnits (fun c =>
      { c.dropCommands (fun k => ids.contains k.hart) with
        unpub := c.unpub.filter (fun v => !ids.contains v.hart && !(l.tag != 0 && v.tag == l.tag)) })
    u.onLaunch n (fun l =>
      { l with
        cohorts := l.cohorts.mapVals (fun c =>
          { c with phase := .retired, saved := none, blocks := c.blocks.map (fun b => { b with retired := true }) })
        next := l.record.cohorts, retired := l.record.cohorts })

/-- A world and those forked from it end: their launches stop, their logs are discarded, their tags are marked (R310). -/
def State.endWorld (s : State) : (fuel : Nat) → (tag : Nat) → State
  | 0, _ => s
  | n + 1, tag =>
    let kids := (s.worlds.filter (fun e => e.2.parent == tag && e.2.depth > 1 && e.2.state != .free && e.2.state != .ending)).map Prod.fst
    let t := kids.foldl (fun s k => State.endWorld s n k) s
    let w := Tab.get t.worlds {} tag
    let u := if w.state = .finished then t else t.endLaunch w.launch
    (u.onLaunch w.launch (fun l => { l with ended := true })).onWorld tag (fun w => { w with state := .ending, log := [] })

/-- The worlds of a hart's open fork end, and its own is unsealed (R273). -/
def State.closeFork (s : State) (h : Nat) : State :=
  match (s.hart h).fork with
  | none => s
  | some f =>
    let t := f.tags.foldl (fun s k => s.endWorld 6 k) s
    let own := (s.hart h).tag
    (if own = 0 then t else t.onWorld own (fun w => { w with state := .running, kids := 0 })).onHart h (fun x => { x with fork := none })

/-- Is a key of a tag? -/
def ofTag (tag key : Nat) : Bool := key / 2 ^ 40 == tag

/-- TAG_FREE: tag `focus.item`, which is ending, loses its lines, pages and log, and is free; what its log held of the overlay area is
written with zeros (R302, R311). -/
def execTagFree (s : State) : Out :=
  let tag := s.focus.item
  if tag = 0 ∨ (Tab.get s.worlds {} tag).state ≠ .ending then .next s
  else
    let log := (Tab.get s.worlds {} tag).logbase
    let t := { s with
      worlds := Tab.del s.worlds tag
      hbm := s.hbm.clear log 24576
      lost := s.lost.flatMap (cutRange log 24576)
      vers := s.vers.filter (fun v => v.tag != tag)
      dir := s.dir.filter (fun e => !ofTag tag e.1)
      trackers := s.trackers.filter (fun t => t.2.tag != tag) }
    .next (t.onUnits (fun c =>
        { c with l1 := c.l1.filter (fun l => !ofTag tag l.line), old := c.old.filter (fun b => !ofTag tag (keyOfByte b.1)),
                 defer := c.defer.filter (fun k => !ofTag tag k), unpub := c.unpub.filter (fun u => u.tag != tag) }))

/-! ### Events for the host (R364) -/

/-- A change to the function of a link, of which the module has two (R356). -/
def State.onFn (s : State) (link : Nat) (f : HostFn → HostFn) : State :=
  if link < Config.links then { s with fns := Tab.set s.fns {} link (f (Tab.get s.fns {} link)) } else s

/-- An event joins those that wait, at most 256, or is discarded and counted (R364). -/
def State.hostEvent (s : State) (link kind : Nat) (body : List Byte) : State :=
  s.onFn link (fun f =>
    if f.events.length < 256 then
      { f with events := f.events ++ [{ kind, tick := s.cycle / 256, body := body ++ List.replicate (32 - body.length) 0 }] }
    else { f with lost := min 65535 (f.lost + 1) })

/-- An event of no context, given to the function of every link (log 14). -/
def State.moduleEvent (s : State) (kind : Nat) (body : List Byte) : State :=
  [0, 1].foldl (fun s l => s.hostEvent l kind body) s

/-! ### Words that a tinker's requests complete with (R283) -/

/-- Bytes written at an address of a tinker's address space, published at once; an address with no translation takes none
(log 11). -/
def State.tinkerWrite (s : State) (h : Nat) (va : W64) (bs : List Byte) : State :=
  let t := match s.reach h va bs.length .store with
    | .miss => (s.translate (askerOf h 14) h va .store).2.2
    | _ => s
  match t.reach h va bs.length .store with
  | .here l => t.writePlace 0 l bs
  | _ => t

/-- The completion word of a request (R283). -/
def State.completeRequest (s : State) (r : CtxRequest) (status bytes : Nat) : State :=
  { (s.tinkerWrite r.tinker r.done (leBytes 8 (status % 256 + bytes % 2 ^ 48 * 65536))) with
    requests := s.requests.filter (fun q => q != r) }

/-! ### The end of a context (R24, R28, R284, R312) -/

/-- A page-table entry as its home has it. -/
def State.homePte (s : State) (pa : Nat) : Nat := leNat ((List.range 8).map (fun j => s.byteAt 0 (pa + j)))

/-- The byte ranges of device memory that a table of `fuel` levels, and those below it, map (R317, R318). -/
def State.leafRanges (s : State) : (fuel : Nat) → (base : Nat) → List (Nat × Nat)
  | 0, _ => []
  | n + 1, base => (List.range 512).flatMap (fun i =>
      let p := s.homePte (base + 8 * i)
      let ppn := bitsOf p 53 10
      if !bitOf p 0 then []
      else if bitOf p 1 || bitOf p 3 then
        (if bitsOf p 9 8 = 0 then [(ppn / 512 ^ n * 512 ^ n * 4096, 512 ^ n * 4096)] else [])
      else State.leafRanges s n (ppn * 4096))

/-- The byte ranges that a context has in HBM: its pages and its standing areas (R389). -/
def State.rangesOf (s : State) (c : Context) : List (Nat × Nat) :=
  (if c.bound then s.leafRanges 5 c.root.toNat else []) ++ [(c.ovbase, c.ovpages * 4096), (c.svbase, c.svpages * 4096)]

/-- The ranges that a context leaves when it is killed: its own, but for what another live context has too (R389; DESIGN CHOICE,
log 36). -/
def State.formerRanges (s : State) (pasid : Nat) : List (Nat × Nat) :=
  let others := ((s.ctxs.filter (fun c => c.1 != pasid && c.2.made && !c.2.killed)).flatMap (fun c => s.rangesOf c.2)).filter (fun r => r.2 != 0)
  (others.foldl (fun rs (o : Nat × Nat) => rs.flatMap (cutRange o.1 o.2)) (s.rangesOf (Tab.get s.ctxs {} pasid))).filter (fun r => r.2 != 0)

/-- A core with nothing of a context left in it: its gate, its predictor and its debug module stay (R279, R372). -/
def Core.cleared (c : Core) : Core := { gate := c.gate, predictor := c.predictor, dm := c.dm }

/-- An event of a gang's switch, as a message on tag 251 of the tinker that armed it: kind 1 late, 2 abort (R350). -/
def State.gangEvent (s : State) (gang : Nat) (x : GangSwitch) (kind fseq : Nat) : State :=
  let core := coreOf x.tinker
  let payload := leBytes 2 kind ++ leBytes 2 gang ++ leBytes 2 fseq ++ leBytes 2 0 ++ leBytes 8 (s.cycle / 256)
  s.send { core, tag := 251, len := 16, source := core, hart := x.tinker, time := s.cycle % 2 ^ 48, payload }

/-- The switch of a gang aborted: state 5, an event to its tinker, and every context of the gang is to be killed (R350). -/
def State.abortGang (s : State) (gang fseq : Nat) : State :=
  let x := Tab.get s.gangs {} gang
  let ps := (s.ctxs.filter (fun c => c.2.gang == gang && !c.2.killed)).map (fun c => (c.1, 2))
  ({ s with gangs := Tab.set s.gangs {} gang { x with st := 5 }, doomed := s.doomed ++ ps }).gangEvent gang x 2 fseq

/-- Does a hart belong to a context? -/
def State.hartOf (s : State) (pasid h : Nat) (x : Hart) : Bool :=
  !x.tinker && (x.live || x.reserved) && (s.core (coreOf h)).holder == some pasid

/-- A context is killed: its harts issue nothing further and every block retires; its worlds end without commit; its
requests complete with KILLED; its queues complete with KILLED; its launches complete with status KILLED; its gang's switch
is aborted; its key is destroyed, so that its former lines read all ones (R389); event 2 tells the host (R24, R28, R275, R284, R312, R350, R360, R389). A context that does
not exist, or has been killed, is left as it is. -/
def State.killContext (s : State) (pasid reason : Nat) : State :=
  let c := Tab.get s.ctxs {} pasid
  if !s.ctxs.has pasid ∨ c.killed then s
  else
    let hs := (s.harts.filter (fun e => s.hartOf pasid e.1 e.2)).map Prod.fst
    let t := (s.launches.filter (fun l => l.2.pasid == pasid)).foldl (fun s l => s.endLaunch l.1) s
    let t := hs.foldl (fun s h => s.setHart h Hart.vacant) t
    let held := (t.cores.filter (fun k => k.2.holder == some pasid)).map Prod.fst
    let t := held.foldl (fun s k => s.onCore k Core.cleared) t
    let t := { t with
      clusters := t.clusters.mapVals (fun k =>
        { k with ctx := if k.ctx = some pasid then none else k.ctx, tlb := k.tlb.filter (fun e => e.pasid != pasid) })
      cores := t.cores.mapVals (fun k => { k with l1tlb := k.l1tlb.filter (fun e => e.pasid != pasid) })
      launches := t.launches.mapVals (fun l =>
        if l.pasid = pasid ∧ ¬ l.ended then { l with status := 2, ended := l.forker.isSome } else l)
      worlds := t.worlds.mapVals (fun w => if w.pasid = pasid then { w with state := .ending, log := [] } else w)
      net := t.net.filter (fun m => m.pasid != pasid || m.source ≥ Config.cores)
      winHeld := t.winHeld.filter (fun w => w.1.gang != c.gang)
      winWaits := t.winWaits.filter (fun w => w.req.gang != c.gang)
      ats := t.ats.filter (fun a => a.pasid != pasid)
      atsBad := t.atsBad.filter (fun a => a.2.1 != pasid)
      traces := t.traces.filter (fun e => e.1 / 4096 != pasid)
      fns := t.fns.mapVals (fun f =>
        { f with
          queues := f.queues.mapVals (fun q => if q.bound ∧ q.pasid = pasid then { q with qstate := 2 } else q)
          groups := f.groups.mapVals (fun g => if g.pasid = pasid then { g with retired := true } else g) })
      lost := t.lost ++ s.formerRanges pasid
      ctxs := Tab.set t.ctxs {} pasid { c with killed := true, shredded := true, away := [], pages := [], out := false } }
    let t := (t.requests.filter (fun r => r.pasid == pasid)).foldl (fun s r => s.completeRequest r 5 0) t
    let g : Nat := (Tab.get t.gangs ({} : GangSwitch) c.gang).st
    let t := if c.gang ≠ 0 ∧ 1 ≤ g ∧ g ≤ 4 then t.abortGang c.gang 0 else t
    t.hostEvent c.link 2 (leBytes 4 pasid ++ leBytes 4 reason)

/-- The kills that a step has asked for (R47). -/
def State.killDoomed (s : State) : State := s.doomed.foldl (fun s d => s.killContext d.1 d.2) { s with doomed := [] }

/-! ### `ecall` (R10, R47, R195, R203) -/

/-- Is nothing of the hart outstanding but its stores: its log and its engine commands are done (R10, R237)? -/
def State.commandsDone (s : State) (h : Nat) : Bool :=
  let x := s.hart h
  x.oplog == [] && x.engFlags == [] && !(s.core (coreOf h)).engine.any (fun k => k.hart == h)

/-- Retirement of the hart: the release at `.sys` scope, its commands and logged instructions, its streams closed with their
puts acknowledged, its open fork abandoned, then the end (R10, R203, R275). -/
def retire (s : State) : Out :=
  afterRelease 18 5 s (fun s =>
    if !s.commandsDone s.cur then .next (s.onMe (fun x => x.block 18))
    else match s.me.streams with
      | (n, st) :: _ =>
        if st.unacked > 0 then .next (s.onMe (fun x => x.block 18))
        else (match descOf st.desc st.reply (fun _ => true) with
          | some e =>
            place { s.header s.cur { e with len := 0 } [] with last := true } s (fun s =>
              .next (s.onMe (fun x => { x with streams := Tab.del x.streams n })))
          | none => .next (s.onMe (fun x => { x with streams := Tab.del x.streams n })))
      | [] => .next (((s.accountRun s.cur).closeFork s.cur).retireHart s.cur))

/-- The end of a tinker's handler or start-up code: the release, its outstanding operations, then it is idle (R195). -/
def handlerEnd (s : State) : Out :=
  afterRelease 18 5 s (fun s =>
    if s.me.ops ≠ [] ∨ s.me.oplog ≠ [] then .next (s.onMe (fun x => x.block 18))
    else .next ((s.accountRun s.cur).onMe (fun x => { x.advance 1 with idle := true })))

/-- `ecall`, by the mode, the hart and a7 (R10, R47, R195): retirement of a compute hart in U mode, the end of a tinker's
handler in S mode, or an environment call. On a tinker that a return has put in U mode, where R46 puts none, a7 = 0 is an environment
call like any other (DESIGN CHOICE, log 59). -/
def envCall (s : State) : Out :=
  let x := s.me
  match x.mode with
  | .u => if x.X 17 = 0 ∧ ¬ x.tinker then retire s else trap 8 0 s
  | .s => if x.X 17 = 0 ∧ x.tinker then handlerEnd s else trap 9 0 s
  | .m => trap 11 0 s

/-- `ecall`: every case of it has one word, and the hart's state decides which it is. -/
def execEcall (s : State) : Out := envCall s

/-- ECALL_RETIRE: the case of `ecall` in U mode with a7 = 0 on a compute hart (R10). -/
def execEcallRetire (s : State) : Out := if s.me.mode = .u ∧ s.me.X 17 = 0 ∧ ¬ s.me.tinker then retire s else envCall s

/-- TINKER_HANDLER_END: the case of `ecall` in S mode with a7 = 0 on a tinker (R195). -/
def execTinkerHandlerEnd (s : State) : Out :=
  if s.me.mode = .s ∧ s.me.X 17 = 0 ∧ s.me.tinker then handlerEnd s else envCall s

end Sys2Proof.Machine
end

