-- ==== Sys2Proof/Machine/Image.lean ====
section
/-! DEFINITION. The bytes of a save area: its header, core sections, hart records and world section (R266, R294, R320, R344,
R345). -/

namespace Sys2Proof.Machine

/-- Doublewords as bytes. -/
def dwords (ws : List W64) : List Byte := ws.flatMap (fun w => leBytes 8 w.toNat)

/-- Bytes filled with zeros to a multiple of 4 KiB. -/
def toPage (bs : List Byte) : List Byte := padTo ((bs.length + 4095) / 4096 * 4096) bs

/-- Bits of a world state (R294). -/
def WorldState.code : WorldState → Nat
  | .free => 0 | .running => 1 | .sealed => 2 | .finished => 3 | .ending => 4

/-- The 32 bytes of a world entry (R294). -/
def World.bytes (w : World) : List Byte :=
  leBytes 4 (w.parent + w.index * 2 ^ 8 + w.depth * 2 ^ 11 + w.state.code * 2 ^ 16 + w.kids * 2 ^ 20)
    ++ leBytes 4 w.quota
    ++ leBytes 8 (w.pages.length % 2 ^ 16 + w.log.length * 2 ^ 16 + w.pasid * 2 ^ 24)
    ++ leBytes 8 0 ++ leBytes 8 w.logbase

/-- Bits of a log entry's state (R320). -/
def LogState.code : LogState → Nat
  | .walking => 1 | .verdict => 2 | .held => 3 | .replaying => 4

/-- The 832 bytes of an operand-log entry (R320). -/
def LogEntry.bytes (e : LogEntry) : List Byte :=
  let lane (l : Nat) : Option LaneReq := e.job.lanes.find? (fun q => q.lane == l)
  let head := leBytes 8 e.job.pc.toNat ++ padTo 12 (e.job.words.flatMap (fun w => leBytes 4 w.toNat)) ++ leBytes 4 e.active.toNat
    ++ leBytes 1 (e.att.fa.toNat + 16 * e.att.fb.toNat) ++ leBytes 1 e.job.tag ++ leBytes 1 e.state.code ++ leBytes 1 e.npage
    ++ leBytes 4 (e.seq % 2 ^ 32) ++ leBytes 8 e.fva.toNat ++ leBytes 2 e.pgroup ++ leBytes 2 (e.seq / 2 ^ 32)
    ++ List.replicate 20 0
  if e.engine.isSome then padTo 832 head
  else
    head ++ dwords ((List.range 32).map (fun l => ((lane l).map LaneReq.addr).getD 0))
      ++ dwords ((List.range 32).flatMap (fun l => match lane l with
        | some q => if e.job.op = 9 ∧ e.job.kind ≠ .store then [q.c, q.b] else [q.b, 0]
        | none => [0, 0]))

/-- The state word of a hart record, with the code of what the hart waits for (R345). -/
def Hart.stateWord (x : Hart) (kind : Nat) : Nat :=
  x.mode.code + (if x.dbg.halted then 4 else 0) + (if x.inShadow then 8 else 0) + kind * 16
    + x.role.toNat * 2 ^ 12 + (if x.handler then 2 ^ 20 else 0)

/-- The attachment copies of a hart record (R84, R345). -/
def Hart.flagWord (x : Hart) : Nat :=
  let a (t : Attach) : Nat := t.fa.toNat + 16 * t.fb.toNat
  x.doneFlags.toNat + a x.att * 2 ^ 16 + a x.attS * 2 ^ 24 + a x.attM * 2 ^ 32 + a x.attU * 2 ^ 40

/-- The code of what a hart waits for (R345): a `pause` interval is none of its waits. -/
def Hart.waitKind (x : Hart) (now : Nat) : Nat :=
  if x.wait.code ≠ 0 then (if x.wait.code ≤ 18 then x.wait.code else 0) else if now < x.pauseEnd then 10 else 0

/-- A hart record (R345); `maf` is the context's flag word, which the record of its hart 0 holds, and `wctl` the quota
and pages of the hart's world. -/
def hartBytes (x : Hart) (now maf : Nat) (wctl : W64) : List Byte :=
  let c := x.csr
  let bits := ((x.oplog.filter (fun e => e.1 < 8)).map (fun e => 2 ^ e.1)).sum
  dwords ((List.range 31).map (fun n => x.X (n + 1))) ++ leBytes 8 x.pc.toNat ++ leBytes 8 (x.stateWord (x.waitKind now))
    ++ leBytes 8 (x.pauseEnd - now)
    ++ dwords [c.mstatus &&& sstatusMask, c.stvec, c.sscratch, c.sepc, c.scause, c.stval, c.mie &&& c.mideleg, c.mip &&& c.mideleg,
               c.scounteren, c.mstatus, c.mepc, c.mcause, c.mtval, c.mscratch, 0, 0]
    ++ dwords [x.lfcsr, BitVec.ofNat 64 x.depth, BitVec.ofNat 64 (x.window / 16), x.uitvec, x.uiepc,
               x.ucTag.setWidth 64 ||| (x.ucPrio.setWidth 64 <<< 8) ||| flagBit x.uie 31, x.sbase, x.sshift.setWidth 64,
               x.estat.setWidth 64, wctl, BitVec.ofNat 64 (x.oplogidx + bits * 256), x.pcmHnd]
    ++ leBytes 8 x.flagWord ++ leBytes 8 maf ++ padTo 32 ((List.range 7).flatMap (fun k => leBytes 4 (x.M (k + 1)).toNat))
    ++ padTo 512 (x.stack.flatMap MaskEntry.bytes) ++ dwords ((List.range 16).map (fun i => Tab.get x.pcmdat 0 i))
    ++ dwords ((List.range 31).map (fun n => Tab.get x.shadowX 0 (n + 1))) ++ leBytes 8 x.shadowPc.toNat ++ List.replicate 96 0
    ++ (List.range 8).flatMap (fun n => ((x.oplog.look n).map LogEntry.bytes).getD (List.replicate 832 0))
    ++ (List.range x.window).flatMap (fun r => (List.range 32).flatMap (fun l => leBytes 4 (x.V r l).toNat))

/-- A message record: its header with the arrival clk, and its payload (R344). -/
def Msg.record (m : Msg) : List Byte := m.headerBytes ++ padTo 64 m.payload

/-- An engine queue entry (R266, R344): the copied descriptor, with the scale base, shift and count that it captured, then ticket,
promise, progress (the next row and byte, or the next K block), the ticket of the other half of an `e.cmma`, and its state. -/
def EngCmd.record (k : EngCmd) : List Byte :=
  let desc := (if k.kind = 5 then k.mat.bytes else if k.kind = 7 then List.replicate 64 0 else k.cop.bytes)
    ++ leBytes 8 k.sbase.toNat ++ leBytes 4 k.sshift ++ leBytes 4 k.scount
  let progress := if k.kind = 5 then leBytes 8 k.blocks.length else if k.kind = 7 then leBytes 8 k.got
    else leBytes 4 (k.put / k.cop.rowbytes) ++ leBytes 4 (k.put % k.cop.rowbytes)
  let link := if !k.paired then 0 else if k.kind = 5 then (k.ticket + 65535) % 65536 else (k.ticket + 1) % 65536
  padTo 256 (padTo 128 desc ++ leBytes 2 k.ticket ++ leBytes 6 (k.promise % 2 ^ 48) ++ progress
    ++ leBytes 2 link ++ leBytes 6 (k.kind + (if k.paired then 16 else 0) + (if k.begun then 32 else 0) + (if k.stopped then 64 else 0)))

/-- An open stream of a hart slot (R203, R344). -/
def Stream.record (t : Stream) : List Byte :=
  padTo 32 (leBytes 8 t.desc.toNat ++ leBytes 8 t.reply.toNat ++ leBytes 8 (bitsOf t.desc.toNat 28 22) ++ leBytes 8 t.unacked)

/-- What a core section is written from: the core, the harts saved on it by number, the bases and bytes that belong to them,
and whether the core passes to another context. -/
structure Section where
  core : Nat
  unit : Core
  harts : List (Nat × Hart)
  /-- launch sequence number, cohort, block, scratchpad offset and state of each block -/
  blocks : List (Nat × Nat × Nat × Nat × Nat)
  /-- the scratchpad bytes of each block whose hart 0 is here -/
  scratch : List (List Byte)
  outbox : List Msg
  passes : Bool
  deriving DecidableEq, Repr

/-- The 32 KiB of core state (R344). -/
def Section.state (g : Section) : List Byte :=
  let c := g.unit
  let mask := (g.harts.map (fun e => 2 ^ slotOf e.1)).sum
  let queue := c.engine.filter (fun k => g.harts.any (fun e => e.1 == k.hart))
  let at_ (i : Nat) : Option Hart := (g.harts.find? (fun e => slotOf e.1 == i)).map Prod.snd
  padTo 64 (leBytes 2 g.core ++ leBytes 1 mask ++ leBytes 1 g.blocks.length ++ leBytes 2 c.tickets)
    ++ dwords ((List.range 8).map (fun i => BitVec.ofNat 64 (((at_ i).map Hart.tcmBase).getD 0)))
    ++ padTo 384 (g.blocks.flatMap (fun b =>
        leBytes 8 b.2.2.1 ++ leBytes 8 b.2.1 ++ leBytes 8 b.1 ++ leBytes 8 b.2.2.2.1 ++ leBytes 8 b.2.2.2.2 ++ leBytes 8 0))
    ++ padTo 512 (padTo 256 (c.ring.flatMap (leBytes 4)) ++ leBytes 4 0 ++ leBytes 4 c.ring.length)
    ++ dwords ((List.range 256).map (fun t => Tab.get c.tags 0 t))
    ++ padTo 1024 (padTo 64 ((c.array.filter (fun t => queue.any (fun k => k.ticket == t))).flatMap (leBytes 2)) ++ leBytes 8 c.scaleBase.toNat ++ leBytes 8 c.scales.length
        ++ (queue.filter EngCmd.begun).flatMap (fun k => leBytes 2 k.ticket))
    ++ padTo 6144 (c.inbox.flatMap Msg.record) ++ padTo 1536 (g.outbox.flatMap Msg.record) ++ List.replicate 512 0
    ++ padTo 8192 (queue.flatMap EngCmd.record)
    ++ (List.range 8).flatMap (fun i => (List.range 4).flatMap (fun n =>
        (((at_ i).bind (fun x => x.streams.look n)).map Stream.record).getD (List.replicate 32 0)))
    ++ List.replicate 11264 0

/-- Harts of one core in the order of their slots. -/
def bySlot (hs : List (Nat × Hart)) : List (Nat × Hart) := (List.range 8).filterMap (fun i => hs.find? (fun e => slotOf e.1 == i))

/-- A core section (R344), filled to a multiple of 4 KiB; the flag word stands in the record of hart `first`. -/
def Section.bytes (g : Section) (s : State) (first : Option Nat) (maf : Nat) : List Byte :=
  let c := g.unit
  toPage (g.state ++ padTo 8192 (c.scales.flatMap (leBytes 2))
    ++ g.harts.flatMap (fun e => c.tcm.readBytes e.2.tcmBase (e.2.tcmSize + 2048)) ++ g.scratch.flatten
    ++ (if g.passes then c.acc.readBytes 0 Config.accBytes ++ c.lid.readBytes 0 Config.lidBytes else [])
    ++ g.harts.flatMap (fun e => toPage (hartBytes e.2 s.cycle (if some e.1 = first then maf else 0)
        (wctlWord (s.quotaOf e.1)))))

/-- The open-fork table of the world section: for each fork its hart and its children's tags (log 16). -/
def forkBytes (e : Nat × Hart) : List Byte :=
  match e.2.fork with
  | some f => padTo 16 (leBytes 4 e.1 ++ leBytes 4 f.tags.length ++ f.tags.flatMap (leBytes 1))
  | none => []

/-- Hart 0 of a context, whose record holds the flag word: the one with the lowest number (DESIGN CHOICE, log 17). -/
def State.firstHart (s : State) (pasid : Nat) : Option Nat :=
  ((s.harts.filter (fun e => s.hartOf pasid e.1 e.2)).map Prod.fst).min?

/-- A save area's bytes: header, core sections and world section, with the digest over all but the header (R344). -/
def imageOf (s : State) (pasid : Nat) (gs : List Section) : List Byte :=
  let c := Tab.get s.ctxs {} pasid
  let ws := (s.worlds.filter (fun w => w.2.pasid == pasid && w.2.state != .free)).map (fun w => w.2.bytes)
  let body := gs.flatMap (fun g => g.bytes s (s.firstHart pasid) c.maf.toNat) ++ ws.flatten ++ gs.flatMap (fun g => g.harts.flatMap forkBytes)
  padTo 4096 (leBytes 8 1 ++ leBytes 4 pasid ++ leBytes 2 c.gang ++ leBytes 2 0 ++ leBytes 8 (s.cycle / 256) ++ leBytes 4 gs.length
    ++ leBytes 4 0 ++ leBytes 8 (4096 + body.length) ++ List.replicate 24 0 ++ Sha.digest body) ++ body

/-- Bytes that a section takes, without forming them (R344, R345). -/
def Section.size (g : Section) : Nat :=
  let page (n : Nat) : Nat := (n + 4095) / 4096 * 4096
  page (32768 + 8192 + (g.harts.map (fun e => e.2.tcmSize + 2048)).sum + (g.scratch.map List.length).sum
    + (if g.passes then Config.accBytes + Config.lidBytes else 0) + (g.harts.map (fun e => page (8192 + 128 * e.2.window))).sum)

/-- Bytes that a save of a context's sections takes. -/
def imageSize (s : State) (pasid : Nat) (gs : List Section) : Nat :=
  4096 + (gs.map Section.size).sum + 32 * (s.worlds.filter (fun w => w.2.pasid == pasid && w.2.state != .free)).length
    + (gs.flatMap (fun g => g.harts.flatMap forkBytes)).length

end Sys2Proof.Machine
end

