-- ==== Sys2Proof/Machine/Worlds.lean ====
section
/-! DEFINITION. The world instructions and the instrumentation of a hart: SYS minors 10 and 12 with the PC match (R268 to
R278, R290 to R309). -/

namespace Sys2Proof.Machine

/-! ### Forking (R271, R272) -/

/-- X(d) written and control falls through. -/
def answer (o : Args) (w : W64) (s : State) : Out := .next (s.onMe (fun x => (x.setX o.d.toNat w).advance o.words))

/-- The `n` bytes that a load reaches (R271, R283, R287). -/
def State.recordBytes (s : State) (h n : Nat) (va : W64) (p : Reached) : List Byte :=
  match p with
  | .at l => (List.range n).map (fun i => BitVec.ofNat 8
      (s.readElem h (s.hart h).tag (va + BitVec.ofNat 64 i) (l.plus i) 1))
  | .answer (.data bs) => bs
  | .answer _ | .far _ => []

/-- Tags free on the device, in increasing order (R271, R294). -/
def State.freeTags (s : State) : List Nat := ((List.range 63).map (· + 1)).filter (fun t => (Tab.get s.worlds {} t).state == .free)

/-- The lowest place for an external log of 24 KiB in a context's overlay area that no world of it has. -/
def logSlot (s : State) (base : Nat) : (fuel : Nat) → (i : Nat) → Nat
  | 0, i => base + 24576 * i
  | n + 1, i =>
    if s.worlds.any (fun w => w.2.state != .free && w.2.logbase == base + 24576 * i) then logSlot s base n (i + 1)
    else base + 24576 * i

/-- Child i of a fork of hart h: its world entry and its launch copy (R271, R272). -/
def State.addChild (s : State) (h : Nat) (r : LaunchRec) (addr : W64) (tag i : Nat) : State :=
  let x := s.hart h
  let p := ctxOf s h
  let n := s.nextLaunch
  let root := s.launchOf h
  let w : World :=
    { parent := x.tag, index := i, depth := x.wdepth + 1, state := .running, quota := (s.quotaOf h).1, pasid := p
      logbase := logSlot s (s.ctx h).ovbase 64 0, launch := n }
  let l : Launch :=
    { record := r, addr, pasid := p, queue := none, forker := some h, parent := x.home.map Home.launch
      tie := (root.map Launch.tie).getD 0, tag, windex := i, wdepth := x.wdepth + 1 }
  { s with worlds := Tab.ins (Tab.del s.worlds tag) tag w, launches := Tab.ins s.launches n l, nextLaunch := n + 1 }

/-- The fork made, its release done (R271). -/
def State.fork (s : State) (h k : Nat) (r : LaunchRec) (addr : W64) : State × W64 :=
  let tags := s.freeTags.take k
  let first := s.nextLaunch
  let t := tags.zipIdx.foldl (fun s e => s.addChild h r addr e.1 e.2) s
  let x := s.hart h
  let u := if x.tag = 0 then t else t.onWorld x.tag (fun w => { w with state := .sealed, kids := k })
  (u.onHart h (fun x => { x with fork := some { tags, launches := (List.range k).map (· + first) } }),
   BitVec.ofNat 64 ((tags.zipIdx.map (fun e => e.1 * 64 ^ e.2)).sum + k * 2 ^ 48))

/-- `w.fork`: its checks in the order of R271, its release, then the children. -/
def execWFork (o : Args) (s : State) : Out :=
  let h := s.cur
  let x := s.me
  let addr := x.X o.a.toNat
  let k := (x.X o.b.toNat).toNat
  let i := Instr.wFork o
  let job := standardJob i .load 128 addr 0 x
  guarded i s
    (if k < 1 ∨ k > 8 ∨ addr.toNat % 128 ≠ 0 then illegal i s
     else if x.fork.isSome then answer o (BitVec.ofNat 64 (2 ^ 56)) s
     else standardPlace job s (fun p s =>
       let bs := s.recordBytes h 128 addr p
       if !recordOk bs (s.ctx h).cap false then answer o (BitVec.ofNat 64 (2 * 2 ^ 56)) s
       else if x.wdepth = 4 then trap 26 2 s
       else if s.freeTags.length < k then trap 26 1 s
       else if s.overlayUsed (ctxOf s h) + 6 * k > (s.ctx h).ovpages then trap 26 3 s
       else afterRelease 8 3 s (fun s =>
         let r := s.fork h k (LaunchRec.ofBytes bs) addr
         answer o r.2 r.1)))

/-! ### Joining, asking and abandoning (R273, R274) -/

/-- Has a world finished (R272)? -/
def State.worldDone (s : State) (tag : Nat) : Bool := (Tab.get s.worlds {} tag).state == .finished

/-- `w.join`. -/
def execWJoin (o : Args) (s : State) : Out :=
  guarded (.wJoin o) s (match s.me.fork with
    | none => answer o 3 s
    | some f => if f.tags.all s.worldDone then answer o 0 (s.acquire s.cur 3) else .next (s.onMe (fun x => x.block 9)))

/-- `w.abandon`. -/
def execWAbandon (o : Args) (s : State) : Out :=
  guarded (.wAbandon o) s (match s.me.fork with
    | none => answer o 3 s
    | some _ => answer o 0 ((s.closeFork s.cur).acquire s.cur 3))

/-- `w.query`. -/
def execWQuery (o : Args) (s : State) : Out :=
  let i := (s.me.X o.a.toNat).toNat
  guarded (.wQuery o) s (match s.me.fork.bind (fun f => f.tags[i]?) with
    | none => answer o 2 s
    | some t =>
      let w := Tab.get s.worlds {} t
      answer o (BitVec.ofNat 64 ((if w.state = .finished then 1 else 0) + t * 2 ^ 8 + w.pages.length % 2 ^ 32 * 2 ^ 16
        + w.log.length * 2 ^ 48)) s)

/-! ### Choosing (R273, R307, R308) -/

/-- A version of world c published as its parent's line, which a core's code fetch sees after its next `fence.i` (R88): the root's
bytes, or the parent's version in place of the one it may have; the invalidations of the copies of the line that it replaces reach every core with the commit, which is one publication,
so that the next acquire of any hart drops them all (R221, R226, R308). -/
def State.commitLine (s : State) (p : Nat) (v : Version) : State :=
  let base := v.line * 128
  let s := s.noteBytes p base 128
  if p = 0 then s.writePublished 0 none (v.bytes.zipIdx.map (fun b => (base + b.2, b.1)))
  else
    let t := (List.range 128).foldl (fun s i => s.keepOld p (base + i) none) s
    ({ t with vers := t.vers.filter (fun (w : Version) => !(w.tag == p && w.line == v.line)) ++ [{ v with tag := p }] }).orderNow p v.line

/-- Every line of world c committed into p, and its pages taken by p (R291, R308). -/
def State.commitWorld (s : State) (c p : Nat) : State :=
  let vs := s.vers.filter (fun v => v.tag == c)
  let t := vs.foldl (fun s v => s.commitLine p v) { s with vers := s.vers.filter (fun v => v.tag != c) }
  let ps := (Tab.get s.worlds {} c).pages
  let u := t.onWorld c (fun w => { w with pages := [] })
  if p = 0 then u else u.onWorld p (fun w => { w with pages := w.pages ++ ps.filter (fun q => !w.pages.contains q) })

/-- Bytes that a store entry writes. -/
def LogRec.stores (e : LogRec) : List LaneReq :=
  ((List.range 128).filter (fun i => e.bmask.getLsbD i)).map (fun i =>
    { lane := i, addr := e.addr + BitVec.ofNat 64 i, b := (e.data.getD i 0).setWidth 64 })

/-- The access that a store or atomic entry stands for, as the choosing hart's own (R273, R305). -/
def LogRec.access (e : LogRec) (x : Hart) (words : List W32) : MemJob :=
  let base : MemJob := { kind := .store, size := 1, lanes := e.stores, pc := x.pc, words, tag := x.tag, mode := x.mode, mstatus := x.csr.mstatus }
  if e.kind = 1 then base
  else
    let a := BitVec.ofNat 64 (leNat (e.data.take 8))
    let b := BitVec.ofNat 64 (leNat ((e.data.drop 8).take 8))
    let op := e.op % 16
    { base with kind := .amoNr, size := if e.op / 16 = 1 then 8 else 4, op
                lanes := [{ lane := 0, addr := e.addr, b := if op = 9 then b else a, c := if op = 9 then a else 0 }] }

/-- A store or atomic of a log performed, or entered in the operand log where its page misses, it names the domain window, whose gate
admitted it when it was logged, or a world or host fault holds it; false where it has to wait (R225, R232, R273, R281). -/
def State.replayAccess (s : State) (e : LogRec) (words : List W32) : Bool × State :=
  let h := s.cur
  let job := e.access s.me words
  if s.me.ordered ∨ s.me.conflicts job then (false, s)
  else
    let r := s.rewalkAll h job.pc (job.lanes.map LaneReq.addr) job.kind.need
    let t := r.2
    if !r.1 then (false, t)
    else if t.needsEntry h job ∨ (t.worldFault h job (t.placeOf h job)).isSome then
      (if t.me.freeEntry < 8 then (true, t.onMe (fun x => x.enterLog job)) else (false, t))
    else
      let ls := t.located h job
      match t.movedPages ls with
      | p :: _ => (false, t.refuse h job.pc p.1 p.2)
      | [] =>
        let w := t.clearWay h t.me.nextOrder job (ls.map Prod.snd)
        (w.1, if w.1 then w.2.perform h job ls else w.2)

/-- A message of a log sent by the choosing hart, at the replay's time, or the opening word of a stream; none where the
outbox is full (R307). -/
def State.replayMessage (s : State) (m : Msg) : Option State :=
  let x := s.me
  let c := s.core s.myCore
  if s.outbox s.myCore ≥ 16 then none
  else some (s.send { m with source := s.myCore, hart := s.cur, time := s.cycle % 2 ^ 48, key := bitsOf (c.gateField 0) 15 0
                             put := none, pasid := ctxOf s s.cur, wtag := x.tag })

/-- A copy command of a log entered in the engine queue as the choosing hart's, with its captured bytes, a new ticket and no
barrier; none where the queue has no room (R305, R307). -/
def State.replayCopy (s : State) (i : Instr) (e : LogRec) (stream : List Byte) : Option State :=
  match copyDesc (e.data.take 64) with
  | none => some s
  | some d =>
    if !s.entriesFor s.cur 1 then none
    else
      let o : Args := if e.cword = 0 then {} else parseArgs 0x100 e.cword 0 0 0
      let k := { commandOf i o e.op s with cop := { d with bar := 0 }, captured := some stream }
      let r := s.takeCommands s.myCore [k]
      some ((r.2.onCore s.myCore (fun c => { c with engine := c.engine ++ r.1, tickets := (c.tickets + 1) % 65536 })).onMe (fun x =>
        { x with engFlags := x.engFlags ++ r.1.map (fun k => ⟨k.ticket, 15, e.op == 2⟩), nextOrder := x.nextOrder + 1 }))

/-- The next entry of a chosen child's log replayed by the hart, and the entries left; none where it waits (R273, R307). -/
def State.replayOne (s : State) (i : Instr) (e : LogRec) (es : List LogRec) : State × Option (List LogRec) :=
  let orWait (t : Option State) (es : List LogRec) : State × Option (List LogRec) := (t.getD s, if t.isSome then some es else none)
  match e.kind with
  | 1 | 2 =>
    let r := s.replayAccess e ((encode i ++ [0, 0]).take 3)
    (r.2, if r.1 then some es else none)
  | 3 =>
    match e.msg with
    | some m => orWait (s.replayMessage m) es
    | none => (s, some es)
  | 5 =>
    let c := continuations es
    orWait (s.replayCopy i e c.1) c.2
  | 4 =>
    (s.onFn (s.ctx s.cur).link (fun f =>
      let v := Tab.get f.vectors {} e.addr.toNat
      let w : Vector := { v with n := v.n + 1, start := if v.n = 0 then s.cycle / 256 else v.start }
      { f with vectors := Tab.set f.vectors {} e.addr.toNat w }), some es)
  | _ => (s, some es)

/-- Entries replayed one after another as far as they go. -/
def replayAll (i : Instr) : (fuel : Nat) → List LogRec → State → State × List LogRec
  | 0, es, s => (s, es)
  | n + 1, es, s =>
    match es with
    | [] => (s, [])
    | e :: rest =>
      match s.replayOne i e rest with
      | (t, some rest') => replayAll i n rest' t
      | (t, none) => (t, es)

/-- The siblings of child n stopped (R273, R308). -/
def State.stopSiblings (s : State) (f : Fork) (n : Nat) : State :=
  (f.tags.eraseIdx n).foldl (fun s t => s.endWorld 6 t) s

/-- The rest of `w.choose`, its lines committed: the log is replayed, or in a non-root world entered in that world's log;
then the fork closes, and the acquire (R273, R308). A replayed access that waits for its page holds the instruction. -/
def finishChoose (o : Args) (f : Fork) (es : List LogRec) (s : State) : Out :=
  let i := Instr.wChoose o
  let own := s.me.tag
  let r := if own = 0 then replayAll i 129 es s else (s.appendLog own es, [])
  let keep (es : List LogRec) (s : State) : State := s.onMe (fun x => { x with fork := some { f with commit := some es } })
  if r.2 ≠ [] then .next ((keep r.2 r.1).onMe (fun x => x.block 15))
  else if r.1.me.oplog.any (fun e => e.2.engine.isNone && e.2.job.pc == r.1.me.pc) then
    .next ((keep [] r.1).onMe (fun x => x.block 15))
  else answer o 0 ((r.1.closeFork s.cur).acquire s.cur 3)

/-- `w.choose`. Once its commit is made, it goes on with the replay whenever it issues again; its siblings have ended, and their tags
are no longer its fork's (R273, R308). -/
def execWChoose (o : Args) (s : State) : Out :=
  let n := (s.me.X o.a.toNat).toNat
  guarded (.wChoose o) s (match s.me.fork with
    | none => answer o 3 s
    | some f =>
      match f.commit with
      | some es => finishChoose o f es s
      | none =>
        match f.tags[n]? with
        | none => answer o 5 s
        | some t =>
          let own := s.me.tag
          let log := (Tab.get s.worlds {} t).log
          if !s.worldDone t then answer o 4 s
          else if own ≠ 0 ∧ (Tab.get s.worlds {} own).log.length + log.length > 128 then trap 26 4 s
          else
            let u := ((s.stopSiblings f n).commitWorld t own).onWorld t (fun w => { w with log := [] })
            let f := { f with tags := [t] }
            finishChoose o f log (u.onMe (fun x => { x with fork := some f })))

/-! ### Instrumentation (R277, R278) -/

/-- Count of a context's counters (R378). -/
def Context.ccount (c : Context) : Nat := bitsOf (Tab.get c.profile 0 1).toNat 12 0

/-- `bbhint n`: a no-return atomic on the root's counter at its home, whatever the hart's world (R277). -/
def execBbhint (o : Args) (s : State) : Out :=
  let c := s.ctx s.cur
  let n := o.d.toNat * 64 + o.a.toNat
  let a := (Tab.get c.profile 0 0).toNat + 8 * n
  guarded (.bbhint o) s
    (if c.ccount = 0 then illegal (.bbhint o) s
     else if n ≥ c.ccount then .next (s.onMe (fun x => x.advance o.words))
     else .next ((s.putDword a ((s.dword a + 1) % 2 ^ 64)).onMe (fun x => x.advance o.words)))

/-- `pcm.hnd`. -/
def execPcmHnd (o : Args) (s : State) : Out :=
  guarded (.pcmHnd o) s (.next (s.onMe (fun x => { x with pcmHnd := x.X o.a.toNat &&& ~~~ 3#64 }.advance o.words)))

/-- x1 to x31 of a register table. -/
def mainRegs (t : Tab W64) : Tab W64 := t.filter (fun e => e.1 != 0)

/-- The lowest enabled PC-match entry at a pc (R44, R278). -/
def Hart.matchAt (x : Hart) : Option Nat :=
  (List.range 16).find? (fun i =>
    let w := Tab.get x.pcmdat 0 i
    w.getLsbD 0 && (w &&& ~~~ 3#64) == x.pc)

/-- Is a PC match due: U mode, an enabled entry at the pc, a handler, and no return that issues the matched instruction now
(R278)? -/
def Hart.matchDue (x : Hart) : Option Nat :=
  if x.mode = .u ∧ ¬ x.inShadow ∧ ¬ x.tinker ∧ x.pcmHnd ≠ 0 ∧ ¬ x.passed then x.matchAt else none

/-- PC_MATCH: the hart switches to the shadow context at the handler (R278). -/
def execPcMatch (s : State) : Out :=
  let x := s.me
  match x.matchDue with
  | some i =>
    let y := { x with
      x := x.shadowX, shadowX := x.x, shadowPc := x.pc, pc := x.pcmHnd, mode := .s, inShadow := true
      attP := x.att, att := {}, wait := {} }
    .next (s.setMe ((y.setX 10 x.pc).setX 11 (BitVec.ofNat 64 i)))
  | none => .next s

/-- `pcm.ret`: the main registers, pc and attachment return, and the matched instruction issues without being matched again: nothing but
a halt comes between (R278). The shadow context's saved pc stays the matched pc (DESIGN CHOICE, log 66). -/
def execPcmRet (o : Args) (s : State) : Out :=
  guarded (.pcmRet o) s (.next (s.onMe (fun x =>
    { x with
      x := x.shadowX, shadowX := x.x, pc := x.shadowPc, mode := .u, inShadow := false, att := x.attP, attP := {}
      instret := x.instret + 1, wait := {}, passed := true })))

end Sys2Proof.Machine
end

