-- ==== Sys2Proof/Machine/Save.lean ====
section
/-! DEFINITION. Placing blocks, giving cores to contexts, and saving and restoring cohorts (R14, R15, R25, R43, R146, R196,
R207, R222, R265, R266, R313, R334, R339, R343, R353, R396). -/

namespace Sys2Proof.Machine

/-! ### Units and reservations -/

/-- Every cohort of every launch: launch number, cohort number, launch, cohort. -/
def State.cohorts (s : State) : List (Nat × Nat × Launch × Cohort) :=
  s.launches.flatMap (fun l => l.2.cohorts.map (fun c => (l.1, c.1, l.2, c.2)))

/-- Does a cohort hold its reservations (R24)? -/
def Phase.holds : Phase → Bool
  | .placed | .resident | .saving | .returning => true
  | .swapped | .retired => false

/-- Scratchpad ranges of a cluster that blocks hold, with those of blocks about to be placed. -/
def State.scratchHeld (s : State) (cluster : Nat) (more : List (Block × Nat)) : List (Nat × Nat) :=
  let bs := (s.cohorts.filter (fun e => e.2.2.2.phase.holds)).flatMap (fun e => e.2.2.2.blocks.map (fun b => (b, e.2.2.1.record.scratch)))
  ((bs ++ more).filter (fun b => b.1.cluster == cluster && !b.1.retired)).map (fun b => (b.1.scratchBase, b.2))

/-- Has the context a swapped cohort that is bound to a core (R25)? -/
def State.boundTo (s : State) (pasid core : Nat) : Bool :=
  s.cohorts.any (fun e => e.2.2.1.pasid == pasid && e.2.2.2.phase == .swapped
    && e.2.2.2.blocks.any (fun b => b.harts.any (fun h => coreOf h == core)))

/-- Does a cluster serve another context than `pasid`: a block of one, or a handler of one that has no swapped cohort there, or that has
a release or an engine command under way, occupies it (R14, R343, R396)? -/
def State.foreign (s : State) (pasid cluster : Nat) : Bool :=
  s.harts.any (fun e =>
    let core := coreOf e.1
    let q := (s.core core).holder
    !e.2.tinker && !e.2.slotFree && core < Config.cores && clusterOf core == cluster && q != some pasid
      && !(e.2.handler && e.2.rel.isNone && e.2.engFlags == [] && q.any (fun q => s.boundTo q core)))

/-- Do two byte ranges share a byte, or is the first empty? -/
def apartFrom (a n : Nat) (r : Nat × Nat) : Bool := n == 0 || a + n ≤ r.1 || r.1 + r.2 ≤ a

/-! ### Harts and cores that are saved (R34, R43, R146, R196, R222, R345, R396) -/

/-- A hart as it is saved: what it waited for is kept for its record, a `pause` interval as the clk that remain, and its
reservation is lost (R34, R345). -/
def Hart.asSaved (x : Hart) (now : Nat) : Hart :=
  { x with resident := false, rel := none, pauseEnd := x.pauseEnd - now, reservation := none }

/-- A saved hart as it comes back: it issues its instruction again, in the place in line that it had; its log entries walk again unless
a trap is held, but for answers that are under way; its translation waits begin anew (R34, R176, R320, R353). -/
def Hart.restored (x : Hart) (now : Nat) : Hart :=
  { x with
    wait := if x.wait.code = 4 ∨ x.wait.code = 7 ∨ x.wait.code = 12 then { a := BitVec.ofNat 64 x.wait.code } else {}
    heldSeq := none, lastIssue := now, pauseEnd := if x.pauseEnd = 0 then 0 else x.pauseEnd + now
    oplog := x.oplog.mapVals (fun e => if e.state = .held then e else { e with state := .walking }) }

/-- The lines with unpublished stores that a core's L1 holds go to the L2 as pending (R214, R343). -/
def State.pendAll (s : State) (core : Nat) : State :=
  ((((s.core core).unpub.filter (fun u => u.loc.place == .hbm && !u.evicted)).map Unpub.key).dedup).foldl (fun s key => s.pendLine core key) s

/-- A core's own state as its context keeps it when it leaves: no copy stays, so that nothing older than what the context's harts may
read comes back (R222); the accumulator store, the lid, the scale cache and the ticket count are kept only where the core was
saved (R43, R146, R236, R245). -/
def Core.leaving (c : Core) (saved : Bool) : Core :=
  let d := { c with l1 := [], old := [], defer := [], l1tlb := [] }
  if saved then d else { d with acc := [], lid := [], scaleBase := 0, scales := [], tickets := 0 }

/-- A cluster passes to another context, or to none: its TLB and the L1 TLBs of its cores drop what they hold (R316). -/
def State.passCluster (s : State) (cluster : Nat) (heir : Option Nat) : State :=
  if (s.cluster cluster).ctx = heir then s
  else (List.range 4).foldl (fun (s : State) i => s.onCore (cluster * 4 + i) (fun c => { c with l1tlb := [] }))
    (s.onCluster cluster (fun k => { k with ctx := heir, tlb := [] }))

/-- What a save of some cohorts, or of a core that passes on with its handlers, writes of a core (R344, R396): every hart on it that is
saved, the block records of every cohort, and the scratchpads of the blocks whose hart-in-block 0 is there. -/
def State.coreSection (s : State) (cs : List (Nat × Nat × Launch × Cohort)) (handlers passes : Bool) (core : Nat) : Section :=
  let on (h : Nat) : Bool := coreOf h == core
  let bs := cs.flatMap (fun e => (e.2.2.2.blocks.zipIdx.filter (fun b => !b.1.retired)).map (fun b => (e.2.2.1, e.2.1, b.2, b.1)))
  let hs := (cs.flatMap (fun e => e.2.2.2.allHarts)).filter on
  let spawned := if handlers then s.harts.filter (fun e => on e.1 && e.2.handler && !e.2.tinker) else []
  { core, unit := s.core core, harts := bySlot (hs.map (fun h => (h, s.hart h)) ++ spawned)
    blocks := (bs.filter (fun b => b.2.2.2.harts.any on)).map (fun b =>
      (b.1.record.seq.toNat, b.2.1, b.2.2.1, b.2.2.2.scratchBase, if b.2.2.2.harts.any (fun h => (s.hart h).dbg.halted) then 3 else 2))
    scratch := (bs.filter (fun b => (b.2.2.2.harts.head?.map coreOf) == some core)).map (fun b =>
      (s.cluster b.2.2.2.cluster).scratch.readBytes b.2.2.2.scratchBase b.1.record.scratch)
    outbox := s.net.filter (fun m => m.source == core && !m.inbound), passes }

/-- A place for `size` bytes in a context's standing save area, beside what is saved there and `more` ranges in it (R336, R342). -/
def State.standingWith (s : State) (pasid size : Nat) (more : List (Nat × Nat)) : Option Nat :=
  let x : Context := Tab.get s.ctxs {} pasid
  let page (n : Nat) : Nat := (n + 4095) / 4096 * 4096
  let held := (s.cohorts.filterMap (fun e => if e.2.2.1.pasid = pasid then e.2.2.2.saved.map (fun v => (v.area, v.size)) else none))
    ++ x.away.map (fun (a : Away) => (a.area, a.size))
  if x.svbase + x.svpages * 4096 ≤ Config.hbmBytes then
    (fitAt 4096 (((held.filter (fun r => r.2 != 0)).map (fun r => (r.1 - x.svbase, page r.2))) ++ more.map (fun r => (r.1 - x.svbase, page r.2)))
      (x.svpages * 4096) (page size)).map (x.svbase + ·)
  else none

/-- The same beside what is saved there. -/
def State.standing (s : State) (pasid size : Nat) : Option Nat := s.standingWith pasid size []

/-- The context that holds a core leaves it: what it left there goes with it, the core's state, its handlers and its outbox. The
stores of the core are saved where a swapped cohort or a handler of the context is to return there, or its whole context is
saved (R43, R146, R196, R396), and then the core's section is written to the standing save area, unless another save has written it
(`written`; R334, R343, R347, log 17). A cluster that it holds no core of any more passes to none (R316). -/
def State.leaveCore (s : State) (core : Nat) (whole written : Bool) : State :=
  let t := (s.acquireCore core).pendAll core
  let c := t.core core
  let hs := t.harts.filter (fun e => coreOf e.1 == core && e.2.handler && !e.2.tinker)
  let out := t.net.filter (fun m => m.source == core && !m.inbound)
  match c.holder with
  | none => s
  | some q =>
    let x : Context := Tab.get t.ctxs {} q
    let kept := whole || hs != [] || t.boundTo q core
    let g := t.coreSection [] true true core
    let size := imageSize t q [g]
    let area := if kept && !written then t.standing q size else none
    let a : Away :=
      { core, unit := c.leaving kept, harts := hs.map (fun e => (e.1, e.2.asSaved t.cycle)), outbox := out
        area := area.getD 0, size := if area.isSome then size else 0 }
    let y := { x with away := x.away.filter (fun (a : Away) => a.core != core) ++ [a] }
    let u := hs.foldl (fun (s : State) (e : Nat × Hart) => s.setHart e.1 Hart.vacant) t
    let net := u.net.filter (fun m => !(m.source == core && !m.inbound))
    let v : State := { (u.setCore core { c.cleared with holder := none }) with ctxs := Tab.set u.ctxs {} q y, net }
    let v : State := match area with
      | some pa => v.putHbm pa (imageOf t q [g])
      | none => v
    let k := clusterOf core
    if (v.cluster k).ctx = some q ∧ (List.range 4).all (fun i => (v.core (k * 4 + i)).holder != some q) then v.passCluster k none else v

/-- A cluster given to a context: another context leaves every core of it (R14). -/
def State.takeCluster (s : State) (pasid cluster : Nat) : State :=
  let t := (List.range 4).foldl (fun (s : State) i =>
    let core := cluster * 4 + i
    if (s.core core).holder.any (· != pasid) then s.leaveCore core false false else s) s
  t.passCluster cluster (some pasid)

/-- Core `core` is given to a context, with its cluster. What the context left there earlier returns, its handlers going on where they
were, and a core new to it is clear (R14, R43, R146, R196, R396). -/
def State.takeCore (s : State) (pasid core : Nat) : State :=
  let t := s.takeCluster pasid (clusterOf core)
  let c := t.core core
  if c.holder = some pasid then t
  else
    let x : Context := Tab.get t.ctxs {} pasid
    match x.away.find? (fun (a : Away) => a.core == core) with
    | some a =>
      let y := { x with away := x.away.filter (fun (a : Away) => a.core != core) }
      let back := { a.unit with gate := c.gate, predictor := c.predictor, dm := c.dm, pipes := c.pipes, holder := some pasid }
      let t := { t with ctxs := Tab.set t.ctxs {} pasid y, net := t.net ++ a.outbox }
      let hs := a.harts.map Prod.fst
      let u := a.harts.foldl (fun (s : State) (e : Nat × Hart) => s.setHart e.1 { e.2.restored s.cycle with resident := e.2.live }) t
      u.setCore core (({ back with engine := back.engine.map (fun (k : EngCmd) => if hs.contains k.hart then { k with stopped := false } else k) } : Core).repromise
        u.cycle)
    | none => t.setCore core { c.cleared with holder := some pasid }

/-! ### Placing (R14, R339) -/

/-- A hart of a new block placed: its slot, registers and TCM; none where its core has no room (R14, R20). -/
def State.placeHart (s : State) (l : Launch) (p : Home) (cluster : Nat) : Option (Nat × State) :=
  let core := cluster * 4 + p.hib / 8
  match (List.range 8).find? (fun i => (s.hart (hartAt core i)).slotFree),
        fitAt 1 (s.tcmHeld core) Config.tcmBytes l.record.tcmShare with
  | some i, some base =>
    if s.poolFree core < l.record.window p.hib then none
    else
      let h := hartAt core i
      some (h, s.setHart h (s.freshHart l p base))
  | _, _ => none

/-- A block placed on a cluster, hart by hart (R14). -/
def placeHarts (l : Launch) (n c b cluster : Nat) : (k : Nat) → State → Option (List Nat × State)
  | 0, s => some ([], s)
  | k + 1, s =>
    match placeHarts l n c b cluster k s with
    | some (hs, t) => (t.placeHart l { launch := n, cohort := c, block := b, hib := k } cluster).map (fun r => (hs ++ [r.1], r.2))
    | none => none

/-- A block of a cohort placed on a cluster that has room for it, with its scratchpad. -/
def State.placeBlock (s : State) (l : Launch) (n c b cluster : Nat) (sofar : List Block) : Option (Block × State) :=
  if s.foreign l.pasid cluster then none
  else match fitAt 256 (s.scratchHeld cluster (sofar.map (fun b => (b, l.record.scratch)))) Config.scratchBytes l.record.scratch with
    | none => none
    | some base =>
      let t := (List.range l.record.coresOf).foldl (fun s k => s.takeCore l.pasid (cluster * 4 + k)) s
      (placeHarts l n c b cluster l.record.harts t).map (fun r => ({ harts := r.1, cluster, scratchBase := base }, r.2))

/-- The first cluster of a list that takes a block. -/
def placeOn (s : State) (l : Launch) (n c b : Nat) (sofar : List Block) : List Nat → Option (Block × State)
  | [] => none
  | k :: ks => match s.placeBlock l n c b k sofar with
    | some r => some r
    | none => placeOn s l n c b sofar ks

/-- Every block of a cohort placed on some clusters, in order (R339). -/
def placeBlocks (l : Launch) (n c : Nat) (clusters : List Nat) : (k : Nat) → State → Option (List Block × State)
  | 0, s => some ([], s)
  | k + 1, s =>
    match placeBlocks l n c clusters k s with
    | some (bs, t) => (placeOn t l n c k bs clusters).map (fun r => (bs ++ [r.1], r.2))
    | none => none

/-- The clusters of a rectangle in row-major order. -/
def rectClusters (r : Nat × Nat × Nat × Nat × Nat) : List Nat :=
  let (die, row, col, hh, ww) := r
  (List.range hh).flatMap (fun i => (List.range ww).map (fun j => die * 64 + (row + i) * 8 + (col + j)))

/-- Rectangles of a die in the order in which they are tried: increasing area up to 16, row-major corner, increasing height
(R15, R339). -/
def rectsOf (die : Nat) : List (Nat × Nat × Nat × Nat × Nat) :=
  (List.range 16).flatMap (fun a => (List.range 64).flatMap (fun k => ((List.range (a + 1)).map (· + 1)).filterMap (fun hh =>
    if (a + 1) % hh = 0 ∧ k / 8 + hh ≤ 8 ∧ k % 8 + (a + 1) / hh ≤ 8 then some (die, k / 8, k % 8, hh, (a + 1) / hh) else none)))

/-- Contexts with a block on a die. -/
def State.contextsOn (s : State) (die : Nat) : Nat :=
  ((s.harts.filter (fun e => !e.2.tinker && !e.2.slotFree && coreOf e.1 / 256 == die)).filterMap (fun e =>
    (s.core (coreOf e.1)).holder)).dedup.length

/-- Dies in the order in which they are tried: increasing number of resident contexts, then increasing number (R339). -/
def State.dieOrder (s : State) : List Nat :=
  sortBy (fun a b => s.contextsOn a ≤ s.contextsOn b) (List.range Config.cdies)

/-- Clusters that hold none of another context, of a die's rectangle. -/
def State.fitRect (s : State) (l : Launch) (n c : Nat) (r : Nat × Nat × Nat × Nat × Nat) : Option (List Block × State) :=
  let cs := rectClusters r
  if cs.any (fun k => s.foreign l.pasid k) then none else placeBlocks l n c cs l.record.blocks s

/-- The placing of cohort c of launch n on the first of some rectangles that takes it (R339). -/
def State.fitAmong (s : State) (n c : Nat) (rs : List (Nat × Nat × Nat × Nat × Nat)) :
    Option ((Nat × Nat × Nat × Nat × Nat) × List Block × State) :=
  (s.launches.look n).bind (fun l => rs.findSome? (fun r => (s.fitRect l n c r).map (fun p => (r, p))))

/-- The placing of a cohort anywhere on the module (R339). -/
def State.fitCohort (s : State) (n c : Nat) : Option ((Nat × Nat × Nat × Nat × Nat) × List Block × State) :=
  s.fitAmong n c (s.dieOrder.flatMap rectsOf)

/-- A cohort placed for the first time as a fit says: its reservations are made (R24). -/
def State.install (s : State) (n c : Nat) (f : (Nat × Nat × Nat × Nat × Nat) × List Block) : State :=
  let k : Cohort := { blocks := f.2, phase := .placed, since := s.cycle, placing := s.placings, rect := f.1 }
  { s.onLaunch n (fun l => { l with cohorts := Tab.ins (Tab.del l.cohorts c) c k, next := l.next + 1 }) with
    placings := s.placings + 1 }

/-! ### Stopping (R222, R265, R308, R343) -/

/-- A command told to stop for a save: one that has not started, or is at a boundary, stops at once, and so does one that waits for its
stopped hart; one that `oplog.drop` has ended runs out (R265, R335, log 46). -/
def State.askStop (s : State) (core : Nat) (gang : Bool) (k : EngCmd) : State :=
  let k := { k with stopping := true, gangStop := gang || k.gangStop }
  s.onCore core (fun c =>
    if k.started.isNone || k.atBoundary || s.parked k then c.stopCommand k s.cycle
    else { c with engine := c.engine.map (fun e => if e.ticket = k.ticket then k else e) })

/-- The engine commands of some harts on a core told to stop, for a gang switch or another save (R265, R335). -/
def State.stopEngine (s : State) (core : Nat) (hs : List Nat) (gang : Bool) : State :=
  ((s.core core).engine.filter (fun k => hs.contains k.hart && !k.stopped && !k.dropped)).foldl (fun s k => s.askStop core gang k) s

/-- Is the hart's `w.choose` past step 2 of R308? It completes before the hart is saved (R313). -/
def Hart.committing (x : Hart) : Bool := (x.fork.bind Fork.commit).isSome

/-- Some harts stop at their next instruction boundary, and their engine commands are told to stop (R343). -/
def State.stopHarts (s : State) (hs : List Nat) (gang : Bool := false) : State :=
  let t := hs.foldl (fun s h => s.onHart h (fun x => if x.committing then x else { x with resident := false })) s
  ((hs.map coreOf).dedup).foldl (fun s core => s.stopEngine core hs gang) t

/-- Do requests of a hart to other modules await their answers? -/
def Hart.asking (x : Hart) : Bool :=
  x.oplog.any (fun e => e.2.asked.any (fun l => !Tab.has e.2.answers l.1 && !Tab.has e.2.fails l.1)) || (x.wait.code == 17 && x.wait.a == 2)
    || x.ops.any (fun p => p.acks != [])

/-- Has a hart's release come as far as a save takes it: it is complete, or waits for an entry of the operand log whose trap the stopped
hart would have to take, or at a gang switch for an answer that is swept with the network, and begins anew (R222, R343, R347,
DEDUCED, log 17)? -/
def State.releaseOver (s : State) (h : Nat) (gang : Bool) : Bool :=
  match (s.hart h).rel with
  | some scope => s.releaseDone h scope || (s.hart h).oplog.any (fun e => e.2.state == .held) || (gang && (s.hart h).asking)
  | none => true

/-- Have some harts stopped as a save asks: no release is under way, no commit, no engine command that has not stopped, and, but in a
gang switch, which sweeps them, no request to another module (R265, R308, R343, R347)? -/
def State.stoppedAll (s : State) (hs : List Nat) (gang : Bool) : Bool :=
  hs.all (fun h => s.releaseOver h gang && !(s.hart h).committing && (gang || !(s.hart h).asking))
    && ((hs.map coreOf).dedup).all (fun c => (s.core c).engine.all (fun k => !hs.contains k.hart || k.stopped))

/-! ### Numbers of swapped harts -/

/-- Hart numbers changed in what a core keeps by them. -/
def Core.renamed (c : Core) (f : Nat → Nat) : Core :=
  { c with
    engine := c.engine.map (fun k => { k with hart := f k.hart }), unpub := c.unpub.map (fun u => { u with hart := f u.hart })
    engineWait := c.engineWait.map f, claims := c.claims.map f, queueWait := c.queueWait.map (fun e => (f e.1, e.2)) }

/-- Hart numbers changed in what a hart keeps by them. -/
def Hart.renamed (x : Hart) (f : Nat → Nat) : Hart :=
  { x with scReads := x.scReads.map (fun r => (f r.1, r.2)), queued := x.queued.map (fun k => { k with hart := f k.hart }) }

/-- Hart numbers changed wherever the module keeps something by them. -/
def State.renamed (s : State) (f : Nat → Nat) : State :=
  let both (e : Nat × Hart) : Nat × Hart := (e.1, e.2.renamed f)
  { s with
    cores := s.cores.mapVals (fun c => c.renamed f), harts := s.harts.map both
    trackers := s.trackers.mapVals (fun t => { t with harts := t.harts.map f, readers := t.readers.map f })
    net := s.net.map (fun m => if m.inbound then m else { m with hart := f m.hart }), awaited := s.awaited.map (fun m => { m with hart := f m.hart })
    ctxs := s.ctxs.mapVals (fun c => { c with away := c.away.map (fun a => { a with unit := a.unit.renamed f, harts := a.harts.map both }) })
    launches := s.launches.mapVals (fun l => { l with cohorts := l.cohorts.mapVals (fun k =>
      { k with saved := k.saved.map (fun v => { v with harts := v.harts.map both }) }) }) }

/-- The new number of a hart by a list of pairs. -/
def renamer (ps : List (Nat × Nat)) (h : Nat) : Nat := ((ps.find? (fun p => p.1 == h)).map Prod.snd).getD h

/-! ### Saving and restoring a cohort (R25, R343, R353) -/

/-- Does a core pass to another context when some harts leave it: no other hart of the context stays there? -/
def State.lastOn (s : State) (core : Nat) (hs : List Nat) : Bool :=
  !s.harts.any (fun e => coreOf e.1 == core && !e.2.tinker && !e.2.slotFree && !e.2.handler && !hs.contains e.1)

/-- The core sections of a cohort (R344). -/
def State.sections (s : State) (n c : Nat) : List Section :=
  match (s.launches.look n).bind (fun l => (l.cohorts.look c).map (fun k => (l, k))) with
  | none => []
  | some (l, k) =>
    let hs := k.allHarts
    ((hs.map coreOf).dedup).map (fun core => s.coreSection [(n, c, l, k)] false (s.lastOn core hs) core)

/-- The cores of stopped harts made ready for a save: deferred invalidations are applied, and lines with unpublished stores go to the
L2 as pending (R222, R343). -/
def State.settleCores (s : State) (hs : List Nat) : State :=
  ((hs.map coreOf).dedup).foldl (fun s core => (s.acquireCore core).pendAll core) s

/-- Is an unpublished store one of some harts, or of their engine commands (R209, R237)? -/
def Core.keeps (c : Core) (hs : List Nat) (u : Unpub) : Bool :=
  hs.contains u.hart || c.engine.any (fun k => hs.contains k.hart && k.writer == u.hart)

/-- What a stopped cohort's save holds. -/
def State.savedOf (s : State) (l : Launch) (k : Cohort) (area size : Nat) (digest : List Byte) : Saved :=
  let hs := k.allHarts
  let cores := (hs.map coreOf).dedup
  let part (m : Memory) (a n : Nat) : Memory := m.filter (fun c => a ≤ c.1 && c.1 < a + n)
  let mine (c : Core) (u : Unpub) : Bool := u.loc.place != .hbm && c.keeps hs u
  { harts := hs.map (fun h => (h, (s.hart h).asSaved s.cycle))
    tcm := hs.map (fun h => (coreOf h, part (s.core (coreOf h)).tcm (s.hart h).tcmBase ((s.hart h).tcmSize + 2048)))
    scratch := (k.blocks.filter (fun b => !b.retired)).map (fun b => (b.cluster, part (s.cluster b.cluster).scratch b.scratchBase l.record.scratch))
    unpub := cores.map (fun c => (c, (s.core c).unpub.filter (mine (s.core c))))
    area, size, digest }

/-- Unpublished stores to a range of a place dropped, on some cores. -/
def State.dropStores (s : State) (cores : List Nat) (l : Loc) (n : Nat) : State :=
  cores.foldl (fun (s : State) core => s.onCore core (fun c =>
    { c with unpub := c.unpub.filter (fun u => !(u.loc.place == l.place && l.off ≤ u.loc.off && u.loc.off < l.off + n)) })) s

/-- A cohort's scratchpad cleared, with what other harts have stored there and not published. -/
def State.clearScratch (s : State) (l : Launch) (k : Cohort) : State :=
  (k.blocks.filter (fun b => !b.retired)).foldl (fun s b =>
    (s.onCluster b.cluster (fun c => { c with scratch := c.scratch.clear b.scratchBase l.record.scratch })).dropStores
      ((List.range 4).map (b.cluster * 4 + ·)) ⟨.scratch b.cluster, b.scratchBase⟩ l.record.scratch) s

/-- The TCM of a hart on a core, with its spill area, cleared. -/
def State.clearTcm (s : State) (h : Nat) (x : Hart) : State :=
  (s.onCore (coreOf h) (fun c => { c with tcm := c.tcm.clear x.tcmBase (x.tcmSize + 2048) })).dropStores [coreOf h]
    ⟨.tcm (coreOf h), x.tcmBase⟩ (x.tcmSize + 2048)

/-- The reservations of a cohort released and its contents gone from its cores; its engine commands and its unpublished stores to device
memory stay there under their harts' new numbers (R24, R209, R236, R343). -/
def State.releaseCohort (s : State) (l : Launch) (k : Cohort) : State :=
  let hs := k.allHarts
  let t := ((hs.map coreOf).dedup).foldl (fun s core => s.onCore core (fun c =>
    { c with unpub := c.unpub.filter (fun u => u.loc.place == .hbm || !c.keeps hs u) })) s
  let t := hs.foldl (fun s h => (s.clearTcm h (s.hart h)).setHart h Hart.vacant) t
  (t.clearScratch l k).renamed (renamer k.swapIds)

/-- A stopped cohort saved into an area, where one is given: its image written there, its state kept, its reservations released
(R343). -/
def State.saveCohort (s : State) (n c : Nat) (area : Option Nat) : State :=
  match (s.launches.look n).bind (fun l => (l.cohorts.look c).map (fun k => (l, k))) with
  | none => s
  | some (l, k) =>
    let t := s.settleCores k.allHarts
    let img := imageOf t l.pasid (t.sections n c)
    let v := t.savedOf l k (area.getD 0) (if area.isSome then img.length else 0) ((img.drop 64).take 32)
    let u := ((t.onCohort n c (fun k => { k with saved := some v })).releaseCohort l k).onCohort n c (fun k =>
      { k with phase := .swapped, since := s.cycle })
    match area with
    | some a => u.putHbm a img
    | none => u

/-- Bytes that a save of a cohort takes (R344). -/
def State.sizeOf (s : State) (n c : Nat) : Nat :=
  imageSize s (((s.launches.look n).map Launch.pasid).getD 0) (s.sections n c)

/-- A cohort saved into its context's standing save area; where its state does not fit there, it is kept without its bytes
(log 17). -/
def State.saveStanding (s : State) (n c : Nat) : State :=
  s.saveCohort n c (s.standing (((s.launches.look n).map Launch.pasid).getD 0) (s.sizeOf n c))

/-- May a swapped cohort return to its own slots, registers, TCM and scratchpad, its context being bound: no other context works on its
clusters, and neither its own cohorts nor the handlers that come back with a core hold what is the cohort's (R25, R286, R396)? -/
def State.mayReturn (s : State) (l : Launch) (k : Cohort) : Bool :=
  let x : Context := Tab.get s.ctxs {} l.pasid
  match k.saved with
  | none => false
  | some v =>
    let cores := (v.harts.map (fun e => coreOf e.1)).dedup
    let t := cores.foldl (fun (s : State) c => s.takeCore l.pasid c) s
    x.bound && !x.killed && cores.all (fun c => !s.foreign l.pasid (clusterOf c))
      && v.harts.all (fun e => (t.hart e.1).slotFree
        && (t.tcmHeld (coreOf e.1)).all (apartFrom e.2.tcmBase (e.2.tcmSize + 2048)))
      && cores.all (fun c => ((v.harts.filter (fun e => coreOf e.1 == c && e.2.live)).map (fun e => e.2.window)).sum ≤ t.poolFree c)
      && (k.blocks.filter (fun b => !b.retired)).all (fun b =>
        (s.scratchHeld b.cluster []).all (apartFrom b.scratchBase l.record.scratch))

/-- A swapped cohort placed again on its own cores, the latest of all placings; its state is written back, its commands are free to start
again with their promises computed anew, and its harts do not issue yet (R24, R25, R264, R266, R342). -/
def State.returnCohort (s : State) (n c : Nat) : State :=
  match (s.launches.look n).bind (fun l => (l.cohorts.look c).map (fun k => (l, k))) with
  | none => s
  | some (l, k) =>
    match k.saved with
    | none => s
    | some _ =>
      let put (m cells : Memory) : Memory := cells.foldl (fun m c => Memory.write m c.1 c.2) m
      let hs := k.allHarts
      let t := ((hs.map coreOf).dedup).foldl (fun s core => s.takeCore l.pasid core) s
      let t := (t.clearScratch l k).renamed (renamer (k.swapIds.map (fun p => (p.2, p.1))))
      match ((t.launches.look n).bind (fun l => l.cohorts.look c)).bind Cohort.saved with
      | none => t
      | some v =>
        let t := v.harts.foldl (fun s e => (s.clearTcm e.1 e.2).setHart e.1 (e.2.restored s.cycle)) t
        let t := v.tcm.foldl (fun s e => s.onCore e.1 (fun c => { c with tcm := put c.tcm e.2 })) t
        let t := v.scratch.foldl (fun s e => s.onCluster e.1 (fun c => { c with scratch := put c.scratch e.2 })) t
        let t := v.unpub.foldl (fun s e => s.onCore e.1 (fun c => { c with unpub := c.unpub ++ e.2 })) t
        let t := ((hs.map coreOf).dedup).foldl (fun s core => s.onCore core (fun c =>
          ({ c with engine := c.engine.map (fun k => if hs.contains k.hart then { k with stopped := false } else k) } : Core).repromise s.cycle)) t
        let t := { t with placings := t.placings + 1 }
        (t.onCohort n c (fun k =>
          { k with phase := .returning, saved := none, parked := false, ganged := false, ceded := false, placing := s.placings })).onLaunch n
          (fun l => { l with started := true })

/-- A placed or returning cohort becomes resident: a first residency starts with its TCM and scratchpad zeroed and sees every store so
far in its code; its harts acquire and may issue (R24, R25, R26, R88, R207, R208, R393). -/
def State.makeResident (s : State) (n c : Nat) : State :=
  match (s.launches.look n).bind (fun l => (l.cohorts.look c).map (fun k => (l, k))) with
  | none => s
  | some (l, k) =>
    let t := if k.phase = .placed then
        (k.allHarts.foldl (fun s h => (s.clearTcm h (s.hart h)).onHart h (fun x => { x with fenceSeq := s.writes })) s).clearScratch l k
      else s
    let t := ((k.allHarts.map coreOf).dedup).foldl (fun s core => s.acquireCore core) t
    let t := k.allHarts.foldl (fun s h => s.onHart h (fun x => { x with resident := x.live })) t
    (t.onCohort n c (fun k => { k with phase := .resident, since := s.cycle, quantum := s.cycle })).onLaunch n (fun l => { l with started := true })

/-- The state after a hart's retirement, where its next instruction is the `ecall` that retires it, nothing of R48 or R377 comes before it
at its boundary, and the clk has an issue left for it: a core issues two, and none twice for one hart (R10, R28, R30). -/
def State.retiresNow (s : State) (h : Nat) : Option State :=
  let x := s.hart h
  let issued (e : Nat × Hart) : Bool := coreOf e.1 == coreOf h && s.cycle != 0 && e.2.lastIssue == s.cycle
  if x.live && x.resident && !x.dbg.halted && x.mode == .u && x.X 17 == 0 && !x.tinker && s.peek h == some .ecall
      && !x.defers && x.interruptDue.isNone && x.matchDue.isNone && !s.userDue h
      && (x.triggered (some .ecall) true).isNone && (x.triggered (some .ecall) false).isNone
      && (s.harts.filter issued).length < 2 && !issued (h, x) then
    match retire { s with cur := h, trapped := false } with
    | .next t => if (t.hart h).live then none else some { t with cur := s.cur, trapped := s.trapped }
    | _ => none
  else none

/-- The state after the retirement of some harts, each in turn, in one clk: none where one does not retire, or a core would issue more than
two instructions (R28, R30). -/
def State.retireAll (s : State) : List Nat → Option State
  | [] => some s
  | h :: hs => (s.retiresNow h).bind (fun t => t.retireAll hs)

/-- The state after the retirement of the last harts of some, which comes before a halt or a swap that reaches them in the same clk
(R28). -/
def State.lastOf (s : State) (hs : List Nat) : Option State :=
  let live := hs.filter (fun h => (s.hart h).live)
  if live = [] ∨ live.any (fun h => (live.filter (fun k => coreOf k == coreOf h)).length > 2) then none else s.retireAll live

/-- The harts of a hart's block. -/
def State.blockHarts (s : State) (h : Nat) : List Nat :=
  let block := (s.hart h).home.bind (fun p =>
    (s.launches.look p.launch).bind (fun l => (l.cohorts.look p.cohort).bind (fun k => k.blocks[p.block]?)))
  (block.map Block.harts).getD []

/-- The same for the last hart of a resident cohort. -/
def State.lastRetirement (s : State) (n c : Nat) : Option State :=
  match (s.launches.look n).bind (fun l => l.cohorts.look c) with
  | some k => if k.phase = .resident then s.lastOf k.allHarts else none
  | none => none

/-- A cohort told to stop for a save: its harts issue nothing more (R343). One that is not resident yet becomes so first, since only a
resident or halted block is swapped (R24). -/
def State.beginSave (s : State) (n c : Nat) (f : Cohort → Cohort) : State :=
  match (s.launches.look n).bind (fun l => l.cohorts.look c) with
  | none => s
  | some k =>
    let t := if k.phase = .placed ∨ k.phase = .returning then s.makeResident n c else s
    (t.stopHarts k.allHarts).onCohort n c (fun k => f { k with phase := .saving })

end Sys2Proof.Machine
end

