-- ==== Sys2Proof/Machine/Debug.lean ====
section
/-! DEFINITION. The debug modules, triggers, and interrupts of S and M mode (R47, R48, R372 to R377). -/

namespace Sys2Proof.Machine

/-! ### Interrupts of S and M mode (R47, R48) -/

/-- INTERRUPT_TAKEN: the hart takes its pending interrupt at the boundary; `sepc` or `mepc` is the pc of the next instruction,
and the attachment is saved (R47, R84). A deferred trap that may be taken there comes first (R48). -/
def execInterruptTaken (s : State) : Out :=
  let x := s.me
  if !x.live ∨ !x.resident ∨ x.dbg.halted ∨ x.idle ∨ x.defers then .next s
  else match x.interruptDue with
    | some i => .next (takeTrap s.cur true i 0 s)
    | none => .next s

/-! ### Triggers (R372, R377) -/

/-- TRIGGER_MATCH: a trigger of the hart matches what it is about to execute: Debug Mode for action 1, a breakpoint exception
with the address in `stval` otherwise (R372, R377). -/
def execTriggerMatch (s : State) : Out :=
  let i := s.peek s.cur
  let hit (n : Nat) (x : Hart) : Hart :=
    { x with dbg := { x.dbg with triggers := Tab.set x.dbg.triggers {} n { Tab.get x.dbg.triggers {} n with hit := true } } }
  match s.me.triggered i true with
  | some (n, _) => .next (s.onMe (fun x => (hit n x).enterDebug 2))
  | none =>
    match s.me.triggered i false with
    | some (n, a) => trap 3 a (s.onMe (hit n))
    | none => .next s

/-! ### Halting and resuming (R374, R375) -/

/-- HALTREQ: a debugger halts the hart at its boundary; for a hart that is not resident, or on a tinker, the request is
discarded, and the retirement of its block's last hart comes first (R28, R374, R375). -/
def execHaltreq (s : State) : Out :=
  let x := s.me
  let asked (s : State) : State := s.onCore s.myCore (fun c => { c with dm := { c.dm with halts := c.dm.halts.erase (slotOf s.cur) } })
  if x.tinker then .next s
  else if !x.live ∨ !x.resident ∨ x.dbg.halted then .next (asked s)
  else match s.lastOf (s.blockHarts s.cur) with
    | some t => .next (asked t)
    | none => .next (asked (s.setMe (x.enterDebug 3)))

/-- The mode that `dcsr.prv` names. -/
def debugMode (dcsr : W64) : Mode := if bitsOf dcsr.toNat 1 0 = 3 then .m else if bitsOf dcsr.toNat 1 0 = 1 then .s else .u

/-- RESUMEREQ: a halted hart returns to its `dpc`, in the mode of `dcsr.prv`; with `dcsr.step` it halts again after one
instruction (R372, R374). -/
def execResumereq (s : State) : Out :=
  let x := s.me
  let n := slotOf s.cur
  let asked (s : State) : State := s.onCore s.myCore (fun c =>
    { c with dm := { c.dm with resumes := c.dm.resumes.erase n, acks := c.dm.acks.erase n ++ [n] } })
  if !x.dbg.halted then .next s
  else
    .next (asked <| s.setMe { x with
      pc := x.dbg.dpc, mode := debugMode x.dbg.dcsr, wait := {}
      dbg := { x.dbg with halted := false, running := none, stepping := x.dbg.dcsr.getLsbD 2 } })

/-! ### Abstract commands (R372) -/

/-- The CSR that a register number names, as a debugger accesses it: read from the hart in Debug Mode. -/
def debugView (s : State) (h : Nat) : State :=
  { s with cur := h } |>.onHart h (fun x => { x with dbg := { x.dbg with running := some 0 }, mode := .m })

/-- May a debugger write a CSR: no read-only number, and on a compute hart not `satp` (R12, R317)? -/
def debugWritable (n : Nat) : Bool := bitsOf n 11 10 != 3 && n != 0x180

/-- The program buffer started: its words, from position 0 (R372). -/
def Hart.runBuffer (x : Hart) (ws : List W32) : Hart :=
  { x with dbg := { x.dbg with running := some 0, progbuf := ws.take 4 }, pc := 0 }

/-- The register access that a command word asks of a core's selected hart; a command of another type, or of a width other than 64
bits, is not supported (R372). -/
def dmCommand (core : Nat) (m : Dm) (w : W32) : RegAccess :=
  let n := w.toNat
  { hart := hartAt core (m.hartsel % 8), reg := bitsOf n 15 0, size := if n / 2 ^ 24 = 0 then bitsOf n 22 20 else 0
    write := if bitOf n 16 then some m.data else none, transfer := bitOf n 17 || n / 2 ^ 24 != 0, postexec := bitOf n 18
    progbuf := m.progbuf ++ List.replicate (4 - m.progbuf.length) 0 }

/-- ACCESS_REGISTER: an abstract command reads or writes a register of a halted hart through `data0`, and may start the
program buffer. `cmderr` is 2 for what is not supported, 3 for a register that cannot be accessed, 4 for a hart that is not
halted; while it is not 0 no command runs (R372). -/
def execAccessRegister (r : RegAccess) (s : State) : Out :=
  let h := r.hart
  let x := s.hart h
  let m := (s.core (coreOf h)).dm
  let put (s : State) (n : Dm) : State := s.onCore (coreOf h) (fun c => { c with dm := { n with command := none } })
  let fail (e : Nat) : Out := .next (put s { m with cmderr := e })
  let result (w : W64) : State := put s { m with data := w }
  let finish (s : State) : Out :=
    let t := s.onCore (coreOf h) (fun c => { c with dm := { c.dm with command := none } })
    .next (if r.postexec then t.onHart h (fun x => x.runBuffer r.progbuf) else t)
  if x.tinker ∨ h ≥ Config.harts then .next s
  else if m.cmderr ≠ 0 then .next (put s m)
  else if !x.live ∨ !x.resident then fail 4
  else if !x.dbg.halted then fail 4
  else if !r.transfer then finish s
  else if r.size ≠ 3 then fail 2
  else if 0x1000 ≤ r.reg ∧ r.reg < 0x1020 then
    match r.write with
    | some w => finish (s.onHart h (fun x => x.setX (r.reg - 0x1000) w))
    | none => finish (result (x.X (r.reg - 0x1000)))
  else if r.reg < 0x1000 then
    match csrValue (debugView s h) r.reg, r.write with
    | none, _ => fail 3
    | some v, none => finish (result v)
    | some _, some w =>
      if !debugWritable r.reg then fail 3
      else
        let t := csrPut { s with cur := h } r.reg w
        finish { t with cur := s.cur }
  else fail 2

end Sys2Proof.Machine
end

