-- ==== Sys2Proof/Machine/Restore.lean ====
section
/-! DEFINITION. A save area read back (R266, R283, R284, R320, R344, R345): its header and digest, its core sections, and what their
bytes lay out put into the saved state of the harts and cores that they name. -/

namespace Sys2Proof.Machine

/-! ### Hart records (R320, R345) -/

/-- A doubleword of a record. -/
def recWord (bs : List Byte) (off : Nat) : W64 := BitVec.ofNat 64 (recField bs off 8)

/-- `n` words of 4 bytes from an offset, as a table that lists those that are not 0 under keys from `first` up. -/
def recTab (bs : List Byte) (off n first : Nat) : Tab W32 :=
  (List.range n).foldl (fun t i => Tab.set t 0 (first + i) (BitVec.ofNat 32 (recField bs (off + 4 * i) 4))) []

/-- The same of doublewords. -/
def recTab64 (bs : List Byte) (off n first : Nat) : Tab W64 :=
  (List.range n).foldl (fun t i => Tab.set t 0 (first + i) (recWord bs (off + 8 * i))) []

/-- A privilege mode from its code. -/
def Mode.ofCode (n : Nat) : Mode := if n = 3 then .m else if n = 1 then .s else .u

/-- A word with the bits of a mask taken from another. -/
def mixed (mask old new : W64) : W64 := (old &&& ~~~mask) ||| (new &&& mask)

/-- A clause attachment from its byte (R345). -/
def Attach.ofByte (n : Nat) : Attach := { fa := BitVec.ofNat 4 n, fb := BitVec.ofNat 4 (n / 16) }

/-- The state of a log entry from its code; none for an entry that is free (R320). -/
def LogState.ofCode : Nat → Option LogState
  | 1 => some .walking
  | 2 => some .verdict
  | 3 => some .held
  | 4 => some .replaying
  | _ => none

/-- A log entry as its 832 bytes have it: its state, its page and, but for an engine command's, the lanes' addresses and values; none
where the bytes say that it is free (R320). -/
def LogEntry.ofRecord (e : LogEntry) (bs : List Byte) : Option LogEntry :=
  (LogState.ofCode (recField bs 26 1)).map (fun st =>
    let lane (q : LaneReq) : LaneReq :=
      let v := recWord bs (320 + 16 * q.lane)
      let w := recWord bs (328 + 16 * q.lane)
      if e.job.op = 9 ∧ e.job.kind ≠ .store then { q with addr := recWord bs (64 + 8 * q.lane), c := v, b := w }
      else { q with addr := recWord bs (64 + 8 * q.lane), b := v }
    { e with
      state := st, npage := recField bs 27 1, fva := recWord bs 32, pgroup := recField bs 40 2
      seq := recField bs 28 4 + recField bs 42 2 * 2 ^ 32
      job := if e.engine.isSome then e.job else { e.job with pc := recWord bs 0, lanes := e.job.lanes.map lane } })

/-- A saved hart as its record has it (R345). -/
def Hart.ofRecord (x : Hart) (bs : List Byte) : Hart :=
  let w (off : Nat) : W64 := recWord bs off
  let st := recField bs 0x100 8
  let kind := bitsOf st 11 4
  let lf := w 0x190
  let uc := w 0x1B8
  let flags := recField bs 0x1F0 8
  let window := if recField bs 0x1A0 8 = 0 ∨ recField bs 0x1A0 8 > 16 then x.window else recField bs 0x1A0 8 * 16
  let c := x.csr
  { x with
    x := recTab64 bs 0 31 1, pc := w 0x0F8
    mode := Mode.ofCode (bitsOf st 1 0), dbg := { x.dbg with halted := bitOf st 2 }, inShadow := bitOf st 3
    wait := if kind = x.wait.code then x.wait else if kind = 10 then {} else { code := kind }
    role := BitVec.ofNat 2 (bitsOf st 19 12), pauseEnd := recField bs 0x108 8
    csr := { c with
      stvec := w 0x118, sscratch := w 0x120, sepc := w 0x128, scause := w 0x130, stval := w 0x138
      mie := mixed c.mideleg c.mie (w 0x140), mip := mixed c.mideleg c.mip (w 0x148), scounteren := w 0x150, mstatus := w 0x158
      mepc := w 0x160, mcause := w 0x168, mtval := w 0x170, mscratch := w 0x178 }
    fflags := lf.setWidth 5, frm := lf.extractLsb' 5 3, ftz := lf.getLsbD 8
    depth := recField bs 0x198 8, window, uitvec := w 0x1A8, uiepc := w 0x1B0
    ucTag := uc.setWidth 8, ucPrio := uc.extractLsb' 8 2, uie := uc.getLsbD 31
    sbase := w 0x1C0, sshift := (w 0x1C8).setWidth 6, estat := (w 0x1D0).setWidth 5
    oplogidx := recField bs 0x1E0 1, pcmHnd := w 0x1E8
    att := Attach.ofByte (bitsOf flags 23 16), attS := Attach.ofByte (bitsOf flags 31 24)
    attM := Attach.ofByte (bitsOf flags 39 32), attU := Attach.ofByte (bitsOf flags 47 40)
    m := recTab bs 0x200 7 1
    stack := (List.range (min 16 (recField bs 0x198 8))).map (fun i => MaskEntry.ofBytes (bs.drop (0x220 + 32 * i)))
    pcmdat := recTab64 bs 0x420 16 0, shadowX := recTab64 bs 0x4A0 31 1, shadowPc := w 0x598
    oplog := x.oplog.filterMap (fun e => (e.2.ofRecord ((bs.drop (0x600 + 832 * e.1)).take 832)).map (fun y => (e.1, y)))
    v := recTab bs 0x2000 (32 * window) 0 }

/-! ### Messages, streams and engine commands (R192, R203, R266, R344) -/

/-- Are bytes all zero, as a record that is not in use is? -/
def blank (bs : List Byte) : Bool := bs.all (· == 0)

/-- A message as its 96 bytes have it, with what they do not lay out as the save kept it (R344, log 12). -/
def Msg.ofRecord (m : Msg) (bs : List Byte) : Msg :=
  let w := recField bs 0 8
  { m with
    tag := bitsOf w 7 0, source := bitsOf w 19 8, prio := bitsOf w 21 20, len := bitsOf w 28 22, last := bitOf w 30
    write := if bitOf w 31 then some (m.write.getD 0) else none
    gang := bitsOf w 47 32, srcModule := bitsOf w 57 48, remote := bitOf w 58
    reply := recWord bs 8, time := recField bs 16 6, key := recField bs 22 2, core := recField bs 24 2, dstModule := recField bs 26 2
    arrival := recField bs 28 4, payload := (bs.drop 32).take (bitsOf w 28 22) }

/-- Up to `n` message records from an offset of a core's state. -/
def messagesOf (old : List Msg) (state : List Byte) (off n : Nat) : List Msg :=
  (List.range n).filterMap (fun i =>
    let bs := (state.drop (off + 96 * i)).take 96
    if blank bs then none else some (((old[i]?).getD { core := 0, tag := 0, source := 0 }).ofRecord bs))

/-- The ready ring: its offsets from the head on (R202, R344). -/
def ringOf (state : List Byte) : List Nat :=
  let head := recField state 0x300 4
  (List.range (min 64 (recField state 0x304 4))).map (fun i => recField state (0x200 + 4 * ((head + i) % 64)) 4)

/-- The open streams of a hart slot (R203, R344). -/
def streamsOf (old : Tab Stream) (state : List Byte) (slot : Nat) : Tab Stream :=
  (List.range 4).filterMap (fun n =>
    let bs := (state.drop (0x5000 + 128 * slot + 32 * n)).take 32
    if blank bs then none
    else
      let t := (old.look n).getD { desc := 0, reply := 0 }
      some (n, { t with desc := recWord bs 0, reply := recWord bs 8, unacked := recField bs 24 8 }))

/-- An engine command as its entry has it: descriptors, what it captured, promise and progress. Bytes of it that were read and not yet
written are read again where the entry gives another place (R266). -/
def EngCmd.ofRecord (k : EngCmd) (bs : List Byte) : EngCmd :=
  let desc := bs.take 64
  let row := recField bs 136 4 * k.cop.rowbytes + recField bs 140 4
  let n := recField bs 136 8
  let k := { k with
    cop := if k.kind ≤ 4 then (copyDesc desc).getD k.cop else k.cop, mat := if k.kind = 5 then (matDesc desc).getD k.mat else k.mat
    sbase := recWord bs 64, sshift := recField bs 72 4, scount := recField bs 76 4, promise := recField bs 130 6 }
  if k.kind ≤ 4 then (if row = k.put then k else { k with put := row, got := row, buf := [] })
  else if k.kind = 5 then { k with blocks := k.blocks.take n }
  else { k with got := min k.got n, buf := k.buf.take (min k.got n) }

/-- The elements of a list that satisfy a test replaced in turn by those of another. -/
def replaceEach (p : Nat → Bool) : (new old : List Nat) → List Nat
  | _, [] => []
  | [], t => t
  | a :: as, b :: t => if p b then a :: replaceEach p as t else b :: replaceEach p (a :: as) t

/-- A core's engine as its section has it, as far as the commands of some harts go: one without an entry is gone, and the array's order is
that of the section (R266). -/
def Core.withQueue (c : Core) (hs : List Nat) (state : List Byte) : Core :=
  let recs := (List.range 32).map (fun i => (state.drop (0x3000 + 256 * i)).take 256)
  let mine (k : EngCmd) : Bool := hs.contains k.hart
  let found (k : EngCmd) : Option (List Byte) := recs.find? (fun r => !blank r && recField r 128 2 == k.ticket)
  let engine := c.engine.filterMap (fun k => if mine k then (found k).map k.ofRecord else some k)
  let array := c.array.filter (fun t => engine.any (fun k => k.ticket == t))
  let own (t : Nat) : Bool := engine.any (fun k => mine k && k.ticket == t)
  let order := (List.range (array.filter own).length).map (fun i => recField state (0xC00 + 2 * i) 2)
  { c with engine, array := if order.isPerm (array.filter own) then replaceEach own order array else array }

/-! ### World entries (R294, R313) -/

/-- A world's state from its code. -/
def WorldState.ofCode : Nat → WorldState
  | 1 => .running
  | 2 => .sealed
  | 3 => .finished
  | 4 => .ending
  | _ => .free

/-- A world entry as its 32 bytes have it; its pages and its log stay in the overlay area (R313). -/
def World.ofRecord (w : World) (bs : List Byte) : World :=
  let a := recField bs 0 4
  { w with
    parent := bitsOf a 5 0, index := bitsOf a 10 8, depth := bitsOf a 13 11, state := WorldState.ofCode (bitsOf a 18 16)
    kids := bitsOf a 23 20, quota := recField bs 4 4, logbase := recField bs 24 8 }

/-- The worlds of a context as the world section of its save has them, in the order of their tags. -/
def State.withWorlds (s : State) (pasid : Nat) (bs : List Byte) : State :=
  let tags := (s.worlds.filter (fun w => w.2.pasid == pasid && w.2.state != .free)).map Prod.fst
  tags.zipIdx.foldl (fun (s : State) t =>
    let r := (bs.drop (32 * t.2)).take 32
    if r.length = 32 then s.onWorld t.1 (fun w => w.ofRecord r) else s) s

/-! ### Core sections (R344) -/

/-- What a core section's bytes hold. -/
structure AreaSection where
  core : Nat
  /-- launch and number of each cohort with a block on the core -/
  cohorts : List (Nat × Nat)
  /-- the 40 KiB of core state and scale cache -/
  state : List Byte
  /-- each hart by number, with the bytes of its TCM allocation and its record -/
  harts : List (Nat × List Byte × List Byte)
  /-- launch, cohort, block and scratchpad bytes -/
  scratch : List ((Nat × Nat) × Nat × List Byte)
  /-- accumulator store and lid, where the core passed to another context -/
  acc : List Byte
  lid : List Byte
  deriving DecidableEq, Repr

/-- The swapped cohorts of a context. -/
def State.swappedOf (s : State) (pasid : Nat) : List (Nat × Nat × Launch × Cohort) :=
  s.cohorts.filter (fun e => e.2.2.1.pasid == pasid && e.2.2.2.saved.isSome)

/-- The saved hart with a number: of the cohorts of a section, or a handler that left its core with the context (R396). -/
def State.savedHart (s : State) (pasid : Nat) (cs : List (Nat × Nat)) (h : Nat) : Option Hart :=
  let own := (s.swappedOf pasid).flatMap (fun e => if cs.contains (e.1, e.2.1) then (e.2.2.2.saved.map Saved.harts).getD [] else [])
  let away := ((Tab.get s.ctxs {} pasid).away.filter (fun (a : Away) => a.core == coreOf h)).flatMap Away.harts
  ((own ++ away).find? (fun e => e.1 == h)).map Prod.snd

/-- A block record of a core section: block, cohort, launch sequence and scratchpad offset. -/
def blockRecord (bs : List Byte) (i : Nat) : Nat × Nat × Nat × Nat :=
  (recField bs (0x80 + 48 * i) 8, recField bs (0x88 + 48 * i) 8, recField bs (0x90 + 48 * i) 8, recField bs (0x98 + 48 * i) 8)

/-- The cohorts that block records of a core section name, each with its block: swapped ones of the context with that launch sequence and
cohort number, whose block starts at that scratchpad offset and has its harts of the core among the section's slots, and none twice.
Copies of a launch made by a `w.fork` share its sequence number: `hint` goes before others, the cohorts that the module wrote there. -/
def State.namedCohorts (s : State) (pasid core mask : Nat) (hint : List (Nat × Nat)) :
    (taken : List ((Nat × Nat) × Nat)) → List (Nat × Nat × Nat × Nat) → Option (List ((Nat × Nat) × Nat))
  | _, [] => some []
  | taken, (b, c, seq, base) :: rest =>
    let fits (e : Nat × Nat × Launch × Cohort) : Bool :=
      e.2.2.1.record.seq.toNat == seq && e.2.1 == c && !taken.contains ((e.1, c), b) && (e.2.2.2.blocks[b]?).any (fun k =>
        !k.retired && k.scratchBase == base && k.harts.any (fun h => coreOf h == core)
          && k.harts.all (fun h => coreOf h != core || bitOf mask (slotOf h)))
    let es := (s.swappedOf pasid).filter fits
    ((es.filter (fun e => hint.contains (e.1, e.2.1)) ++ es).head?).bind (fun e =>
      (s.namedCohorts pasid core mask hint (taken ++ [((e.1, c), b)]) rest).map (fun ns => ((e.1, c), b) :: ns))

/-- Bytes cut into pieces of the given lengths, and what is left. -/
def cutBytes : List Nat → List Byte → List (List Byte) × List Byte
  | [], bs => ([], bs)
  | n :: ns, bs => let r := cutBytes ns (bs.drop n); (bs.take n :: r.1, r.2)

/-- The core section that some bytes begin with, and the bytes after it; none where its harts or its blocks are not saved on the module.
`passes` says whether it holds the accumulator store and the lid. -/
def State.areaSection (s : State) (pasid : Nat) (hint : List (Nat × Nat)) (passes : Bool) (bs : List Byte) : Option (AreaSection × List Byte) :=
  let core := recField bs 0 2
  let mask := recField bs 2 1
  let blocks := (List.range (min 8 (recField bs 3 1))).map (blockRecord bs)
  (s.namedCohorts pasid core mask hint [] blocks).bind (fun named =>
    let cs := (named.map Prod.fst).dedup
    (((List.range 8).filter (bitOf mask)).mapM (fun i => (s.savedHart pasid cs (hartAt core i)).map (fun x => (hartAt core i, x)))).map (fun hs =>
      let here := named.filter (fun b => ((s.launches.look b.1.1).bind (fun l => (l.cohorts.look b.1.2).bind (fun k =>
        (k.blocks[b.2]?).bind (fun b => b.harts.head?)))).any (fun h => coreOf h == core))
      let share (b : (Nat × Nat) × Nat) : Nat := ((s.launches.look b.1.1).map (fun l => l.record.scratch)).getD 0
      let tcm := cutBytes (hs.map (fun e => e.2.tcmSize + 2048)) (bs.drop 40960)
      let scr := cutBytes (here.map share) tcm.2
      let acc := scr.2.take Config.accBytes
      let lid := (scr.2.drop Config.accBytes).take Config.lidBytes
      let rest := if passes then scr.2.drop (Config.accBytes + Config.lidBytes) else scr.2
      let page (n : Nat) : Nat := (n + 4095) / 4096 * 4096
      let recs := cutBytes (hs.map (fun e => page (8192 + 128 * e.2.window))) rest
      ({ core, cohorts := cs, state := bs.take 40960
         harts := (hs.map Prod.fst).zip (tcm.1.zip recs.1), scratch := here.zip scr.1 |>.map (fun b => (b.1.1, b.1.2, b.2))
         acc := if passes then acc else [], lid := if passes then lid else [] },
       bs.drop (page (bs.length - recs.2.length)))))

/-- The `n` core sections of an area, and what follows them, no more than a world section takes; a section of a cohort's save holds the accumulator
store and the lid or does not, as its length needs, and every one of a context's save holds them (R284, R344). -/
def State.areaSections (s : State) (pasid : Nat) (hint : List (Nat × Nat)) (whole : Bool) :
    (n : Nat) → List Byte → Option (List AreaSection × List Byte)
  | 0, bs => if bs.length < Config.accBytes then some ([], bs) else none
  | n + 1, bs =>
    let go (passes : Bool) : Option (List AreaSection × List Byte) :=
      (s.areaSection pasid hint passes bs).bind (fun g => (s.areaSections pasid hint whole n g.2).map (fun gs => (g.1 :: gs.1, gs.2)))
    if whole then go true else (go false).or (go true)

/-- The cohorts that the sections of an area hold. -/
def areaCohorts (gs : List AreaSection) : List (Nat × Nat) := (gs.flatMap AreaSection.cohorts).dedup

/-! ### An area found, checked, and put into the saved state (R284, R344) -/

/-- Bytes of device memory as its homes read them. -/
def State.areaBytes (s : State) (a n : Nat) : List Byte := (List.range n).map (fun i => s.hbmByte (a + i))

/-- The bytes of the save that an area of device memory holds, as its header has them; none where the header is no save of the
context. -/
def State.areaOf (s : State) (pasid area : Nat) : Option (List Byte) :=
  let head := s.areaBytes area 96
  let used := recField head 0x20 8
  if recField head 0 8 = 1 ∧ recField head 8 4 = pasid ∧ 4096 ≤ used ∧ area + used ≤ Config.hbmBytes then some (s.areaBytes area used)
  else none

/-- Does an area fail its digest, over all bytes but the header's (R344)? -/
def areaFails (img : List Byte) : Bool := Sha.digest (img.drop 4096) != (img.drop 64).take 32

/-- A saved hart as its core's section has it: its record, and its open streams. -/
def Hart.fromSection (x : Hart) (state : List Byte) (h : Nat) (bs : List Byte) : Hart :=
  { x.ofRecord bs with streams := streamsOf x.streams state (slotOf h) }

/-- The saved state of a cohort as the section of one of its cores has it. -/
def Saved.ofSection (v : Saved) (blocks : List Block) (c : Nat × Nat) (g : AreaSection) : Saved :=
  let mine (h : Nat) : Option (List Byte × List Byte) := (g.harts.find? (fun e => e.1 == h)).map Prod.snd
  let pad (b : Nat) : Option (List Byte) := (g.scratch.find? (fun e => e.1 == c && e.2.1 == b)).map (fun e => e.2.2)
  { v with
    harts := v.harts.map (fun e => (e.1, ((mine e.1).map (fun r => e.2.fromSection g.state e.1 r.2)).getD e.2))
    tcm := (v.harts.zip v.tcm).map (fun e => (e.2.1, ((mine e.1.1).map (fun r => Memory.writeBytes [] e.1.2.tcmBase r.1)).getD e.2.2))
    scratch := ((blocks.zipIdx.filter (fun b => !b.1.retired)).zip v.scratch).map (fun e =>
      (e.2.1, ((pad e.1.2).map (fun bs => Memory.writeBytes [] e.1.1.scratchBase bs)).getD e.2.2)) }

/-- What a context left on a core as the core's section has it: its handlers with their spill areas, its tags, its ready ring, the messages
of its inbox and outbox, and, where the section holds them, the accumulator store, the lid, the scale cache and the ticket count. -/
def Away.ofSection (a : Away) (g : AreaSection) : Away :=
  if a.core ≠ g.core then a
  else
    let mine (h : Nat) : Option (List Byte × List Byte) := (g.harts.find? (fun e => e.1 == h)).map Prod.snd
    let u := a.unit
    let tcm := a.harts.foldl (fun (m : Memory) e => ((mine e.1).map (fun r => m.writeBytes e.2.tcmBase r.1)).getD m) u.tcm
    let u := { u with tcm, tags := recTab64 g.state 0x400 256 0, ring := ringOf g.state, inbox := messagesOf u.inbox g.state 0x1000 64 }
    { a with
      harts := a.harts.map (fun e => (e.1, ((mine e.1).map (fun r => e.2.fromSection g.state e.1 r.2)).getD e.2))
      outbox := messagesOf a.outbox g.state 0x2800 16
      unit := if g.lid = [] then u
        else { u with
          acc := Memory.writeBytes [] 0 g.acc, lid := Memory.writeBytes [] 0 g.lid, tickets := recField g.state 4 2
          scaleBase := recWord g.state 0xC40
          scales := (List.range (min 4096 (recField g.state 0xC48 8))).map (fun i => recField g.state (0x8000 + 2 * i) 2) } }

/-- The numbers under which the harts of some saved cohorts have left engine commands. -/
def State.savedIds (s : State) (cs : List (Nat × Nat)) : List Nat :=
  cs.flatMap (fun c => (((s.launches.look c.1).bind (fun l => l.cohorts.look c.2)).map (fun k => k.swapIds.map Prod.snd)).getD [])

/-- The engine commands that an area's section holds, put into the core where it stays with the context, or into what the context left of
it. -/
def State.withCommands (s : State) (pasid : Nat) (g : AreaSection) : State :=
  let ids := s.savedIds g.cohorts ++ g.harts.map Prod.fst
  let x : Context := Tab.get s.ctxs {} pasid
  if x.away.any (fun (a : Away) => a.core == g.core) then
    { s with ctxs := Tab.set s.ctxs {} pasid { x with away := x.away.map (fun (a : Away) =>
        if a.core = g.core then { a with unit := a.unit.withQueue ids g.state } else a) } }
  else s.onCore g.core (fun c => c.withQueue ids g.state)

/-- The saved state of an area's cohorts, and of the cores that their context has left, as the area's bytes have it, with the world entries
where the context was saved whole. What R344 and R345 do not lay out stays as the save kept it (log 17). -/
def State.withArea (s : State) (pasid : Nat) (whole : Bool) (gs : List AreaSection) (worlds : List Byte) : State :=
  let t := gs.foldl (fun (s : State) g =>
    let t := g.cohorts.foldl (fun (s : State) (c : Nat × Nat) =>
      s.onCohort c.1 c.2 (fun k => { k with saved := k.saved.map (fun v => v.ofSection k.blocks c g) })) s
    let x : Context := Tab.get t.ctxs {} pasid
    { t with ctxs := Tab.set t.ctxs {} pasid { x with away := x.away.map (fun (a : Away) => a.ofSection g) } }.withCommands pasid g) s
  let t := if whole then t.withWorlds pasid worlds else t
  let x : Context := Tab.get t.ctxs {} pasid
  let hs := gs.flatMap AreaSection.harts
  match whole, hs.find? (fun e => some e.1 == (hs.map Prod.fst).min?) with
  | true, some h => { t with ctxs := Tab.set t.ctxs {} pasid { x with maf := (recWord h.2.2 0x1F8).setWidth _ } }
  | _, _ => t

end Sys2Proof.Machine
end

