-- ==== Sys2Proof/Machine/Context.lean ====
section
/-! DEFINITION. The tinker instructions over gates and contexts: SYS minors 13 and 14, and the completion of a save or load
request (R279 to R286). -/

namespace Sys2Proof.Machine

/-! ### Gates (R279, R281) -/

/-- Does a selector name a field of a core (R279)? -/
def selectorOk (w : Nat) : Bool := bitsOf w 11 0 < Config.cores && bitsOf w 19 16 ≤ 8 && bitsOf w 15 12 == 0 && w / 2 ^ 20 == 0

/-- The RW bits of a gate field (R279). -/
def gateMask (field : Nat) : W64 :=
  if field = 0 then 0x1FFFF else if field ≤ 4 then 0x1FFFFF01FFFFFF else 0xFFFFFFFFFFFFFFFF

/-- `gate.wr`: the field written at its core in one step; RSVD bits are ignored (R281). -/
def execGateWr (o : Args) (s : State) : Out :=
  let w := (s.me.X o.a.toNat).toNat
  let f := bitsOf w 19 16
  guarded (.gateWr o) s
    (if !selectorOk w then illegal (.gateWr o) s
     else .next ((s.onCore (bitsOf w 11 0) (fun c =>
       { c with gate := Tab.set c.gate 0 f (s.me.X o.b.toNat &&& gateMask f) })).onMe (fun x => x.advance o.words)))

/-- `gate.rd`: the field's value. -/
def execGateRd (o : Args) (s : State) : Out :=
  let w := (s.me.X o.a.toNat).toNat
  guarded (.gateRd o) s
    (if !selectorOk w then illegal (.gateRd o) s
     else answer o (Tab.get (s.core (bitsOf w 11 0)).gate 0 (bitsOf w 19 16)) s)

/-! ### Save and load requests (R283, R284) -/

/-- The request of 32 bytes, where it keeps its limits (R283). -/
def requestOf (bs : List Byte) (load : Bool) (tinker : Nat) : Option CtxRequest :=
  let target := recField bs 0 8
  let area := recField bs 8 8
  let limit := recField bs 16 8
  let done := recField bs 24 8
  let kind := bitsOf target 1 0
  let core := bitsOf target 13 2
  if kind ≤ 1 ∧ (if kind = 0 then core < Config.cores else core = 0) ∧ bitsOf target 19 14 = 0 ∧ target / 2 ^ 40 = 0
      ∧ area % 4096 = 0 ∧ area < Config.hbmBytes ∧ limit % 4096 = 0 ∧ limit ≠ 0 ∧ done % 8 = 0 then
    some { load, tinker, whole := kind == 1, core, pasid := bitsOf target 39 20, area, limit, done := BitVec.ofNat 64 done, busy := false }
  else none

/-- Is a switch of a gang armed or in progress on the module, its contexts still being saved after the window is sealed too
(R283, R287)? -/
def State.switching (s : State) (gang : Nat) : Bool :=
  let g := Tab.get s.gangs {} gang
  gang != 0 && (1 ≤ g.st && g.st ≤ 3 || g.leaving)

/-- Do two requests have one target, the whole of a context taken with its cohorts? -/
def CtxRequest.meets (r q : CtxRequest) : Bool := r.pasid == q.pasid && (r.whole || q.whole || r.core == q.core)

/-- `ctx.save` and `ctx.load`: the request is read as a load and accepted (R283, R284). -/
def request (i : Instr) (o : Args) (load : Bool) (s : State) : Out :=
  let h := s.cur
  let addr := s.me.X o.a.toNat
  let job := standardJob i .load 32 addr 0 s.me
  guarded i s
    (if addr.toNat % 32 ≠ 0 then illegal i s
     else standardPlace job s (fun p s =>
       match requestOf (s.recordBytes h 32 addr p) load h with
       | none => illegal i s
       | some r =>
         let gang := (Tab.get s.ctxs {} r.pasid).gang
         let busy := s.requests.any r.meets || s.switching gang
         .next ({ s with requests := s.requests ++ [{ r with busy }] }.onMe (fun x => x.advance o.words))))

/-- `ctx.save`. -/
def execCtxSave (o : Args) (s : State) : Out := request (.ctxSave o) o false s

/-- `ctx.load`. -/
def execCtxLoad (o : Args) (s : State) : Out := request (.ctxLoad o) o true s

/-! ### Performing a request (R283, R284, R343) -/

/-- The core of a block's hart-in-block 0. -/
def Block.firstCore (b : Block) : Option Nat := b.harts.head?.map coreOf

/-- Cohorts of a context, by launch and number, whose record satisfies a test. -/
def State.cohortsOf (s : State) (pasid : Nat) (p : Cohort → Bool) : List (Nat × Nat) :=
  (s.cohorts.filter (fun e => e.2.2.1.pasid == pasid && p e.2.2.2)).map (fun e => (e.1, e.2.1))

/-- Is block 0 of a cohort on a core? -/
def Cohort.startsOn (core : Nat) (k : Cohort) : Bool := ((k.blocks.head?).bind Block.firstCore) == some core

/-- Cores that a context holds. -/
def State.coresOf (s : State) (pasid : Nat) : List Nat := (s.cores.filter (fun c => c.2.holder == some pasid)).map Prod.fst

/-- Handler harts of a context on a core. -/
def State.handlersOn (s : State) (core : Nat) : List (Nat × Hart) :=
  s.harts.filter (fun e => coreOf e.1 == core && e.2.handler && !e.2.tinker)

/-- Sections of a target: those of a cohort, or of a context saved whole one for each core that it holds, with the blocks of every cohort
there, its handlers and its messages (R334, R344, R396). -/
def State.targetSections (s : State) (pasid : Nat) (whole : Bool) (cs : List (Nat × Nat)) : List Section :=
  if whole then (s.coresOf pasid).map (s.coreSection (s.cohorts.filter (fun e => cs.contains (e.1, e.2.1))) true true)
  else cs.flatMap (fun c => s.sections c.1 c.2)

/-- Harts that a request stops: those of some cohorts, and of a context saved whole its handlers (R343, R396). -/
def State.targetHarts (s : State) (r : CtxRequest) (cs : List (Nat × Nat)) : List Nat :=
  cs.flatMap (fun c => (((s.launches.look c.1).bind (fun l => l.cohorts.look c.2)).map Cohort.allHarts).getD [])
    ++ (if r.whole then (s.coresOf r.pasid).flatMap (fun c => (s.handlersOn c).map Prod.fst) else [])

/-- A target that has stopped saved into an area, with the bytes used (R343). -/
def State.saveTarget (s : State) (r : CtxRequest) (cs : List (Nat × Nat)) : State × Nat :=
  let x : Context := Tab.get s.ctxs {} r.pasid
  let t := s.settleCores (s.targetHarts r cs)
  let img := imageOf t r.pasid (t.targetSections r.pasid r.whole cs)
  let cores := t.coresOf r.pasid
  let t := cs.foldl (fun (s : State) (c : Nat × Nat) =>
    (s.saveCohort c.1 c.2 none).onCohort c.1 c.2 (fun k => { k with parked := true, ganged := r.whole })) t
  let t := if r.whole then cores.foldl (fun (s : State) (c : Nat) => s.leaveCore c true true) t else t
  let y : Context := Tab.get t.ctxs {} r.pasid
  let a : SaveArea := { pasid := r.pasid, gang := x.gang, whole := r.whole, cohorts := cs, cores, digest := (img.drop 64).take 32, used := img.length }
  (State.putHbm { t with
     ctxs := if r.whole then Tab.set t.ctxs {} r.pasid { y with out := true } else t.ctxs
     saves := Tab.ins (Tab.del t.saves r.area) r.area a } r.area img, img.length)

/-- Cores that a context has left and that no other context's work occupies are given back to it (R396). -/
def State.returnCores (s : State) (pasid : Nat) : State :=
  let x : Context := Tab.get s.ctxs {} pasid
  (x.away.map Away.core).foldl (fun (s : State) (c : Nat) => if s.foreign pasid (clusterOf c) then s else s.takeCore pasid c) s

/-- Do the sections of an area hold a request's target: the context, saved whole and out, or one cohort that starts on the core named
and was not saved with its context (R283)? -/
def State.savedTarget (s : State) (r : CtxRequest) (gs : List AreaSection) : Bool :=
  if r.whole then (Tab.get s.ctxs {} r.pasid).out
  else match areaCohorts gs with
    | [c] => ((s.launches.look c.1).bind (fun l => l.cohorts.look c.2)).any (fun k => k.startsOn r.core && !k.ganged)
    | _ => false

/-- A load performed: an area whose header names another context holds no save of this one, nor does one whose blocks and harts are not
saved on the module; one that exceeds the limit or fails its digest is CORRUPT. The target comes back as the area's bytes have it once its
cores are free; until then the request waits (R283, R284, R344). -/
def State.performLoad (s : State) (r : CtxRequest) : State :=
  match s.areaOf r.pasid r.area with
  | none => s.completeRequest r 2 0
  | some img =>
    if img.length > r.limit || areaFails img then s.completeRequest r 4 0
    else
      let hint := ((s.saves.look r.area).map SaveArea.cohorts).getD []
      match s.areaSections r.pasid hint r.whole (recField img 0x18 4) (img.drop 4096) with
      | none => s.completeRequest r 2 0
      | some (gs, rest) =>
        if !s.savedTarget r gs then s.completeRequest r 2 0
        else
          let t := s.withArea r.pasid r.whole gs rest
          let cs := areaCohorts gs
          let back (c : Nat × Nat) : Bool :=
            ((t.launches.look c.1).bind (fun l => (l.cohorts.look c.2).map (fun k => t.mayReturn l k))).getD false
          if !(cs.all back && gs.all (fun g => !t.foreign r.pasid (clusterOf g.core))) then s
          else
            let t := cs.foldl (fun (s : State) (c : Nat × Nat) => (s.returnCohort c.1 c.2).makeResident c.1 c.2) t
            let t := if r.whole then t.returnCores r.pasid else t
            let y : Context := Tab.get t.ctxs {} r.pasid
            let t := { t with
              ctxs := if r.whole then Tab.set t.ctxs {} r.pasid { y with out := false } else t.ctxs, saves := Tab.del t.saves r.area }
            t.completeRequest r 0 img.length

/-- The cohorts that a `ctx.save` has told to stop: once they have, with their engine commands and releases, they are saved and the
completion word tells it; until then it goes on (R265, R284, R343). -/
def State.goOnSaving (s : State) (r : CtxRequest) (cs : List (Nat × Nat)) : State :=
  let cs := cs.filter (fun c => ((s.launches.look c.1).bind (fun l => l.cohorts.look c.2)).any (fun k => k.phase == .saving))
  let hs := s.targetHarts r cs
  let t := s.stopHarts hs false
  if !t.stoppedAll hs false then t
  else
    let u := t.saveTarget r cs
    u.1.completeRequest r 0 u.2

/-- A request performed: its completion word tells the outcome (R283). A load whose cores are not all free goes on waiting
(R284), and so does a save whose target is leaving for another reason. -/
def State.performRequest (s : State) (r : CtxRequest) : State :=
  match r.begun with
  | some cs => s.goOnSaving r cs
  | none =>
  let x : Context := Tab.get s.ctxs {} r.pasid
  let absent := !s.ctxs.has r.pasid || x.killed
  if r.busy || s.switching x.gang then s.completeRequest r 3 0
  else if absent then s.completeRequest r 2 0
  else if r.load then s.performLoad r
  else
    let live (k : Cohort) : Bool := (k.phase == .resident || k.phase == .placed || k.phase == .returning || k.phase == .saving)
      && (r.whole || k.startsOn r.core)
    let cs := s.cohortsOf r.pasid live
    if (!r.whole && cs == []) || (r.whole && (x.out || (cs == [] && s.coresOf r.pasid == []))) then s.completeRequest r 2 0
    else
      let cs := if r.whole then cs else cs.take 1
      match cs.findSome? (fun c => s.lastRetirement c.1 c.2) with
      | some t => t
      | none =>
        if cs.any (fun c => ((s.launches.look c.1).bind (fun l => l.cohorts.look c.2)).any (fun k => k.phase == .saving)) then s
        else if imageSize s r.pasid (s.targetSections r.pasid r.whole cs) > r.limit then s.completeRequest r 1 0
        else
          let t := cs.foldl (fun (s : State) (c : Nat × Nat) => s.beginSave c.1 c.2 (fun k => { k with parked := true })) s
          { t with requests := t.requests.map (fun q => if q = r then { q with begun := some cs } else q) }

/-- CTX_REQUEST_COMPLETE: request `focus.item`, in order of acceptance, is performed (R283). -/
def execCtxRequestComplete (s : State) : Out :=
  match s.requests[s.focus.item]? with
  | some r => .next (s.performRequest r)
  | none => .next s

/-! ### Killing and binding contexts (R284 to R286) -/

/-- `ctx.kill`; the reason that event 2 gives for it is a free value, since R364 names none for it. -/
def execCtxKill (o : Args) (s : State) : Out :=
  let w := (s.me.X o.a.toNat).toNat
  guarded (.ctxKill o) s
    (if w / 2 ^ 20 ≠ 0 then illegal (.ctxKill o) s
     else
       let r := s.draw
       .next ((r.2.killContext w (r.1.toNat % 2 ^ 32)).onMe (fun x => x.advance o.words)))

/-- A doubleword of the context block, as the tinker's own stores have left it. -/
def State.blockWord (s : State) (pa : Nat) : W64 := BitVec.ofNat 64 (s.readRaw s.cur 0 ⟨.hbm, pa⟩ 8)

/-- Word i of the profile block as a write leaves it: a `ccount` over 4,096 leaves that field as it was, RSVD bits are zero
(R378). -/
def profileWord (c : Context) (i : Nat) (w : W64) : W64 :=
  if i = 1 then BitVec.ofNat 64 (if bitsOf w.toNat 12 0 ≤ 4096 then bitsOf w.toNat 12 0 else c.ccount)
  else if i = 4 then w &&& 0xFFFFFFFFF
  else if i = 5 then 0
  else w

/-- The atomic policy word as a write leaves it: an `amode` of 3 and a `thresh` of 0 leave their fields as they were, RSVD bits are
zero (R229). -/
def policyWord (c : Context) (w : W64) : W64 :=
  let p := c.policy.toNat
  let n := w.toNat
  BitVec.ofNat 64 ((if bitsOf n 1 0 = 3 then bitsOf p 1 0 else bitsOf n 1 0)
    + 4 * (if bitsOf n 3 2 = 0 then bitsOf p 3 2 else bitsOf n 3 2))

/-- The sections of the block named by a mask, read into a context (R285, R286). -/
def State.readBlock (s : State) (pa mask : Nat) (c : Context) : Context :=
  let w (off : Nat) : W64 := s.blockWord (pa + off)
  let c := if bitOf mask 0 then { c with root := w 0x000 } else c
  let c := if bitOf mask 1 then { c with policy := policyWord c (w 0x008) } else c
  let c := if bitOf mask 2 then { c with froute := w 0x010 } else c
  let c := if bitOf mask 3 then { c with gang := bitsOf (w 0x018).toNat 15 0, cap := bitsOf (w 0x018).toNat 17 16, domain := w 0x020 } else c
  let c := if bitOf mask 4 then { c with ovbase := (w 0x028).toNat, ovpages := (w 0x030).toNat } else c
  let c := if bitOf mask 5 then { c with svbase := (w 0x038).toNat, svpages := (w 0x040).toNat } else c
  let c := if bitOf mask 6 then
    { c with profile := (List.range 6).foldl (fun t i => Tab.set t 0 i (profileWord c i (w (0x050 + 8 * i)))) [] } else c
  if bitOf mask 7 then { c with ptab := (List.range 128).foldl (fun t i => Tab.set t 0 i (w (0x100 + 8 * i))) [] } else c

/-- Has a context a placed block or a request in progress (R286)? -/
def State.inUse (s : State) (pasid : Nat) : Bool :=
  s.cohorts.any (fun e => e.2.2.1.pasid == pasid && e.2.2.2.phase.holds) || s.requests.any (fun r => r.pasid == pasid)

/-- `ctx.bind`: the whole block read into the device's copy; address 0 unbinds. -/
def execCtxBind (o : Args) (s : State) : Out :=
  let w := (s.me.X o.a.toNat).toNat
  let pa := (s.me.X o.b.toNat).toNat
  let c : Context := Tab.get s.ctxs {} w
  guarded (.ctxBind o) s
    (if w / 2 ^ 20 ≠ 0 ∨ pa % 4096 ≠ 0 ∨ pa ≥ Config.hbmBytes ∨ (pa = 0 ∧ s.inUse w) then illegal (.ctxBind o) s
     else
       let d := if pa = 0 then { c with bound := false, block := 0 } else { s.readBlock pa 0xFF c with bound := true, block := pa }
       .next ({ s with ctxs := Tab.set s.ctxs {} w d }.onMe (fun x => x.advance o.words)))

/-- `ctx.upd`: the named sections of the bound block read again. -/
def execCtxUpd (o : Args) (s : State) : Out :=
  let w := (s.me.X o.a.toNat).toNat
  let mask := (s.me.X o.b.toNat).toNat
  let c : Context := Tab.get s.ctxs {} w
  guarded (.ctxUpd o) s
    (if w / 2 ^ 20 ≠ 0 ∨ mask / 256 ≠ 0 ∨ ¬ c.bound then illegal (.ctxUpd o) s
     else .next ({ s with ctxs := Tab.set s.ctxs {} w (s.readBlock c.block mask c) }.onMe (fun x => x.advance o.words)))

end Sys2Proof.Machine
end

