-- ==== Sys2Proof/Machine/Sched.lean ====
section
/-! DEFINITION. The launch arbiter, quanta, victims, returns and the completion of launches (R23, R24, R29, R336 to R343, R358,
R393, R397). -/

namespace Sys2Proof.Machine

/-! ### The scheduling word (R336, R358) -/

/-- The quantum in ticks. -/
def State.sliceTicks (s : State) : Nat := bitsOf s.sched.toNat 15 0

/-- Ticks that a cohort stays resident before it can be pre-empted. -/
def State.minres (s : State) : Nat := bitsOf s.sched.toNat 31 16

/-- Ticks that a client may wait before it is aged. -/
def State.agemax (s : State) : Nat := bitsOf s.sched.toNat 47 32

/-- The current tick, `hbeat` (R8). -/
def State.tick (s : State) : Nat := s.cycle / 256

/-- The scheduling word after a write: a zero quantum or age leaves its field, bits [63:48] stay zero (R336). -/
def schedWord (old new : W64) : W64 :=
  let n := new.toNat
  let o := old.toNat
  let slice := if bitsOf n 15 0 = 0 then bitsOf o 15 0 else bitsOf n 15 0
  let age := if bitsOf n 47 32 = 0 then bitsOf o 47 32 else bitsOf n 47 32
  BitVec.ofNat 64 (slice + bitsOf n 31 16 * 2 ^ 16 + age * 2 ^ 32)

/-- SCHED_WRITE: with code 1 the host writes `focus.item` to the scheduling word, over what an earlier write is still to leave there, and
with code 2 to `cstat` of link `focus.unit`; with codes 3, 4 and 5 it gives queue `focus.unit` ÷ 2 of link `focus.unit` mod 2 its ring,
its event suppression structure and its size, as the virtio common configuration has them (R356, PRESUMED, log 42); with code 0 the word
written takes effect, at the tick after its write (R336, R358). -/
def execSchedWrite (s : State) : Out :=
  let f := s.focus
  if f.code = 1 then
    .next { s with schedNext := some (s.tick + 1, schedWord ((s.schedNext.map Prod.snd).getD s.sched) (BitVec.ofNat 64 f.item)) }
  else if 3 ≤ f.code ∧ f.code ≤ 5 then
    .next (s.onFn (f.unit % 2) (fun n =>
      let q : HostQueue := Tab.get n.queues {} (f.unit / 2)
      let q := if f.code = 3 then { q with ring := f.item, used := 0, wrap := true } else if f.code = 4 then { q with driver := f.item }
        else { q with size := if 1 ≤ f.item ∧ f.item ≤ Config.ringSize then f.item else q.size }
      { n with queues := Tab.set n.queues {} (f.unit / 2) q }))
  else if f.code = 2 then
    .next (s.onFn f.unit (fun n => { n with queues := Tab.set n.queues {} 0 { Tab.get n.queues {} 0 with status := f.item / 64 * 64 } }))
  else match s.schedNext with
    | some (t, w) => if t ≤ s.tick then .next { s with sched := schedWord s.sched w, schedNext := none } else .next s
    | none => .next s

/-! ### Clients (R337) -/

/-- The class of a launch as a client (R337, R342). -/
def Launch.klass (l : Launch) : Nat := if l.aged then 3 else l.record.prio

/-- Has a launch a cohort that has never been placed? -/
def Launch.queued (l : Launch) : Bool := !l.ended && l.next < l.record.cohorts

/-- May cohorts of a context be placed: it is bound, it has not been killed, it is not switched out, its gang's traffic is
admitted, and no error has stopped the device's launches (R286, R330, R337, R355)? -/
def State.admits (s : State) (pasid : Nat) : Bool :=
  let c : Context := Tab.get s.ctxs {} pasid
  c.bound && !c.killed && !c.out && !s.gangHeld c.gang && !s.fns.any (fun f => f.2.needsReset)

/-- May a launch become a client: every earlier launch of its queue has stopped being one (R337)? -/
def State.mayJoin (s : State) (n : Nat) (l : Launch) : Bool :=
  let link (p : Nat) : Nat := (Tab.get s.ctxs {} p).link
  !l.joined && l.queued && (l.queue.isNone
    || !s.launches.any (fun m => m.1 < n && m.2.queue == l.queue && link m.2.pasid == link l.pasid && m.2.queued))

/-- Clients of a class, in order of pass, then of queue number (R337). -/
def State.clients (s : State) (c : Nat) : List (Nat × Launch) :=
  sortBy (fun a b => a.2.pass < b.2.pass || (a.2.pass == b.2.pass && (a.2.tie < b.2.tie || (a.2.tie == b.2.tie && a.1 ≤ b.1))))
    (s.launches.filter (fun l => l.2.joined && l.2.queued && l.2.klass == c))

/-- V(c), which is 0 while the class is empty (R337). -/
def State.floor (s : State) (c : Nat) : Nat := if s.clients c == [] then 0 else Tab.get s.floors 0 c

/-- A client is about to enter class c: where the class is empty, V(c) is 0 from here on (R337). -/
def State.entering (s : State) (c : Nat) : State := { s with floors := Tab.set s.floors 0 c (s.floor c) }

/-- Launches that may become clients do, with pass V(c) (R337). -/
def State.joinAll (s : State) : State :=
  s.launches.foldl (fun (s : State) (e : Nat × Launch) =>
    if s.mayJoin e.1 e.2 then
      let v := s.floor e.2.record.prio
      (s.entering e.2.record.prio).onLaunch e.1 (fun l => { l with joined := true, pass := v, granted := s.tick })
    else s) s

/-- A launch charged for one cohort's quantum: its stride for each block (R337). -/
def State.charge (s : State) (n : Nat) : State :=
  s.onLaunch n (fun l => { l with pass := l.pass + 2 ^ 20 / max 1 l.record.tickets * l.record.blocks })

/-- V(c) after a grant of class c. -/
def State.setFloor (s : State) (c : Nat) : State :=
  { s with floors := Tab.set s.floors 0 c (((s.clients c).head?.map (fun l => l.2.pass)).getD 0) }

/-! ### Returning and rotating cohorts (R340, R397) -/

/-- Cohort c of launch n, with its launch. -/
def State.cohort (s : State) (n c : Nat) : Option (Launch × Cohort) :=
  (s.launches.look n).bind (fun l => (l.cohorts.look c).map (fun k => (l, k)))

/-- Has a launch no cohort that holds its reservations (R397)? -/
def Launch.allSwapped (l : Launch) : Bool := l.cohorts.all (fun c => !c.2.phase.holds)

/-- Does a client of class c wait that fits (R337)? -/
def State.clientFits (s : State) (c : Nat) : Bool :=
  (s.clients c).any (fun e => s.admits e.2.pasid && (s.fitCohort e.1 e.2.next).isSome)

/-- Does a swapped cohort return by itself now, its own cores being free? All cohorts of its launch may be swapped, or it left with its gang,
or others of its launch are resident, since R29 lets every block become resident again; but one that gave its slot to the arbiter comes
after the clients that fit (R29, R340, R353, R397; DEDUCED, log 17). -/
def State.returns (s : State) (l : Launch) (k : Cohort) : Bool :=
  let c : Context := Tab.get s.ctxs {} l.pasid
  k.phase == .swapped && !k.parked && c.bound && !c.killed && !c.out && s.mayReturn l k
    && (!k.ceded || l.allSwapped || k.ganged || !s.clientFits l.record.prio)

/-- The cohorts that return, in decreasing class, and within a class longest-swapped first (R397). -/
def State.returning (s : State) : List (Nat × Nat × Launch × Cohort) :=
  sortBy (fun a b => a.2.2.1.record.prio > b.2.2.1.record.prio
      || (a.2.2.1.record.prio == b.2.2.1.record.prio && a.2.2.2.since ≤ b.2.2.2.since))
    (s.cohorts.filter (fun e => s.returns e.2.2.1 e.2.2.2))

/-- Has a context that may run left a handler on a core (R396)? -/
def State.handlerWaits (s : State) (c : Context) : Bool :=
  c.bound && !c.killed && !c.out && !s.gangHeld c.gang && c.away.any (fun (a : Away) => a.harts != [])

/-- COHORT_RETURN: cohort `focus.item` of launch `focus.unit`, when it is the first of those that return (R397); with code 1, the cores on
which context `focus.unit` has left handlers come back to it, where they are free (R396). -/
def execCohortReturn (s : State) : Out :=
  if s.focus.code = 1 then
    .next (if s.handlerWaits (Tab.get s.ctxs {} s.focus.unit) then s.returnCores s.focus.unit else s)
  else match s.returning with
  | e :: _ =>
    if e.1 = s.focus.unit ∧ e.2.1 = s.focus.item then
      .next (((s.returnCohort e.1 e.2.1).returnCores e.2.2.1.pasid).charge e.1)
    else .next s
  | [] => .next s

/-- A cohort that has left place to another (R340): what may go there. -/
inductive Next where
  | fresh (fit : (Nat × Nat × Nat × Nat × Nat) × List Block × State)
  | back (c : Nat)

/-- The cohort of launch n that takes the place that cohort c leaves: the longest-waiting that may go there. A queued cohort has
waited since the launch was taken; it takes the freed rectangle when it fits there, else any that it fits (R339 to R341). -/
def State.successor (s : State) (n c : Nat) : Option Next :=
  match s.cohort n c with
  | none => none
  | some (l, k) =>
    let fresh := if l.joined ∧ l.queued ∧ s.admits l.pasid then
        (match s.fitAmong n l.next [k.rect] with
         | some f => some f
         | none => s.fitCohort n l.next)
      else none
    match fresh with
    | some f => some (.fresh f)
    | none =>
      let backs := sortBy (fun (a b : Nat × Cohort) => a.2.since ≤ b.2.since)
        (l.cohorts.filter (fun e => e.1 != c && e.2.phase == .swapped && !e.2.parked && s.mayReturn l e.2))
      backs.head?.map (fun e => .back e.1)

/-- A cohort granted its first place (R24, R337, R342). -/
def State.grantTo (n : Nat) (f : (Nat × Nat × Nat × Nat × Nat) × List Block × State) : State :=
  let s := f.2.2
  match s.launches.look n with
  | none => s
  | some l =>
    (((if l.aged then s.entering l.record.prio else s).install n l.next (f.1, f.2.1)).charge n).onLaunch n (fun l =>
      { l with aged := false, granted := s.tick })

/-- The state in which some cohorts have left their places (R342). -/
def State.without (s : State) (vs : List (Nat × Nat)) : State :=
  vs.foldl (fun (s : State) (v : Nat × Nat) =>
    match s.cohort v.1 v.2 with
    | some (l, k) => (s.releaseCohort l k).onCohort v.1 v.2 (fun k => { k with phase := .swapped })
    | none => s) s

/-- A cohort stays for a further quantum, charged (R337, R340). -/
def State.renew (s : State) (n c : Nat) : State := (s.onCohort n c (fun k => { k with quantum := s.cycle })).charge n

/-- Does another launch of the class of launch n, with a pass that comes before its, wait for the place of its cohort c: a client that does
not fit and would fit without it (R337, R340), or a swapped cohort that would return without it, since R29 lets that become resident again
too (DEDUCED, log 17)? -/
def State.outbid (s : State) (n c : Nat) (l : Launch) : Bool :=
  let t := s.without [(n, c)]
  let ahead (m : Launch) : Bool := m.pass < l.pass || (m.pass == l.pass && m.tie < l.tie)
  (s.clients l.klass).any (fun e => e.1 != n && s.admits e.2.pasid && ahead e.2
      && (s.fitCohort e.1 e.2.next).isNone && (t.fitCohort e.1 e.2.next).isSome)
    || s.cohorts.any (fun e => e.1 != n && e.2.2.1.record.prio == l.record.prio && e.2.2.2.phase == .swapped && !e.2.2.2.parked
      && s.admits e.2.2.1.pasid && ahead e.2.2.1 && !s.mayReturn e.2.2.1 e.2.2.2 && t.mayReturn e.2.2.1 e.2.2.2)

/-- QUANTUM_END: the quantum of cohort `focus.item` of launch `focus.unit` has ended (R340). A cohort whose state does not fit its
standing save area is swapped all the same, since every block of its launch is to become resident (R29; DESIGN CHOICE, log 17). One whose last
hart retires in the same clk retires (R28). -/
def execQuantumEnd (s : State) : Out :=
  let n := s.focus.unit
  let c := s.focus.item
  match s.cohort n c with
  | none => .next s
  | some (l, k) =>
    if k.phase ≠ .resident ∨ s.cycle < k.quantum + 256 * s.sliceTicks then .next s
    else
      let others := l.cohorts.any (fun e => e.1 != c && e.2.phase.holds && e.2.phase != .saving)
      match s.lastRetirement n c with
      | some t => .next t
      | none =>
        if ((s.without [(n, c)]).successor n c).isSome then .next (s.beginSave n c (fun k => { k with rotating := true }))
        else if others ∧ s.outbid n c l then .next (s.beginSave n c (fun k => { k with ceded := true }))
        else .next (s.renew n c)

/-- SWAP_COMPLETE: cohort `focus.item` of launch `focus.unit`, which is leaving, is saved in its standing area once its harts, their
releases and their engine commands have stopped; at the end of a quantum the next cohort of the launch takes its place (R265,
R340, R343). -/
def execSwapComplete (s : State) : Out :=
  let n := s.focus.unit
  let c := s.focus.item
  match s.cohort n c with
  | none => .next s
  | some (_, k) =>
    let u := s.stopHarts k.allHarts k.ganged
    if k.phase ≠ .saving ∨ k.parked then .next s
    else if !u.stoppedAll k.allHarts k.ganged then .next u
    else
      let t := (u.saveStanding n c).onCohort n c (fun k => { k with rotating := false })
      if !k.rotating then .next t
      else match t.successor n c with
        | some (.fresh f) => .next (State.grantTo n f)
        | some (.back d) => .next ((t.returnCohort n d).charge n)
        | none => .next t

/-- COHORT_RESIDENT: a placed cohort becomes resident, or one that has returned; one of the module's first launch at the first tick after
the launch was taken, or later (R24, R385, R393). -/
def execCohortResident (s : State) : Out :=
  let n := s.focus.unit
  let c := s.focus.item
  match s.cohort n c with
  | none => .next s
  | some (l, k) => .next (if (k.phase = .placed ∨ k.phase = .returning) ∧ l.earliest ≤ s.tick then s.makeResident n c else s)

/-! ### Victims and grants (R337, R342) -/

/-- Cohorts that a client of class c may displace, in the order in which they are taken (R342). -/
def State.displaceable (s : State) (c : Nat) : List (Nat × Nat × Launch × Cohort) :=
  sortBy (fun a b => a.2.2.1.record.prio < b.2.2.1.record.prio
      || (a.2.2.1.record.prio == b.2.2.1.record.prio && b.2.2.2.placing ≤ a.2.2.2.placing))
    (s.cohorts.filter (fun e => e.2.2.2.phase == .resident && e.2.2.1.record.prio < c
      && e.2.2.2.since + 256 * s.minres ≤ s.cycle && (s.standing e.2.2.1.pasid (s.sizeOf e.1 e.2.1)).isSome))

/-- Do saves of some sizes, each in its context's standing save area, fit there beside each other (R342)? `taken` are the ranges of those
before. -/
def State.roomFor (s : State) : (taken : List (Nat × Nat × Nat)) → List (Nat × Nat) → Bool
  | _, [] => true
  | taken, (p, n) :: rest =>
    match s.standingWith p n ((taken.filter (fun r => r.1 == p)).map Prod.snd) with
    | some a => s.roomFor (taken ++ [(p, a, n)]) rest
    | none => false

/-- The fewest of an ordered list that free a rectangle for cohort d of launch n, those outside the rectangle left alone; `k`
counts how many more may be taken, and the state of all of them fits where it is saved (R342). -/
def State.victims (s : State) (n d : Nat) (vs : List (Nat × Nat × Launch × Cohort)) : (k : Nat) → (taken : Nat) → Option (List (Nat × Nat))
  | 0, _ => none
  | k + 1, taken =>
    let few := vs.take taken
    match (s.without (few.map (fun e => (e.1, e.2.1)))).fitCohort n d with
    | some f =>
      let cs := rectClusters f.1
      let out := few.filter (fun e => e.2.2.2.blocks.any (fun b => cs.contains b.cluster))
      if s.roomFor [] (out.map (fun e => (e.2.2.1.pasid, s.sizeOf e.1 e.2.1))) then some (out.map (fun e => (e.1, e.2.1)))
      else State.victims s n d vs k (taken + 1)
    | none => State.victims s n d vs k (taken + 1)

/-- One pass of the arbiter over the classes: the first grant, or the first set of victims (R337, R342). A class waits for the
returns that come ahead of it (R397). -/
def State.arbitrate (s : State) : List Nat → State
  | [] => s
  | c :: cs =>
    if s.returning.any (fun e => c ≤ e.2.2.1.record.prio) then s
    else
      let ks := (s.clients c).filter (fun e => s.admits e.2.pasid)
      let fits := ks.filter (fun e => (s.fitCohort e.1 e.2.next).isSome)
      let v := s.floor c
      let t := (s.clients c).foldl (fun (s : State) (e : Nat × Launch) =>
        if fits.any (fun f => f.1 == e.1) then s else s.onLaunch e.1 (fun l => { l with pass := max l.pass v })) s
      match fits with
      | e :: _ =>
        match t.fitCohort e.1 e.2.next with
        | some f => (State.grantTo e.1 f).setFloor c
        | none => t
      | [] =>
        let vs := s.displaceable c
        match ks.findSome? (fun e => s.victims e.1 e.2.next vs vs.length 1) with
        | some out => out.foldl (fun (s : State) (v : Nat × Nat) =>
            match s.lastRetirement v.1 v.2 with
            | some u => u
            | none => s.beginSave v.1 v.2 id) t
        | none => t.arbitrate cs

/-- ARBITER_GRANT: new clients join, and the arbiter makes one grant or chooses victims; it waits while a cohort is leaving
(R337, R342). -/
def execArbiterGrant (s : State) : Out :=
  let t := s.joinAll
  if t.cohorts.any (fun e => e.2.2.2.phase == .saving) then .next t else .next (t.arbitrate [3, 2, 1, 0])

/-- CLIENT_AGED: client `focus.unit`, ungranted for `agemax` ticks, counts as class 3 for its next grant (R342). -/
def execClientAged (s : State) : Out :=
  match s.launches.look s.focus.unit with
  | some l =>
    if l.joined ∧ l.queued ∧ ¬ l.aged ∧ l.granted + s.agemax ≤ s.tick then .next ((s.entering 3).onLaunch s.focus.unit (fun l => { l with aged := true }))
    else .next s
  | none => .next s

/-! ### Completion of a launch (R11, R23, R293) -/

/-- A completion record (R23). -/
def completionBytes (seq : W64) (status start stop : Nat) : List Byte :=
  leBytes 8 seq.toNat ++ leBytes 4 status ++ leBytes 4 0 ++ leBytes 8 start ++ leBytes 8 stop

/-- A completion record written at an address of a context, its `seq` with a release of `.sys` scope; none while an ATS request
for its page is under way. Address 0 has no record, and an address with no translation takes none (R23; log 11). -/
def State.writeCompletion (s : State) (pasid : Nat) (done seq : W64) (status start : Nat) : Option State :=
  if done = 0 then some s
  else match s.ctxPlace pasid deviceCore done true with
    | (.at l, t) => some (t.writePlace 0 l (completionBytes seq status start s.tick))
    | (.fail _, t) => some t
    | (.wait, _) => none

/-- The launch of a host queue from which a launch copy comes. -/
def State.rootLaunch (s : State) : (fuel : Nat) → (n : Nat) → Nat
  | 0, n => n
  | k + 1, n => match (s.launches.look n).bind Launch.parent with
    | some p => State.rootLaunch s k p
    | none => n

/-- Are all tags of a launch's worlds free (R293)? -/
def State.tagsFree (s : State) (n : Nat) : Bool :=
  !s.worlds.any (fun w => w.2.state != .free && s.rootLaunch 6 w.2.launch == n)

/-- LAUNCH_COMPLETE: launch `focus.unit` of a host queue, every hart of which has retired, and of which every tag is free, those that the kill
of its context has ended too, has its completion record written (R11, R23, R28, R293). -/
def execLaunchComplete (s : State) : Out :=
  let n := s.focus.unit
  match s.launches.look n with
  | none => .next s
  | some l =>
    if l.queue.isNone ∨ l.ended ∨ ¬ l.finished ∨ ¬ s.tagsFree n then .next s
    else match s.writeCompletion l.pasid l.record.done l.record.seq l.status l.startTick with
      | some t => .next (t.onLaunch n (fun l => { l with ended := true }))
      | none =>
        -- the ATS request stands, and the record is written once it has been answered
        .next (s.ctxPlace l.pasid deviceCore l.record.done true).2

end Sys2Proof.Machine
end

