-- ==== Sys2Proof/Machine/Domain.lean ====
section
/-! DEFINITION. The module in its Wale domain: heartbeats, the closing of ticks, and the requests of other modules through the
domain window (R8, R157, R216, R366, R367, R395). -/

namespace Sys2Proof.Machine

/-! ### Ticks (R216) -/

/-- A flit of the domain heartbeat: kind 8 on virtual channel 3 (R366). A tag of 1 or 2 marks a close report or the close of a tick,
which R216 gives to the heartbeat without a layout (DESIGN CHOICE, log 60). -/
def heartbeatFlit (src dst tag n : Nat) : Packet := { kind := 8, vc := 3, srcModule := src, dstModule := dst, tag, time := n }

/-- The root holds the report of module `m` for tick `t`; with the report of every module it closes the tick and broadcasts that
(R216). -/
def State.reported (s : State) (m t : Nat) : State :=
  let d := s.domain
  if t ≤ d.closed ∨ d.reports.contains (m, t) then s
  else
    let rs := d.reports ++ [(m, t)]
    if (List.range d.size).all (fun m => rs.contains (m, t)) then
      { s with
        domain := { d with closed := t, reports := rs.filter (fun r => r.2 > t) }
        wale := s.wale ++ (List.range (d.size - 1)).map (fun m => heartbeatFlit 0 (m + 1) 2 t) }
    else { s with domain := { d with reports := rs } }

/-- The module's close report for the tick that begins, to the root, the lowest-numbered module 0 (R216, R366). -/
def State.closeReport (s : State) : State :=
  let d := s.domain
  if d.size = 0 then s
  else if d.module = 0 then s.reported 0 s.tick
  else { s with wale := s.wale ++ [heartbeatFlit d.module 0 1 s.tick] }

/-- TICK_CLOSE: the close broadcast for tick `focus.item` arrives, which the module has reported at the tick's first clk (R216). -/
def execTickClose (s : State) : Out :=
  if s.domain.size = 0 ∨ s.domain.module = 0 ∨ s.tick < s.focus.item then .next s
  else .next { s with domain := { s.domain with closed := max s.domain.closed s.focus.item } }

/-- TICK_CLOSE_REPORT: the close report of another module, `focus.unit`, for tick `focus.item` reaches the root (R216). -/
def execTickCloseReport (s : State) : Out :=
  let d := s.domain
  if d.size = 0 ∨ d.module ≠ 0 ∨ s.focus.unit = 0 ∨ d.size ≤ s.focus.unit then .next s
  else .next (s.reported s.focus.unit s.focus.item)

/-! ### Heartbeats (R8, R366) -/

/-- HEARTBEAT_FLIT: the root's `cycle`, `focus.item`, arrives: what the module's counter has to make up; a lost heartbeat is
regained once the counter lies within ±8 clk (R366). -/
def execHeartbeatFlit (s : State) : Out :=
  let d := s.domain
  let drift : Int := (s.focus.item : Int) - (s.cycle : Int)
  if d.size = 0 ∨ d.module = 0 then .next s
  else .next { s with domain := { d with beat := s.cycle, drift, lost := d.lost && (drift < -8 || 8 < drift) } }

/-- HEARTBEAT_LOST: no heartbeat for 2^20 clk raises event 4 (R364, R366). -/
def execHeartbeatLost (s : State) : Out :=
  let d := s.domain
  if d.size = 0 ∨ d.module = 0 ∨ d.lost ∨ s.cycle < d.beat + 2 ^ 20 then .next s
  else .next ({ s with domain := { d with lost := true } }.moduleEvent 4 [])

/-- HEARTBEAT_SEND: every 65,536 clk the root sends a heartbeat flit to every other module (R366). -/
def execHeartbeatSend (s : State) : Out :=
  let d := s.domain
  if d.size = 0 ∨ d.module ≠ 0 ∨ s.cycle < d.beat + 65536 then .next s
  else .next { s with
    domain := { d with beat := s.cycle }
    wale := s.wale ++ (List.range (d.size - 1)).map (fun m => heartbeatFlit 0 (m + 1) 0 s.cycle) }

/-! ### Requests of other modules (R157, R367, R395) -/

/-- How an answer is told in a reply packet (log 20). -/
def replyCode : WindowReply → Nat × List Byte
  | .data bs => (0, bs)
  | .done => (1, [])
  | .refused => (2, [])
  | .unresolvable => (3, [])
  | .wrongPlace => (4, [])

/-- The reply packet to a domain-window request, on virtual channel 1 (R366, R367). -/
def State.windowReply (s : State) (r : WindowReq) (a : WindowReply) : State :=
  s.inject { kind := 5, vc := 1, srcModule := s.domain.module, dstModule := r.srcModule, gang := r.gang, offset := r.offset
             tag := (replyCode a).1, payload := (replyCode a).2 }

/-- Does the place of a request take it: an atomic goes to device memory, or to host memory whose host has accepted HOSTATOMIC, if it is
a fetch-add, swap or compare-and-swap (R174)? -/
def State.takesAtomic (s : State) (link : Nat) (l : Loc) : WindowOp → Bool
  | .atomic op .. => l.place == .hbm
      || (l.place == .host && bitOf (Tab.get s.fns {} link).features 0 && (op == 0 || op == 8 || op == 9))
  | _ => true

/-- The `acc` byte of the fault record of another module's request (R323). -/
def windowAcc (op : WindowOp) : Nat :=
  16 + (match op with
    | .load _ => 0
    | .atomic .. => 3
    | _ => 1)

/-- The core that reports a fault of another module's request: the lowest that the context holds, or else core 0 (DESIGN CHOICE,
log 20). -/
def State.reporter (s : State) (pasid : Nat) : Nat := ((s.cores.find? (fun c => c.2.holder == some pasid)).map Prod.fst).getD 0

/-- Is a held request the one that a confirmation names? -/
def windowConfirms (r q : WindowReq) : Bool :=
  q.gang == r.gang && q.srcModule == r.srcModule && q.core == r.core && q.seq == r.seq

/-- A confirmation at the target: what it holds is performed and answered, or given up; while the page migrates it waits
(R231, R395). -/
def State.confirmed (s : State) (r : WindowReq) (ok : Bool) : State :=
  match s.winHeld.find? (fun w => windowConfirms r w.1) with
  | none => s
  | some w =>
    let t := { s with winHeld := s.winHeld.erase w }
    if !ok then t
    else if w.2.place = .hbm ∧ s.migrating.contains (w.2.off / 4096) then s
    else
      let p := t.windowPerform w.2 w.1.op
      p.2.windowReply w.1 p.1

/-- WINDOW_REQUEST: a request of another module is translated in the context that runs the sender's gang; without one it is
refused. A page that does not translate is reported to the tinker, and the request waits at the port for the verdict, upon which it is
tried again or answered as unresolvable. The store or atomic of a lane is held once it is translated, and performed when it is confirmed
(R157, R324, R367, R395). -/
def execWindowRequest (r : WindowReq) (s : State) : Out :=
  match s.contextOfGang r.gang, r.op with
  | none, _ => .next (s.windowReply r .refused)
  | some _, .confirm ok => if s.gangHeld r.gang then .next s else .next (s.confirmed r ok)
  | some (pasid, c), _ =>
    let va := c.domain + BitVec.ofNat 64 r.offset
    let store := match r.op with
      | .load _ => false
      | _ => true
    let verdict := (s.winWaits.find? (fun w => w.req == r)).map WinWait.bad
    let s' := { s with winWaits := s.winWaits.filter (fun w => w.req != r) }
    if s.gangHeld r.gang ∨ verdict = some none then .next s
    else if verdict = some (some true) then .next (s'.windowReply r .unresolvable)
    else match s'.ctxPlace pasid deviceCore va store with
      | (.wait, t) => .next { t with winWaits := s.winWaits }
      | (.fail reason, t) =>
        let core := t.reporter pasid
        let q := t.reportAt core pasid 0 va (windowAcc r.op) reason 0
        .next { q.2 with winWaits := q.2.winWaits ++ [{ req := r, core, seq := q.1 }] }
      | (.at l, t) =>
        if !t.takesAtomic c.link l r.op then .next (t.windowReply r .wrongPlace)
        else if windowHolds r.op = true then .next ({ t with winHeld := t.winHeld ++ [(r, l)] }.windowReply r .done)
        else
          let p := t.windowPerform l r.op
          .next (p.2.windowReply r p.1)

end Sys2Proof.Machine
end

