-- ==== Sys2Proof/Machine/Gang.lean ====
section
/-! DEFINITION. Gang switches: SYS minor 15, the switch at its tick, the sweep and its save area, late packets and the Wale
switches that a module arms (R287, R288, R347 to R353, R368). -/

namespace Sys2Proof.Machine

/-! ### The gang's save area (R349) -/

/-- A gang's switch. -/
def State.gang (s : State) (g : Nat) : GangSwitch := Tab.get s.gangs {} g

/-- A change to a gang's switch. -/
def State.onGang (s : State) (g : Nat) (f : GangSwitch → GangSwitch) : State := { s with gangs := Tab.set s.gangs {} g (f (s.gang g)) }

/-- Records that an area holds. -/
def GangSwitch.room (x : GangSwitch) : Nat := (4096 * x.pages - 64) / 192

/-- The 192 bytes of a record; the address of a reply word is its target address (R199, R349). -/
def sweepRecord (r : Nat × Nat × Nat × Packet) : List Byte :=
  let (port, dist, flags, p) := r
  leBytes 1 p.kind ++ leBytes 1 p.vc ++ leBytes 1 port ++ leBytes 1 dist ++ leBytes 1 flags ++ leBytes 1 0 ++ leBytes 2 p.fseq
    ++ leBytes 4 (p.srcCore % 4096 + p.srcModule * 4096) ++ leBytes 4 (p.dstCore % 4096 + p.dstModule * 4096)
    ++ leBytes 8 (if p.kind = 1 then 0 else if p.reply = 0 then p.offset else p.reply.toNat)
    ++ leBytes 2 p.payload.length ++ List.replicate 6 0 ++ padTo 128 p.payload
    ++ (if p.kind = 1 then padTo 32 (msgOf p).headerBytes else List.replicate 32 0)

/-- Packets swept before the closing wave, which is the count that the header and `g.sweep` give. -/
def GangSwitch.swepts (x : GangSwitch) : Nat := x.records.length - x.lates

/-- The header and records written to a gang's area. -/
def State.writeArea (s : State) (g : Nat) : State :=
  let x := s.gang g
  let bs := leBytes 8 g ++ leBytes 8 x.tick ++ leBytes 4 x.swepts ++ leBytes 4 x.lates ++ leBytes 8 x.st ++ List.replicate 32 0
    ++ x.records.flatMap sweepRecord
  if x.area + bs.length ≤ Config.hbmBytes then s.putHbm x.area bs else s

/-! ### Arming (R287, R368) -/

/-- Wale ports of a module: 9 on each E-die (R394). -/
def walePorts : List Nat := List.range 18

/-- An arm descriptor of 32 bytes that keeps its limits: g, h, tick, area, pages, late (R287). -/
def armOf (bs : List Byte) : Option (Nat × Nat × Nat × Nat × Nat × Nat) :=
  let area := recField bs 0x10 8
  let pages := recField bs 0x18 4
  if recField bs 4 4 = 0 ∧ recField bs 0x1E 2 = 0 ∧ area % 4096 = 0 ∧ pages ≠ 0 then
    some (recField bs 0 2, recField bs 2 2, recField bs 8 8, area, pages, recField bs 0x1C 2)
  else none

/-- Contexts of a gang that have not been killed. -/
def State.gangContexts (s : State) (g : Nat) : List (Nat × Context) :=
  s.ctxs.filter (fun c => g != 0 && c.2.gang == g && !c.2.killed)

/-- Is a gang's switch armed or in progress: its contexts are still being saved after the window is sealed too (R287, R347)? -/
def GangSwitch.busy (x : GangSwitch) : Bool := (1 ≤ x.st && x.st ≤ 3) || x.leaving

/-- The status with which an arm or disarm is refused, if it is: LATE, BUSY, NOGANG in this order; a disarm is checked for BUSY
alone, which it is once the switch has begun (R287). -/
def State.armRefusal (s : State) (g h tick : Nat) : Option Nat :=
  let at_ (p : GangSwitch → Bool) : Bool := s.gangs.any (fun x => p x.2)
  if tick = 0 then
    (if (s.gang g).busy ∧ ((s.gang g).st ≠ 1 ∨ (s.gang g).tick ≤ s.tick) then some 2 else none)
  else if tick < s.tick + 16 ∨ s.domain.lost then some 1
  else if at_ GangSwitch.busy then some 2
  else if s.gangContexts g = [] ∨ (h ≠ 0 ∧ !(s.gangContexts h).any (fun c => c.2.out)) then some 3
  else none

/-- A sweep-arm flit for a port's switch; tick 0 disarms (R368). -/
def armFlit (g tick port : Nat) : Packet := { kind := 9, vc := 3, gang := g, time := tick, tag := port }

/-- Sweep-arm flits of the module that no switch has acknowledged yet. -/
def isArmFlit (p : Packet) : Bool := p.kind == 9

/-- The arm or disarm performed, all switches having acknowledged it (R287). -/
def State.armed (s : State) (h0 g h tick area pages late : Nat) : State :=
  if tick = 0 then s.onGang g (fun x => if x.st = 1 then { x with st := 0 } else x)
  else s.onGang g (fun x =>
    { x with st := 1, next := h, tick, area, pages, late, records := [], lates := 0, closed := false, tinker := h0 })

/-- `g.arm`: the arm descriptor is read as a load; the tinker waits until every switch has acknowledged its flit, and what refuses the
arm is tested again when it is performed; an arm refused then takes back what its own flits have armed, unless another tinker's arm stands
on it (R287, R368). -/
def execGArm (o : Args) (s : State) : Out :=
  let h0 := s.cur
  let addr := s.me.X o.a.toNat
  let i := Instr.gArm o
  let job := standardJob i .load 32 addr 0 s.me
  guarded i s
    (if addr.toNat % 32 ≠ 0 then illegal i s
     else standardPlace job s (fun p s =>
       match armOf (s.recordBytes h0 32 addr p) with
       | none => illegal i s
       | some (g, h, tick, area, pages, late) =>
         let waiting := s.me.wait.code == 19
         let drop : State :=
           if (s.gang g).st = 1 ∧ (s.gang g).tick = tick then s
           else { s with switches := s.switches.mapVals (fun w => { w with armed := w.armed.filter (· != (g, tick)) }) }
         match (if waiting ∧ s.wale.any isArmFlit then none else s.armRefusal g h tick) with
         | some status => answer o (BitVec.ofNat 64 status) (if waiting ∧ tick ≠ 0 then drop else s)
         | none =>
           if s.domain.size = 0 then answer o 0 (s.armed h0 g h tick area pages late)
           else if !waiting then
             .next ({ s with wale := s.wale ++ walePorts.map (armFlit g tick) }.onMe (fun x => x.block 19))
           else if s.wale.any isArmFlit then .next (s.onMe (fun x => x.block 19))
           else
             let has (k : Nat) : Bool := (Tab.get s.switches {} k).armed.contains (g, tick)
             if tick = 0 ∨ walePorts.all has then answer o 0 (s.armed h0 g h tick area pages late)
             else answer o 2 drop))

/-- A gang armed or disarmed at a switch, which holds 64 (R368). -/
def WaleSwitch.arm (w : WaleSwitch) (g tick : Nat) : WaleSwitch :=
  let rest := w.armed.filter (fun a => a.1 != g)
  if tick = 0 then { w with armed := rest }
  else if rest.length ≥ 64 then { w with armed := rest } else { w with armed := rest ++ [(g, tick)] }

/-- SWEEP_ARM_FLIT: the switch at port `focus.unit` takes a sweep-arm flit of this module, or with code 1 that of another
module, for gang `focus.item` mod 2^16 at tick `focus.item` ÷ 2^16 (R368). -/
def execSweepArmFlit (s : State) : Out :=
  let port := s.focus.unit
  let put (s : State) (g tick : Nat) : State := { s with switches := Tab.set s.switches {} port ((Tab.get s.switches {} port).arm g tick) }
  if port ≥ 18 then .next s
  else if s.focus.code = 1 then .next (put s (s.focus.item % 65536) (s.focus.item / 65536))
  else match s.wale.find? (fun p => isArmFlit p && p.tag == port) with
    | some p => .next (put { s with wale := s.wale.erase p } p.gang p.time)
    | none => .next s

/-- SWITCH_DIVERT: at its tick the switch at port `focus.unit` has diverted the packets of gang `focus.item` that it holds, and
sends its closing-wave flit; the arm is over (R368). The packets themselves come to the sink as LATE_PACKET steps. -/
def execSwitchDivert (s : State) : Out :=
  let port := s.focus.unit
  let g := s.focus.item
  let w := Tab.get s.switches {} port
  if w.armed.any (fun a => a.1 == g && a.2 ≤ s.tick) then
    let wave : Packet := { kind := 10, vc := 3, gang := g }
    let v : WaleSwitch := { armed := w.armed.filter (fun a => a.1 != g), diverted := w.diverted ++ [wave] }
    .next { s with switches := Tab.set s.switches {} port v }
  else .next s

/-! ### The switch (R347, R348, R351) -/

/-- The harts of a gang's contexts on the module, each with the number that its messages have: in their slots, swapped with their cohort, or
left with a core (R25, R396). -/
def State.gangHarts (s : State) (g : Nat) : List (Nat × Hart) :=
  let mine (p : Nat) : Bool := (s.gangContexts g).any (fun c => c.1 == p)
  s.harts.filter (fun e => (s.gangContexts g).any (fun c => s.hartOf c.1 e.1 e.2))
    ++ s.cohorts.flatMap (fun e => if mine e.2.2.1.pasid then
        ((e.2.2.2.saved.map Saved.harts).getD []).map (fun x => (renamer e.2.2.2.swapIds x.1, x.2)) else [])
    ++ (s.gangContexts g).flatMap (fun c => c.2.away.flatMap Away.harts)

/-- Opening words of the remote streams that a gang's harts have open, but for those that are still on their way: in an outbox, as core
state, or in a port, as packets (R334, R351). Each takes the sequence number of the first packet of its route in the ports, or else the
next one, so that re-injection puts it before the route's puts (R352). -/
def State.openRoutes (s : State) (g : Nat) : List Packet :=
  (s.gangHarts g).flatMap (fun e =>
    e.2.streams.filterMap (fun t => match descOf t.2.desc t.2.reply (fun _ => true) with
      | some d =>
        let p : Packet :=
          { kind := 7, srcModule := s.domain.module, dstModule := d.module, srcCore := coreOf e.1, dstCore := d.core, gang := g }
        let held := s.wale.filter (fun q => flowKey q == flowKey p && q.gang == g)
        if !d.remote || held.any (fun q => q.kind == 7)
            || s.net.any (fun m => m.opening && !m.inbound && m.hart == e.1 && m.core == d.core && m.dstModule == d.module) then none
        else some { p with fseq := (held.head?.map Packet.fseq).getD (s.seqOf p) }
      | none => none))

/-- Packets of a gang that the module's Wale ports hold: on their way in, and on their way out (R348). -/
def State.portPackets (s : State) (g : Nat) : List Packet :=
  ((s.net.filter (fun m => m.inbound && m.gang == g)).map packetOf) ++ s.wale.filter (fun p => p.gang == g && p.kind < 8)

/-- The E-die whose Wale ports a packet passes: the nearest to its core on this module (R394). -/
def State.edieOf (s : State) (p : Packet) : Nat :=
  let core := if p.srcModule = s.domain.module then p.srcCore else p.dstCore
  let die := core / 256
  let col := clusterOf core % 8
  if core ≥ Config.cores then (core - Config.cores) / 16
  else if die % 3 = 0 then 0 else if die % 3 = 2 then 1 else if col < 4 then 0 else 1

/-- The Wale port of its E-die that a packet passes, 0 to 8: the same for all packets of one flow, and otherwise free, since no rule says by
which port a packet leaves (DESIGN CHOICE, log 18). -/
def portOf (p : Packet) : Nat := (Config.freeWord (flowKey p + p.srcModule * 2 ^ 40)).toNat % 9

/-- Packets in the order in which the sink takes them: those of the ports all have hop distance 1, so by die, port and virtual channel, and
first in first out within each (R348). -/
def State.sweepOrder (s : State) (ps : List Packet) : List Packet :=
  let key (p : Packet) : Nat := ((9 + s.edieOf p) * 16 + portOf p) * 4 + p.vc % 4
  sortBy (fun a b => key a ≤ key b) ps

/-- Packets put into the records, each with its port; those for which the area has no room are dropped, and abort the gang. -/
def State.sweepInto (s : State) (g : Nat) (ps : List Packet) : State :=
  ps.foldl (fun (s : State) (p : Packet) =>
    let x := s.gang g
    if x.records.length < x.room then s.onGang g (fun x => { x with records := x.records ++ [(portOf p, 1, 0, p)] })
    else s.abortGang g p.fseq) s

/-- The sweep of what the module holds of a gang, in the order of R348. -/
def State.sweep (s : State) (g : Nat) : State :=
  let ps := s.sweepOrder (s.openRoutes g ++ s.portPackets g)
  let t := { s with net := s.net.filter (fun m => !(m.inbound && m.gang == g)), wale := s.wale.filter (fun p => !(p.gang == g && p.kind < 8)) }
  (t.sweepInto g ps).writeArea g

/-- Handler harts of a context on the module. -/
def State.handlersOf (s : State) (pasid : Nat) : List Nat := (s.coresOf pasid).flatMap (fun c => (s.handlersOn c).map Prod.fst)

/-- A context told to leave at a switch of its gang: its cohorts and its handlers stop, to be saved in its standing area; a cohort whose
last hart retires in the same clk retires (R28, R347, R355). -/
def State.switchOut (s : State) (pasid : Nat) : State :=
  let cs := s.cohortsOf pasid (fun k => k.phase.holds)
  let t := cs.foldl (fun (s : State) (c : Nat × Nat) =>
    match s.lastRetirement c.1 c.2 with
    | some t => t
    | none => s.beginSave c.1 c.2 (fun k => { k with ganged := true, rotating := false })) s
  t.stopHarts (t.handlersOf pasid) true

/-- Have a context's cohorts all left, and its handlers stopped? -/
def State.hasLeft (s : State) (pasid : Nat) : Bool :=
  s.cohortsOf pasid (fun k => k.phase.holds) == [] && s.stoppedAll (s.handlersOf pasid) true

/-- A context that has been switched out leaves its cores, whose sections are written to its standing save area (R334, R343, R347). -/
def State.leaveCores (s : State) (pasid : Nat) : State :=
  let t := (s.coresOf pasid).foldl (fun (s : State) (c : Nat) => s.leaveCore c true false) s
  { t with ctxs := Tab.set t.ctxs {} pasid { Tab.get t.ctxs {} pasid with out := true } }

/-- A context switched in: the cohorts that left with it return, and its other cores are given back to it (R353). -/
def State.switchIn (s : State) (pasid : Nat) : State :=
  let t := { s with ctxs := Tab.set s.ctxs {} pasid { Tab.get s.ctxs {} pasid with out := false } }
  let cs := t.cohortsOf pasid (fun k => k.phase == .swapped && k.ganged && !k.parked)
  let t := cs.foldl (fun (s : State) (c : Nat × Nat) =>
    match s.cohort c.1 c.2 with
    | some (l, k) => if s.mayReturn l k then s.returnCohort c.1 c.2 else s
    | none => s) t
  t.returnCores pasid

/-- GANG_SWITCH: at its tick, gang `focus.item` is swept and told to stop; once its contexts have been saved they leave their cores, and
the gang that is to come in its place is switched in (R347, R354). -/
def execGangSwitch (s : State) : Out :=
  let g := s.focus.item
  let x := s.gang g
  let ps := (s.gangContexts g).map Prod.fst
  if x.st = 1 ∧ x.tick ≤ s.tick then
    .next (ps.foldl (fun (s : State) (p : Nat) => s.switchOut p) ((s.onGang g (fun x => { x with st := 2, out := true, leaving := true })).sweep g))
  else if !x.leaving then .next s
  else
    let t := ps.foldl (fun (s : State) (p : Nat) => s.stopHarts (s.handlersOf p) true) s
    if !ps.all t.hasLeft then .next t
    else
      let t := (ps.foldl (fun (s : State) (p : Nat) => s.leaveCores p) t).onGang g (fun x => { x with leaving := false })
      .next ((((t.gangContexts x.next).filter (fun c => c.2.out)).map Prod.fst).foldl (fun (s : State) (p : Nat) => s.switchIn p) t)

/-- CLOSING_WAVE_DONE: every link has returned the closing wave of gang `focus.item`; its save window opens (R350, R368). -/
def execClosingWaveDone (s : State) : Out :=
  let g := s.focus.item
  let back (k : Nat) : Bool := (Tab.get s.switches {} k).diverted.any (fun p => p.kind == 10 && p.gang == g)
  if (s.gang g).st ≠ 2 ∨ (s.domain.size ≠ 0 ∧ !walePorts.all back) then .next s
  else
    let t := { s with switches := s.switches.mapVals (fun w => { w with diverted := w.diverted.filter (fun p => p.gang != g) }) }
    .next ((t.onGang g (fun x => { x with st := 3, swept := s.tick, closed := false })).writeArea g)

/-- SAVE_WINDOW_CLOSE: `late` ticks have passed since the closing wave of gang `focus.item` (R350). -/
def execSaveWindowClose (s : State) : Out :=
  let x := s.gang s.focus.item
  if x.st = 3 ∧ ¬ x.closed ∧ x.swept + x.late ≤ s.tick then .next (s.onGang s.focus.item (fun x => { x with closed := true })) else .next s

/-- LATE_PACKET: a packet that a switch has swept reaches the sink. Before the closing wave is done it is a record like
another; after it, it is late: appended in the window, and otherwise dropped, which aborts the gang (R350, R368). -/
def execLatePacket (p : Packet) (s : State) : Out :=
  let g := p.gang
  let x := s.gang g
  let full := x.records.length ≥ x.room
  if g = 0 ∨ x.st < 2 ∨ x.st > 4 then .next s
  else if full ∨ x.st = 4 ∨ (x.st = 3 ∧ (x.closed ∨ x.swept + x.late ≤ s.tick)) then .next ((s.abortGang g p.fseq).writeArea g)
  else if x.st = 2 then .next ((s.onGang g (fun x => { x with records := x.records ++ [(0, 0, 2, p)] })).writeArea g)
  else
    let t := (s.onGang g (fun x => { x with records := x.records ++ [(0, 0, 3, p)], lates := x.lates + 1 })).writeArea g
    .next (t.gangEvent g x 1 p.fseq)

/-! ### Reports and resumption (R288, R352) -/

/-- The report of `g.sweep` (R288). -/
def GangSwitch.report (x : GangSwitch) : W64 :=
  BitVec.ofNat 64 (x.swepts % 2 ^ 32 + x.lates % 2 ^ 16 * 2 ^ 32 + x.st * 2 ^ 48)

/-- `g.sweep`: with bit 16 an open window is sealed, and without one nothing is (DESIGN CHOICE, log 18); then the report. -/
def execGSweep (o : Args) (s : State) : Out :=
  let w := (s.me.X o.a.toNat).toNat
  let g := w % 65536
  guarded (.gSweep o) s
    (if w / 2 ^ 17 ≠ 0 then illegal (.gSweep o) s
     else
       let t := if bitOf w 16 ∧ (s.gang g).st = 3 then (s.onGang g (fun x => { x with st := 4 })).writeArea g else s
       answer o (t.gang g).report t)

/-- Do two packets belong to one flow (R349)? -/
def sameFlow (p q : Packet) : Bool := flowKey p == flowKey q && p.srcModule == q.srcModule

/-- The order of re-injection: each place in record order is taken by the packet of its flow with the least `fseq` left,
counted modulo 2^16 from half the range before the flow's first record (R352). -/
def resumeOrder : (fuel : Nat) → (slots left : List Packet) → List Packet
  | 0, _, _ => []
  | _, [], _ => []
  | n + 1, p :: slots, left =>
    let mine := left.filter (sameFlow p)
    let base := (mine.head?.map (fun q => q.fseq)).getD 0
    let key (q : Packet) : Nat := (q.fseq + 98304 - base) % 65536
    match sortBy (fun a b => key a ≤ key b) mine with
    | q :: _ => q :: resumeOrder n slots (left.erase q)
    | [] => resumeOrder n slots left

/-- A packet of a domain-window access as the request that it makes of its target; none for a packet of another kind (R349, R367; its places
are log 20's). -/
def requestOfPacket (p : Packet) : Option WindowReq :=
  let n := p.payload.length / 2
  let op : Option WindowOp :=
    if p.kind = 4 then some (.load (recField p.payload 0 1))
    else if p.kind = 2 then some (if p.tag = 16 then .put p.payload else .store p.payload)
    else if p.kind = 3 then
      some (if p.tag ≥ 16 then .add (p.tag % 8) (bitOf p.tag 3) p.payload
            else .atomic p.tag n (BitVec.ofNat 64 (recField p.payload n n)) (BitVec.ofNat 64 (recField p.payload 0 n)))
    else if p.kind = 6 ∧ p.vc = 0 then some (.confirm (p.tag == 0))
    else none
  op.map (fun op =>
    { gang := p.gang, srcModule := p.srcModule, core := p.srcCore, offset := p.offset, op
      seq := if p.kind = 6 then recField p.payload 0 2 else p.fseq })

/-- A record enters the network again. What is for another module leaves by a Wale port with its own `fseq`. For this module, a message
waits as one that has come in by a port, a domain-window request comes to its turn at the port, a reply word and the acknowledgement of a
put arrive, and the opening word of a stream, which reserves the route again, has come to its end (R351, R352). -/
def State.reinject (s : State) (p : Packet) : State :=
  if p.dstModule ≠ s.domain.module then { s with wale := s.wale ++ [p] }
  else if p.kind = 1 then { s with net := s.net ++ [{ msgOf p with inbound := true }] }
  else match requestOfPacket p with
    | some r => { s with winWaits := s.winWaits ++ [{ req := r, core := 0, seq := 0, bad := some false }] }
    | none =>
      if p.kind = 5 ∧ p.reply ≠ 0 then s.replyArrived p
      else if p.kind = 6 ∧ p.offset ≠ 0 then s.putAcked p.dstCore (p.offset - 1)
      else s

/-- `g.resume`: 3 with no context of the gang resident, 2 before its window is sealed; else its records are re-injected and its
new traffic is admitted. -/
def execGResume (o : Args) (s : State) : Out :=
  let w := (s.me.X o.a.toNat).toNat
  let g := w % 65536
  let x := s.gang g
  guarded (.gResume o) s
    (if w / 2 ^ 16 ≠ 0 then illegal (.gResume o) s
     else if !(s.gangContexts g).any (fun c => !c.2.out) then answer o 3 s
     else if 1 ≤ x.st ∧ x.st ≤ 3 then answer o 2 s
     else
       let ps := x.records.map (fun r => r.2.2.2)
       let t := (resumeOrder ps.length ps ps).foldl (fun (s : State) (p : Packet) => s.reinject p) s
       answer o 0 (t.onGang g (fun x => { x with st := 0, out := false, records := [], lates := 0 })))

end Sys2Proof.Machine
end

