-- ==== Sys2Proof/Machine/Lane.lean ====
section
/-! DEFINITION. LANE instructions on integers and bits: arithmetic, logic, shifts, compare, select, lane miscellany
(R97 to R101, R105, R106, R117). -/

namespace Sys2Proof.Machine

/-! ### Integer arithmetic -/

/-- One element of an integer operation of two operands, read and narrowed by the type (R53, R97). -/
def intElem (op : Int → Int → Int) (sa sb signed sat : Bool) (w a b : Nat) : Nat :=
  narrow signed sat w (op (intOf sa w a) (intOf sb w b))

/-- A lane of an integer operation: element by element (R97). -/
def intLane (op : Int → Int → Int) (unsignedB sat imm : Bool) (t : Nat) (o : Args) (h : Hart) (l : Nat) : W32 :=
  let w := bitsOfType t
  let sg := isSigned t
  pack w (fun k => intElem op sg (sg && !unsignedB) sg sat w (elem w k (h.V o.a.toNat l)) (elemB h o imm w k l))

/-- The high half of the product of two w-bit numbers (R97). -/
def mulHigh (w : Nat) (a b : Int) : Int := a * b / (2 : Int) ^ w

/-- Division truncating toward zero with the M extension's results for a zero divisor and for overflow (R62, R98). -/
def divInt (signed : Bool) (w : Nat) (a b : Int) : Int :=
  if b = 0 then (if signed then -1 else (2 : Int) ^ w - 1) else a.tdiv b

/-- The remainder of `divInt` (R98). -/
def remInt (a b : Int) : Int := if b = 0 then a else a.tmod b

/-- `vadd` (R97). -/
def execVadd (o : Args) (s : State) : Out :=
  hartOp (.vadd o) o (toLanes o (intLane (· + ·) false o.sat (immForm o) (tyOf o 5) o)) s

/-- `vsub` (R97). -/
def execVsub (o : Args) (s : State) : Out :=
  hartOp (.vsub o) o (toLanes o (intLane (· - ·) false o.sat (immForm o) (tyOf o 5) o)) s

/-- `vmul` (R97). -/
def execVmul (o : Args) (s : State) : Out :=
  hartOp (.vmul o) o (toLanes o (intLane (· * ·) false o.sat (immForm o) (tyOf o 5) o)) s

/-- `vmulh` (R97). -/
def execVmulh (o : Args) (s : State) : Out :=
  hartOp (.vmulh o) o (toLanes o (intLane (mulHigh (bitsOfType (tyOf o 5))) false false (immForm o) (tyOf o 5) o)) s

/-- `vmulhsu`: A signed, B unsigned (R97). -/
def execVmulhsu (o : Args) (s : State) : Out :=
  hartOp (.vmulhsu o) o (toLanes o (intLane (mulHigh (bitsOfType (tyOf o 5))) true false false (tyOf o 5) o)) s

/-- `vdiv` (R98). -/
def execVdiv (o : Args) (s : State) : Out :=
  hartOp (.vdiv o) o (toLanes o (intLane (divInt (isSigned (tyOf o 5)) (bitsOfType (tyOf o 5))) false false (immForm o)
    (tyOf o 5) o)) s

/-- `vrem` (R98). -/
def execVrem (o : Args) (s : State) : Out :=
  hartOp (.vrem o) o (toLanes o (intLane remInt false false (immForm o) (tyOf o 5) o)) s

/-- A lane of `vmin` or `vmax`: integers compared as the type reads them, floats under R99. -/
def minMaxLane (isMin : Bool) (o : Args) (h : Hart) (l : Nat) : LaneRes :=
  let t := tyOf o 5
  let w := bitsOfType t
  if isFloat t then
    let f := Fp.fmtOf t
    packRes w (fun k => Fp.minMax f isMin (Fp.decodeFtz f h.ftz (elem w k (h.V o.a.toNat l)))
      (Fp.decodeFtz f h.ftz (elemB h o (immForm o) w k l)))
  else ⟨intLane (fun a b => if isMin then min a b else max a b) false false (immForm o) t o h l, 0⟩

/-- `vmin` (R99). -/
def execVmin (o : Args) (s : State) : Out := hartOp (.vmin o) o (toLanesF o (minMaxLane true o)) s

/-- `vmax` (R99). -/
def execVmax (o : Args) (s : State) : Out := hartOp (.vmax o) o (toLanesF o (minMaxLane false o)) s

/-! ### Logic and shifts -/

/-- A lane of a bitwise operation (R100). -/
def bitLane (op : W32 → W32 → W32) (imm : Bool) (o : Args) (h : Hart) (l : Nat) : W32 :=
  op (h.V o.a.toNat l) (wordB h o imm l)

/-- `vand` (R100). -/
def execVand (o : Args) (s : State) : Out := hartOp (.vand o) o (toLanes o (bitLane (· &&& ·) (immForm o) o)) s

/-- `vandn` (R100). -/
def execVandn (o : Args) (s : State) : Out := hartOp (.vandn o) o (toLanes o (bitLane (fun a b => a &&& ~~~ b) false o)) s

/-- `vor` (R100). -/
def execVor (o : Args) (s : State) : Out := hartOp (.vor o) o (toLanes o (bitLane (· ||| ·) (immForm o) o)) s

/-- `vorn` (R100). -/
def execVorn (o : Args) (s : State) : Out := hartOp (.vorn o) o (toLanes o (bitLane (fun a b => a ||| ~~~ b) false o)) s

/-- `vxor` (R100). -/
def execVxor (o : Args) (s : State) : Out := hartOp (.vxor o) o (toLanes o (bitLane (· ^^^ ·) (immForm o) o)) s

/-- `vxnor` (R100). -/
def execVxnor (o : Args) (s : State) : Out := hartOp (.vxnor o) o (toLanes o (bitLane (fun a b => ~~~ (a ^^^ b)) false o)) s

/-- The element shifts: 0 left, 1 right logical, 2 right arithmetic, by n modulo w (R101). -/
def shiftElem (kind w a n : Nat) : Nat :=
  let k := n % w
  match kind with
  | 0 => a * 2 ^ k % 2 ^ w
  | 1 => a >>> k
  | _ => wrapBits w (intOf true w a / (2 : Int) ^ k)

/-- A lane of a shift: the type sets only the width (R101). -/
def shiftLane (kind : Nat) (o : Args) (h : Hart) (l : Nat) : W32 :=
  let w := bitsOfType (tyOf o 5)
  pack w (fun k => shiftElem kind w (elem w k (h.V o.a.toNat l)) (elemB h o (immForm o) w k l))

/-- `vsll` (R101). -/
def execVsll (o : Args) (s : State) : Out := hartOp (.vsll o) o (toLanes o (shiftLane 0 o)) s

/-- `vsrl` (R101). -/
def execVsrl (o : Args) (s : State) : Out := hartOp (.vsrl o) o (toLanes o (shiftLane 1 o)) s

/-- `vsra` (R101). -/
def execVsra (o : Args) (s : State) : Out := hartOp (.vsra o) o (toLanes o (shiftLane 2 o)) s

/-! ### Compare and select -/

/-- Condition c of R105 on two 32-bit operands, with the flags a float compare raises. -/
def compareLane (c : Nat) (o : Args) (h : Hart) (l : Nat) : Bool × BitVec 5 :=
  let t := tyOf o 5
  let a := h.V o.a.toNat l
  let b := wordB h o (o.xop.toNat ≥ 8) l
  if t = 7 then
    Fp.condition c (Fp.decodeFtz Fp.f32 h.ftz a.toNat) (Fp.decodeFtz Fp.f32 h.ftz b.toNat)
  else
    let x := intOf (isSigned t) 32 a.toNat
    let y := intOf (isSigned t) 32 b.toNat
    (match c with
     | 0 => decide (x = y)
     | 1 => decide (x ≠ y)
     | 2 => decide (x < y)
     | 3 => decide (x ≤ y)
     | 4 => decide (x > y)
     | 5 => decide (x ≥ y)
     | _ => false, 0)

/-- A compare: bit l of m[d] is set for active lanes that meet the condition and cleared elsewhere (R94, R105). -/
def compareMask (c : Nat) (o : Args) (h : Hart) : Hart :=
  let ls := active h o
  (h.setM o.d.toNat (maskOf ls (fun l => (compareLane c o h l).1))).orFlags (flagsOf ls (fun l => (compareLane c o h l).2))

/-- `vceq` (R105). -/
def execVceq (o : Args) (s : State) : Out := hartOp (.vceq o) o (compareMask 0 o) s

/-- `vcne` (R105). -/
def execVcne (o : Args) (s : State) : Out := hartOp (.vcne o) o (compareMask 1 o) s

/-- `vclt` (R105). -/
def execVclt (o : Args) (s : State) : Out := hartOp (.vclt o) o (compareMask 2 o) s

/-- `vcle` (R105). -/
def execVcle (o : Args) (s : State) : Out := hartOp (.vcle o) o (compareMask 3 o) s

/-- `vcgt` (R105). -/
def execVcgt (o : Args) (s : State) : Out := hartOp (.vcgt o) o (compareMask 4 o) s

/-- `vcge` (R105). -/
def execVcge (o : Args) (s : State) : Out := hartOp (.vcge o) o (compareMask 5 o) s

/-- `vcun` (R105). -/
def execVcun (o : Args) (s : State) : Out := hartOp (.vcun o) o (compareMask 6 o) s

/-- `vcor` (R105). -/
def execVcor (o : Args) (s : State) : Out := hartOp (.vcor o) o (compareMask 7 o) s

/-- The mask that `vsel` selects with: m1, or the mask that `xop` names (R106). -/
def selMask (o : Args) : Nat := if o.xop = 0 then 1 else o.xop.toNat

/-- `vsel` (R106). -/
def execVsel (o : Args) (s : State) : Out :=
  hartOp (.vsel o) o (toLanes o (fun h l => if (h.M (selMask o)).getLsbD l then h.V o.a.toNat l else h.V o.b.toNat l)) s

/-! ### Lane miscellany -/

/-- A lane function of the 32-bit a operand (R117). -/
def unaryLane (f : Nat → Nat) (o : Args) (h : Hart) (l : Nat) : W32 := BitVec.ofNat 32 (f (h.V o.a.toNat l).toNat)

/-- `vlid`: the lane index (R117). -/
def execVlid (o : Args) (s : State) : Out := hartOp (.vlid o) o (toLanes o (fun _ l => BitVec.ofNat 32 l)) s

/-- `vpopc` (R117). -/
def execVpopc (o : Args) (s : State) : Out := hartOp (.vpopc o) o (toLanes o (unaryLane (fun n => popcount n 32) o)) s

/-- `vclz`: 32 for 0 (R117). -/
def execVclz (o : Args) (s : State) : Out := hartOp (.vclz o) o (toLanes o (unaryLane (clz 32) o)) s

/-- `vctz`: 32 for 0 (R117). -/
def execVctz (o : Args) (s : State) : Out := hartOp (.vctz o) o (toLanes o (unaryLane (ctz 32) o)) s

/-- `vbrev` (R117). -/
def execVbrev (o : Args) (s : State) : Out := hartOp (.vbrev o) o (toLanes o (unaryLane (fun n => revBits n 32) o)) s

/-- `vrev8` (R117). -/
def execVrev8 (o : Args) (s : State) : Out :=
  hartOp (.vrev8 o) o (toLanes o (fun h l => pack 8 (fun k => elem 8 (3 - k) (h.V o.a.toNat l)))) s

/-- `vnot` (R117). -/
def execVnot (o : Args) (s : State) : Out := hartOp (.vnot o) o (toLanes o (fun h l => ~~~ h.V o.a.toNat l)) s

/-- `vabs`: the least value gives itself, or the greatest with `.sat` (R117). -/
def execVabs (o : Args) (s : State) : Out :=
  hartOp (.vabs o) o (toLanes o (fun h l =>
    let w := bitsOfType (tyOf o 5)
    pack w (fun k => narrow true o.sat w (intOf true w (elem w k (h.V o.a.toNat l))).natAbs))) s

/-- `vmbit`: bit l of a mask as 0 or 1 (R117). -/
def execVmbit (o : Args) (s : State) : Out :=
  hartOp (.vmbit o) o (toLanes o (fun h l => if (h.M o.a.toNat).getLsbD l then 1 else 0)) s

end Sys2Proof.Machine
end

