-- ==== Sys2Proof/Machine/LaneFloat.lean ====
section
/-! DEFINITION. LANE instructions on floats: arithmetic, unary functions, conversion and scaled unpacking (R102 to R104,
R107 to R109). -/

namespace Sys2Proof.Machine

/-- A value of element k of width w of register r, with the input flush of R60. -/
def fval (h : Hart) (t r k l : Nat) : Fp.Val :=
  Fp.decodeFtz (Fp.fmtOf t) h.ftz (elem (bitsOfType t) k (h.V r l))

/-- A lane of a two-operand float operation on the element type (R58, R102). -/
def float2 (op : Fp.Fmt → (rm : Nat) → (ftz sat : Bool) → Fp.Val → Fp.Val → Fp.Res) (o : Args) (h : Hart) (l : Nat) :
    LaneRes :=
  let t := tyOf o 7
  let w := bitsOfType t
  let f := Fp.fmtOf t
  packRes w (fun k => op f (RM h o) h.ftz o.sat (fval h t o.a.toNat k l)
    (Fp.decodeFtz f h.ftz (elemB h o (immForm o) w k l)))

/-- A computed value rounded once, with the flags of computing it (R59, R60, R102). -/
def finish (f : Fp.Fmt) (rm : Nat) (ftz sat : Bool) (v : Fp.Val × BitVec 5) : Fp.Res :=
  let r := Fp.roundVal f rm ftz sat v.1
  ⟨r.bits, r.flags ||| v.2⟩

/-- `vfadd` (R102). -/
def execVfadd (o : Args) (s : State) : Out :=
  hartOp (.vfadd o) o (toLanesF o (float2 (fun f rm z t x y => finish f rm z t (Fp.add rm x y)) o)) s

/-- `vfsub` (R102). -/
def execVfsub (o : Args) (s : State) : Out :=
  hartOp (.vfsub o) o (toLanesF o (float2 (fun f rm z t x y => finish f rm z t (Fp.add rm x y.neg)) o)) s

/-- `vfmul` (R102). -/
def execVfmul (o : Args) (s : State) : Out :=
  hartOp (.vfmul o) o (toLanesF o (float2 (fun f rm z t x y => finish f rm z t (Fp.mul x y)) o)) s

/-- `vfdiv` (R102). -/
def execVfdiv (o : Args) (s : State) : Out := hartOp (.vfdiv o) o (toLanesF o (float2 Fp.div o)) s

/-- A lane of a fused form: ±(A × B) ± the element of register e (R103). -/
def fusedLane (negProduct negAddend : Bool) (e : Nat) (o : Args) (h : Hart) (l : Nat) : LaneRes :=
  let t := tyOf o 7
  packRes (bitsOfType t) (fun k =>
    let x := fval h t o.a.toNat k l
    let z := fval h t e k l
    finish (Fp.fmtOf t) (RM h o) h.ftz o.sat
      (Fp.fma (RM h o) (if negProduct then x.neg else x) (fval h t o.b.toNat k l) (if negAddend then z.neg else z)))

/-- `vfma` with D the old value of vd (R103). -/
def execVfma (o : Args) (s : State) : Out := hartOp (.vfma o) o (toLanesF o (fusedLane false false o.d.toNat o)) s

/-- `vfma` with the fourth register that word 2 names (R103). -/
def execVfma4 (o : Args) (s : State) : Out := hartOp (.vfma4 o) o (toLanesF o (fusedLane false false o.w2.toNat o)) s

/-- `vfms` (R103). -/
def execVfms (o : Args) (s : State) : Out := hartOp (.vfms o) o (toLanesF o (fusedLane false true o.d.toNat o)) s

/-- `vfnma` (R103). -/
def execVfnma (o : Args) (s : State) : Out := hartOp (.vfnma o) o (toLanesF o (fusedLane true false o.d.toNat o)) s

/-! ### Unary functions (R104) -/

/-- A lane of a unary function of values. -/
def float1 (op : Fp.Fmt → (rm : Nat) → (ftz sat : Bool) → Fp.Val → Fp.Res) (o : Args) (h : Hart) (l : Nat) : LaneRes :=
  let t := tyOf o 7
  packRes (bitsOfType t) (fun k => op (Fp.fmtOf t) (RM h o) h.ftz o.sat (fval h t o.a.toNat k l))

/-- A lane of a unary function of patterns as stored. -/
def floatRaw (op : Fp.Fmt → Nat → Nat) (o : Args) (h : Hart) (l : Nat) : LaneRes :=
  let t := tyOf o 7
  let w := bitsOfType t
  ⟨pack w (fun k => op (Fp.fmtOf t) (elem w k (h.V o.a.toNat l))), 0⟩

/-- `vfsqrt`. -/
def execVfsqrt (o : Args) (s : State) : Out := hartOp (.vfsqrt o) o (toLanesF o (float1 Fp.sqrt o)) s

/-- `vfrcp`: 1/A. -/
def execVfrcp (o : Args) (s : State) : Out :=
  hartOp (.vfrcp o) o (toLanesF o (float1 (fun f rm z t x => Fp.div f rm z t (.fin false 1 0) x) o)) s

/-- `vfrsqrt`. -/
def execVfrsqrt (o : Args) (s : State) : Out := hartOp (.vfrsqrt o) o (toLanesF o (float1 Fp.rsqrt o)) s

/-- `vfexp2`. -/
def execVfexp2 (o : Args) (s : State) : Out := hartOp (.vfexp2 o) o (toLanesF o (float1 Fp.exp2 o)) s

/-- `vflog2`. -/
def execVflog2 (o : Args) (s : State) : Out :=
  hartOp (.vflog2 o) o (toLanesF o (float1 (fun f rm z _ x => Fp.log2 f rm z x) o)) s

/-- A pattern with its sign set by `f`, or the canonical NaN for a NaN; with `ftz` a subnormal input reads as zero
(R60, R104). -/
def signOp (ftz : Bool) (g : Bool → Bool) (f : Fp.Fmt) (bits : Nat) : Nat :=
  match Fp.decodeFtz f ftz bits with
  | .nan _ => f.canonNan
  | .inf neg => Fp.withSign f (g neg) f.infMag
  | .fin neg m _ => Fp.withSign f (g neg) (if m = 0 then 0 else bits % 2 ^ (f.width - 1))

/-- `vfabs`. -/
def execVfabs (o : Args) (s : State) : Out :=
  hartOp (.vfabs o) o (toLanesF o (fun h => floatRaw (signOp h.ftz (fun _ => false)) o h)) s

/-- `vfneg`. -/
def execVfneg (o : Args) (s : State) : Out :=
  hartOp (.vfneg o) o (toLanesF o (fun h => floatRaw (signOp h.ftz (fun n => !n)) o h)) s

/-- `vfclass`: the input as stored, with no flush. -/
def execVfclass (o : Args) (s : State) : Out := hartOp (.vfclass o) o (toLanesF o (floatRaw Fp.classify o)) s

/-- `vfrint`. -/
def execVfrint (o : Args) (s : State) : Out :=
  hartOp (.vfrint o) o (toLanesF o (float1 (fun f rm _ _ x => Fp.rint f rm x) o)) s

/-! ### Conversion (R107, R108) -/

/-- Cvt of one element pattern of type `src` to type `dst` (R63, R64); a pair that never rounds gives its exact result whatever `ftz` is
(DEDUCED, log 64). -/
def cvtElem (src dst rm : Nat) (ftz sat : Bool) (bits : Nat) : Fp.Res :=
  let ws := bitsOfType src
  let wd := bitsOfType dst
  if isFloat src then
    let v := Fp.decodeFtz (Fp.fmtOf src) ftz bits
    if isFloat dst then Fp.cvt (Fp.fmtOf dst) rm (ftz && !Rows.neverRounds src dst) sat v
    else
      let g := rangeOf (isSigned dst) wd
      let r := Fp.toInt g.1 g.2 rm v
      ⟨wrapBits wd r.1, r.2⟩
  else
    let k := intOf (isSigned src) ws bits
    if isFloat dst then Fp.ofInt (Fp.fmtOf dst) rm sat k
    else ⟨narrow (isSigned dst) sat wd k, 0⟩

/-- A lane of `vcvt`: same width, narrowing into part, or widening out of part (R107). -/
def cvtLane (o : Args) (h : Hart) (l : Nat) : LaneRes :=
  let src := (Rows.cvtTypes o).1
  let dst := (Rows.cvtTypes o).2
  let ws := bitsOfType src
  let wd := bitsOfType dst
  let ns := 32 / ws
  let nd := 32 / wd
  let part := o.imm.toNat
  let c (k : Nat) : Fp.Res := cvtElem src dst (RM h o) h.ftz o.sat (elem ws k (h.V o.a.toNat l))
  if ns = nd then packRes wd c
  else if ns < nd then
    packRes wd (fun j => if part * ns ≤ j ∧ j < part * ns + ns then c (j - part * ns)
      else ⟨elem wd j (h.V o.d.toNat l), 0⟩)
  else packRes wd (fun k => c (part * nd + k))

/-- `vcvt` (R107). -/
def execVcvt (o : Args) (s : State) : Out := hartOp (.vcvt o) o (toLanesF o (cvtLane o)) s

/-- `vsclenc` (R65, R108): the S10 container of the FP32 into half `part`. -/
def execVsclenc (o : Args) (s : State) : Out :=
  hartOp (.vsclenc o) o (toLanesF o (fun h l =>
    let r := Fp.toScale (RM h o) o.sat (Fp.decodeFtz Fp.f32 h.ftz (h.V o.a.toNat l).toNat)
    packRes 16 (fun k => if k = o.w2.toNat then r else ⟨elem 16 k (h.V o.d.toNat l), 0⟩))) s

/-- The FP32 pattern of a scale (R65). -/
def scaleToF32 (c : Nat) : Nat :=
  match Fp.scaleOf c with
  | .nan => Fp.f32.canonNan
  | .zero => 0
  | .val m e => (Fp.round Fp.f32 0 false false false m e).bits

/-- `vscldec` (R65, R108). -/
def execVscldec (o : Args) (s : State) : Out :=
  hartOp (.vscldec o) o (toLanes o (fun h l => BitVec.ofNat 32 (scaleToF32 (elem 16 o.w2.toNat (h.V o.a.toNat l))))) s

/-! ### Scaled unpacking (R109) -/

/-- The value of a source element of `vunpk`: E2M1, E4M3, E5M2 or an 8-bit integer. -/
def unpkValue (src bits : Nat) : Fp.Val :=
  if src = 1 ∨ src = 2 then
    let k := intOf (src == 1) 8 bits
    .fin (k < 0) k.natAbs 0
  else Fp.decode (Fp.fmtOf src) bits

/-- One destination element: source value × scale rounded once; NaN and zero scales first (R109). -/
def unpkElem (f : Fp.Fmt) (rm : Nat) (ftz : Bool) (v : Fp.Val) (sc : Fp.Scale) : Fp.Res :=
  match v, sc with
  | .nan _, _ => ⟨f.canonNan, 0⟩
  | _, .nan => ⟨f.canonNan, 0⟩
  | _, .zero => ⟨0, 0⟩
  | v, .val m e => Fp.roundVal f rm ftz false (Fp.mul v (.fin false m e)).1

/-- A lane of `vunpk`. -/
def unpkLane (o : Args) (h : Hart) (l : Nat) : LaneRes :=
  let x := o.xop.toNat
  let src := if x % 16 = 0 then 12 else x % 16
  let dst := tyOf o 7
  let ws := bitsOfType src
  let sel := bitsOf x 6 4
  let sc := if bitOf x 8 then Fp.Scale.val 1 0
    else Fp.scaleOf (elem 16 (if bitOf x 7 then 1 else 0) (h.V o.b.toNat l))
  let e (k : Nat) : Fp.Res :=
    unpkElem (Fp.fmtOf dst) (RM h o) h.ftz (unpkValue src (elem ws k (h.V o.a.toNat l))) sc
  if dst = 7 then packRes 32 (fun _ => e sel) else packRes 16 (fun k => e (2 * sel + k))

/-- `vunpk` (R109). -/
def execVunpk (o : Args) (s : State) : Out := hartOp (.vunpk o) o (toLanesF o (unpkLane o)) s

end Sys2Proof.Machine
end

