-- ==== Sys2Proof/Machine/LaneCross.lean ====
section
/-! DEFINITION. LANE instructions across lanes: shuffles, votes, match, reductions, scans, and moves between a hart and its
lanes (R110 to R116). -/

namespace Sys2Proof.Machine

/-- A shuffle: V(d, l) ← V(a, j l) (R110, R111). -/
def shuffle (j : Hart → Nat → Nat) (o : Args) (h : Hart) : Hart := toLanes o (fun h l => h.V o.a.toNat (j h l)) h

/-- `vshfl` (R110). -/
def execVshfl (o : Args) (s : State) : Out :=
  hartOp (.vshfl o) o (shuffle (fun h l => (h.V o.b.toNat l).toNat % 32) o) s

/-- `vrotl` (R110). -/
def execVrotl (o : Args) (s : State) : Out := hartOp (.vrotl o) o (shuffle (fun _ l => (l + o.w2.toNat) % 32) o) s

/-- `vslup` (R110). -/
def execVslup (o : Args) (s : State) : Out :=
  hartOp (.vslup o) o (shuffle (fun _ l => if l < o.w2.toNat then l else l - o.w2.toNat) o) s

/-- `vsldn` (R110). -/
def execVsldn (o : Args) (s : State) : Out :=
  hartOp (.vsldn o) o (shuffle (fun _ l => if l + o.w2.toNat > 31 then l else l + o.w2.toNat) o) s

/-- `vbfly` (R111). -/
def execVbfly (o : Args) (s : State) : Out := hartOp (.vbfly o) o (shuffle (fun _ l => Nat.xor l o.imm.toNat) o) s

/-! ### Votes and match -/

/-- The active lanes whose a operand is not zero (R112). -/
def votes (o : Args) (h : Hart) : List Nat := (active h o).filter (fun l => h.V o.a.toNat l != 0)

/-- An instruction whose result is one scalar register. -/
def toScalar (o : Args) (f : Hart → W64) (h : Hart) : Hart := h.setX o.d.toNat (f h)

/-- `vballot` (R112). -/
def execVballot (o : Args) (s : State) : Out :=
  hartOp (.vballot o) o (toScalar o (fun h => (maskOf (votes o h) (fun _ => true)).setWidth 64)) s

/-- `vany` (R112). -/
def execVany (o : Args) (s : State) : Out :=
  hartOp (.vany o) o (toScalar o (fun h => if (votes o h).isEmpty then 0 else 1)) s

/-- `vall`: 1 when no lane is active (R112). -/
def execVall (o : Args) (s : State) : Out :=
  hartOp (.vall o) o (toScalar o (fun h => if (votes o h).length = (active h o).length then 1 else 0)) s

/-- `vcnt` (R112). -/
def execVcnt (o : Args) (s : State) : Out :=
  hartOp (.vcnt o) o (toScalar o (fun h => BitVec.ofNat 64 (votes o h).length)) s

/-- `vmatch`: the mask of the active lanes that hold the same pattern (R113). -/
def execVmatch (o : Args) (s : State) : Out :=
  hartOp (.vmatch o) o (toLanes o (fun h l =>
    maskOf (active h o) (fun j => h.V o.a.toNat j == h.V o.a.toNat l))) s

/-! ### Reductions (R114) -/

/-- The operations of R114 by their `xop` code: add, min, max, and, or, xor. -/
inductive RedOp where
  | add | min | max | and | or | xor
  deriving DecidableEq, Repr

/-- The operation of code n. -/
def redOf (n : Nat) : RedOp :=
  match n with
  | 0 => .add
  | 1 => .min
  | 2 => .max
  | 3 => .and
  | 4 => .or
  | _ => .xor

/-- The identity of an operation for a type: what an empty set of lanes gives (R114). -/
def redIdentity (op : RedOp) (t : Nat) : W32 :=
  match op with
  | .add => 0
  | .min => if t = 7 then 0x7F800000 else if t = 6 then 0xFFFFFFFF else 0x7FFFFFFF
  | .max => if t = 7 then 0xFF800000 else if t = 6 then 0 else 0x80000000
  | .and => 0xFFFFFFFF
  | .or => 0
  | .xor => 0

/-- One step of a minimum, maximum or bitwise operation, or of a float addition, with its flags (R99, R114). -/
def redStep (op : RedOp) (t rm : Nat) (ftz : Bool) (x y : W32) : LaneRes :=
  let xv := Fp.decodeFtz Fp.f32 ftz x.toNat
  let yv := Fp.decodeFtz Fp.f32 ftz y.toNat
  let xi := intOf (isSigned t) 32 x.toNat
  let yi := intOf (isSigned t) 32 y.toNat
  match op with
  | .add =>
    if t = 7 then
      let r := finish Fp.f32 rm ftz false (Fp.add rm xv yv)
      ⟨BitVec.ofNat 32 r.bits, r.flags⟩
    else ⟨x + y, 0⟩
  | .min =>
    if t = 7 then
      let r := Fp.minMax Fp.f32 true xv yv
      ⟨BitVec.ofNat 32 r.bits, r.flags⟩
    else ⟨if xi ≤ yi then x else y, 0⟩
  | .max =>
    if t = 7 then
      let r := Fp.minMax Fp.f32 false xv yv
      ⟨BitVec.ofNat 32 r.bits, r.flags⟩
    else ⟨if xi ≥ yi then x else y, 0⟩
  | .and => ⟨x &&& y, 0⟩
  | .or => ⟨x ||| y, 0⟩
  | .xor => ⟨x ^^^ y, 0⟩

/-- What a lane brings to a reduction or scan: a float as R52, R59 and R60 read it, a NaN canonical, with NV for a signalling one, and a
subnormal flushed where `ftz` is set, also where it is the only one; a bitwise or integer operand as it is (R114, R115; DEDUCED,
log 64). -/
def redLeaf (op : RedOp) (t : Nat) (ftz : Bool) (w : W32) : LaneRes :=
  if t = 7 ∧ (op = .add ∨ op = .min ∨ op = .max) then
    match Fp.decodeFtz Fp.f32 ftz w.toNat with
    | .nan s => ⟨BitVec.ofNat 32 Fp.f32.canonNan, if s then Fp.NV else 0⟩
    | .fin neg 0 _ => ⟨BitVec.ofNat 32 (Fp.withSign Fp.f32 neg 0), 0⟩
    | _ => ⟨w, 0⟩
  else ⟨w, 0⟩

/-- A node of the reduction tree: nothing where no active lane lies below it, else a value; with the flags so far. -/
def redJoin (op : RedOp) (t rm : Nat) (ftz : Bool) (a b : Option W32 × BitVec 5) : Option W32 × BitVec 5 :=
  match a.1, b.1 with
  | none, y => (y, a.2 ||| b.2)
  | x, none => (x, a.2 ||| b.2)
  | some x, some y =>
    let r := redStep op t rm ftz x y
    (some r.word, a.2 ||| b.2 ||| r.flags)

/-- The fixed tree: level n covers 2^n lanes from lane `l` (R114). -/
def redTree (op : RedOp) (t rm : Nat) (ftz : Bool) (leaf : Nat → Option W32 × BitVec 5) : (n : Nat) → (l : Nat) → Option W32 × BitVec 5
  | 0, l => leaf l
  | n + 1, l => redJoin op t rm ftz (redTree op t rm ftz leaf n l) (redTree op t rm ftz leaf n (l + 2 ^ n))

/-- The exact integer sum of lanes, saturated or wrapped once (R114). -/
def redSum (sat : Bool) (t : Nat) (vs : List W32) : W32 :=
  let k : Int := vs.foldl (fun acc v => acc + intOf (isSigned t) 32 v.toNat) 0
  BitVec.ofNat 32 (narrow (isSigned t) sat 32 k)

/-- The 32-bit result of a reduction over lanes, with its flags; the identity when no lane is active. -/
def reduce (op : RedOp) (t : Nat) (o : Args) (h : Hart) : LaneRes :=
  let ls := active h o
  if ls.isEmpty then ⟨redIdentity op t, 0⟩
  else if op = .add ∧ t ≠ 7 then ⟨redSum o.sat t (ls.map (fun l => h.V o.a.toNat l)), 0⟩
  else
    let leaf (l : Nat) : Option W32 × BitVec 5 :=
      if (activeMask h o).getLsbD l then
        let v := redLeaf op t h.ftz (h.V o.a.toNat l)
        (some v.word, v.flags)
      else (none, 0)
    let r := redTree op t (RM h o) h.ftz leaf 5 0
    ⟨r.1.getD 0, r.2⟩

/-- The scalar a reduction writes: sign-extended for `.i32`, else zero-extended (R114). -/
def redResult (t : Nat) (w : W32) : W64 := if t = 5 then w.signExtend 64 else w.setWidth 64

/-- A reduction into X(d) (R114). -/
def reduceTo (op : RedOp) (o : Args) (h : Hart) : Hart :=
  let t := tyOf o 5
  let r := reduce op t o h
  (h.setX o.d.toNat (redResult t r.word)).orFlags r.flags

/-- `vredadd` (R114). -/
def execVredadd (o : Args) (s : State) : Out := hartOp (.vredadd o) o (reduceTo .add o) s

/-- `vredmin` (R114). -/
def execVredmin (o : Args) (s : State) : Out := hartOp (.vredmin o) o (reduceTo .min o) s

/-- `vredmax` (R114). -/
def execVredmax (o : Args) (s : State) : Out := hartOp (.vredmax o) o (reduceTo .max o) s

/-- `vredand` (R114). -/
def execVredand (o : Args) (s : State) : Out := hartOp (.vredand o) o (reduceTo .and o) s

/-- `vredor` (R114). -/
def execVredor (o : Args) (s : State) : Out := hartOp (.vredor o) o (reduceTo .or o) s

/-- `vredxor` (R114). -/
def execVredxor (o : Args) (s : State) : Out := hartOp (.vredxor o) o (reduceTo .xor o) s

/-! ### Scans (R115) -/

/-- The running value of a scan: empty, an exact integer sum, or a 32-bit value. -/
inductive Acc where
  | empty
  | sum (k : Int)
  | val (w : W32)
  deriving DecidableEq, Repr

/-- Value(S) (R115). -/
def accValue (op : RedOp) (t : Nat) (sat : Bool) : Acc → W32
  | .empty => redIdentity op t
  | .sum k => BitVec.ofNat 32 (narrow (isSigned t) sat 32 k)
  | .val w => w

/-- Combine(S, y), with flags (R115). -/
def accJoin (op : RedOp) (t rm : Nat) (ftz : Bool) (a : Acc) (w : W32) : Acc × BitVec 5 :=
  let v := redLeaf op t ftz w
  let y := v.word
  if op = .add ∧ t ≠ 7 then
    match a with
    | .sum k => (.sum (k + intOf (isSigned t) 32 y.toNat), 0)
    | _ => (.sum (intOf (isSigned t) 32 y.toNat), 0)
  else
    match a with
    | .val x =>
      let r := redStep op t rm ftz x y
      (.val r.word, v.flags ||| r.flags)
    | _ => (.val y, v.flags)

/-- The scan over lanes in increasing order; sources are read from the hart as it was (R94, R115). -/
def scanLanes (op : RedOp) (t : Nat) (excl : Bool) (o : Args) (h : Hart) : List Nat → Acc → Hart → Hart
  | [], _, acc => acc
  | l :: ls, a, acc =>
    let j := accJoin op t (RM h o) h.ftz a (h.V o.a.toNat l)
    let w := accValue op t o.sat (if excl then a else j.1)
    scanLanes op t excl o h ls j.1 ((acc.setV o.d.toNat l w).orFlags j.2)

/-- A scan into v[d] (R115). -/
def scan (op : RedOp) (excl : Bool) (o : Args) (h : Hart) : Hart :=
  scanLanes op (tyOf o 5) excl o h (active h o) .empty h

/-- `vpfxadd` (R115). -/
def execVpfxadd (o : Args) (s : State) : Out := hartOp (.vpfxadd o) o (scan .add false o) s

/-- The other inclusive scans (R115). -/
def execVpfxop (o : Args) (s : State) : Out := hartOp (.vpfxop o) o (scan (redOf o.xop.toNat) false o) s

/-- The exclusive scans, `xop` 8 and up (R115). -/
def execVepfxop (o : Args) (s : State) : Out := hartOp (.vepfxop o) o (scan (redOf (o.xop.toNat - 8)) true o) s

/-! ### Moves between hart and lanes (R116) -/

/-- `vmov`. -/
def execVmov (o : Args) (s : State) : Out := hartOp (.vmov o) o (toLanes o (fun h l => h.V o.a.toNat l)) s

/-- The scalar or literal that a broadcast writes. -/
def bcstValue (o : Args) (h : Hart) : W64 := if o.hasLit then o.lit else h.X o.b.toNat

/-- `vbcst`. -/
def execVbcst (o : Args) (s : State) : Out :=
  hartOp (.vbcst o) o (toLanes o (fun h _ => (bcstValue o h).setWidth 32)) s

/-- `vbcst64`. -/
def execVbcst64 (o : Args) (s : State) : Out :=
  hartOp (.vbcst64 o) o (fun h => writeLanes64 h o.d.toNat (active h o) (fun _ => bcstValue o h)) s

/-- `vext`. -/
def execVext (o : Args) (s : State) : Out :=
  hartOp (.vext o) o (toScalar o (fun h => (h.V o.a.toNat o.w2.toNat).signExtend 64)) s

/-- `vextx`. -/
def execVextx (o : Args) (s : State) : Out :=
  hartOp (.vextx o) o (toScalar o (fun h => (h.V o.a.toNat ((h.X o.b.toNat).toNat % 32)).signExtend 64)) s

/-- `vext64`. -/
def execVext64 (o : Args) (s : State) : Out :=
  hartOp (.vext64 o) o (toScalar o (fun h => h.V64 o.a.toNat o.w2.toNat)) s

/-- `vins`: the lane is written if it is active. -/
def execVins (o : Args) (s : State) : Out :=
  hartOp (.vins o) o (fun h => if (activeMask h o).getLsbD o.w2.toNat
    then h.setV o.d.toNat o.w2.toNat ((h.X o.b.toNat).setWidth 32) else h) s

end Sys2Proof.Machine
end

