-- ==== Sys2Proof/Machine/Link.lean ====
section
/-! DEFINITION. The virtio function of a host link: feature negotiation, notifications, the chains of its queues, interrupts,
events, page requests, and the host's accesses to device memory (R20 to R23, R325, R356 to R365, R384, R387 to R390). -/

namespace Sys2Proof.Machine

/-! ### The function and its queues (R356, R357, R362) -/

/-- The function of a link. -/
def State.fn (s : State) (link : Nat) : HostFn := Tab.get s.fns {} link

/-- A queue of a function. -/
def State.queue (s : State) (link q : Nat) : HostQueue := Tab.get (s.fn link).queues {} q

/-- A change to a queue. -/
def State.onQueue (s : State) (link q : Nat) (f : HostQueue → HostQueue) : State :=
  s.onFn link (fun n => { n with queues := Tab.set n.queues {} q (f (Tab.get n.queues {} q)) })

/-- Do the host links present the function: boot has reached step 6, or a verification has failed at step 4 or later (R385,
R386)? -/
def State.presented (s : State) : Bool := s.hallmark.step ≥ 6 || (s.hallmark.failed && s.hallmark.step ≥ 3)

/-- The feature bits that a driver must accept, and those that the device offers besides the conditional ones (R357). -/
def requiredBits : Nat := 2 ^ 32 + 2 ^ 33 + 2 ^ 34
def alwaysOffered : Nat := 2 ^ 2 + 2 ^ 3 + 2 ^ 29 + requiredBits

/-- The bits offered: `when` says which of bits 0, 1, 4 and 5 the link's state offers. -/
def offered (when_ : Nat) : Nat := (when_ &&& 0x33) + alwaysOffered

/-- FEATURES_OK: the driver of link `focus.unit` has accepted bits `focus.item`; `focus.code` tells which conditional bits the
device offers (R357). -/
def execFeaturesOk (s : State) : Out :=
  let f := s.focus
  let ok := f.item &&& offered f.code == f.item && f.item &&& requiredBits == requiredBits
  if !s.presented then .next s else .next (s.onFn f.unit (fun n => { n with featuresOk := ok, features := if ok then f.item else 0 }))

/-- NOTIFY: a 4-byte write of q to offset 0 of page q notifies queue q; any other access is ignored and counted (R362). -/
def execNotify (page off width : Nat) (value : W32) (s : State) : Out :=
  let good := off == 0 && width == 4 && value.toNat == page && page < 4098
  .next (s.onFn s.focus.unit (fun n =>
    if good then { n with notified := Tab.set n.notified 0 page (Tab.get n.notified 0 page + 1) } else { n with ignored := n.ignored + 1 }))

/-! ### Interrupts (R363) -/

/-- A vector of a function. -/
def HostFn.vector (n : HostFn) (v : Nat) : Vector := Tab.get n.vectors {} v

/-- A change to a vector. -/
def HostFn.onVector (n : HostFn) (v : Nat) (f : Vector → Vector) : HostFn := { n with vectors := Tab.set n.vectors {} v (f (n.vector v)) }

/-- A vector fires: its count returns to 0, and its message is sent, or its pending bit is set where it is masked. -/
def HostFn.fire (n : HostFn) (v : Nat) : HostFn :=
  let m := n.vector v
  if m.masked then n.onVector v (fun x => { x with n := 0, pending := true })
  else { n.onVector v (fun x => { x with n := 0 }) with sent := n.sent ++ [v] }

/-- A used buffer counted at a vector; the first addition starts its timer. -/
def State.countUsed (s : State) (link v : Nat) : State :=
  s.onFn link (fun n => n.onVector v (fun x => { x with n := x.n + 1, start := if x.n = 0 then s.tick else x.start }))

/-- Does a vector fire: its count is reached, or its timer has expired with something counted? Timer 0 is none. -/
def Vector.due (x : Vector) (tick : Nat) : Bool := x.n != 0 && (x.count ≤ x.n || (x.timer != 0 && x.start + x.timer ≤ tick))

/-- MSIX_FIRE: vector `focus.item` of link `focus.unit` (R363). -/
def execMsixFire (s : State) : Out :=
  let f := s.focus
  if ((s.fn f.unit).vector f.item).due s.tick then .next (s.onFn f.unit (fun n => n.fire f.item)) else .next s

/-- MSIX_UNMASK: vector `focus.item` of link `focus.unit` is unmasked; with its pending bit set the message is sent at once and
the bit cleared. With code 1 the host masks it (R363). -/
def execMsixUnmask (s : State) : Out :=
  let f := s.focus
  .next (s.onFn f.unit (fun n =>
    let m := n.vector f.item
    if f.code = 1 then n.onVector f.item (fun x => { x with masked := true })
    else { n.onVector f.item (fun x => { x with masked := false, pending := false }) with
           sent := if m.pending then n.sent ++ [f.item] else n.sent }))

/-! ### Chains (R359 to R361) -/

/-- What a command comes to: a status and result, or it holds its queue. -/
inductive Reply where
  | done (status result : Nat) (s : State)
  | hold (s : State)

/-- The 64 bytes of a status block (R360). -/
def HostQueue.block (q : HostQueue) : List Byte :=
  leBytes 8 q.applied.toNat ++ leBytes 8 q.ldone.toNat ++ leBytes 8 q.count ++ leBytes 4 q.qstate ++ leBytes 2 q.lop ++ List.replicate 34 0

/-- A queue's status block written to host memory, where it has one. -/
def State.writeStatus (s : State) (link q : Nat) : State :=
  let x := s.queue link q
  if x.status = 0 then s else { s with hostMem := s.hostMem.writeBytes x.status x.block }

/-- The place in the ring, and the wrap counter there, `n` descriptors on from the next used one. -/
def HostQueue.place (q : HostQueue) (n : Nat) : Nat × Bool :=
  let k := q.used + n
  (k % max 1 q.size, if k < q.size then q.wrap else !q.wrap)

/-- The used descriptor of a buffer of `n` descriptors with `len` bytes written: length, buffer number and flags, at the next place of the
queue's packed ring, where it has one (R356, R360; its layout is virtio 1.2's, PRESUMED, log 42). -/
def State.useBuffer (s : State) (link q buffer n len : Nat) : State :=
  let x := s.queue link q
  if x.ring = 0 then s
  else
    let flags := (if len = 0 then 0 else 2) + (if x.wrap then 0x8080 else 0)
    let t := { s with hostMem := s.hostMem.writeBytes (x.ring + 16 * x.used + 8) (leBytes 4 len ++ leBytes 2 buffer ++ leBytes 2 flags) }
    t.onQueue link q (fun x => { x with used := (x.place n).1, wrap := (x.place n).2 })

/-- Does packed-ring event suppression keep the used-buffer notification of `n` descriptors back: the driver's structure disables
notifications, or asks for one at a place that these do not reach (R363; its layout is virtio 1.2's, PRESUMED, log 42)? Without a structure
`focus.item` = 1 stands for it. -/
def State.suppressed (s : State) (link q n : Nat) : Bool :=
  let x := s.queue link q
  let off := leNat (s.hostMem.readBytes x.driver 2)
  let flags := leNat (s.hostMem.readBytes (x.driver + 2) 2) % 4
  if x.driver = 0 then s.focus.item == 1
  else flags == 1 || (flags == 2 && !(List.range n).any (fun k => x.place k == (off % 2 ^ 15, off / 2 ^ 15 == 1)))

/-- A chain completed: the status block, the used descriptor and the reply, then the vector's count, unless packed-ring event suppression
does not allow it (R359, R360, R363). -/
def State.complete (s : State) (link : Nat) (c : Chain) (status result : Nat) : State :=
  let t := (s.writeStatus link c.queue).useBuffer link c.queue c.buffer c.descs (16 + (if c.op = 0x08 then result else 0))
  let t := { t with hostMem := t.hostMem.writeBytes c.reply.toNat (leBytes 4 status ++ leBytes 4 0 ++ leBytes 8 result) }
  if s.suppressed link c.queue c.descs then t else t.countUsed link (s.queue link c.queue).vector

/-- A chain applied (R360). -/
def HostQueue.apply (q : HostQueue) (c : Chain) : HostQueue := { q with applied := c.seq, count := q.count + 1, lop := c.op }

/-- A chain taken off a queue that it held. -/
def HostQueue.pop (q : HostQueue) (c : Chain) : HostQueue :=
  if q.chains.head? = some c then { q with chains := q.chains.tail, begun := false, kept := [] } else q

/-- Has a command's payload a nonzero reserved byte (R359, R387)? -/
def reservedBad (c : Chain) : Bool :=
  let at_ (off n : Nat) : Bool := recField c.payload off n != 0
  match c.op with
  | 0x01 => at_ 5 3
  | 0x05 => at_ 3 1
  | 0x06 | 0x08 => at_ 4 4
  | 0x07 => at_ 6 2
  | _ => false

/-- A chain processed at the head of its queue (R359 to R361): KILLED on a queue of a killed context; INVALID with no effect for
a short payload, a nonzero reserved byte or an `op` that the queue does not have; DUPLICATE for a sequence number that has been
applied; else its command. -/
def runChain (c : Chain) (op size : Nat) (control : Bool) (again : Nat → State → State) (f : Nat → Bool → State → Reply) (s : State) : Out :=
  let link := s.focus.unit
  let q := s.queue link c.queue
  let pop (s : State) : State := s.onQueue link c.queue (fun q => q.pop c)
  if q.qstate = 2 then .next ((pop s).complete link c 2 0)
  else if c.zeros ≠ 0 ∨ c.op ≠ op ∨ c.payload.length < size ∨ control ≠ (c.queue == 0) ∨ reservedBad c then .next ((pop s).complete link c 1 0)
  else if q.status ≠ 0 ∧ c.seq.toNat ≤ q.applied.toNat ∧ ¬ q.begun then .next ((pop (again link s)).complete link c 3 0)
  else
    match f link q.begun s with
    | .done status result t => .next ((t.onQueue link c.queue (fun q => (q.pop c).apply c)).complete link c status result)
    | .hold t =>
      .next (t.onQueue link c.queue (fun q => { q with chains := if q.chains.head? = some c then q.chains else c :: q.chains, begun := true }))

/-- A chain met by its function: one that accepts no command but SPDM, or a user queue that is not bound, or that is being unbound,
takes none; a chain behind one that holds the queue waits. With `focus.code` = 1 the chain that holds the queue goes on
(R359, R386). -/
def hostChain (c : Chain) (op size : Nat) (control : Bool) (again : Nat → State → State) (f : Nat → Bool → State → Reply) (s : State) : Out :=
  let link := s.focus.unit
  let n := s.fn link
  let q := s.queue link c.queue
  if (n.needsReset ∧ c.op ≠ 0x08) ∨ ¬ n.featuresOk ∨ (c.queue ≠ 0 ∧ ¬ q.bound) then .next s
  else if s.focus.code = 1 then
    (if q.chains.head? = some c then runChain c op size control again f s else .next s)
  else if q.qstate = 1 then .next s
  else if q.chains ≠ [] then .next (s.onQueue link c.queue (fun q => { q with chains := q.chains ++ [c] }))
  else runChain c op size control again f s

/-- A duplicate of a command other than LAUNCH writes nothing (R360). -/
def quiet (_ : Nat) (s : State) : State := s

/-! ### Measurements of contexts (R384, R388) -/

/-- A context's measurement extended. -/
def State.extendContext (s : State) (pasid : Nat) (digest : List Byte) : State :=
  let c : Context := Tab.get s.ctxs {} pasid
  { s with ctxs := Tab.set s.ctxs {} pasid { c with cmeas := Sha.extend c.cmeas digest } }

/-- The contents of a measurement index (R388); the fuse-held versions of index 16 are free. -/
def State.measurement (s : State) (i : Nat) : List Byte :=
  if 1 ≤ i ∧ i ≤ 8 then s.hallmark.meas.getD (i - 1) []
  else if i = 16 then Config.freeBytes 0 32
  else if i = 32 then (s.ctxs.filter (fun c => c.2.made && !c.2.killed)).flatMap (fun c => leBytes 4 c.1 ++ c.2.cmeas)
  else []

/-! ### The control queue (R359, R387) -/

/-- A control command. -/
def control (c : Chain) (op size : Nat) (f : Nat → State → Reply) (s : State) : Out := hostChain c op size true quiet (fun l _ t => f l t) s

/-- A field of a chain's payload. -/
def chainGet (c : Chain) (off n : Nat) : Nat := recField c.payload off n

/-- Pages that the standing areas of the contexts take. -/
def State.standingPages (s : State) : Nat := ((s.ctxs.filter (fun c => c.2.made && !c.2.killed)).map (fun c => c.2.ovpages + c.2.svpages)).sum

/-- CTXNEW: a context with its standing areas, whose places the service kernel chooses: free values until the context is bound
(R152, R359, R384, R389). -/
def execCtxnew (c : Chain) (s : State) : Out :=
  control c 0x01 16 (fun link s =>
    let p := chainGet c 0 4
    let x : Context := Tab.get s.ctxs {} p
    let ov := chainGet c 8 4
    let sv := chainGet c 12 4
    if p ≥ 2 ^ 20 ∨ chainGet c 4 1 > 3 ∨ (x.made ∧ ¬ x.killed) then .done 1 0 s
    else if (s.standingPages + ov + sv) * 4096 > Config.hbmBytes then .done 5 0 s
    else
      let a := s.draw
      let b := a.2.draw
      let k := b.2.draw
      let place (w : W64) : Nat := w.toNat % 2 ^ 28 * 4096
      let y : Context := { cap := chainGet c 4 1, ovbase := place a.1, ovpages := ov, svbase := place b.1, svpages := sv, link
                           ptab := [(0, 0x90000)], cmeas := List.replicate 32 0, made := true, keyDraw := b.2.freeCtr }
      .done 0 0 { k.2 with ctxs := Tab.set k.2.ctxs {} p y }) s

/-- CTXDEL: the context is killed (R359). -/
def execCtxdel (c : Chain) (s : State) : Out :=
  control c 0x02 4 (fun _ s => .done 0 0 (s.killContext (chainGet c 0 4) 3)) s

/-- QBIND: a user queue bound to a context of the function, its status block written with zeros (R359). -/
def execQbind (c : Chain) (s : State) : Out :=
  control c 0x03 16 (fun link s =>
    let q := chainGet c 0 2
    let p := chainGet c 4 4
    let x : Context := Tab.get s.ctxs {} p
    if q < 2 ∨ q > 4097 ∨ chainGet c 2 2 ≥ 2048 ∨ ¬ x.made ∨ x.killed ∨ x.link ≠ link ∨ (s.queue link q).bound then .done 1 0 s
    else
      let b : HostQueue := { bound := true, pasid := p, vector := chainGet c 2 2, status := chainGet c 8 8 }
      .done 0 0 ((s.onQueue link q (fun _ => b)).writeStatus link q)) s

/-- Have all launches taken from a queue completed? -/
def State.launchesDone (s : State) (link q : Nat) : Bool :=
  s.launches.all (fun l => !(l.2.queue == some q && (Tab.get s.ctxs {} l.2.pasid).link == link) || l.2.ended)

/-- QUNBIND: the queue takes no further launch; the reply waits for every launch taken from it, and then it may be bound again
(R359). -/
def execQunbind (c : Chain) (s : State) : Out :=
  hostChain c 0x04 2 true quiet (fun link begun s =>
    let q := chainGet c 0 2
    if ¬ begun ∧ (q < 2 ∨ ¬ (s.queue link q).bound ∨ (s.queue link q).qstate = 1) then .done 1 0 s
    else
      let t := if begun then s else
        (s.onQueue link q (fun x => { x with qstate := 1, chains := if x.begun then x.chains.take 1 else [] })).writeStatus link q
      if t.launchesDone link q ∧ (t.queue link q).chains = [] then .done 0 0 (t.onQueue link q (fun x => { x with bound := false }))
      else .hold t) s

/-- QMOD: the moderation of a vector (R359, R363). -/
def execQmod (c : Chain) (s : State) : Out :=
  control c 0x05 6 (fun link s =>
    if chainGet c 0 2 ≥ 2048 ∨ chainGet c 2 1 = 0 then .done 1 0 s
    else .done 0 0 (s.onFn link (fun n => n.onVector (chainGet c 0 2) (fun v => { v with count := chainGet c 2 1, timer := chainGet c 4 2 })))) s

/-- DOMSET: the module joins a domain; UNSUPPORTED where DOMAIN has not been negotiated (R359, R366). -/
def execDomset (c : Chain) (s : State) : Out :=
  control c 0x06 16 (fun link s =>
    let n := chainGet c 2 2
    if ¬ bitOf (s.fn link).features 1 then .done 4 0 s
    else if n < 1 ∨ n > 1024 ∨ chainGet c 0 2 ≥ n then .done 1 0 s
    else .done 0 0 { s with domain := { size := n, module := chainGet c 0 2, ident := chainGet c 8 8, beat := s.cycle } }) s

/-- GANGBIND: a context's gang and domain base (R359). -/
def execGangbind (c : Chain) (s : State) : Out :=
  control c 0x07 16 (fun _ s =>
    let p := chainGet c 0 4
    let x : Context := Tab.get s.ctxs {} p
    if ¬ x.made ∨ x.killed ∨ chainGet c 4 2 = 0 then .done 1 0 s
    else .done 0 0 { s with ctxs := Tab.set s.ctxs {} p { x with gang := chainGet c 4 2, domain := BitVec.ofNat 64 (chainGet c 8 8) } }) s

/-- The response of Hallmark to an SPDM message: free bytes around the measurement blocks that a GET_MEASUREMENTS asks for, since
the messages' own format is not in the spec (R387, R388; log 19). -/
def State.spdmResponse (s : State) (msg : List Byte) : List Byte :=
  let code := (msg.getD 1 0).toNat
  let index := (msg.getD 3 0).toNat
  let blocks := if code ≠ 0xE0 then [] else if index = 0xFF then (List.range 33).flatMap s.measurement else s.measurement index
  let head := Config.freeBytes s.freeCtr ((Config.freeWord s.freeCtr).toNat % 4096)
  let tail := Config.freeBytes (s.freeCtr + 1) ((Config.freeWord (s.freeCtr + 1)).toNat % 4096)
  head ++ blocks ++ tail

/-- SPDM: Hallmark's response goes to the chain's device-writable part behind the reply, and `result` holds its length
(R387). -/
def execSpdm (c : Chain) (s : State) : Out :=
  control c 0x08 8 (fun _ s =>
    let n := chainGet c 0 4
    if c.payload.length > 4096 ∨ n + 8 > c.payload.length then .done 1 0 s
    else
      let r := s.spdmResponse ((c.payload.drop 8).take n)
      .done 0 r.length { s with
        freeCtr := s.freeCtr + 2, hallmark := { s.hallmark with response := r }, hostMem := s.hostMem.writeBytes (c.reply.toNat + 16) r }) s

/-! ### User queues (R20 to R23, R359, R360) -/

/-- The 128 bytes of a launch record as the device reads them: none while an ATS request is under way; an address with no
translation holds no record. -/
def State.fetchRecord (s : State) (pasid : Nat) (addr : W64) : Option (List Byte × State) × State :=
  match s.ctxPlace pasid deviceCore addr false with
  | (.at l, t) =>
    let bs := match l.place with
      | .hbm => (List.range 128).map (fun i => t.byteAt 0 (l.off + i))
      | .host => t.hostMem.readBytes l.off 128
      | _ => []
    (some (bs, t), t)
  | (.fail _, t) => (some ([], t), t)
  | (.wait, t) => (none, t)

/-- A duplicate LAUNCH: the completion record with status DUPLICATE, only where it re-sends the queue's last applied chain, a
LAUNCH, and its record names another nonzero address (R360). -/
def duplicateLaunch (c : Chain) (link : Nat) (s : State) : State :=
  let q := s.queue link c.queue
  if c.seq ≠ q.applied ∨ q.lop ≠ 0x10 then s
  else match (s.fetchRecord q.pasid (BitVec.ofNat 64 (chainGet c 0 8))).1 with
    | none => s
    | some (bs, t) =>
      let r := LaunchRec.ofBytes bs
      if bs = [] ∨ r.done = 0 ∨ r.done.toNat % 32 ≠ 0 ∨ r.done = q.ldone then s
      else (t.writeCompletion q.pasid r.done r.seq 3 0).getD t

/-- LAUNCH: once the chain's notification write has arrived (R220), the record is read once and checked once; an accepted launch is taken, a
rejected one completes INVALID when its completion record, where it asks for one, has been written; the device keeps its copy until then
(R20, R21, R359). The context is measured with what was read (R384). -/
def execLaunch (c : Chain) (s : State) : Out :=
  if Tab.get (s.fn s.focus.unit).notified 0 c.queue < c.notice then .next s
  else hostChain c 0x10 8 false (duplicateLaunch c) (fun link _ s =>
    let q := s.queue link c.queue
    let addr := BitVec.ofNat 64 (chainGet c 0 8)
    if addr.toNat % 128 ≠ 0 then .done 1 0 s
    else match (if q.kept = [] then s.fetchRecord q.pasid addr else (some (q.kept, s), s)) with
      | (none, t) => .hold t
      | (some (bs, t), _) =>
        let x : Context := Tab.get t.ctxs {} q.pasid
        let r := LaunchRec.ofBytes bs
        let named (s : State) : State := s.onQueue link c.queue (fun q => { q with ldone := r.done })
        if bs = [] then .done 1 0 t
        else if q.kept = [] ∧ recordOk bs x.cap true then
          let l : Launch :=
            { record := r, addr, pasid := q.pasid, queue := some c.queue, tie := c.queue, earliest := if t.nextLaunch = 0 then t.tick + 1 else 0 }
          let u := t.extendContext q.pasid (Sha.digest bs)
          .done 0 0 (named { u with launches := Tab.ins u.launches u.nextLaunch l, nextLaunch := u.nextLaunch + 1 })
        else
          let u := t.extendContext q.pasid (Sha.digest bs)
          if r.done.toNat % 32 ≠ 0 then .done 1 0 (named u)
          else match u.writeCompletion q.pasid r.done r.seq 1 0 with
            | some v => .done 1 0 (named v)
            | none => .hold ((t.ctxPlace q.pasid deviceCore r.done true).2.onQueue link c.queue (fun q => { q with kept := bs }))) s

/-- DRAIN: the reply waits for every earlier launch of the queue (R359). -/
def execDrain (c : Chain) (s : State) : Out :=
  hostChain c 0x11 0 false quiet (fun link _ s => if s.launchesDone link c.queue then .done 0 0 s else .hold s) s

/-- NOP. -/
def execNop (c : Chain) (s : State) : Out := hostChain c 0x12 0 false quiet (fun _ _ s => .done 0 0 s) s

/-- The step that takes up a chain again. -/
def chainRow (c : Chain) : Instr :=
  if c.op = 0x01 then .ctxnew c else if c.op = 0x02 then .ctxdel c else if c.op = 0x03 then .qbind c else if c.op = 0x04 then .qunbind c
  else if c.op = 0x05 then .qmod c else if c.op = 0x06 then .domset c else if c.op = 0x07 then .gangbind c else if c.op = 0x08 then .spdm c
  else if c.op = 0x10 then .launch c else if c.op = 0x11 then .drain c else .nop c

/-! ### Events and page requests (R325, R364, R390) -/

/-- The 48 bytes of an event as they are written. -/
def HostEvent.bytes (e : HostEvent) (lost : Nat) : List Byte :=
  leBytes 2 e.kind ++ leBytes 2 lost ++ leBytes 4 0 ++ leBytes 8 e.tick ++ (e.body.take 32 ++ List.replicate (32 - e.body.length) 0)

/-- EVENT_WRITE: the first event that waits on link `focus.unit` is written to the driver buffer at host address `focus.item`, whose number
in the ring is `focus.code`; the event queue's vector is never moderated (R363, R364). -/
def execEventWrite (s : State) : Out :=
  let link := s.focus.unit
  match (s.fn link).events with
  | [] => .next s
  | e :: es =>
    let n := s.fn link
    let t := s.useBuffer link 1 s.focus.code 1 48
    let t := { t with hostMem := t.hostMem.writeBytes s.focus.item (e.bytes n.lost) }
    .next (t.onFn link (fun n => { n with events := es, lost := 0 }.fire (Tab.get n.queues {} 1).vector))

/-- IDE_FAILURE: a transaction of link `focus.unit` that fails its integrity check is discarded, the link enters the
IDE insecure state, and event 7 is raised: protocol `focus.item` ÷ 256, stream `focus.item` mod 256, direction `focus.code` (R364,
R390). -/
def execIdeFailure (s : State) : Out :=
  let f := s.focus
  let n := min (2 ^ 64 - 1) ((s.fn f.unit).discarded + 1)
  let body := leBytes 2 f.unit ++ leBytes 1 (f.item / 256) ++ leBytes 1 (f.item % 256) ++ leBytes 1 f.code ++ List.replicate 3 0 ++ leBytes 8 n
  let taken := (s.fn f.unit).events.length < 256
  .next ((s.hostEvent f.unit 7 body).onFn f.unit (fun x => { x with discarded := if taken then 0 else n, insecure := true }))

/-- A verdict of the tinker of a hart's fault route on an entry of its log, or on the access that it waits on (R324). -/
def State.sendVerdict (s : State) (h entry seq : Nat) (bad : Bool) : State :=
  let word := (if bad then 1 else 0) + entry % 8 * 256 + slotOf h * 2048 + seq % 2 ^ 48 * 65536
  let tinker := Config.cores + bitsOf (s.ctx h).froute.toNat 4 0
  s.send { core := coreOf h, tag := 254, len := 8, source := tinker, hart := hartAt tinker 0, time := s.cycle % 2 ^ 48,
           payload := leBytes 8 word }

/-- The sequence number of the fault record whose verdict an entry of a hart's log, or with 8 the access that it waits on, awaits. -/
def State.awaitedSeq (s : State) (h entry : Nat) : Option Nat :=
  match Tab.look (s.hart h).oplog entry with
  | some e => if e.state = .verdict then some e.seq else none
  | none => if entry = 8 then (s.hart h).heldSeq else none

/-- The page that entry `n` of a hart's log, or with 8 the access that it waits on, faults on. -/
def State.faultPage (s : State) (h n : Nat) : Nat :=
  vpnOf (((Tab.look (s.hart h).oplog n).map LogEntry.fva).getD (s.hart h).heldFor.2.1)

/-- A page request for entry `n` of hart `h`, or with 8 for the access that it waits on, on the link that carries its context's queues: it
takes the lowest free group index there, which the entry records. Where the interface is stopped, or the driver has not accepted PAGEREQ,
the host is not asked, and the fault is unresolvable; without a free index it waits (R325, R357). -/
def State.requestPage (s : State) (h n seq : Nat) : State :=
  let c := s.ctx h
  let f := s.fn c.link
  let g := Tab.free f.groups Config.pageGroups 0
  let r : PageReq := { pasid := ctxOf s h, hart := h, entry := n, seq, vpn := s.faultPage h n }
  if f.priStopped ∨ ¬ bitOf f.features 5 then s.sendVerdict h n seq true
  else if g ≥ Config.pageGroups ∨ f.groups.any (fun e => e.2 == r) then s
  else
    (s.onFn c.link (fun f => { f with groups := Tab.ins f.groups g r })).onHart h (fun x =>
      { x with oplog := x.oplog.map (fun e => if e.1 = n then (e.1, { e.2 with pgroup := g }) else e) })

/-- The host's response to the page request of group `g` on a link: 0 Success, 1 Invalid Request, else Response Failure, which stops the
link's page-request interface, with event 3. The tinker sends the verdict; for a request that a kill has retired there is none (R325). -/
def State.pageAnswered (s : State) (link g code : Nat) : State :=
  match (s.fn link).groups.look g with
  | none => s
  | some r =>
    let t := s.onFn link (fun n => { n with groups := Tab.del n.groups g, priStopped := n.priStopped || code ≥ 2 })
    let t := if code ≤ 1 then t else t.hostEvent link 3 (leBytes 4 link)
    if r.retired then t else t.sendVerdict r.hart r.entry r.seq (code != 0)

/-- PAGE_REQUEST_RESPONSE: the host answers the page request of group `focus.item` on link `focus.unit`, with code 0 Success, 1 Invalid
Request or 2 Response Failure; with code 8, the tinker of the fault route sends one for entry `focus.item` of hart `cur`, or for the access
that it waits on (R325; DESIGN CHOICE: the step that sends it, log 42). -/
def execPageRequestResponse (s : State) : Out :=
  let f := s.focus
  if f.code = 8 then .next (((s.awaitedSeq s.cur f.item).map (s.requestPage s.cur f.item)).getD s)
  else .next (s.pageAnswered f.unit f.item f.code)

/-- PAGE_REQUEST_RESTART: a tinker restarts the page-request interface of link `focus.unit` (R325). -/
def execPageRequestRestart (s : State) : Out := .next (s.onFn s.focus.unit (fun n => { n with priStopped := false }))

/-! ### Host accesses to device memory (R219, R365, R389) -/

/-- Does the service kernel hold a device address private: an overlay or standing save area, a context block, or a gang's save
area (R365)? -/
def State.isPrivate (s : State) (pa : Nat) : Bool :=
  let in_ (base pages : Nat) : Bool := base ≤ pa && pa < base + pages * 4096
  s.ctxs.any (fun c => in_ c.2.ovbase c.2.ovpages || in_ c.2.svbase c.2.svpages || (c.2.bound && in_ c.2.block 1))
    || s.gangs.any (fun g => in_ g.2.area g.2.pages) || s.saves.any (fun a => a.1 ≤ pa && pa < a.1 + a.2.used)

/-- HDM_READ: the host reads the 64 bytes at device address `focus.item` over link `focus.unit`: what the line's home holds
published, or all ones for a private or retired page, with event 5 for a private one (R330, R365). -/
def execHdmRead (s : State) : Out :=
  let link := s.focus.unit
  let pa := s.focus.item / 64 * 64
  if ¬ bitOf (s.fn link).features 4 ∨ pa ≥ Config.hbmBytes then .next s
  else if s.isPrivate pa then .next ({ s with hdmRead := List.replicate 64 0xFF }.hostEvent link 5 (leBytes 8 pa))
  else if s.retired.contains (pa / 4096) then .next { s with hdmRead := List.replicate 64 0xFF }
  else
    let t := s.recallOwner (lineKey 0 (lineOf pa))
    .next { t with hdmRead := (List.range 64).map (fun i => t.byteAt 0 (pa + i)), hostLines := insertBy (· ≤ ·) (lineOf pa) (t.hostLines.erase (lineOf pa)) }

/-- HDM_WRITE: the host writes bytes at a device address: ordered at the line's home and published at `.sys`; discarded for a
private page, with event 5 (R219, R365). -/
def execHdmWrite (pa : Nat) (data : List Byte) (s : State) : Out :=
  let link := s.focus.unit
  if ¬ bitOf (s.fn link).features 4 ∨ pa + data.length > Config.hbmBytes then .next s
  else if s.isPrivate pa ∨ s.isPrivate (pa + data.length - 1) then .next (s.hostEvent link 5 (leBytes 8 pa))
  else .next (s.writePublished 0 none (data.zipIdx.map (fun b => (pa + b.2, b.1))))

/-- BACK_INVALIDATION_RESPONSE: the host has dropped line `focus.item` (R365). -/
def execBackInvalidationResponse (s : State) : Out :=
  let l := s.focus.item
  if s.snoops.contains l then .next { s with snoops := s.snoops.erase l, hostLines := s.hostLines.erase l } else .next s

end Sys2Proof.Machine
end

