-- ==== Sys2Proof/Machine/Power.lean ====
section
/-! DEFINITION. The measured boot, errors that codes report, and heat (R195, R330, R383 to R386, R391, R392). -/

namespace Sys2Proof.Machine

/-! ### Measured boot (R383 to R386) -/

/-- A measurement register extended (R384). -/
def Hallmark.extend (m : Hallmark) (i : Nat) (digest : List Byte) : Hallmark :=
  { m with meas := m.meas.set i (Sha.extend (m.meas.getD i []) digest) }

/-- The images of a boot step verified in order, each digest extending its register; the step at which the first failure halts
the boot (R385, R386). -/
def Hallmark.images (m : Hallmark) (b : BootInput) (step : Nat) : List Nat → Hallmark
  | [] => { m with step := step }
  | i :: is =>
    if b.verified.getD i false then (m.extend i (b.digests.getD i [])).images b step is
    else { m with failed := true }

/-- One step of R385 by Hallmark or the tinkers, unless the boot has been halted. -/
def Hallmark.boot (m : Hallmark) (b : BootInput) (step : Nat) (is : List Nat) : Hallmark :=
  if m.failed then m else m.images b step is

/-- The six steps of the boot before the host's own (R385). -/
def Hallmark.start (b : BootInput) : Hallmark :=
  let m : Hallmark := { meas := List.replicate 8 (List.replicate 32 0), step := 1 }
  ((((m.boot b 2 [0, 1]).boot b 3 []).boot b 4 [2, 3]).boot b 5 []).boot b 6 [4]

/-- A tinker as its verified monitor starts it: in S mode at the service kernel's entry, not idle (R195, R385; log 6). -/
def tinkerAt (entry : W64) : Hart := { Hart.vacant with live := true, resident := true, tinker := true, mode := .s, pc := entry }

/-- MODULE_RESET: module reset and the boot that follows it, on the images that the module is given (R385, R386). Host memory
is the host's and keeps its contents, as does the record of retired pages (R330); the tinkers start when their images have
verified. -/
def execModuleReset (b : BootInput) (s : State) : Out :=
  let m := Hallmark.start b
  let tinkers : Tab Hart := if b.services ∧ 2 ≤ m.step then
      (List.range Config.tinkers).map (fun i => (Config.harts + i, tinkerAt b.serviceEntry)) else []
  let fn : HostFn := { needsReset := m.failed && m.step ≥ 3 }
  .next { State.reset with
    agenda := s.agenda, cur := s.cur, focus := s.focus, freeCtr := s.freeCtr, hostMem := s.hostMem, retired := s.retired, hallmark := m
    harts := tinkers, fns := if fn = {} then [] else [(0, fn), (1, fn)]
    shimVec := if 4 ≤ m.step then b.shimVec else 0, monitorVec := if 4 ≤ m.step then b.monitorVec else 0 }

/-! ### Errors (R330) -/

/-- The `place` code of an error record (R330). -/
def placeCode : ErrPlace → Nat
  | .hbm => 1 | .l2 => 2 | .l1 => 3 | .tcm => 4 | .scratchpad => 5 | .lid => 6 | .acc => 7 | .laneRegs => 8 | .other => 9

/-- Does a table of `fuel` levels, or one below it, map or hold a physical page (R317, R330)? -/
def State.tableMaps (s : State) (page : Nat) : (fuel : Nat) → (base : Nat) → Bool
  | 0, _ => false
  | n + 1, base =>
    base / 4096 == page || (List.range 512).any (fun i =>
      let p := s.homePte (base + 8 * i)
      bitOf p 0 && (
        if bitOf p 1 || bitOf p 3 then bitsOf p 53 10 / 512 ^ n == page / 512 ^ n && bitsOf p 9 8 == 0
        else State.tableMaps s page n (bitsOf p 53 10 * 4096)))

/-- Contexts that own or map a physical page: their tables, their areas, or a mapping of it (R330). -/
def State.ownersOf (s : State) (page : Nat) : List Nat :=
  let in_ (base pages : Nat) : Bool := base / 4096 ≤ page && page < base / 4096 + pages
  (s.ctxs.filter (fun c => !c.2.killed && (in_ c.2.ovbase c.2.ovpages || in_ c.2.svbase c.2.svpages
    || (c.2.bound && (c.2.block / 4096 == page || s.tableMaps page 5 c.2.root.toNat))))).map Prod.fst

/-- Contexts that an error affects: the owners of a line of memory, or the holder of the core or cluster in whose state it lies
(R330). -/
def State.affected (s : State) (e : EccError) : List Nat :=
  match e.place with
  | .hbm | .l2 => s.ownersOf (e.address / 4096)
  | .scratchpad => (s.cluster e.unit).ctx.toList
  | _ => if e.unit < Config.cores then (s.core e.unit).holder.toList else []

/-- Does an error lie in state of the service kernel or of Hallmark: a tinker's, or a private page (R330)? -/
def State.ofService (s : State) (e : EccError) : Bool :=
  match e.place with
  | .hbm | .l2 => s.isPrivate e.address
  | .scratchpad => false
  | _ => e.unit ≥ Config.cores

/-- Key of the corrected-error count of a place (R330). -/
def placeKey (place unit : Nat) : Nat := place * 65536 + unit % 65536

/-- The body of event 1 (R330). -/
def errorRecord (e : EccError) (pasid : Option Nat) (tick corr flags : Nat) : List Byte :=
  let line : Bool := match e.place with
    | .hbm | .l2 => true
    | _ => false
  leBytes 2 (placeCode e.place) ++ leBytes 2 e.unit ++ leBytes 4 (pasid.getD 0xFFFFFFFF)
    ++ leBytes 8 (if line then e.address / 128 * 128 else e.address) ++ leBytes 8 tick ++ leBytes 4 (min corr (2 ^ 32 - 1)) ++ leBytes 4 flags

/-- An error with the unit of its record: an HBM line's stack is that of its address (R156, R330). -/
def withStack (e : EccError) : EccError :=
  match e.place with
  | .hbm => { e with unit := Config.stackOf e.address }
  | _ => e

/-- ECC_UNCORRECTABLE: every context affected is killed, the page of an HBM error is retired, a line of memory that has lost its data reads
all ones until it is written, so that nobody is given them, an error in the service kernel's state sets DEVICE_NEEDS_RESET, and the error
record joins the events (R330). -/
def execEccUncorrectable (err : EccError) (s : State) : Out :=
  let e := withStack err
  let ps := s.affected e
  let hbm := match e.place with
    | .hbm => true
    | _ => false
  let service := ps.isEmpty && s.ofService e
  let key := placeKey (placeCode e.place) e.unit
  let flags := (if ps.isEmpty then 0 else 1) + (if hbm then 2 else 0) + (if service then 4 else 0)
  let body := errorRecord e ps.head? s.tick (Tab.get s.corrected 0 key) flags
  let link := ps.head?.map (fun p => (Tab.get s.ctxs {} p).link)
  let t := ps.foldl (fun (s : State) (p : Nat) => s.killContext p 1) s
  let line := e.address / 128 * 128
  let t := { t with
    lost := if hbm || e.place == .l2 then t.lost.flatMap (cutRange line 128) ++ [(line, 128)] else t.lost
    retired := if hbm && !t.retired.contains (e.address / 4096) then t.retired ++ [e.address / 4096] else t.retired
    corrected := Tab.set t.corrected 0 key 0 }
  let t := if service then [0, 1].foldl (fun (s : State) (l : Nat) => s.onFn l (fun n => { n with needsReset := true })) t else t
  .next (match link with
    | some l => t.hostEvent l 1 body
    | none => t.moduleEvent 1 body)

/-- ECC_CORRECTED: an error in place `focus.code` of unit `focus.unit` has been repaired, and is counted (R330). -/
def execEccCorrected (s : State) : Out :=
  let key := placeKey s.focus.code s.focus.unit
  .next { s with corrected := Tab.set s.corrected 0 key (Tab.get s.corrected 0 key + 1) }

/-! ### Heat (R391, R392) -/

/-- The body of event 6 (R364). -/
def thermalBody (r : Reading) (st : Nat) : List Byte :=
  leBytes 2 r.die ++ leBytes 2 st ++ leBytes 2 (r.celsius % 65536).toNat ++ leBytes 2 0 ++ leBytes 4 r.watts

/-- A die's thermal state written. -/
def State.setDie (s : State) (d : Nat) (x : Thermal) : State := { s with dies := Tab.set s.dies {} d x }

/-- THERMAL_THROTTLE: a reading above 95 °C or 550 W throttles the die, with event 6; one that is throttled begins its count of
cool ticks again (R392). -/
def execThermalThrottle (r : Reading) (s : State) : Out :=
  let d := Tab.get s.dies {} r.die
  if r.die ≥ Config.cdies ∨ ¬ (95 < r.celsius ∨ 550 < r.watts) ∨ d.st = 2 then .next s
  else if d.st = 1 then .next (s.setDie r.die { d with cool := 0 })
  else .next ((s.setDie r.die { st := 1, cool := 0 }).moduleEvent 6 (thermalBody r 1))

/-- THERMAL_RECOVER: a reading of one tick below 90 °C and 520 W; after 64 of them in a row the die is back at full rate, with
event 6 (R392). -/
def execThermalRecover (r : Reading) (s : State) : Out :=
  let d := Tab.get s.dies {} r.die
  if r.die ≥ Config.cdies ∨ d.st ≠ 1 then .next s
  else if ¬ (r.celsius < 90 ∧ r.watts < 520) then .next (s.setDie r.die { d with cool := 0 })
  else if d.cool + 1 < 64 then .next (s.setDie r.die { d with cool := d.cool + 1 })
  else .next ((s.setDie r.die { st := 0, cool := 0 }).moduleEvent 6 (thermalBody r 0))

/-- THERMAL_TRIP: above 110 °C all issue stops, every context is killed with reason 5, and DEVICE_NEEDS_RESET is set, with event
6 (R392). -/
def execThermalTrip (r : Reading) (s : State) : Out :=
  let d := Tab.get s.dies {} r.die
  if r.die ≥ Config.cdies ∨ ¬ (110 < r.celsius) ∨ d.st = 2 then .next s
  else
    let t := (s.setDie r.die { st := 2, cool := 0 }).moduleEvent 6 (thermalBody r 2)
    let t := (t.ctxs.map Prod.fst).foldl (fun (s : State) (p : Nat) => s.killContext p 5) t
    .next ([0, 1].foldl (fun (s : State) (l : Nat) => s.onFn l (fun n => { n with needsReset := true })) t)

end Sys2Proof.Machine
end

