-- ==== Sys2Proof/Machine/Dispatch.lean ====
section
/-! DEFINITION. Which meaning each row of spec/opcode_table.json has. -/

namespace Sys2Proof.Machine

open Sys2Proof

-- One arm per constructor: the row's meaning, a definition of its own.
def exec (i : Instr) (s : State) : Host.Outcome State Fault Refusal :=
  match i with
  | .fence o => Sys2Proof.Machine.execFence o s
  | .fenceI o => Sys2Proof.Machine.execFenceI o s
  | .lr o => Sys2Proof.Machine.execLr o s
  | .sc o => Sys2Proof.Machine.execSc o s
  | .amo op o => Sys2Proof.Machine.execAmo op o s
  | .standardAccess op r rs1 imm => Sys2Proof.Machine.execStandardAccess op r rs1 imm s
  | .csrWrite o => Sys2Proof.Machine.execCsrWrite o s
  | .lfcsrAccess o => Sys2Proof.Machine.execLfcsrAccess o s
  | .dflagsDrain o => Sys2Proof.Machine.execDflagsDrain o s
  | .msdepthWrite o => Sys2Proof.Machine.execMsdepthWrite o s
  | .regwinWrite o => Sys2Proof.Machine.execRegwinWrite o s
  | .clh wait fa fb => Sys2Proof.Machine.execClh wait fa fb s
  | .vadd o => Sys2Proof.Machine.execVadd o s
  | .vsub o => Sys2Proof.Machine.execVsub o s
  | .vmul o => Sys2Proof.Machine.execVmul o s
  | .vmulh o => Sys2Proof.Machine.execVmulh o s
  | .vmulhsu o => Sys2Proof.Machine.execVmulhsu o s
  | .vdiv o => Sys2Proof.Machine.execVdiv o s
  | .vrem o => Sys2Proof.Machine.execVrem o s
  | .vmin o => Sys2Proof.Machine.execVmin o s
  | .vmax o => Sys2Proof.Machine.execVmax o s
  | .vand o => Sys2Proof.Machine.execVand o s
  | .vandn o => Sys2Proof.Machine.execVandn o s
  | .vor o => Sys2Proof.Machine.execVor o s
  | .vorn o => Sys2Proof.Machine.execVorn o s
  | .vxor o => Sys2Proof.Machine.execVxor o s
  | .vxnor o => Sys2Proof.Machine.execVxnor o s
  | .vsll o => Sys2Proof.Machine.execVsll o s
  | .vsrl o => Sys2Proof.Machine.execVsrl o s
  | .vsra o => Sys2Proof.Machine.execVsra o s
  | .vfadd o => Sys2Proof.Machine.execVfadd o s
  | .vfsub o => Sys2Proof.Machine.execVfsub o s
  | .vfmul o => Sys2Proof.Machine.execVfmul o s
  | .vfma o => Sys2Proof.Machine.execVfma o s
  | .vfma4 o => Sys2Proof.Machine.execVfma4 o s
  | .vfms o => Sys2Proof.Machine.execVfms o s
  | .vfnma o => Sys2Proof.Machine.execVfnma o s
  | .vfdiv o => Sys2Proof.Machine.execVfdiv o s
  | .vfsqrt o => Sys2Proof.Machine.execVfsqrt o s
  | .vfrcp o => Sys2Proof.Machine.execVfrcp o s
  | .vfrsqrt o => Sys2Proof.Machine.execVfrsqrt o s
  | .vfexp2 o => Sys2Proof.Machine.execVfexp2 o s
  | .vflog2 o => Sys2Proof.Machine.execVflog2 o s
  | .vfabs o => Sys2Proof.Machine.execVfabs o s
  | .vfneg o => Sys2Proof.Machine.execVfneg o s
  | .vfclass o => Sys2Proof.Machine.execVfclass o s
  | .vfrint o => Sys2Proof.Machine.execVfrint o s
  | .vceq o => Sys2Proof.Machine.execVceq o s
  | .vcne o => Sys2Proof.Machine.execVcne o s
  | .vclt o => Sys2Proof.Machine.execVclt o s
  | .vcle o => Sys2Proof.Machine.execVcle o s
  | .vcgt o => Sys2Proof.Machine.execVcgt o s
  | .vcge o => Sys2Proof.Machine.execVcge o s
  | .vcun o => Sys2Proof.Machine.execVcun o s
  | .vcor o => Sys2Proof.Machine.execVcor o s
  | .vsel o => Sys2Proof.Machine.execVsel o s
  | .vcvt o => Sys2Proof.Machine.execVcvt o s
  | .vsclenc o => Sys2Proof.Machine.execVsclenc o s
  | .vscldec o => Sys2Proof.Machine.execVscldec o s
  | .vunpk o => Sys2Proof.Machine.execVunpk o s
  | .vshfl o => Sys2Proof.Machine.execVshfl o s
  | .vrotl o => Sys2Proof.Machine.execVrotl o s
  | .vslup o => Sys2Proof.Machine.execVslup o s
  | .vsldn o => Sys2Proof.Machine.execVsldn o s
  | .vbfly o => Sys2Proof.Machine.execVbfly o s
  | .vballot o => Sys2Proof.Machine.execVballot o s
  | .vany o => Sys2Proof.Machine.execVany o s
  | .vall o => Sys2Proof.Machine.execVall o s
  | .vcnt o => Sys2Proof.Machine.execVcnt o s
  | .vmatch o => Sys2Proof.Machine.execVmatch o s
  | .vredadd o => Sys2Proof.Machine.execVredadd o s
  | .vredmin o => Sys2Proof.Machine.execVredmin o s
  | .vredmax o => Sys2Proof.Machine.execVredmax o s
  | .vredand o => Sys2Proof.Machine.execVredand o s
  | .vredor o => Sys2Proof.Machine.execVredor o s
  | .vredxor o => Sys2Proof.Machine.execVredxor o s
  | .vpfxadd o => Sys2Proof.Machine.execVpfxadd o s
  | .vpfxop o => Sys2Proof.Machine.execVpfxop o s
  | .vepfxop o => Sys2Proof.Machine.execVepfxop o s
  | .vmov o => Sys2Proof.Machine.execVmov o s
  | .vbcst o => Sys2Proof.Machine.execVbcst o s
  | .vbcst64 o => Sys2Proof.Machine.execVbcst64 o s
  | .vext o => Sys2Proof.Machine.execVext o s
  | .vextx o => Sys2Proof.Machine.execVextx o s
  | .vext64 o => Sys2Proof.Machine.execVext64 o s
  | .vins o => Sys2Proof.Machine.execVins o s
  | .vlid o => Sys2Proof.Machine.execVlid o s
  | .vpopc o => Sys2Proof.Machine.execVpopc o s
  | .vclz o => Sys2Proof.Machine.execVclz o s
  | .vctz o => Sys2Proof.Machine.execVctz o s
  | .vbrev o => Sys2Proof.Machine.execVbrev o s
  | .vrev8 o => Sys2Proof.Machine.execVrev8 o s
  | .vnot o => Sys2Proof.Machine.execVnot o s
  | .vabs o => Sys2Proof.Machine.execVabs o s
  | .vmbit o => Sys2Proof.Machine.execVmbit o s
  | .mand o => Sys2Proof.Machine.execMand o s
  | .mor o => Sys2Proof.Machine.execMor o s
  | .mxor o => Sys2Proof.Machine.execMxor o s
  | .mandn o => Sys2Proof.Machine.execMandn o s
  | .morn o => Sys2Proof.Machine.execMorn o s
  | .mxnor o => Sys2Proof.Machine.execMxnor o s
  | .mmov o => Sys2Proof.Machine.execMmov o s
  | .mset o => Sys2Proof.Machine.execMset o s
  | .mfx o => Sys2Proof.Machine.execMfx o s
  | .mtx o => Sys2Proof.Machine.execMtx o s
  | .mpopc o => Sys2Proof.Machine.execMpopc o s
  | .mffs o => Sys2Proof.Machine.execMffs o s
  | .lif o => Sys2Proof.Machine.execLif o s
  | .lifn o => Sys2Proof.Machine.execLifn o s
  | .lelse o => Sys2Proof.Machine.execLelse o s
  | .ljoin o => Sys2Proof.Machine.execLjoin o s
  | .lloop o => Sys2Proof.Machine.execLloop o s
  | .lbrk o => Sys2Proof.Machine.execLbrk o s
  | .lcont o => Sys2Proof.Machine.execLcont o s
  | .msPush o => Sys2Proof.Machine.execMsPush o s
  | .msPop o => Sys2Proof.Machine.execMsPop o s
  | .msDepth o => Sys2Proof.Machine.execMsDepth o s
  | .msRdm o => Sys2Proof.Machine.execMsRdm o s
  | .msRdr o => Sys2Proof.Machine.execMsRdr o s
  | .msRdp o => Sys2Proof.Machine.execMsRdp o s
  | .msWrm o => Sys2Proof.Machine.execMsWrm o s
  | .msWrr o => Sys2Proof.Machine.execMsWrr o s
  | .msWrp o => Sys2Proof.Machine.execMsWrp o s
  | .mbz o => Sys2Proof.Machine.execMbz o s
  | .mbnz o => Sys2Proof.Machine.execMbnz o s
  | .mball o => Sys2Proof.Machine.execMball o s
  | .mbnall o => Sys2Proof.Machine.execMbnall o s
  | .pause o => Sys2Proof.Machine.execPause o s
  | .yield o => Sys2Proof.Machine.execYield o s
  | .dfwait o => Sys2Proof.Machine.execDfwait o s
  | .vld o => Sys2Proof.Machine.execVld o s
  | .vldPair o => Sys2Proof.Machine.execVldPair o s
  | .vld64 o => Sys2Proof.Machine.execVld64 o s
  | .vst o => Sys2Proof.Machine.execVst o s
  | .vst64 o => Sys2Proof.Machine.execVst64 o s
  | .vlds o => Sys2Proof.Machine.execVlds o s
  | .vsts o => Sys2Proof.Machine.execVsts o s
  | .uld o => Sys2Proof.Machine.execUld o s
  | .ust o => Sys2Proof.Machine.execUst o s
  | .vldRc o => Sys2Proof.Machine.execVldRc o s
  | .vamo o => Sys2Proof.Machine.execVamo o s
  | .vamoCas o => Sys2Proof.Machine.execVamoCas o s
  | .vamoNr o => Sys2Proof.Machine.execVamoNr o s
  | .uamo o => Sys2Proof.Machine.execUamo o s
  | .fenceAcq o => Sys2Proof.Machine.execFenceAcq o s
  | .fenceRel o => Sys2Proof.Machine.execFenceRel o s
  | .fenceAr o => Sys2Proof.Machine.execFenceAr o s
  | .fenceSc o => Sys2Proof.Machine.execFenceSc o s
  | .cctlPf1 o => Sys2Proof.Machine.execCctlPf1 o s
  | .cctlPf2 o => Sys2Proof.Machine.execCctlPf2 o s
  | .cctlInv o => Sys2Proof.Machine.execCctlInv o s
  | .cctlMaf o => Sys2Proof.Machine.execCctlMaf o s
  | .cctlMafclr o => Sys2Proof.Machine.execCctlMafclr o s
  | .barSync o => Sys2Proof.Machine.execBarSync o s
  | .barArrive o => Sys2Proof.Machine.execBarArrive o s
  | .barWait o => Sys2Proof.Machine.execBarWait o s
  | .barTest o => Sys2Proof.Machine.execBarTest o s
  | .barInit o => Sys2Proof.Machine.execBarInit o s
  | .barBytes o => Sys2Proof.Machine.execBarBytes o s
  | .barDrop o => Sys2Proof.Machine.execBarDrop o s
  | .qPush o => Sys2Proof.Machine.execQPush o s
  | .qPop o => Sys2Proof.Machine.execQPop o s
  | .qVpush o => Sys2Proof.Machine.execQVpush o s
  | .qVpop o => Sys2Proof.Machine.execQVpop o s
  | .qCount o => Sys2Proof.Machine.execQCount o s
  | .msgSend o => Sys2Proof.Machine.execMsgSend o s
  | .msgSendx o => Sys2Proof.Machine.execMsgSendx o s
  | .msgSendw o => Sys2Proof.Machine.execMsgSendw o s
  | .msgRecv o => Sys2Proof.Machine.execMsgRecv o s
  | .msgTset o => Sys2Proof.Machine.execMsgTset o s
  | .msgTget o => Sys2Proof.Machine.execMsgTget o s
  | .taskDec o => Sys2Proof.Machine.execTaskDec o s
  | .taskTake o => Sys2Proof.Machine.execTaskTake o s
  | .strmPut o => Sys2Proof.Machine.execStrmPut o s
  | .strmOpen o => Sys2Proof.Machine.execStrmOpen o s
  | .strmClose o => Sys2Proof.Machine.execStrmClose o s
  | .claim o => Sys2Proof.Machine.execClaim o s
  | .give o => Sys2Proof.Machine.execGive o s
  | .tryclaim o => Sys2Proof.Machine.execTryclaim o s
  | .role o => Sys2Proof.Machine.execRole o s
  | .eCopy o => Sys2Proof.Machine.execECopy o s
  | .eMcast o => Sys2Proof.Machine.execEMcast o s
  | .eCadd o => Sys2Proof.Machine.execECadd o s
  | .eGath o => Sys2Proof.Machine.execEGath o s
  | .eScat o => Sys2Proof.Machine.execEScat o s
  | .eMma o => Sys2Proof.Machine.execEMma o s
  | .eCmma o => Sys2Proof.Machine.execECmma o s
  | .eScale o => Sys2Proof.Machine.execEScale o s
  | .eSleep o => Sys2Proof.Machine.execESleep o s
  | .ePoll o => Sys2Proof.Machine.execEPoll o s
  | .eStat o => Sys2Proof.Machine.execEStat o s
  | .eStatclr o => Sys2Proof.Machine.execEStatclr o s
  | .accZero o => Sys2Proof.Machine.execAccZero o s
  | .accRd o => Sys2Proof.Machine.execAccRd o s
  | .accWr o => Sys2Proof.Machine.execAccWr o s
  | .wFork o => Sys2Proof.Machine.execWFork o s
  | .wJoin o => Sys2Proof.Machine.execWJoin o s
  | .wChoose o => Sys2Proof.Machine.execWChoose o s
  | .wAbandon o => Sys2Proof.Machine.execWAbandon o s
  | .wQuery o => Sys2Proof.Machine.execWQuery o s
  | .replay o => Sys2Proof.Machine.execReplay o s
  | .oplogDrop o => Sys2Proof.Machine.execOplogDrop o s
  | .oplogPc o => Sys2Proof.Machine.execOplogPc o s
  | .bbhint o => Sys2Proof.Machine.execBbhint o s
  | .pcmRet o => Sys2Proof.Machine.execPcmRet o s
  | .pcmHnd o => Sys2Proof.Machine.execPcmHnd o s
  | .gateWr o => Sys2Proof.Machine.execGateWr o s
  | .gateRd o => Sys2Proof.Machine.execGateRd o s
  | .ctxSave o => Sys2Proof.Machine.execCtxSave o s
  | .ctxLoad o => Sys2Proof.Machine.execCtxLoad o s
  | .ctxKill o => Sys2Proof.Machine.execCtxKill o s
  | .ctxBind o => Sys2Proof.Machine.execCtxBind o s
  | .ctxUpd o => Sys2Proof.Machine.execCtxUpd o s
  | .gArm o => Sys2Proof.Machine.execGArm o s
  | .gSweep o => Sys2Proof.Machine.execGSweep o s
  | .gResume o => Sys2Proof.Machine.execGResume o s
  | .standardInstruction op => Sys2Proof.Machine.execStandardInstruction op s
  | .sretMret m => Sys2Proof.Machine.execSretMret m s
  | .launch c => Sys2Proof.Machine.execLaunch c s
  | .drain c => Sys2Proof.Machine.execDrain c s
  | .nop c => Sys2Proof.Machine.execNop c s
  | .ctxnew c => Sys2Proof.Machine.execCtxnew c s
  | .ctxdel c => Sys2Proof.Machine.execCtxdel c s
  | .qbind c => Sys2Proof.Machine.execQbind c s
  | .qunbind c => Sys2Proof.Machine.execQunbind c s
  | .qmod c => Sys2Proof.Machine.execQmod c s
  | .domset c => Sys2Proof.Machine.execDomset c s
  | .gangbind c => Sys2Proof.Machine.execGangbind c s
  | .spdm c => Sys2Proof.Machine.execSpdm c s
  | .notify page off width value => Sys2Proof.Machine.execNotify page off width value s
  | .hdmWrite pa data => Sys2Proof.Machine.execHdmWrite pa data s
  | .atsCompletion a => Sys2Proof.Machine.execAtsCompletion a s
  | .atsInvalidate pasid vpn level every => Sys2Proof.Machine.execAtsInvalidate pasid vpn level every s
  | .moduleReset b => Sys2Proof.Machine.execModuleReset b s
  | .msgArrive a => Sys2Proof.Machine.execMsgArrive a s
  | .windowAnswer a => Sys2Proof.Machine.execWindowAnswer a s
  | .windowRequest r => Sys2Proof.Machine.execWindowRequest r s
  | .latePacket p => Sys2Proof.Machine.execLatePacket p s
  | .eccUncorrectable e => Sys2Proof.Machine.execEccUncorrectable e s
  | .thermalThrottle r => Sys2Proof.Machine.execThermalThrottle r s
  | .thermalRecover r => Sys2Proof.Machine.execThermalRecover r s
  | .thermalTrip r => Sys2Proof.Machine.execThermalTrip r s
  | .accessRegister r => Sys2Proof.Machine.execAccessRegister r s
  | .illegalInstruction word => Sys2Proof.Machine.execIllegalInstruction word s
  | .ecallRetire => Sys2Proof.Machine.execEcallRetire s
  | .ecall => Sys2Proof.Machine.execEcall s
  | .tinkerHandlerEnd => Sys2Proof.Machine.execTinkerHandlerEnd s
  | .ebreak => Sys2Proof.Machine.execEbreak s
  | .wfi => Sys2Proof.Machine.execWfi s
  | .uiret => Sys2Proof.Machine.execUiret s
  | .pcMatch => Sys2Proof.Machine.execPcMatch s
  | .ctxRequestComplete => Sys2Proof.Machine.execCtxRequestComplete s
  | .featuresOk => Sys2Proof.Machine.execFeaturesOk s
  | .schedWrite => Sys2Proof.Machine.execSchedWrite s
  | .msixFire => Sys2Proof.Machine.execMsixFire s
  | .msixUnmask => Sys2Proof.Machine.execMsixUnmask s
  | .eventWrite => Sys2Proof.Machine.execEventWrite s
  | .hdmRead => Sys2Proof.Machine.execHdmRead s
  | .pageRequestResponse => Sys2Proof.Machine.execPageRequestResponse s
  | .ideFailure => Sys2Proof.Machine.execIdeFailure s
  | .arbiterGrant => Sys2Proof.Machine.execArbiterGrant s
  | .cohortResident => Sys2Proof.Machine.execCohortResident s
  | .quantumEnd => Sys2Proof.Machine.execQuantumEnd s
  | .clientAged => Sys2Proof.Machine.execClientAged s
  | .swapComplete => Sys2Proof.Machine.execSwapComplete s
  | .cohortReturn => Sys2Proof.Machine.execCohortReturn s
  | .launchComplete => Sys2Proof.Machine.execLaunchComplete s
  | .tagFree => Sys2Proof.Machine.execTagFree s
  | .handlerStart => Sys2Proof.Machine.execHandlerStart s
  | .uintDeliver => Sys2Proof.Machine.execUintDeliver s
  | .taskDecArrive => Sys2Proof.Machine.execTaskDecArrive s
  | .shootdown => Sys2Proof.Machine.execShootdown s
  | .verdict => Sys2Proof.Machine.execVerdict s
  | .walkDone => Sys2Proof.Machine.execWalkDone s
  | .deferredTrap => Sys2Proof.Machine.execDeferredTrap s
  | .loadReturn => Sys2Proof.Machine.execLoadReturn s
  | .releaseComplete => Sys2Proof.Machine.execReleaseComplete s
  | .homeOrder => Sys2Proof.Machine.execHomeOrder s
  | .homeRead => Sys2Proof.Machine.execHomeRead s
  | .homeAtomic => Sys2Proof.Machine.execHomeAtomic s
  | .evictionNotice => Sys2Proof.Machine.execEvictionNotice s
  | .invalidationAck => Sys2Proof.Machine.execInvalidationAck s
  | .invalidationArrive => Sys2Proof.Machine.execInvalidationArrive s
  | .recallLine => Sys2Proof.Machine.execRecall s
  | .movedReply => Sys2Proof.Machine.execMovedReply s
  | .l1EvictPending => Sys2Proof.Machine.execL1EvictPending s
  | .copyStart => Sys2Proof.Machine.execCopyStart s
  | .engineComplete => Sys2Proof.Machine.execEngineComplete s
  | .matrixTake => Sys2Proof.Machine.execMatrixTake s
  | .cmmaFollowon => Sys2Proof.Machine.execCmmaFollowon s
  | .engineEntryGrant => Sys2Proof.Machine.execEngineEntryGrant s
  | .promiseRecompute => Sys2Proof.Machine.execPromiseRecompute s
  | .promiseMissed => Sys2Proof.Machine.execPromiseMissed s
  | .barrierWake => Sys2Proof.Machine.execBarrierWake s
  | .queueWake => Sys2Proof.Machine.execQueueWake s
  | .claimGrant => Sys2Proof.Machine.execClaimGrant s
  | .pauseExpire => Sys2Proof.Machine.execPauseExpire s
  | .tickClose => Sys2Proof.Machine.execTickClose s
  | .heartbeatFlit => Sys2Proof.Machine.execHeartbeatFlit s
  | .heartbeatLost => Sys2Proof.Machine.execHeartbeatLost s
  | .gangSwitch => Sys2Proof.Machine.execGangSwitch s
  | .closingWaveDone => Sys2Proof.Machine.execClosingWaveDone s
  | .saveWindowClose => Sys2Proof.Machine.execSaveWindowClose s
  | .sweepArmFlit => Sys2Proof.Machine.execSweepArmFlit s
  | .switchDivert => Sys2Proof.Machine.execSwitchDivert s
  | .haltreq => Sys2Proof.Machine.execHaltreq s
  | .resumereq => Sys2Proof.Machine.execResumereq s
  | .triggerMatch => Sys2Proof.Machine.execTriggerMatch s
  | .interruptTaken => Sys2Proof.Machine.execInterruptTaken s
  | .yieldExpire => Sys2Proof.Machine.execYieldExpire s
  | .storePerformed => Sys2Proof.Machine.execStorePerformed s
  | .strmPutAck => Sys2Proof.Machine.execStrmPutAck s
  | .tickCloseReport => Sys2Proof.Machine.execTickCloseReport s
  | .heartbeatSend => Sys2Proof.Machine.execHeartbeatSend s
  | .pageRequestRestart => Sys2Proof.Machine.execPageRequestRestart s
  | .pageMigrating => Sys2Proof.Machine.execPageMigrating s
  | .backInvalidationResponse => Sys2Proof.Machine.execBackInvalidationResponse s
  | .eccCorrected => Sys2Proof.Machine.execEccCorrected s

end Sys2Proof.Machine
end

