-- ==== Sys2Proof/Machine/Trace.lean ====
section
/-! DEFINITION. The trace encoder of a core: which branches, discontinuities and traps of the traced hart its packets tell, and the records
that hold them (R378 to R380). -/

namespace Sys2Proof.Machine

/-! ### The encoder of a core (R378, R380) -/

/-- Does a context trace the hart: pages are given, and it is in the slot named (R378)? -/
def State.traced (s : State) (h : Nat) : Bool :=
  let p (i : Nat) : Nat := (Tab.get (s.ctx h).profile 0 i).toNat
  h < Config.harts && bitsOf (p 4) 31 0 != 0 && bitsOf (p 4) 35 33 == slotOf h

/-- The key of the encoder of a hart's core, under the hart's context. -/
def State.traceKey (s : State) (h : Nat) : Nat := coreOf h + 4096 * ctxOf s h

/-- The encoder of a hart's core: a new one where the trace area has been changed, with which an encoder that its full slice had stopped
goes on (R380). -/
def State.encoder (s : State) (h : Nat) : Encoder :=
  let p := (s.ctx h).profile
  let area : W64 × W64 := (Tab.get p 0 3, Tab.get p 0 4)
  let e := Tab.get s.traces {} (s.traceKey h)
  if e.area = area then e else { area }

/-- A change to the encoder of a hart's core. -/
def State.onEncoder (s : State) (h : Nat) (f : Encoder → Encoder) : State :=
  { s with traces := Tab.set s.traces {} (s.traceKey h) (f (s.encoder h)) }

/-- A 64-byte trace record: the bytes of packets used, the hart slot, and the packets (R380). -/
def traceRecord (h : Nat) (packets : List Byte) : List Byte := leBytes 1 packets.length ++ leBytes 1 (slotOf h) ++ padTo 62 packets

/-- What the encoder holds written as a record at the next place of the core's slice. The place after the last is the first again, where
`twrap` is 1; where it is 0 the encoder stops, and what it holds is lost (R380). -/
def State.writeTrace (s : State) (h : Nat) : State :=
  let e := s.encoder h
  let w := e.area.2.toNat
  let size := bitsOf w 31 0
  let k := if bitOf w 32 then e.place % (64 * size) else e.place
  let pa := e.area.1.toNat + coreOf h * 4096 * size + 64 * k
  let next := s.onEncoder h (fun e => { e with place := e.place + 1, buf := [] })
  if k ≥ 64 * size then s.onEncoder h (fun e => { e with stopped := true, synced := false, branches := [], buf := [] })
  else if pa + 64 > Config.hbmBytes then next
  else next.writePublished 0 none ((traceRecord h e.buf).zipIdx.map (fun b => (pa + b.2, b.1)))

/-! ### Packets (R379) -/

/-- What a packet tells: a synchronisation with the address of an instruction and, of a branch, whether it was taken; a trap with its
cause, whether it is an interrupt, its handler's address and its value; branches taken or not, with the address to which control went
or came last, but for a full map; or such an address alone. These are formats 3 (subformats 0 and 1), 1 and 2. -/
inductive TracePacket where
  | sync (taken : Bool) (mode : Nat) (addr : W64)
  | trap (cause : Nat) (interrupt : Bool) (mode : Nat) (addr tval : W64)
  | branches (map : List Bool) (addr : Option W64)
  | address (addr : W64)
  deriving DecidableEq, Repr

/-- The fields of a packet, with its 48-bit timestamp, from which the standard forms its bytes (R379, log 21). -/
def TracePacket.fields (p : TracePacket) (time : Nat) : List Nat :=
  let bit (b : Bool) : Nat := if b then 1 else 0
  match p with
  | .sync taken mode addr => [3, 0, bit !taken, mode, time, addr.toNat]
  | .trap cause interrupt mode addr tval => [3, 1, cause, bit interrupt, mode, time, addr.toNat, tval.toNat]
  | .branches map addr => [1, map.length, ((map.map (fun b => bit !b)).zipIdx.map (fun b => b.1 * 2 ^ b.2)).sum, time] ++ (addr.map (·.toNat)).toList
  | .address addr => [2, time, addr.toNat]

/-- A packet put behind those that wait for their record; where it does not fit beside them they are written, and it is carried in the
next record (R380). -/
def State.putPacket (s : State) (h : Nat) (p : TracePacket) : State :=
  let bs := (Config.tracePacket (p.fields (s.cycle % 2 ^ 48))).take 62
  let t := if (s.encoder h).buf.length + bs.length ≤ 62 then s else s.writeTrace h
  if (t.encoder h).stopped then t else t.onEncoder h (fun e => { e with buf := e.buf ++ bs })

/-- The branches that no packet has told yet told with an address, or the address alone. -/
def State.tellAddress (s : State) (h : Nat) (addr : W64) : State :=
  let bs := (s.encoder h).branches
  (s.onEncoder h (fun e => { e with branches := [] })).putPacket h (if bs = [] then .address addr else .branches bs (some addr))

/-- The encoder has stopped following the hart, at a swap or the hart's end: what it has not told it tells with the address of the last
instruction, and it begins again with a synchronisation packet (R380). -/
def State.endTrace (s : State) (h : Nat) : State :=
  let e := s.encoder h
  if s.traced h ∧ e.synced then (s.tellAddress h e.last).onEncoder h (fun e => { e with synced := false }) else s

/-! ### What a step of the hart is to the encoder (R379) -/

/-- Whether control went on, branched, jumped to where only the registers say, was moved without an instruction, was trapped, or ended; or
nothing has happened. -/
inductive Flow where
  | none
  | falls
  | branch (taken settled : Bool)
  | jumps
  | moved
  | traps
  | ends
  deriving DecidableEq, Repr

/-- The address after an instruction at `pc`. -/
def afterInstr (i : Instr) (pc : W64) : W64 := pc + BitVec.ofNat 64 (4 * (i.osier.elim 1 (fun r => r.2.words)))

/-- Did `Settle` make the transfer of an instruction that has popped, narrowed or kept entries of the stack (R122, R123, R125)? -/
def settled (i : Instr) (s : State) (x y : Hart) : Bool :=
  match i with
  | .ljoin _ => y.depth < x.depth && y.pc != afterInstr i x.pc
  | .lbrk _ => y.depth == x.depth && y.pc != afterInstr i x.pc
  | .lcont _ => y.depth < x.depth && s.stackOf.head?.map MaskEntry.rpc != some y.pc
  | _ => false

/-- The flow of an instruction that has been issued: branches of harts and of lanes are reported as branches, and `jal` needs no report
(R379). -/
def flowOf (i : Instr) (s : State) (x y : Hart) : Flow :=
  let on := y.pc == afterInstr i x.pc
  match i with
  | .standardInstruction (.branch ..) | .lif _ | .lifn _ | .lelse _ | .ljoin _ | .lloop _ | .lbrk _ | .lcont _ | .mbz _ | .mbnz _ | .mball _ | .mbnall _ =>
    .branch (!on) (settled i s x y)
  | .standardInstruction (.jal ..) => .falls
  | _ => if on then .falls else .jumps

/-- The flow of a step of hart `h` from `s` to `t`, whose next instruction was `i`. A deferred trap, the entry to the shadow context and a
user interrupt move control without an instruction; other traps and interrupts are told as such (R379, log 21). -/
def State.flow (s t : State) (h : Nat) (i : Option Instr) : Flow :=
  let x := s.hart h
  let y := t.hart h
  let issued := y.instret != x.instret || (!t.trapped && i.any (fun i => y.pc == afterInstr i x.pc))
  if !y.live then .ends
  else if y.pc == x.pc && y.instret == x.instret && (y.mode == x.mode || y.dbg.halted) then .none
  else if issued then (i.map (fun i => flowOf i { s with cur := h } x y)).getD .jumps
  else if x.defers || y.mode == .u || y.inShadow != x.inShadow then .moved
  else .traps

/-- The cause of a trap that a hart has taken, whether it is an interrupt, and its value. -/
def trapOf (y : Hart) : Nat × Bool × W64 :=
  let c := if y.mode = .m then y.csr.mcause else y.csr.scause
  ((c.toNat % 2 ^ 63), bitOf c.toNat 63, if y.mode = .m then y.csr.mtval else y.csr.stval)

/-- A trap told: what no packet has told yet, and then the trap with its handler's address (R379). -/
def State.tellTrap (s : State) (h : Nat) : State :=
  let e := s.encoder h
  let y := s.hart h
  let t := if e.branches = [] then s else s.tellAddress h e.last
  t.putPacket h (.trap (trapOf y).1 (trapOf y).2.1 y.mode.code y.pc (trapOf y).2.2)

/-- A branch told: in the synchronisation packet that tells it, or in the map, which a packet takes when it is full with 31; where
`Settle` moved control on, with the address (R379). -/
def State.tellBranch (s : State) (h : Nat) (first taken settled : Bool) (dest : W64) : State :=
  let t := if first then s else s.onEncoder h (fun e => { e with branches := e.branches ++ [taken] })
  let bs := (t.encoder h).branches
  if settled then t.tellAddress h dest
  else if bs.length < 31 then t
  else (t.onEncoder h (fun e => { e with branches := [] })).putPacket h (.branches bs none)

/-- The number of the latest placing of a hart's cohort, which a swap and its restore change; none for a hart of no block. -/
def State.placingOf (s : State) (h : Nat) : Option Nat :=
  (s.hart h).home.bind (fun p => (s.launches.look p.launch).bind (fun l => (l.cohorts.look p.cohort).map Cohort.placing))

/-- The encoder follows a step of hart `h` from `s` to `t` (R379, R380). An instruction that is the first that it follows since the
hart started or was restored, or that does not stand where the one before led, is told by a synchronisation packet. -/
def State.follow (s t : State) (h : Nat) (i : Option Instr) : State :=
  let x := s.hart h
  let y := t.hart h
  let e := t.encoder h
  let fresh := !e.synced || e.expect != x.pc || e.placing != s.placingOf h
  let f := s.flow t h i
  let ready := if fresh then t.endTrace h else t
  let begun (taken : Bool) : State := if fresh then ready.putPacket h (.sync taken x.mode.code x.pc) else ready
  let on (u : State) : State :=
    u.onEncoder h (fun e => { e with
      synced := !e.stopped, placing := s.placingOf h, expect := y.pc, last := if f = .traps ∨ f = .moved then e.last else x.pc })
  if e.stopped then t
  else match f with
    | .none => t
    | .ends => t.endTrace h
    | .falls => on (begun false)
    | .branch taken settled => on ((begun taken).tellBranch h fresh taken settled y.pc)
    | .jumps => on ((begun false).tellAddress h y.pc)
    | .moved => if fresh then ready else on (ready.tellAddress h y.pc)
    | .traps => on (ready.tellTrap h)

end Sys2Proof.Machine
end

