-- ==== Sys2Proof/Machine/Issue.lean ====
section
/-! DEFINITION. What a hart does when it is chosen to issue, which harts are ready, which one the issue arbiter chooses, and
which step of the device is due when the environment names none (R30, R31, R34, R47, R48, R95, R190, R377; logs 1 and 2). -/

namespace Sys2Proof.Machine

/-! ### The scoreboard (R95) -/

/-- Scalar and lane registers that an instruction names (R77). -/
def regsNamed (i : Instr) : List Nat × List Nat :=
  match i.osier with
  | some (r, o) =>
    let one (k : Kind) (f : BitVec 8) : List Nat × List Nat :=
      match k with
      | .v => ([], [f.toNat])
      | .vEven => ([], [f.toNat, f.toNat + 1])
      | .x => ([f.toNat], [])
      | .xEven => ([f.toNat, f.toNat + 1], [])
      | _ => ([], [])
    let d := one r.d o.d
    let a := one r.a o.a
    let b := one r.b o.b
    let w : List Nat := match r.w2 with
      | .reg => [o.w2.toNat]
      | .regEven => [o.w2.toNat, o.w2.toNat + 1]
      | _ => []
    (d.1 ++ a.1 ++ b.1, d.2 ++ a.2 ++ b.2 ++ w)
  | none =>
    let n (l : List (BitVec 5)) : List Nat × List Nat := (l.map BitVec.toNat, [])
    match i with
    | .ecall | .ecallRetire => ([17], [])
    | .lr o => n [o.rd, o.rs1]
    | .sc o | .amo _ o => n [o.rd, o.rs1, o.rs2]
    | .standardAccess _ r rs1 _ => n [r, rs1]
    | .csrWrite o | .lfcsrAccess o | .dflagsDrain o | .msdepthWrite o | .regwinWrite o => n (if o.useImm then [o.rd] else [o.rd, o.src])
    | .standardInstruction op =>
      match op with
      | .lui rd _ | .auipc rd _ | .jal rd _ => n [rd]
      | .jalr rd rs1 _ | .imm _ rd rs1 _ | .sh _ rd rs1 _ | .un _ rd rs1 => n [rd, rs1]
      | .branch _ rs1 rs2 _ | .sfenceVma rs1 rs2 => n [rs1, rs2]
      | .reg _ rd rs1 rs2 => n [rd, rs1, rs2]
    | _ => ([], [])

/-- Destination registers of a job. -/
def Dest.regs (d : Dest) : List Nat × List Nat :=
  match d with
  | .none => ([], [])
  | .x n => ([n], [])
  | .v r => ([], [r])
  | .v64 r => ([], [r, r + 1])

/-- Does the scoreboard let an instruction issue: no register it names is the destination of an operation whose value has
not been written, logged ones included (R95, R320)? -/
def Hart.scoreClear (x : Hart) (i : Instr) : Bool :=
  let ds := (x.ops.filter (fun p => !p.waits)).map (fun p => p.job.dest.regs)
    ++ (x.oplog.filter (fun e => e.2.engine.isNone)).map (fun e => e.2.job.dest.regs)
  let n := regsNamed i
  ds.all (fun d => d.1.all (fun r => r == 0 || !n.1.contains r) && d.2.all (fun r => !n.2.contains r))

/-! ### One instruction boundary (R48, R377) -/

/-- A step with single stepping: a hart that was to halt after one instruction halts when that instruction is over (R372); `s` is the
state before, which an instruction that waits on the scoreboard leaves. -/
def afterIssue (h : Nat) (s : State) (r : Out) : Out :=
  match r with
  | .next t =>
    let x := t.hart h
    if x.dbg.stepping && (x.wait.code == 0 || t.trapped) && x != s.hart h then .next (t.setHart h (x.enterDebug 4)) else .next t
  | r => r

/-- The words of the program buffer from the pc on. -/
def Hart.bufferWords (x : Hart) : List W32 := x.dbg.progbuf.drop (x.pc.toNat / 4)

/-- One instruction of the program buffer: an exception ends the buffer with `cmderr` 3, and so does a family that does not
execute there; the end of the buffer acts as `ebreak` (R372). -/
def bufferStep (h : Nat) (s : State) : Out :=
  let x := s.hart h
  let finish (e : Nat) : State :=
    (s.setHart h { x with dbg := { x.dbg with running := none, progbuf := [] } }).onCore (coreOf h) (fun c =>
      if e = 0 then c else { c with dm := { c.dm with cmderr := e } })
  let ws := x.bufferWords
  let i := instrOf (ws ++ [0, 0, 0, 0])
  let may := match i.osier with
    | some (r, _) => r.major == .lane || (r.major == .ctrl && r.minor < 7)
    | none => true
  if ws = [] ∨ ws.length < i.size then .next (finish 0)
  else if !may then .next (finish 3)
  else if !x.scoreClear i then .next s
  else match exec i s with
    | .next t => if t.trapped then .next (finish 3) else .next t
    | r => r

/-- The instruction at the hart's pc is fetched and issues, unless something of R377 comes before it: a trigger with action 1,
a deferred trap, a PC match, a breakpoint trigger; a precise trap of the instruction comes before an interrupt, an S or M
interrupt before a user interrupt, and either before the instruction's effect. An instruction whose registers are not clear does not
issue yet (R95). The flag says whether an instruction issued. -/
def boundary (h : Nat) (s : State) : Bool × Out :=
  let x := s.hart h
  if (x.triggered (s.peek h) true).isSome then (false, exec .triggerMatch s)
  else if x.defers then (false, exec .deferredTrap s)
  else if x.matchDue.isSome then (false, exec .pcMatch s)
  else if (x.triggered (s.peek h) false).isSome then (false, exec .triggerMatch s)
  else
    let interrupted (b : Bool) (u : State) : Bool × Out :=
      if x.interruptDue.isSome then (false, exec .interruptTaken s)
      else if s.userDue h then (false, exec .uintDeliver s)
      else (b, .next u)
    match s.fetch h with
    | .trap c v t => (false, trap c v t)
    | .wait t => interrupted false t
    | .instr i t =>
      if !x.scoreClear i then interrupted false s
      else match exec i t with
      | .next u => if u.trapped then (true, .next u) else interrupted true u
      | r => (true, r)

/-- A hart issues: in the program buffer, or at its pc. -/
def issueAt (h : Nat) (s : State) : Bool × Out :=
  let t := { s with cur := h, trapped := false }
  if (t.hart h).dbg.running.isSome then (true, bufferStep h t)
  else
    let r := boundary h t
    (r.1, afterIssue h t r.2)

/-! ### Lane issue pipes (R30, R96) -/

/-- The clk for which a LANE instruction holds its pipe; 0 for an instruction that takes none (R96). -/
def laneOccupancy (i : Instr) : Nat :=
  match i.osier with
  | some (r, o) =>
    if r.major != .lane then 0
    else match i with
      | .vdiv _ | .vrem _ => bitsOfType (tyOf o 5) / 2
      | .vfdiv _ | .vfsqrt _ | .vfrcp _ | .vfrsqrt _ => 8
      | .vfexp2 _ | .vflog2 _ => 4
      | .vredadd _ | .vredmin _ | .vredmax _ | .vredand _ | .vredor _ | .vredxor _ | .vpfxadd _ | .vpfxop _ | .vepfxop _ => 2
      | _ => 1
  | none => 0

/-- The instruction that a hart would issue, where it can be read. -/
def State.nextInstr (s : State) (h : Nat) : Option Instr :=
  let x := s.hart h
  if x.dbg.running.isSome then some (instrOf (x.bufferWords ++ [0, 0, 0, 0])) else s.peek h

/-- The lane pipes of a core that are held. -/
def State.heldPipes (s : State) (core : Nat) : List Nat := (s.core core).pipes.filter (fun n => s.cycle < n)

/-- May the hart's next instruction have a pipe: it takes none, or one of the core's two is free? -/
def State.pipeFree (s : State) (h : Nat) : Bool :=
  (match s.nextInstr h with
   | some i => laneOccupancy i == 0
   | none => true) || (s.heldPipes (coreOf h)).length < 2

/-- A pipe of a core held for `n` clk: on a throttled die it takes one instruction per two clk (R392). -/
def State.holdPipe (s : State) (core n : Nat) : State :=
  let k := if (Tab.get s.dies {} (core / 256)).st = 1 then max n 2 else n
  if n = 0 then s else s.onCore core (fun c => { c with pipes := s.heldPipes core ++ [s.cycle + k] })

/-! ### Trace (R378 to R380) -/

/-- What the trace encoder makes of a step of hart `h` from `s` to `t`; one outside the program buffer of a debugger (R379). -/
def State.trace (s t : State) (h : Nat) : State :=
  if s.traced h && (s.hart h).dbg.running.isNone then s.follow t h (s.peek h) else t

/-- The same, with the clk of the choice noted for the arbiter, the pipe that a LANE instruction holds, the tick of the launch's
first issue for its completion record, and the trace (R23, R30, R96, R380). -/
def issue (h : Nat) (s : State) : Out :=
  match issueAt h s with
  | (issued, .next t) =>
    let u := t.onHart h (fun x => if x.live then { x with lastIssue := s.cycle } else x)
    let u := match (s.hart h).home with
      | some p => if issued then u.onLaunch p.launch (fun l => if l.issued then l else { l with issued := true, startTick := s.tick })
                  else u
      | none => u
    let u := if issued && !t.trapped then u.holdPipe (coreOf h) (((s.nextInstr h).map laneOccupancy).getD 0) else u
    .next (s.trace u h)
  | (_, r) => r

/-! ### Readiness (R30) -/

/-- May a hart issue at all: it is live and resident, not halted or running the program buffer, and no idle tinker (R30, R195)? -/
def Hart.mayIssue (x : Hart) : Bool :=
  x.live && x.resident && (!x.dbg.halted || x.dbg.running.isSome) && !x.idle

/-- Is a hart within a `pause` interval (R31)? -/
def Hart.paused (x : Hart) (now : Nat) : Bool := now < x.pauseEnd

/-- May a hart issue in this clk: a `pause` interval keeps a tinker from it (R129)? -/
def State.mayIssue (s : State) (h : Nat) : Bool := (s.hart h).mayIssue && !((s.hart h).tinker && (s.hart h).paused s.cycle)

/-- Has the next instruction of the hart its registers (R95)? -/
def State.scoreOk (s : State) (h : Nat) : Bool :=
  let x := s.hart h
  (x.ops == [] && x.oplog == []) || (match s.nextInstr h with
    | some i => x.scoreClear i
    | none => true)

/-- Has a yielding hart's wait ended: 16 clk have passed, or every other ready hart of its core outside a `pause` interval has issued
since (R129)? -/
def State.yieldOver (s : State) (h : Nat) (others : List Nat) : Bool :=
  let t := (s.hart h).wait.a.toNat
  t + 16 ≤ s.cycle || others.all (fun k => (s.hart k).paused s.cycle || (s.hart k).lastIssue > t)

/-- Is a hart that does not yield ready (R30)? A waiting hart is when its instruction, issued again, would not leave it as it
is; one whose instruction waits on the scoreboard when it would take a trap or an interrupt first (R327). -/
def State.readyOf (s : State) (h : Nat) : Bool :=
  let x := s.hart h
  s.mayIssue h && ((x.wait.code == 0 && s.scoreOk h) || (match (issueAt h s).2 with
    | .next t => t.hart h != x
    | _ => true))

/-- The harts of some that are ready: whole cores, whose harts `yield` looks at (R30, R129). A die that is tripped has stopped all
issue (R392). -/
def State.readyAmong (s : State) (hs : List Nat) : List Nat :=
  if s.dies.any (fun d => d.2.st == 2) then []
  else
    let yields (h : Nat) : Bool := (s.hart h).wait.code == 11
    let plain := hs.filter (fun h => !yields h && s.readyOf h)
    let ys := hs.filter (fun h => yields h && s.mayIssue h && s.scoreOk h
      && s.yieldOver h (plain.filter (fun k => coreOf k == coreOf h)))
    hs.filter (fun h => plain.contains h || ys.contains h)

/-- The harts that are ready, in increasing number (R30). -/
def State.ready (s : State) : List Nat := s.readyAmong (s.harts.map Prod.fst)

/-! ### The issue arbiter (R30, R31, R190) -/

/-- The class of a hart by the queues its core tracks: 0 for a consumer of a queue at least half full, or a producer of one at
most a quarter full; 1 for all others (R190). -/
def State.queueClass (s : State) (h : Nat) : Nat :=
  let role := (s.hart h).role.toNat
  let favours (l : Loc) : Bool :=
    match l.place with
    | .scratch c =>
      let q := Queue.ofNat (leNat ((s.cluster c).scratch.readBytes l.off 32))
      let consumer := bitOf q.stages (role + 4)
      let producer := bitOf q.stages role
      (consumer && 2 * q.count ≥ q.cap) || (producer && 4 * q.count ≤ q.cap)
    | _ => false
  if (s.core (coreOf h)).queues.any favours then 0 else 1

/-- Is one hart chosen before another: outside a `pause` interval first, then by queues, then the longer wait since its last
issue, then the lower number (R30, R31, R190)? -/
def State.before (s : State) (a b : Nat) : Bool :=
  let p (h : Nat) : Nat := if (s.hart h).paused s.cycle then 1 else 0
  let q (h : Nat) : Nat := s.queueClass h
  let l (h : Nat) : Nat := (s.hart h).lastIssue
  if p a ≠ p b then p a < p b
  else if q a ≠ q b then q a < q b
  else if l a ≠ l b then l a < l b
  else a < b

/-- The first of a list under an order. -/
def firstBy (f : Nat → Nat → Bool) : List Nat → Option Nat
  | [] => none
  | a :: t => match firstBy f t with
    | none => some a
    | some b => some (if f b a then b else a)

/-- The first of some ready harts: the one that has waited longest, when the promise of 16 clk is due for it outside a `pause`
interval, else the first in rank (R30, R31). The promise leaves a core four clk to spare: its eight harts take four. -/
def State.pick (s : State) (hs : List Nat) : Option Nat :=
  let due := hs.filter (fun h => !(s.hart h).paused s.cycle && (s.hart h).lastIssue + 12 ≤ s.cycle)
  match firstBy (fun a b => (s.hart a).lastIssue < (s.hart b).lastIssue) due with
  | some h => some h
  | none => firstBy s.before hs

/-- The arbiter's choice for a core: a ready hart whose instruction needs no lane pipe or finds one free, other than the one chosen
before it in this clk (R30). -/
def State.choice (s : State) (core : Nat) (chosen : Option Nat) : Option Nat :=
  let hs := (s.harts.map Prod.fst).filter (fun h => coreOf h == core)
  s.pick ((s.readyAmong hs).filter (fun h => chosen != some h && s.pipeFree h))

/-- What the harts of a core do in one clk: up to two issue, one instruction each (R30). -/
def issueCore (core : Nat) (s : State) : Out :=
  match s.choice core none with
  | none => .next s
  | some h =>
    match issue h s with
    | .next t =>
      match t.choice core (some h) with
      | some k => issue k t
      | none => .next t
    | r => r

/-- The same for every core, in increasing number. -/
def issueAll (s : State) : Out :=
  ((s.harts.filter (fun e => e.2.live)).map (fun e => coreOf e.1)).dedup.foldl (fun r core =>
    match r with
    | .next t => issueCore core t
    | r => r) (.next s)

/-! ### Steps of the device that are due (log 2) -/

/-- The state in which an event's step is taken. -/
def Event.place (e : Event) (s : State) : State := { s with cur := e.hart, focus := e.focus, trapped := false }

/-- Events for one hart. -/
def hartEvents (h : Nat) (x : Hart) : List Event :=
  let at_ (i : Instr) (n : Nat) : Event := { hart := h, focus := { item := n }, step := some i }
  (if x.wait.code ≠ 0 ∨ x.pauseEnd ≠ 0 ∨ x.ops ≠ [] ∨ x.oplog ≠ [] then [at_ .deferredTrap 0, at_ .interruptTaken 0, at_ .uintDeliver 0, at_ .promiseMissed 0] else [])
    ++ (x.oplog.map (fun e => at_ .walkDone e.1))
    ++ (if x.ops = [] then [] else [at_ .storePerformed 0, at_ .homeAtomic 0]
          ++ (List.range x.ops.length).map (fun n => at_ .loadReturn n))
    ++ (if x.rel.isSome then [at_ .homeOrder 0] else [])
    ++ (x.streams.map (fun e => at_ .strmPutAck e.1))

/-- Events for one core. -/
def coreEvents (c : Nat) (k : Core) : List Event :=
  let at_ (i : Instr) (n code : Nat) : Event := { hart := hartAt c 0, focus := { unit := c, item := n, code }, step := some i }
  (if k.engine = [] then [] else [at_ .copyStart 0 0, at_ .matrixTake 0 0]
      ++ k.engine.map (fun e => at_ .engineComplete e.ticket 0))
    ++ (if k.inbox = [] then [] else [at_ .handlerStart 0 0])
    ++ ((k.inbox.zipIdx.filter (fun e => e.1.dec.isSome)).map (fun e => at_ .taskDecArrive e.2 1))
    ++ (if k.ring = [] then [] else [at_ .handlerStart 0 1])
    ++ (k.dm.halts.map (fun i => ({ hart := hartAt c i, step := some .haltreq } : Event)))
    ++ (k.dm.resumes.map (fun i => ({ hart := hartAt c i, step := some .resumereq } : Event)))
    ++ (match k.dm.command with
        | some w => [{ hart := hartAt c 0, step := some (.accessRegister (dmCommand c k.dm w)) }]
        | none => [])

/-- Events for what the module itself holds. -/
def moduleEvents (s : State) : List Event :=
  let at_ (i : Instr) (u n : Nat) : Event := { hart := s.cur, focus := { unit := u, item := n }, step := some i }
  (s.trackers.flatMap (fun t => t.2.sent.map (fun c => at_ .invalidationArrive c t.1)))
    ++ (s.trackers.flatMap (fun t => t.2.unacked.map (fun c => at_ .invalidationAck c t.1)))
    ++ ((List.range s.net.length).flatMap (fun n =>
          [at_ (.msgArrive (.net n)) 0 n, at_ .taskDecArrive 0 n, at_ .shootdown 0 n, at_ .verdict 0 n]))
    ++ ((s.winWaits.filter (fun w => w.bad.isSome)).map (fun w => at_ (.windowRequest w.req) 0 0))
    ++ (s.worlds.map (fun w => at_ .tagFree 0 w.1))
    ++ (s.launches.map (fun l => at_ .launchComplete l.1 0))
    ++ ((List.range s.requests.length).map (fun n => at_ .ctxRequestComplete 0 n))
    ++ (s.launches.flatMap (fun l => l.2.cohorts.flatMap (fun c =>
          [at_ .swapComplete l.1 c.1, at_ .cohortReturn l.1 c.1, at_ .cohortResident l.1 c.1, at_ .quantumEnd l.1 c.1])))
    ++ (if s.launches = [] then [] else [at_ .arbiterGrant 0 0])
    ++ ((s.ctxs.filter (fun c => s.handlerWaits c.2)).map (fun c =>
          ({ hart := s.cur, focus := { unit := c.1, code := 1 }, step := some .cohortReturn } : Event)))
    ++ (s.launches.map (fun l => at_ .clientAged l.1 0))
    ++ (if s.schedNext = none then [] else [at_ .schedWrite 0 0])
    ++ (s.gangs.flatMap (fun g => [at_ .gangSwitch 0 g.1, at_ .closingWaveDone 0 g.1, at_ .saveWindowClose 0 g.1]))
    ++ ((s.wale.filter isArmFlit).map (fun p => at_ .sweepArmFlit p.tag 0))
    ++ (s.switches.flatMap (fun w => w.2.armed.map (fun a => at_ .switchDivert w.1 a.1)))
    ++ (if s.domain.size = 0 then [] else [at_ .heartbeatSend 0 0, at_ .heartbeatLost 0 0])
    ++ (s.fns.flatMap (fun f => f.2.vectors.map (fun v => at_ .msixFire f.1 v.1)
          ++ f.2.queues.flatMap (fun q => (q.2.chains.take 1).map (fun c =>
               ({ hart := s.cur, focus := { unit := f.1, code := 1 }, step := some (chainRow c) } : Event)))))

/-- Every event that may be due. -/
def State.candidates (s : State) : List Event :=
  s.harts.flatMap (fun e => hartEvents e.1 e.2) ++ s.cores.flatMap (fun e => coreEvents e.1 e.2) ++ moduleEvents s

/-- Is a step that its hart takes at an instruction boundary due there, of a hart that may issue? What else is due at the boundary then
takes its rank with it (R48, R377). -/
def State.atBoundary (s : State) (i : Instr) : Bool :=
  s.me.mayIssue && s.me.dbg.running.isNone && (match i with
    | .deferredTrap => s.me.defers
    | .pcMatch => s.me.matchDue.isSome
    | .interruptTaken => s.me.interruptDue.isSome
    | .uintDeliver => s.userDue s.cur
    | _ => false)

/-- A step of the device: at the hart's boundary, or by its own row. -/
def deviceStep (i : Instr) (s : State) : Out :=
  if s.atBoundary i then
    (match (boundary s.cur s).2 with
     | .next t => .next (s.trace t s.cur)
     | r => r)
  else exec i s

/-- The state after an event that is due: its step changes something. -/
def Event.effect (s : State) (e : Event) : Option State :=
  match e.step with
  | some i =>
    match deviceStep i (e.place s) with
    | .next t => if t = e.place s then none else some t
    | _ => none
  | none => none

/-- The first event that is due, if any is, with the state after it. -/
def State.dueEvent (s : State) : Option (Event × State) := s.candidates.findSome? (fun e => (e.effect s).map (fun t => (e, t)))

/-- May an event halt or swap a block? The retirement of its last hart in the same clk comes first (R28). -/
def Event.stops (e : Event) : Bool :=
  match e.step with
  | some .haltreq | some .quantumEnd | some .arbiterGrant | some .gangSwitch | some .ctxRequestComplete => true
  | _ => false

/-! ### The end of a step -/

/-- The cycle counter goes on by one, a domain's correction apart: one clk more, or one clk of standing still, in 4,096 (R8, R366). -/
def State.advanceClock (s : State) : State :=
  let d := s.domain
  let fast := s.cycle % 4096 = 0 ∧ d.drift > 8
  let slow := s.cycle % 4096 = 0 ∧ d.drift < -8 ∧ d.slipped = false
  { s with
    cycle := if fast then s.cycle + 2 else if slow then s.cycle else s.cycle + 1
    domain := { d with drift := if fast then d.drift - 1 else if slow then d.drift + 1 else d.drift, slipped := slow } }

/-- What happens at the first clk of a tick: the promises of engine commands are recomputed, and the module reports that the tick has
come (R216, R264). -/
def State.atTick (s : State) : State :=
  { s with cores := s.cores.mapVals (fun c => if c.engine = [] then c else c.repromise s.cycle) }.closeReport

/-- The end of a clk: the counter goes on, a tick may begin, and contexts that are to be killed are killed (R8, R47, R216, R264,
R366). -/
def State.tickOver (s : State) : State :=
  let t := s.advanceClock
  (if t.tick = s.tick then t else t.atTick).killDoomed

/-- The end of a step that answers a next state. -/
def endStep (r : Out) : Out :=
  match r with
  | .next t => .next t.tickOver
  | r => r

/-- Is a row an instruction that only a hart's own fetch issues? A step of the device has no word; the steps that a hart takes
at its boundary have none either. -/
def fetched (i : Instr) : Bool := i.wf || (match i with
  | .illegalInstruction _ => true
  | _ => false)

/-- A step that the environment names: a step of the device, or the issue of a hart of its choice, where that hart is
ready. -/
def runEvent (e : Event) (s : State) : Out :=
  match e.step with
  | some i => if fetched i then .fault .agendaNotAnEvent else deviceStep i (e.place s)
  | none => if s.ready.contains e.hart && s.pipeFree e.hart then issue e.hart s else .next s

/-- What the machine does by itself in a clk: a step of the device that is due, if any is, and the issue of the harts that the arbiters
choose; a step that halts or swaps comes after what issues in its clk (R28, R30). -/
def runOwn (s : State) : Out :=
  match s.dueEvent with
  | some (e, t) =>
    if e.stops then
      match issueAll s with
      | .next u => .next ((e.effect u).getD u)
      | r => r
    else issueAll t
  | none => issueAll s

end Sys2Proof.Machine
end

