-- ==== Sys2Proof/Machine/Step.lean ====
section
/-! DEFINITION. The step of the machine, and a state in which a given instruction is fetched next. -/

namespace Sys2Proof.Machine

/-- One step: the event that the environment names, or what the machine does by itself; then the clk is over (logs 1
and 2). -/
def step (s : State) : Host.Outcome State Fault Refusal :=
  match s.agenda with
  | e :: es => endStep (runEvent e { s with agenda := es })
  | [] => endStep (runOwn s)

/-- The hart that runs a placed instruction: hart 0, live and resident, with nothing outstanding, at the placed code, of which its fetch
holds nothing older. -/
def placedHart (writes : Nat) (x : Hart) : Hart :=
  { x with fenceSeq := writes, fetchOwn := [], noSpace := false, queued := [], passed := false
           live := true, resident := true, tinker := false, idle := false, mode := .u, pc := 0x10000, ops := [], oplog := []
           heldSeq := none, heldBad := false, icache := [], wait := {}, fork := none, inShadow := false, dbg := {} }

/-- The context that it runs in: a root table with one leaf that maps the low 256 TiB to device memory with every permission,
homes spread over all slices, and its code page measured. -/
def placedContext (c : Context) : Context :=
  { c with root := 0x1000, ptab := [(0, 0x90000)], bound := true, made := true, killed := false, gang := 0, measured := [16] }

/-- `s` with an instruction of `nbits` bits `w`, and zeros after it, where step fetches next: at address 0x10000 of context 1
for hart 0, which issues next (log 15). -/
def State.withFetchWord (s : State) (nbits w : Nat) : State :=
  let v := w % 2 ^ nbits
  let code := (List.range 20).map (fun i => BitVec.ofNat 8 (v / 256 ^ i))
  let t := { s with
    agenda := [{ hart := 0 }]
    hbm := (s.hbm.writeBytes 0x1000 (leBytes 8 0xDF)).writeBytes 0x10000 code
    ctxs := Tab.set s.ctxs {} 1 (placedContext (Tab.get s.ctxs {} 1))
    dies := [] }
  (t.onHart 0 (placedHart s.writes)).onCore 0 (fun c =>
    { c with holder := some 1, unpub := [], l1tlb := [], held := [], pipes := [] })

end Sys2Proof.Machine
end

