-- ==== Sys2Proof/Safety.lean ====
section
/-! DEFINITION. What counts as a safe run, and the words in which statements say what an instruction changes and what it
leaves alone. -/

namespace Sys2Proof.Machine

/-! ### Safe states -/

/-- Every memory of a state is in the canonical form: HBM, host memory, and each core's and cluster's own. -/
def State.memWf (s : State) : Bool :=
  Memory.wf s.hbm && Memory.wf s.hostMem
    && s.cores.all (fun c => Memory.wf c.2.tcm && Memory.wf c.2.lid && Memory.wf c.2.acc)
    && s.clusters.all (fun c => Memory.wf c.2.scratch)

/-- A step that goes on: it answers a next state. -/
def Runs (s : State) : Prop := ∃ t, step s = .next t

/-! ### What an instruction leaves alone -/

/-- The state differs, if at all, in the hart that the step concerns. -/
def OnlyMe (s t : State) : Prop := t = { s with harts := t.harts } ∧ ∀ h, h ≠ s.cur → t.hart h = s.hart h

/-- Every byte of every place reads, to every hart in every world, as it did. -/
def SameMemory (s t : State) : Prop := ∀ h tag loc, t.readByte h tag loc = s.readByte h tag loc

/-- Every byte but those of a set of locations reads as it did. -/
def SameMemoryBut (p : Loc → Prop) (s t : State) : Prop := ∀ h tag loc, ¬ p loc → t.readByte h tag loc = s.readByte h tag loc

/-- Control falls through an instruction of `n` words, which counts once in `instret` (R75, R89). -/
def FallsThrough (n : Nat) (s t : State) : Prop :=
  t.me.pc = s.me.pc + BitVec.ofNat 64 (4 * n) ∧ t.me.instret = s.me.instret + 1 ∧ t.me.wait = {} ∧ t.me.passed = false

/-- Scalar registers but those listed. -/
def KeepsX (d : List Nat) (s t : State) : Prop := ∀ n, n ∉ d → t.me.X n = s.me.X n

/-- Lane register cells, lanes 0 to 31, but those of a set. -/
def KeepsV (p : Nat → Nat → Prop) (s t : State) : Prop := ∀ r l, l < 32 → ¬ p r l → t.me.V r l = s.me.V r l

/-- Mask registers but those listed. -/
def KeepsM (d : List Nat) (s t : State) : Prop := ∀ k, k ∉ d → t.me.M k = s.me.M k

/-- All that a hart holds apart from its scalar, lane and mask registers, the FP flags, the pc and the count and waits of
issue: the stack, the window, every CSR, the attachment, what is outstanding. -/
def KeepsRest (s t : State) : Prop :=
  t.me = { s.me with
    x := t.me.x, v := t.me.v, m := t.me.m, fflags := t.me.fflags, pc := t.me.pc, instret := t.me.instret
    wait := t.me.wait, passed := t.me.passed }

/-- The frame of an instruction of `n` words that touches only registers of its own hart: it falls through, and memory, the
module, the other harts and the rest of its own hart stay as they were. -/
def RegisterFrame (n : Nat) (s t : State) : Prop :=
  OnlyMe s t ∧ SameMemory s t ∧ FallsThrough n s t ∧ KeepsRest s t

/-- An instruction of `n` words whose one result is scalar register `rd`: it holds `w`, or nothing is written where `rd` is x0
(R90), and nothing else changes. -/
def WritesX (n : Nat) (rd : Nat) (w : W64) (s t : State) : Prop :=
  RegisterFrame n s t ∧ KeepsX [rd] s t ∧ (rd ≠ 0 → t.me.X rd = w) ∧ KeepsM [] s t ∧ KeepsV (fun _ _ => False) s t
    ∧ t.me.fflags = s.me.fflags

/-- Every stored byte is as it was: the latest published byte of every place under every world tag, and the stores that
cores hold back. -/
def SameStored (s t : State) : Prop :=
  (∀ tag loc, t.latest tag loc 1 = s.latest tag loc 1) ∧ ∀ c, (t.core c).unpub = (s.core c).unpub

/-- A memory job that nothing holds back: no ordered or conflicting logged instruction, no precise trap, no world fault, every
page translated, none of them migrating or answered MOVED (R162, R167, R231, R232, R320, R321). -/
def Placed (s : State) (job : MemJob) : Prop :=
  s.me.ordered = false ∧ s.me.conflicts job = false ∧ s.issueFault s.cur job = none ∧ s.needsEntry s.cur job = false
    ∧ s.worldFault s.cur job (s.placeOf s.cur job) = none ∧ s.movedPages (s.located s.cur job) = []
    ∧ ∀ l ∈ job.lanes, s.heldAt s.cur l.addr = false

/-- A memory job that nothing holds back, and whose release part, if it has one, is complete (R167). -/
def Ready (s : State) (job : MemJob) : Prop := Placed s job ∧ (job.rel = true → s.releaseDone s.cur job.scope = true)

/-- What a load, a store or a no-return atomic leaves of the harts when it completes: control falls through, a boundary ends the
reservation (R89), operations become outstanding, and nothing else of any hart changes. -/
def MemFrame (n : Nat) (job : MemJob) (s t : State) : Prop :=
  (∀ h, h ≠ s.cur → t.hart h = s.hart h) ∧
  t.me = { s.me with
    ops := t.me.ops, scReads := t.me.scReads, reservation := if job.acq || job.rel then none else s.me.reservation
    rel := if job.rel then none else s.me.rel, pc := s.me.pc + BitVec.ofNat 64 (4 * n), instret := s.me.instret + 1
    wait := {}, passed := false }

/-- Apart from the harts, only the lines that cores and slices hold, invalidations under way or deferred, the contention counters
and the directory change: no stored byte does. -/
def CachesOnly (s t : State) : Prop :=
  t = { s with harts := t.harts, cores := t.cores, clusters := t.clusters, trackers := t.trackers, dir := t.dir }
    ∧ (∀ c, t.core c = { s.core c with
        l1 := (t.core c).l1, old := (t.core c).old, defer := (t.core c).defer, predictor := (t.core c).predictor })
    ∧ ∀ c, t.cluster c = { s.cluster c with copies := (t.cluster c).copies, old := (t.cluster c).old }

/-- The state in which a job goes on, `s` itself but for the earlier stores and atomics of the hart that come first (R165, R171,
R219): none of those is held up, and an atomic's home can take it (R225, R231). -/
def WayClear (s : State) (job : MemJob) (locs : List Loc) (u : State) : Prop :=
  u = (s.clearWay s.cur s.me.nextOrder job locs).2 ∧ (s.clearWay s.cur s.me.nextOrder job locs).1 = true

/-- Nothing comes before a job: no earlier operation of the hart is to be performed first, no access of it to host memory is still
logged where the job reaches host memory, and no tile that the job meets is that of a matrix command in progress. -/
def NothingFirst (s : State) (job : MemJob) (locs : List Loc) : Prop :=
  s.me.mustDrain job locs = false ∧ locs.any s.tilePartial = false
    ∧ (locs.any (fun l => l.place == .host) = true → s.hostLogged s.cur s.me.nextOrder = false)

/-- The steps of an atomic's lanes, one after another in order: the old values, the flags and the state after them (R171). -/
def atomicLanes (h : Nat) (job : MemJob) : List (LaneReq × Loc) → State → List (Nat × W64) × BitVec 5 × State
  | [], s => ([], 0, s)
  | l :: ls, s =>
    let a := s.atomicStep h job l.1 l.2
    let r := atomicLanes h job ls a.2.2
    ((l.1.lane, extend job.signed job.size a.1) :: r.1, a.2.1 ||| r.2.1, r.2.2)

/-- Nothing that the hart or its core holds back concerns `n` bytes of a scratchpad or of TCM. -/
def Quiet (s : State) (l : Loc) (n : Nat) : Prop :=
  s.me.ops.any PendOp.waits = false ∧ s.stuckAt s.cur l n = false ∧ ((∃ c, l.place = .scratch c) ∨ ∃ c, l.place = .tcm c)
    ∧ ∀ u ∈ (s.core s.myCore).unpub, ∀ k, k < n → u.loc ≠ l.plus k

/-- Every published byte is as it was. -/
def SameLatest (s t : State) : Prop := ∀ tag loc, t.latest tag loc 1 = s.latest tag loc 1

/-- One indivisible step on an object of `n` bytes: it holds `v`, and every other published byte is as it was. -/
def ObjectStep (l : Loc) (n v : Nat) (s t : State) : Prop :=
  t.latest s.me.tag l n = v ∧ ∀ tag p, (∀ k, k < n → p ≠ l.plus k) → t.latest tag p 1 = s.latest tag p 1

/-- A barrier instruction at an object `b` at `l` that its hart may name, with nothing of the hart held back there (R183, R187). -/
def AtBarrier (c : Args → Instr) (o : Args) (s : State) (l : Loc) (b : Bar) : Prop :=
  Machine.guard (c o) s.me = true ∧ s.me.ordered = false ∧ s.barPlace s.cur (s.me.X o.a.toNat) = .inl l ∧ Quiet s l 32
    ∧ b = Bar.ofNat (s.latest s.me.tag l 32)

/-- A queue instruction at a header `q` at `l`, its ring beside the header, with nothing of the hart held back there (R188, R189). -/
def AtQueue (c : Args → Instr) (o : Args) (s : State) (l : Loc) (base : Nat) (q : Queue) : Prop :=
  Machine.guard (c o) s.me = true ∧ s.me.ordered = false
    ∧ (∃ len, s.queuePlace s.cur (s.me.X o.a.toNat) = some (l, base, len) ∧ q.ok len = true)
    ∧ Quiet s l 32 ∧ q = Queue.ofNat (s.latest s.me.tag l 32)
    ∧ (l.off + 32 ≤ base + q.base ∨ base + q.base + q.cap * q.esize ≤ l.off)

/-- A push of the bytes `data`, for the entry sizes that its form takes: with room and its turn it writes the entry at the tail and
counts it, otherwise it waits; its release comes first; a role with no allowance takes cause 28 (R189). -/
def QueuePushOp (c : Args → Instr) (sizes : Queue → Prop) (data : Args → Hart → Nat → List Byte) : Prop :=
  ∀ (o : Args) (s : State) l base q, AtQueue c o s l base q → sizes q →
    (q.allowOf s.me.role.toNat = 0 → exec (c o) s = trap 28 (s.me.X o.a.toNat) s)
    ∧ (q.allowOf s.me.role.toNat ≠ 0 → s.releaseDone s.cur (max o.rsc.toNat 1) = true →
        (q.count < min q.cap (q.allowOf s.me.role.toNat) → s.queueTurn s.cur l true = true →
          ∃ t, exec (c o) s = .next t ∧ FallsThrough o.words s t ∧ KeepsX [] s t ∧ KeepsV (fun _ _ => False) s t
            ∧ Queue.ofNat (t.latest s.me.tag l 32) = { q with count := q.count + 1, pushes := (q.pushes + 1) % 2 ^ 64 }
            ∧ t.latest s.me.tag ⟨l.place, base + q.base + (q.head + q.count) % q.cap * q.esize⟩ q.esize
                = leNat (data o s.me q.esize))
        ∧ (min q.cap (q.allowOf s.me.role.toNat) ≤ q.count ∨ s.queueTurn s.cur l true = false →
          ∃ t, exec (c o) s = .next t ∧ t.me.pc = s.me.pc ∧ t.me.wait.code = 4 ∧ KeepsX [] s t ∧ SameLatest s t))
    ∧ (q.allowOf s.me.role.toNat ≠ 0 → s.releaseDone s.cur (max o.rsc.toNat 1) = false →
        ∃ t, exec (c o) s = .next t ∧ t.me.pc = s.me.pc ∧ t.me.wait.code = 4 ∧ t.me.rel = some (max o.rsc.toNat 1) ∧ SameLatest s t)

/-- A send: `lens` are the payload sizes that its form takes beside R191's limits, `data` its payload and `write` its write address
(R191, R192, R200, R301, R304). -/
def SendOp (c : Args → Instr) (lens : Nat → Prop) (data : Args → Hart → Nat → List Byte) (write : Args → Hart → Option W64) : Prop :=
  ∀ (o : Args) (s : State),
    let d := (s.me.X o.a.toNat).toNat
    let remote := bitOf d 42
    let limits := bitsOf d 31 29 = 0 ∧ d < 2 ^ 43 ∧ bitsOf d 28 22 % 4 = 0 ∧ bitsOf d 28 22 ≤ 64 ∧ lens (bitsOf d 28 22)
      ∧ (s.me.X (o.a.toNat + 1)).toNat % 8 = 0
    let admitted := s.mayReach s.cur (bitsOf d 11 0) (bitsOf d 41 32) remote
    let scope := if remote then 4 else max o.rsc.toNat 3
    Machine.guard (c o) s.me = true → s.me.ordered = false → (∀ w, write o s.me = some w → w.toNat % 4 = 0) →
      (¬ limits → exec (c o) s = illegal (c o) s)
      ∧ (limits → admitted = false → exec (c o) s = trap 31 (BitVec.ofNat 64 (bitsOf d 11 0)) s)
      ∧ (limits → admitted = true → remote = true → s.sealedWorld s.me.tag = true → exec (c o) s = trap 26 5 s)
      ∧ (limits → admitted = true → (remote = false ∨ s.sealedWorld s.me.tag = false) → s.releaseDone s.cur scope = false →
        exec (c o) s = .next (s.onMe (fun x => { x with wait := { code := 5 }, rel := some scope })))
      ∧ (limits → admitted = true → s.releaseDone s.cur scope = true → (remote = false ∨ s.me.tag = 0) →
        (16 ≤ s.outbox s.myCore → ∃ t, exec (c o) s = .next t ∧ OnlyMe s t ∧ t.me.pc = s.me.pc ∧ t.me.wait = { code := 5 })
        ∧ (s.outbox s.myCore < 16 →
          ∃ (t : State) (m : Msg), exec (c o) s = .next t ∧ t = { s with harts := t.harts, net := s.net ++ [m] }
            ∧ FallsThrough o.words s t ∧ KeepsX [] s t ∧ KeepsV (fun _ _ => False) s t ∧ (∀ h, h ≠ s.cur → t.hart h = s.hart h)
            ∧ m.core = bitsOf d 11 0 ∧ m.tag = bitsOf d 19 12 ∧ m.prio = bitsOf d 21 20 ∧ m.len = bitsOf d 28 22
            ∧ m.dstModule = bitsOf d 41 32 ∧ m.remote = remote ∧ m.reply = s.me.X (o.a.toNat + 1) ∧ m.source = s.myCore
            ∧ m.time = s.cycle % 2 ^ 48 ∧ m.payload = data o s.me (bitsOf d 28 22) ∧ m.write = write o s.me))
      ∧ (limits → admitted = true → s.releaseDone s.cur scope = true → remote = true → s.me.tag ≠ 0 →
        (Tab.get s.worlds {} s.me.tag).state ≠ .sealed → (Tab.get s.worlds {} s.me.tag).log.length < 128 →
          ∃ t e, exec (c o) s = .next t ∧ FallsThrough o.words s t ∧ KeepsX [] s t ∧ t.net = s.net
            ∧ (Tab.get t.worlds {} s.me.tag).log = (Tab.get s.worlds {} s.me.tag).log ++ [e] ∧ e.kind = 3 ∧ e.hart = s.cur
            ∧ e.data.take (bitsOf d 28 22) = data o s.me (bitsOf d 28 22))

/-- What a standard load or store of `n` bytes at X(rs1) + imm asks for (R89). -/
def stdJob (op : MemOp) (r rs1 : BitVec 5) (imm : BitVec 12) (h : Hart) : MemJob :=
  let base := standardJob (.standardAccess op r rs1 imm) (if op.isStore then .store else .load) (memOpShape op).1
    (h.X rs1.toNat + imm.signExtend 64) (if op.isStore then h.X r.toNat else 0) h
  if op.isStore then base else { base with signed := (memOpShape op).2, dest := .x r.toNat }

/-- The frame of an instruction with a lane-register destination: only active lanes of register `o.d` may change; FP flags may
only be raised, and only where `fp` says so (R61, R94). -/
def LaneFrame (fp : Bool) (o : Args) (s t : State) : Prop :=
  RegisterFrame o.words s t ∧ KeepsX [] s t ∧ KeepsM [] s t
    ∧ KeepsV (fun r l => r = o.d.toNat ∧ l ∈ active s.me o) s t
    ∧ (if fp then s.me.fflags &&& t.me.fflags = s.me.fflags else t.me.fflags = s.me.fflags)

/-- The frame of an instruction with a scalar destination. -/
def ScalarFrame (fp : Bool) (o : Args) (s t : State) : Prop :=
  RegisterFrame o.words s t ∧ KeepsX [o.d.toNat] s t ∧ KeepsM [] s t ∧ KeepsV (fun _ _ => False) s t
    ∧ (if fp then s.me.fflags &&& t.me.fflags = s.me.fflags else t.me.fflags = s.me.fflags)

/-- The frame of an instruction with a mask destination. -/
def MaskFrame (fp : Bool) (o : Args) (s t : State) : Prop :=
  RegisterFrame o.words s t ∧ KeepsX [] s t ∧ KeepsM [o.d.toNat] s t ∧ KeepsV (fun _ _ => False) s t
    ∧ (if fp then s.me.fflags &&& t.me.fflags = s.me.fflags else t.me.fflags = s.me.fflags)

/-- A hart branch on a mask: it completes, and goes to the pc plus four times the immediate where `taken` holds of m0 and its
mask register; neither m0, the stack nor anything else changes (R128). -/
def MaskBranch (c : Args → Instr) (taken : W32 → W32 → Bool) : Prop :=
  ∀ o s, Machine.guard (c o) s.me = true → ∃ t, exec (c o) s = .next t ∧ OnlyMe s t ∧ SameMemory s t ∧ t.me = { s.me with
    pc := s.me.pc + (if taken s.me.m0 (s.me.M o.a.toNat) then 4 * o.imm.signExtend 64 else BitVec.ofNat 64 (4 * o.words))
    instret := s.me.instret + 1, wait := {}, passed := false }

/-- An instruction whose result is one mask register, made from the mask registers a and b (R121). -/
def MaskLogic (c : Args → Instr) (f : W32 → W32 → W32) : Prop :=
  ∀ o s, Machine.guard (c o) s.me = true → ∃ t, exec (c o) s = .next t ∧ MaskFrame false o s t
    ∧ t.me.M o.d.toNat = f (s.me.M o.a.toNat) (s.me.M o.b.toNat)

/-- The frame of an instruction on the mask stack: the stack, the depth, the pc and the count change, and no byte of memory but
those of the hart's own spill area in its core's TCM (R40, R41). -/
def StackFrame (s t : State) : Prop :=
  t = { s with harts := t.harts, cores := t.cores } ∧ (∀ h, h ≠ s.cur → t.hart h = s.hart h)
    ∧ (∀ c, t.core c = { s.core c with tcm := (t.core c).tcm })
    ∧ t.me = { s.me with stack := t.me.stack, depth := t.me.depth, pc := t.me.pc, instret := s.me.instret + 1, wait := {},
                         passed := false }
    ∧ SameMemoryBut (fun l => l.place = .tcm s.myCore ∧ spillAt s.me 0 ≤ l.off ∧ l.off < spillAt s.me s.stackOf.length) s t

/-- An Osier instruction, under the checks of R87 alone, answers a next state of which `post` holds. -/
def Completes (c : Args → Instr) (post : Args → State → State → Prop) : Prop :=
  ∀ o s, Machine.guard (c o) s.me = true → ∃ t, exec (c o) s = .next t ∧ post o s t

/-- The same under a further condition on the state and the operands. -/
def CompletesIf (c : Args → Instr) (pre : Args → State → Prop) (post : Args → State → State → Prop) : Prop :=
  ∀ o s, Machine.guard (c o) s.me = true → pre o s → ∃ t, exec (c o) s = .next t ∧ post o s t

/-- An Osier instruction that does not pass the checks of R87 and R36 takes the illegal-instruction exception. -/
def IllegalElse (c : Args → Instr) : Prop := ∀ o s, Machine.guard (c o) s.me = false → exec (c o) s = illegal (c o) s

/-- `lif` and, with `neg`, `lifn` on a stack of fewer than 80 entries: the lanes that go first get an entry, with the others
pending (R122). -/
def BranchOp (c : Args → Instr) (neg : Bool) : Prop :=
  CompletesIf c (fun _ s => s.stackOf.length < 80) (fun o s t =>
    StackFrame s t ∧
      let cond := s.me.M o.a.toNat
      let first := topMask s.stackOf &&& (if neg then ~~~ cond else cond)
      let other := topMask s.stackOf &&& ~~~ first
      let els := s.me.pc + 4 * ((o.w2.extractLsb' 0 16).signExtend 64)
      let join := s.me.pc + 4 * ((o.w2.extractLsb' 16 16).signExtend 64)
      if first = 0 then
        t.stackOf = { mask := other, kind := 2, rpc := join, ppc := 0 } :: s.stackOf ∧ t.me.pc = (if other = 0 then join else els)
      else
        t.stackOf = { mask := first, kind := 1, rpc := join, ppc := if other = 0 then 0 else els } :: s.stackOf
          ∧ t.me.pc = s.me.pc + BitVec.ofNat 64 (4 * o.words))

/-- A read of a field of a stack entry, by its number from the top (R127). -/
def StackRead (c : Args → Instr) (f : MaskEntry → W64) : Prop :=
  ∀ e : MaskEntry, CompletesIf c (fun o s => s.stackOf[(s.me.X o.a.toNat).toNat]? = some e)
    (fun o s t => ScalarFrame false o s t ∧ (o.d ≠ 0 → t.me.X o.d.toNat = f e))

/-- A write of a field of a stack entry, by its number from the top (R127). -/
def StackWrite (c : Args → Instr) (f : W64 → MaskEntry → MaskEntry) : Prop :=
  ∀ e : MaskEntry, CompletesIf c (fun o s => s.stackOf[(s.me.X o.a.toNat).toNat]? = some e)
    (fun o s t => StackFrame s t ∧ t.stackOf = s.stackOf.set (s.me.X o.a.toNat).toNat (f (s.me.X o.d.toNat) e)
      ∧ t.me.pc = s.me.pc + BitVec.ofNat 64 (4 * o.words))

/-! ### Instructions of one shape -/

/-- An instruction with a lane-register destination that raises no FP flag: it completes wherever R87 and R36 let it issue,
`P` holds of every active lane's result, and nothing else changes (R94). -/
def LaneOp (c : Args → Instr) (P : Args → Hart → (l : Nat) → W32 → Prop) : Prop :=
  Completes c (fun o s t => LaneFrame false o s t ∧ ∀ l ∈ active s.me o, P o s.me l (t.me.V o.d.toNat l))

/-- A float instruction on elements of its type: it completes, every element of every active lane has the result `res`, the
flags of all of them are ORed into `lfcsr.fflags`, and nothing else changes (R61, R94). -/
def FloatOp (c : Args → Instr) (res : Args → Hart → (l k : Nat) → Fp.Res) : Prop :=
  Completes c (fun o s t => LaneFrame true o s t
    ∧ t.me.fflags = s.me.fflags ||| flagsOf (active s.me o) (fun l =>
        flagsOf (List.range (32 / bitsOfType (tyOf o 7))) (fun k => (res o s.me l k).flags))
    ∧ ∀ l ∈ active s.me o, ∀ k, k < 32 / bitsOfType (tyOf o 7) →
        elem (bitsOfType (tyOf o 7)) k (t.me.V o.d.toNat l) = (res o s.me l k).bits % 2 ^ bitsOfType (tyOf o 7))

/-- A float compare or a lane instruction whose result is a mask register. -/
def MaskOp (fp : Bool) (c : Args → Instr) (P : Args → Hart → (l : Nat) → Bool) : Prop :=
  Completes c (fun o s t => MaskFrame fp o s t
    ∧ ∀ l, l < 32 → (t.me.M o.d.toNat).getLsbD l = (decide (l ∈ active s.me o) && P o s.me l))

/-- The integer condition of a compare's function code (R105). -/
def intCondition (code : Nat) (x y : Int) : Bool :=
  match code with
  | 0 => decide (x = y)
  | 1 => decide (x ≠ y)
  | 2 => decide (x < y)
  | 3 => decide (x ≤ y)
  | 4 => decide (y < x)
  | 5 => decide (y ≤ x)
  | _ => false

/-- The condition of a compare on lane l, and the flags that it raises: FP32 operands by the IEEE conditions, integers as their type
reads them, with no flag (R105). -/
def compareOn (code : Nat) (o : Args) (h : Hart) (l : Nat) : Bool × BitVec 5 :=
  if tyOf o 5 = 7 then
    Fp.condition code (Fp.decodeFtz Fp.f32 h.ftz (h.V o.a.toNat l).toNat)
      (Fp.decodeFtz Fp.f32 h.ftz (wordB h o (decide (8 ≤ o.xop.toNat)) l).toNat)
  else
    (intCondition code (intOf (isSigned (tyOf o 5)) 32 (h.V o.a.toNat l).toNat)
      (intOf (isSigned (tyOf o 5)) 32 (wordB h o (decide (8 ≤ o.xop.toNat)) l).toNat), 0)

/-- A compare with condition `code`: it completes wherever R87 and R36 let it issue; all 32 bits of its mask register are written, 1
for active lanes that meet the condition and 0 elsewhere; the flags of its active lanes are raised, and nothing else changes. With m0
as its destination it is illegal (R38, R105). -/
def CompareOp (c : Args → Instr) (code : Nat) : Prop :=
  Completes c (fun o s t => MaskFrame true o s t
    ∧ (∀ l, l < 32 → (t.me.M o.d.toNat).getLsbD l = (decide (l ∈ active s.me o) && (compareOn code o s.me l).1))
    ∧ t.me.fflags = s.me.fflags ||| flagsOf (active s.me o) (fun l => (compareOn code o s.me l).2))
  ∧ (∀ o s, o.d = 0 → exec (c o) s = illegal (c o) s) ∧ IllegalElse c

/-- `vmin` and `vmax`: integers as their type reads them, floats by minimumNumber and maximumNumber (R99). -/
def MinMaxOp (c : Args → Instr) (isMin : Bool) : Prop :=
  Completes c (fun o s t => LaneFrame true o s t
    ∧ ∀ l ∈ active s.me o, ∀ k, k < 32 / bitsOfType (tyOf o 5) →
      elem (bitsOfType (tyOf o 5)) k (t.me.V o.d.toNat l) =
        if isFloat (tyOf o 5) then
          (Fp.minMax (Fp.fmtOf (tyOf o 5)) isMin
            (Fp.decodeFtz (Fp.fmtOf (tyOf o 5)) s.me.ftz (elem (bitsOfType (tyOf o 5)) k (s.me.V o.a.toNat l)))
            (Fp.decodeFtz (Fp.fmtOf (tyOf o 5)) s.me.ftz (elemB s.me o (immForm o) (bitsOfType (tyOf o 5)) k l))).bits
            % 2 ^ bitsOfType (tyOf o 5)
        else
          let a := elem (bitsOfType (tyOf o 5)) k (s.me.V o.a.toNat l)
          let b := elemB s.me o (immForm o) (bitsOfType (tyOf o 5)) k l
          let x := intOf (isSigned (tyOf o 5)) (bitsOfType (tyOf o 5)) a
          let y := intOf (isSigned (tyOf o 5)) (bitsOfType (tyOf o 5)) b
          if isMin then (if x ≤ y then a else b) else (if x ≤ y then b else a))

/-- An instruction whose result is one scalar register; a write to x0 is discarded (R90). -/
def ScalarOp (fp : Bool) (c : Args → Instr) (P : Args → Hart → W64 → Prop) : Prop :=
  Completes c (fun o s t => ScalarFrame fp o s t ∧ (o.d = 0 → t.me.X 0 = 0) ∧ (o.d ≠ 0 → P o s.me (t.me.X o.d.toNat)))

/-- A lane load of `size` bytes at the addresses `addr`: where every active lane's address is placed at `loc`, and the hart's
earlier operations that come before it are performed, its values are bound in one step and are outstanding until they return; no
stored byte changes (R161, R163, R164, R165, R219). -/
def LoadOp (c : Args → Instr) (dbl : Bool) (rc : Args → Nat) (addr : Args → Hart → Nat → W64) : Prop :=
  ∀ o s (loc : Nat → Loc) u, Machine.guard (c o) s.me = true →
    let job := loadJob (c o) o dbl (rc o) (addr o) s.me
    Ready s job →
    (∀ l ∈ active s.me o, s.reach s.cur (addr o s.me l) (laneSize o dbl) .load = .here (loc l) ∧ (loc l).isDmi = false) →
    WayClear s job ((active s.me o).map loc) u →
    ∃ t, exec (c o) s = .next t ∧ MemFrame o.words job u t ∧ CachesOnly u t
      ∧ (s.me.mustDrain job ((active s.me o).map loc) = false → u = s)
      ∧ t.me.ops = u.me.ops ++ (if active s.me o = [] then [] else
          [{ job, vw := (destCells job.dest ((active s.me o).map (fun l =>
              (l, extend (signedType o.ty.toNat) (laneSize o dbl)
                (u.readElem s.cur s.me.tag (addr o s.me l) (loc l) (laneSize o dbl)))))).1 }])

/-- A lane store: where every active lane's address is placed at `loc` and nothing comes first, the store becomes outstanding; no stored byte changes, and
to its hart alone the bytes stored read as the data (R161, R163, R165, R166). In a world other than the root, this is stated of
lanes within the module. -/
def StoreOp (c : Args → Instr) (dbl : Bool) (addr : Args → Hart → Nat → W64) : Prop :=
  ∀ o s (loc : Nat → Loc), Machine.guard (c o) s.me = true →
    let job := storeJob (c o) o dbl (addr o) s.me
    Ready s job → (∀ l ∈ active s.me o, s.reach s.cur (addr o s.me l) (laneSize o dbl) .store = .here (loc l)) →
    NothingFirst s job ((active s.me o).map loc) →
    (s.me.tag = 0 ∨ ∀ l ∈ active s.me o, (loc l).place ≠ .host) →
    ∃ t, exec (c o) s = .next t ∧ MemFrame o.words job s t ∧ t = { s with harts := t.harts, worlds := t.worlds }
      ∧ (∀ l ∈ active s.me o, ∀ k, k < laneSize o dbl →
          (∀ m ∈ active s.me o, l < m → ∀ j, j < laneSize o dbl → (loc m).plus j ≠ (loc l).plus k) →
          t.readByte s.cur s.me.tag ((loc l).plus k) = BitVec.ofNat 8 ((storeData o dbl s.me l).toNat / 256 ^ k))
      ∧ ∀ h tag p, (h = s.cur → ∀ l ∈ active s.me o, ∀ k, k < laneSize o dbl → p ≠ (loc l).plus k) →
          t.readByte h tag p = s.readByte h tag p

/-- An atomic with return: with the earlier operations of its hart performed, its lanes run in order, and their old values are outstanding
until they return (R170, R171). -/
def AtomicOp (c : Args → Instr) (mk : Args → Hart → MemJob) : Prop :=
  ∀ (o : Args) (s u : State),
    let job := mk o s.me
    let ls := s.located s.cur job
    let r := atomicLanes s.cur job ls ((u.noteReads s.cur job ls).takePages job ls)
    Machine.guard (c o) s.me = true → job.kind = .amo → Ready s job → job.lanes ≠ [] →
    (∀ l ∈ job.lanes, s.placeOf s.cur job l ≠ none) →
    WayClear (if job.rel then s.onMe Hart.boundary else s) job (ls.map Prod.snd) u →
    ∃ t, exec (c o) s = .next t ∧ FallsThrough o.words s t ∧ KeepsX [] s t ∧ KeepsM [] s t ∧ KeepsV (fun _ _ => False) s t
      ∧ t.me.fflags = s.me.fflags ∧ (∀ tag loc, t.latest tag loc 1 = r.2.2.latest tag loc 1)
      ∧ t.me.ops = u.me.ops ++ [{ job, vw := (destCells job.dest r.1).1, xw := (destCells job.dest r.1).2, fflags := r.2.1 }]

/-- An atomic without return, in the root world or within the module: without an acquire part it becomes outstanding, and no stored byte
changes; with one it is performed at once, after the earlier operations of its hart (R170, R171). -/
def PostedAtomicOp (c : Args → Instr) (mk : Args → Hart → MemJob) : Prop :=
  ∀ (o : Args) (s u : State),
    let job := mk o s.me
    let ls := s.located s.cur job
    Machine.guard (c o) s.me = true → job.kind = .amoNr → Ready s job → (∀ l ∈ job.lanes, s.placeOf s.cur job l ≠ none) →
    (s.me.tag = 0 ∨ ∀ l ∈ ls, l.2.place ≠ .host ∧ inDomain l.1.addr = false) →
    WayClear (if job.rel then s.onMe Hart.boundary else s) job (ls.map Prod.snd) u →
    ∃ t, exec (c o) s = .next t ∧ FallsThrough o.words s t ∧ KeepsX [] s t ∧ KeepsM [] s t ∧ KeepsV (fun _ _ => False) s t
      ∧ (job.acq = false → SameStored s t ∧ (∀ h, h ≠ s.cur → t.hart h = s.hart h)
          ∧ t.me.ops = s.me.ops ++ (if job.lanes = [] then [] else [{ job, locs := ls.map Prod.snd }]))
      ∧ (job.acq = true → (∀ l ∈ ls, l.2.isDmi = false) → t.me.ops = u.me.ops
          ∧ ∀ tag loc, t.latest tag loc 1 = (atomicLanes s.cur job ls (u.takePages job ls)).2.2.latest tag loc 1)

/-- Each element of an integer result, from the patterns of the elements of a and b (R97). -/
def IntElems (f : (o : Args) → (sg : Bool) → (w a b : Nat) → Nat) (o : Args) (h : Hart) (l : Nat) (r : W32) : Prop :=
  ∀ k, k < 32 / bitsOfType (tyOf o 5) → elem (bitsOfType (tyOf o 5)) k r =
    f o (isSigned (tyOf o 5)) (bitsOfType (tyOf o 5)) (elem (bitsOfType (tyOf o 5)) k (h.V o.a.toNat l))
      (elemB h o (immForm o) (bitsOfType (tyOf o 5)) k l)

/-! ### Engine commands -/

/-- Commands entered in the engine queue of the hart's core under the next tickets: control falls through, and X(d) receives the
promise word of the last, at least 32 clk ahead; no stored byte changes (R235, R236, R263). -/
def Entered (o : Args) (ks : List EngCmd) (s t : State) : Prop :=
  FallsThrough o.words s t ∧ KeepsX [o.d.toNat] s t ∧ SameStored s t
    ∧ (t.core s.myCore).engine = (s.core s.myCore).engine ++ ks
    ∧ (t.core s.myCore).tickets = ((s.core s.myCore).tickets + ks.length) % 65536
    ∧ (∀ k, ks.head? = some k → k.ticket = (s.core s.myCore).tickets % 65536)
    ∧ (∀ k ∈ ks, k.started = none ∧ s.cycle + 32 ≤ k.promise)
    ∧ ∀ k, ks.getLast? = some k → o.d ≠ 0 → t.me.X o.d.toNat = BitVec.ofNat 64 (k.ticket * 2 ^ 48 + k.promise % 2 ^ 48)

/-- The hart waits at its engine instruction for queue entries, with the commands that it has read (R235, R252). -/
def WaitsForEntry (s t : State) : Prop :=
  t.me.pc = s.me.pc ∧ t.me.wait.code = 12 ∧ t.me.queued ≠ [] ∧ KeepsX [] s t ∧ SameStored s t
    ∧ (t.core s.myCore).engine = (s.core s.myCore).engine

/-- A copy command: checked as it issues, then entered, or its hart waits with it (R235, R238, R252). -/
def CopyCommandOp (c : Args → Instr) (minor : Nat) : Prop :=
  ∀ (o : Args) (s : State), Machine.guard (c o) s.me = true → s.me.ordered = false →
    (s.me.holdsQueued = false →
      (∀ d, (s.descriptor s.cur (s.me.X o.a.toNat)).bind copyDesc = some d → s.copyOk s.cur minor d = true →
        (∀ va, s.copyGate s.cur minor d = some va → exec (c o) s = trap 31 va s)
        ∧ (s.copyGate s.cur minor d = none → s.copyWorldFault d = none → s.copyDeferred minor d = false →
          (s.entriesFor s.cur 1 = true → ∃ (t : State) (k : EngCmd), exec (c o) s = .next t ∧ Entered o [k] s t
            ∧ k.kind = minor ∧ k.cop = d ∧ k.hart = s.cur ∧ (t.core s.myCore).array = (s.core s.myCore).array)
          ∧ (s.entriesFor s.cur 1 = false → ∃ (t : State) (k : EngCmd), exec (c o) s = .next t ∧ WaitsForEntry s t
            ∧ t.me.queued = [k] ∧ k.kind = minor ∧ k.cop = d)))
      ∧ (((s.descriptor s.cur (s.me.X o.a.toNat)).bind copyDesc = none
          ∨ ∃ d, (s.descriptor s.cur (s.me.X o.a.toNat)).bind copyDesc = some d ∧ s.copyOk s.cur minor d = false) →
        exec (c o) s = trap 29 ((c o).word.setWidth 64) s))
    ∧ (∀ q : EngCmd, s.me.holdsQueued = true → s.me.queued = [q] → q.kind ≤ 4 → q.started = none → s.copyWorldFault q.cop = none →
        s.entriesFor s.cur 1 = true →
        ∃ (t : State) (k : EngCmd), exec (c o) s = .next t ∧ Entered o [k] s t ∧ k.kind = q.kind ∧ k.cop = q.cop)

/-- The next piece of copy `k` of the focus' core, `n` bytes of a row whose first byte lies at `off` in the TCM of core `c`, is read and
ready to be written, with nothing in its way (R240). -/
def WritesNext (s : State) (k : EngCmd) (c off n : Nat) : Prop :=
  (s.core s.focus.unit).command s.focus.item = some k ∧ coreOf k.hart = s.focus.unit ∧ k.kind = 0 ∧ k.started ≠ none
    ∧ k.stopped = false ∧ k.stopping = false ∧ k.dropped = false ∧ s.suspended k = false ∧ k.tag = 0 ∧ k.acked = false
    ∧ k.put < k.cop.count ∧ k.cop.dst ≠ 0 ∧ inLocal (k.addrsAt k.put).2 = true
    ∧ (k.cop.count ≤ k.got ∨ (k.buf ≠ [] ∧ k.cop.mayOverlap = false))
    ∧ n = s.pieceLen k k.put ∧ n ≤ k.buf.length
    ∧ s.cmdRange k true (k.addrsAt k.put).2 k.cop.rowbytes = .parts [(some ⟨.tcm c, off⟩, k.cop.rowbytes)]

/-! ### Chains of the host's queues -/

/-- A chain that the function of its link processes at once, with its command: no part of R359's or R360's checks turns it away, nothing holds
its queue, and its sequence number is new. -/
def ChainMet (c : Chain) (op size : Nat) (ctl : Bool) (s : State) : Prop :=
  s.focus.unit < Config.links ∧ ((s.fn s.focus.unit).needsReset = false ∨ c.op = 0x08) ∧ (s.fn s.focus.unit).featuresOk = true
    ∧ (c.queue = 0 ∨ (s.queue s.focus.unit c.queue).bound = true) ∧ s.focus.code ≠ 1
    ∧ (s.queue s.focus.unit c.queue).qstate = 0 ∧ (s.queue s.focus.unit c.queue).chains = []
    ∧ (s.queue s.focus.unit c.queue).begun = false ∧ c.zeros = 0 ∧ c.op = op ∧ size ≤ c.payload.length ∧ ctl = (c.queue == 0)
    ∧ ((s.queue s.focus.unit c.queue).status = 0 ∨ (s.queue s.focus.unit c.queue).applied.toNat < c.seq.toNat)

/-- The same with no reserved byte of its payload set, so that its command runs (R359). -/
def ChainRuns (c : Chain) (op size : Nat) (ctl : Bool) (s : State) : Prop := ChainMet c op size ctl s ∧ reservedBad c = false

/-- `ctx.save` and, with `load`, `ctx.load`: a request that keeps its limits joins those accepted, marked where it meets one of them or a
switch; one that does not, or at a misaligned address, is illegal (R283, R284). -/
def RequestOp (c : Args → Instr) (load : Bool) : Prop :=
  ∀ (o : Args) (s : State), let addr := s.me.X o.a.toNat
    let job := standardJob (c o) .load 32 addr 0 s.me
    Machine.guard (c o) s.me = true →
    (addr.toNat % 32 ≠ 0 → exec (c o) s = illegal (c o) s)
    ∧ (∀ l, addr.toNat % 32 = 0 → Placed s job → s.reach s.cur addr 32 .load = .here l → NothingFirst s job [l] →
      (∀ r, requestOf (s.recordBytes s.cur 32 addr (.at l)) load s.cur = some r →
        ∃ t, exec (c o) s = .next t ∧ FallsThrough o.words s t ∧ KeepsX [] s t ∧ t = { s with harts := t.harts, requests := t.requests }
          ∧ (∀ h, h ≠ s.cur → t.hart h = s.hart h)
          ∧ t.requests = s.requests ++ [{ r with
              busy := s.requests.any r.meets || s.switching (Tab.get s.ctxs {} r.pasid).gang }])
      ∧ (requestOf (s.recordBytes s.cur 32 addr (.at l)) load s.cur = none → exec (c o) s = illegal (c o) s))

/-- No access of a request through the domain window waits at the module's port for a verdict (R395). -/
def Unheld (s : State) (r : WindowReq) : Prop := ∀ w ∈ s.winWaits, w.req ≠ r

/-- A chain completed: its reply in host memory holds the status and the result, and its queue has applied it (R359, R360). -/
def Replied (c : Chain) (status result : Nat) (s t : State) : Prop :=
  t.hostMem.readBytes c.reply.toNat 16 = leBytes 4 status ++ leBytes 4 0 ++ leBytes 8 result
    ∧ (t.queue s.focus.unit c.queue).applied = c.seq ∧ (t.queue s.focus.unit c.queue).lop = c.op
    ∧ (t.queue s.focus.unit c.queue).count = (s.queue s.focus.unit c.queue).count + 1

/-- The atomic policy word after a write of `w`: an `amode` of 3 and a `thresh` of 0 leave their fields as they were, the other bits
read zero (R229). -/
def PolicyWritten (old w new : W64) : Prop :=
  bitsOf new.toNat 1 0 = (if bitsOf w.toNat 1 0 = 3 then bitsOf old.toNat 1 0 else bitsOf w.toNat 1 0)
    ∧ bitsOf new.toNat 3 2 = (if bitsOf w.toNat 3 2 = 0 then bitsOf old.toNat 3 2 else bitsOf w.toNat 3 2)
    ∧ bitsOf new.toNat 63 4 = 0

/-! ### Issue and invariants -/

/-- What the issue of hart `h` from `s` adds to the state `u` that its instruction leaves: the clk for the arbiter, the tick of its
launch's first issue, and, where it has not trapped, the pipe that a LANE instruction holds (R23, R30, R96). -/
def noted (h : Nat) (s u : State) : State :=
  let v := u.onHart h (fun x => if x.live then { x with lastIssue := s.cycle } else x)
  let w := match (s.hart h).home with
    | some p => v.onLaunch p.launch (fun l => if l.issued then l else { l with issued := true, startTick := s.tick })
    | none => v
  if u.trapped then w else w.holdPipe (coreOf h) (((s.nextInstr h).map laneOccupancy).getD 0)

/-- Nothing of R377 comes before the instruction at the pc of hart `h`: it runs no program buffer, no trigger matches, no deferred
trap is due, no PC match is. -/
def NothingBefore (h : Nat) (s : State) : Prop :=
  (s.hart h).dbg.running = none ∧ (s.hart h).triggered (s.peek h) true = none ∧ (s.hart h).triggered (s.peek h) false = none
    ∧ (s.hart h).defers = false ∧ (s.hart h).matchDue = none

/-- No interrupt takes the boundary of hart `h` (R47, R49, R377). -/
def NoInterrupt (h : Nat) (s : State) : Prop :=
  (s.hart h).interruptDue = none
    ∧ s.userDue h = false

/-- The scheduling word is legal: its quantum and its age are not 0, and its reserved bits are (R336). -/
def State.schedOk (s : State) : Prop := s.sliceTicks ≠ 0 ∧ s.agemax ≠ 0 ∧ bitsOf s.sched.toNat 63 48 = 0

end Sys2Proof.Machine
end

