-- ==== Sys2Proof/Certificates/Slice0/Obligations.lean ====
section
/-! DEFINITION. The statements for the provers. -/

open Sys2Proof Sys2Proof.Machine


/-! ### Lane instructions -/

/-- R97, R98: integer arithmetic, element by element: sums, differences and products saturate or wrap, the high half of a
product, and division and remainder truncate toward zero with R98's results for a zero divisor and for overflow. -/
def Obligations.LaneIntegerArithmetic : Prop :=
  LaneOp .vadd (IntElems fun o sg w a b => narrow sg o.sat w (intOf sg w a + intOf sg w b))
  ∧ LaneOp .vsub (IntElems fun o sg w a b => narrow sg o.sat w (intOf sg w a - intOf sg w b))
  ∧ LaneOp .vmul (IntElems fun o sg w a b => narrow sg o.sat w (intOf sg w a * intOf sg w b))
  ∧ LaneOp .vmulh (IntElems fun _ sg w a b => wrapBits w (intOf sg w a * intOf sg w b / 2 ^ w))
  ∧ LaneOp .vmulhsu (IntElems fun _ _ w a b => wrapBits w (intOf true w a * (b : Int) / 2 ^ w))
  ∧ LaneOp .vdiv (IntElems fun _ sg w a b => if b = 0 then 2 ^ w - 1 else wrapBits w ((intOf sg w a).tdiv (intOf sg w b)))
  ∧ LaneOp .vrem (IntElems fun _ sg w a b => if b = 0 then a else wrapBits w ((intOf sg w a).tmod (intOf sg w b)))
  ∧ (∀ c ∈ ([Instr.vadd, Instr.vsub, Instr.vmul, Instr.vmulh, Instr.vmulhsu, Instr.vdiv, Instr.vrem] : List (Args →
      Instr)), IllegalElse c)

/-- R100, R101, R106, R116, R117: logic on whole lanes, element shifts modulo the width, selection, moves and lane indexes.
Counts of bits, reversals and absolute values. -/
def Obligations.LaneLogicAndBitFunctions : Prop :=
  (LaneOp .vand (fun o h l r => r = h.V o.a.toNat l &&& wordB h o (immForm o) l)
  ∧ LaneOp .vor (fun o h l r => r = h.V o.a.toNat l ||| wordB h o (immForm o) l)
  ∧ LaneOp .vxor (fun o h l r => r = h.V o.a.toNat l ^^^ wordB h o (immForm o) l)
  ∧ LaneOp .vandn (fun o h l r => r = h.V o.a.toNat l &&& ~~~ h.V o.b.toNat l)
  ∧ LaneOp .vorn (fun o h l r => r = h.V o.a.toNat l ||| ~~~ h.V o.b.toNat l)
  ∧ LaneOp .vxnor (fun o h l r => r = ~~~ (h.V o.a.toNat l ^^^ h.V o.b.toNat l))
  ∧ LaneOp .vnot (fun o h l r => r = ~~~ h.V o.a.toNat l)
  ∧ LaneOp .vsll (IntElems fun _ _ w a b => a * 2 ^ (b % w) % 2 ^ w)
  ∧ LaneOp .vsrl (IntElems fun _ _ w a b => a / 2 ^ (b % w))
  ∧ LaneOp .vsra (IntElems fun _ _ w a b => wrapBits w (intOf true w a / 2 ^ (b % w)))
  ∧ LaneOp .vsel (fun o h l r => r = if (h.M (if o.xop = 0 then 1 else o.xop.toNat)).getLsbD l then h.V o.a.toNat l else h.V o.b.toNat l)
  ∧ LaneOp .vmov (fun o h l r => r = h.V o.a.toNat l)
  ∧ LaneOp .vmbit (fun o h l r => r = if (h.M o.a.toNat).getLsbD l then 1 else 0)
  ∧ LaneOp .vlid (fun _ _ l r => r.toNat = l))
  ∧ (LaneOp .vpopc (fun o h l r => r.toNat = ((List.range 32).filter (fun i => (h.V o.a.toNat l).getLsbD i)).length)
  ∧ LaneOp .vclz (fun o h l r => (h.V o.a.toNat l = 0 → r = 32)
      ∧ (h.V o.a.toNat l ≠ 0 → r.toNat < 32 ∧ 2 ^ (31 - r.toNat) ≤ (h.V o.a.toNat l).toNat ∧ (h.V o.a.toNat l).toNat < 2 ^ (32 - r.toNat)))
  ∧ LaneOp .vctz (fun o h l r => (h.V o.a.toNat l = 0 → r = 32)
      ∧ (h.V o.a.toNat l ≠ 0 → r.toNat < 32 ∧ (h.V o.a.toNat l).getLsbD r.toNat = true
          ∧ ∀ i, i < r.toNat → (h.V o.a.toNat l).getLsbD i = false))
  ∧ LaneOp .vbrev (fun o h l r => ∀ i, i < 32 → r.getLsbD i = (h.V o.a.toNat l).getLsbD (31 - i))
  ∧ LaneOp .vrev8 (fun o h l r => ∀ k, k < 4 → elem 8 k r = elem 8 (3 - k) (h.V o.a.toNat l))
  ∧ LaneOp .vabs (fun o h l r => ∀ k, k < 32 / bitsOfType (tyOf o 5) →
      elem (bitsOfType (tyOf o 5)) k r =
        if elem (bitsOfType (tyOf o 5)) k (h.V o.a.toNat l) = 2 ^ (bitsOfType (tyOf o 5) - 1)
        then (if o.sat then 2 ^ (bitsOfType (tyOf o 5) - 1) - 1 else 2 ^ (bitsOfType (tyOf o 5) - 1))
        else (intOf true (bitsOfType (tyOf o 5)) (elem (bitsOfType (tyOf o 5)) k (h.V o.a.toNat l))).natAbs)
  ∧ (∀ c ∈ ([Instr.vand, Instr.vor, Instr.vxor, Instr.vandn, Instr.vorn, Instr.vxnor, Instr.vnot, Instr.vsll,
      Instr.vsrl, Instr.vsra, Instr.vsel, Instr.vmov, Instr.vmbit, Instr.vlid, Instr.vpopc, Instr.vclz, Instr.vctz,
      Instr.vbrev, Instr.vrev8, Instr.vabs] : List (Args → Instr)), IllegalElse c))

/-- R110, R111, R113: shuffles read their source in any lane, active or not; `vmatch` names the active lanes with the same
bits. -/
def Obligations.LaneShuffles : Prop :=
  LaneOp .vshfl (fun o h l r => r = h.V o.a.toNat ((h.V o.b.toNat l).toNat % 32))
  ∧ LaneOp .vrotl (fun o h l r => r = h.V o.a.toNat ((l + o.w2.toNat) % 32))
  ∧ LaneOp .vslup (fun o h l r => r = h.V o.a.toNat (if l < o.w2.toNat then l else l - o.w2.toNat))
  ∧ LaneOp .vsldn (fun o h l r => r = h.V o.a.toNat (if l + o.w2.toNat > 31 then l else l + o.w2.toNat))
  ∧ LaneOp .vbfly (fun o h l r => r = h.V o.a.toNat (l ^^^ o.imm.toNat))
  ∧ LaneOp .vmatch (fun o h l r => ∀ j, j < 32 →
      r.getLsbD j = (decide (j ∈ active h o) && h.V o.a.toNat j == h.V o.a.toNat l))
  ∧ (∀ c ∈ ([Instr.vshfl, Instr.vrotl, Instr.vslup, Instr.vsldn, Instr.vbfly, Instr.vmatch] : List (Args → Instr)),
      IllegalElse c)

/-- R112, R116: votes and moves from lanes write the whole scalar register; `vext`, `vextx` and `vext64` read their lane
whether or not it is active. Broadcasts of a scalar register or a literal into active lanes, and the insertion of one lane if
it is active. -/
def Obligations.LanesAndScalars : Prop :=
  (ScalarOp false .vballot (fun o h w => ∀ l, l < 64 → w.getLsbD l = (decide (l ∈ active h o) && h.V o.a.toNat l != 0))
  ∧ ScalarOp false .vany (fun o h w => w = if ∃ l ∈ active h o, h.V o.a.toNat l ≠ 0 then 1 else 0)
  ∧ ScalarOp false .vall (fun o h w => w = if ∀ l ∈ active h o, h.V o.a.toNat l ≠ 0 then 1 else 0)
  ∧ ScalarOp false .vcnt (fun o h w => w.toNat = ((active h o).filter (fun l => h.V o.a.toNat l != 0)).length)
  ∧ ScalarOp false .vext (fun o h w => w = (h.V o.a.toNat o.w2.toNat).signExtend 64)
  ∧ ScalarOp false .vextx (fun o h w => w = (h.V o.a.toNat ((h.X o.b.toNat).toNat % 32)).signExtend 64)
  ∧ ScalarOp false .vext64 (fun o h w => w = h.V (o.a.toNat + 1) o.w2.toNat ++ h.V o.a.toNat o.w2.toNat))
  ∧ (LaneOp .vbcst (fun o h _ r => r = (if o.hasLit then o.lit else h.X o.b.toNat).setWidth 32)
  ∧ Completes .vbcst64 (fun o s t => RegisterFrame o.words s t ∧ KeepsX [] s t ∧ KeepsM [] s t ∧ t.me.fflags = s.me.fflags
      ∧ KeepsV (fun r l => (r = o.d.toNat ∨ r = o.d.toNat + 1) ∧ l ∈ active s.me o) s t
      ∧ ∀ l ∈ active s.me o, t.me.V64 o.d.toNat l = if o.hasLit then o.lit else s.me.X o.b.toNat)
  ∧ Completes .vins (fun o s t => RegisterFrame o.words s t ∧ KeepsX [] s t ∧ KeepsM [] s t ∧ t.me.fflags = s.me.fflags
      ∧ KeepsV (fun r l => r = o.d.toNat ∧ l = o.w2.toNat ∧ l ∈ active s.me o) s t
      ∧ (o.w2.toNat ∈ active s.me o → t.me.V o.d.toNat o.w2.toNat = (s.me.X o.b.toNat).setWidth 32))
  ∧ (∀ c ∈ ([Instr.vballot, Instr.vany, Instr.vall, Instr.vcnt, Instr.vext, Instr.vextx, Instr.vext64, Instr.vbcst,
      Instr.vbcst64, Instr.vins] : List (Args → Instr)), IllegalElse c))

/-- R102, R103, R104: float arithmetic and the fused forms: each element is computed alone and rounded once in the rounding
mode of the instruction. The unary float functions; `vfabs` and `vfneg` give the canonical NaN for a NaN and change only the
sign of anything else, and `vfclass` reads its input as stored. -/
def Obligations.LaneFloatFunctions : Prop :=
  (FloatOp .vfadd (fun o h l k => finish (Fp.fmtOf (tyOf o 7)) (RM h o) h.ftz o.sat (Fp.add (RM h o) (fval h (tyOf o 7) o.a.toNat k l)
    (Fp.decodeFtz (Fp.fmtOf (tyOf o 7)) h.ftz (elemB h o (immForm o) (bitsOfType (tyOf o 7)) k l))))
  ∧ FloatOp .vfsub (fun o h l k => finish (Fp.fmtOf (tyOf o 7)) (RM h o) h.ftz o.sat (Fp.add (RM h o) (fval h (tyOf o 7) o.a.toNat k l)
    (Fp.decodeFtz (Fp.fmtOf (tyOf o 7)) h.ftz (elemB h o (immForm o) (bitsOfType (tyOf o 7)) k l)).neg))
  ∧ FloatOp .vfmul (fun o h l k => finish (Fp.fmtOf (tyOf o 7)) (RM h o) h.ftz o.sat (Fp.mul (fval h (tyOf o 7) o.a.toNat k l)
    (Fp.decodeFtz (Fp.fmtOf (tyOf o 7)) h.ftz (elemB h o (immForm o) (bitsOfType (tyOf o 7)) k l))))
  ∧ FloatOp .vfdiv (fun o h l k => Fp.div (Fp.fmtOf (tyOf o 7)) (RM h o) h.ftz o.sat (fval h (tyOf o 7) o.a.toNat k l)
    (Fp.decodeFtz (Fp.fmtOf (tyOf o 7)) h.ftz (elemB h o (immForm o) (bitsOfType (tyOf o 7)) k l)))
  ∧ FloatOp .vfma (fun o h l k => finish (Fp.fmtOf (tyOf o 7)) (RM h o) h.ftz o.sat (Fp.fma (RM h o) (fval h (tyOf o 7) o.a.toNat k l)
    (fval h (tyOf o 7) o.b.toNat k l) (fval h (tyOf o 7) o.d.toNat k l)))
  ∧ FloatOp .vfma4 (fun o h l k => finish (Fp.fmtOf (tyOf o 7)) (RM h o) h.ftz o.sat (Fp.fma (RM h o) (fval h (tyOf o 7) o.a.toNat k l)
    (fval h (tyOf o 7) o.b.toNat k l) (fval h (tyOf o 7) o.w2.toNat k l)))
  ∧ FloatOp .vfms (fun o h l k => finish (Fp.fmtOf (tyOf o 7)) (RM h o) h.ftz o.sat (Fp.fma (RM h o) (fval h (tyOf o 7) o.a.toNat k l)
    (fval h (tyOf o 7) o.b.toNat k l) (fval h (tyOf o 7) o.d.toNat k l).neg))
  ∧ FloatOp .vfnma (fun o h l k => finish (Fp.fmtOf (tyOf o 7)) (RM h o) h.ftz o.sat (Fp.fma (RM h o) (fval h (tyOf o 7) o.a.toNat k l).neg
    (fval h (tyOf o 7) o.b.toNat k l) (fval h (tyOf o 7) o.d.toNat k l))))
  ∧ (FloatOp .vfsqrt (fun o h l k => Fp.sqrt (Fp.fmtOf (tyOf o 7)) (RM h o) h.ftz o.sat (fval h (tyOf o 7) o.a.toNat k l))
  ∧ FloatOp .vfrcp (fun o h l k => Fp.div (Fp.fmtOf (tyOf o 7)) (RM h o) h.ftz o.sat (.fin false 1 0) (fval h (tyOf o 7) o.a.toNat k l))
  ∧ FloatOp .vfrsqrt (fun o h l k => Fp.rsqrt (Fp.fmtOf (tyOf o 7)) (RM h o) h.ftz o.sat (fval h (tyOf o 7) o.a.toNat k l))
  ∧ FloatOp .vfexp2 (fun o h l k => Fp.exp2 (Fp.fmtOf (tyOf o 7)) (RM h o) h.ftz o.sat (fval h (tyOf o 7) o.a.toNat k l))
  ∧ FloatOp .vflog2 (fun o h l k => Fp.log2 (Fp.fmtOf (tyOf o 7)) (RM h o) h.ftz (fval h (tyOf o 7) o.a.toNat k l))
  ∧ FloatOp .vfrint (fun o h l k => Fp.rint (Fp.fmtOf (tyOf o 7)) (RM h o) (fval h (tyOf o 7) o.a.toNat k l))
  ∧ FloatOp .vfclass (fun o h l k => ⟨Fp.classify (Fp.fmtOf (tyOf o 7)) (elem (bitsOfType (tyOf o 7)) k (h.V o.a.toNat l)), 0⟩)
  ∧ FloatOp .vfabs (fun o h l k => match fval h (tyOf o 7) o.a.toNat k l with
      | .nan _ => ⟨(Fp.fmtOf (tyOf o 7)).canonNan, 0⟩
      | .inf _ => ⟨(Fp.fmtOf (tyOf o 7)).infMag, 0⟩
      | .fin _ m _ => ⟨if m = 0 then 0 else elem (bitsOfType (tyOf o 7)) k (h.V o.a.toNat l) % 2 ^ (bitsOfType (tyOf o 7) - 1), 0⟩)
  ∧ FloatOp .vfneg (fun o h l k => match fval h (tyOf o 7) o.a.toNat k l with
      | .nan _ => ⟨(Fp.fmtOf (tyOf o 7)).canonNan, 0⟩
      | .inf neg => ⟨Fp.withSign (Fp.fmtOf (tyOf o 7)) (!neg) (Fp.fmtOf (tyOf o 7)).infMag, 0⟩
      | .fin neg m _ => ⟨Fp.withSign (Fp.fmtOf (tyOf o 7)) (!neg)
          (if m = 0 then 0 else elem (bitsOfType (tyOf o 7)) k (h.V o.a.toNat l) % 2 ^ (bitsOfType (tyOf o 7) - 1)), 0⟩))

/-- R99: `vmin` and `vmax` of integers compare as the type reads them; of floats they are minimumNumber and maximumNumber. -/
def Obligations.LaneMinMax : Prop :=
  MinMaxOp .vmin true ∧ MinMaxOp .vmax false

/-- R107 to R109: conversions, the scale containers and scaled unpacking complete, and write only active lanes of the
destination; an element of a conversion between types of one width is Cvt of the same element, `vsclenc` keeps the half that
it does not name, and `vscldec` gives the value of the named container. -/
def Obligations.LaneConversions : Prop :=
  Completes .vcvt (fun o s t => LaneFrame true o s t
    ∧ (bitsOfType (Rows.cvtTypes o).1 = bitsOfType (Rows.cvtTypes o).2 → ∀ l ∈ active s.me o, ∀ k,
        k < 32 / bitsOfType (Rows.cvtTypes o).2 → elem (bitsOfType (Rows.cvtTypes o).2) k (t.me.V o.d.toNat l) =
          (cvtElem (Rows.cvtTypes o).1 (Rows.cvtTypes o).2 (RM s.me o) s.me.ftz o.sat
            (elem (bitsOfType (Rows.cvtTypes o).1) k (s.me.V o.a.toNat l))).bits % 2 ^ bitsOfType (Rows.cvtTypes o).2))
  ∧ Completes .vsclenc (fun o s t => LaneFrame true o s t
    ∧ ∀ l ∈ active s.me o, ∀ k, k < 2 → elem 16 k (t.me.V o.d.toNat l) =
        if k = o.w2.toNat then (Fp.toScale (RM s.me o) o.sat (Fp.decodeFtz Fp.f32 s.me.ftz (s.me.V o.a.toNat l).toNat)).bits % 2 ^ 16
        else elem 16 k (s.me.V o.d.toNat l))
  ∧ LaneOp .vscldec (fun o h l r => r = BitVec.ofNat 32 (match Fp.scaleOf (elem 16 o.w2.toNat (h.V o.a.toNat l)) with
      | .nan => Fp.f32.canonNan
      | .zero => 0
      | .val m e => (Fp.round Fp.f32 0 false false false m e).bits))
  ∧ Completes .vunpk (fun o s t => LaneFrame true o s t
    ∧ ∀ l ∈ active s.me o, ∀ k, k < 32 / bitsOfType (tyOf o 7) → elem (bitsOfType (tyOf o 7)) k (t.me.V o.d.toNat l) =
        (unpkElem (Fp.fmtOf (tyOf o 7)) (RM s.me o) s.me.ftz
          (unpkValue (if o.xop.toNat % 16 = 0 then 12 else o.xop.toNat % 16)
            (elem (bitsOfType (if o.xop.toNat % 16 = 0 then 12 else o.xop.toNat % 16))
              (if tyOf o 7 = 7 then bitsOf o.xop.toNat 6 4 else 2 * bitsOf o.xop.toNat 6 4 + k) (s.me.V o.a.toNat l)))
          (if bitOf o.xop.toNat 8 then Fp.Scale.val 1 0
           else Fp.scaleOf (elem 16 (if bitOf o.xop.toNat 7 then 1 else 0) (s.me.V o.b.toNat l)))).bits % 2 ^ bitsOfType (tyOf o 7))

/-- R105: A compare writes all 32 bits of its mask register: 1 for active lanes that meet the condition, 0 elsewhere; with m0 as its
destination it is illegal. Integers compare as the type's signedness reads them, FP32 by the IEEE conditions, with the flags
that they raise. Each of the eight completes wherever R87 and R36 let it issue. -/
def Obligations.LaneCompares : Prop :=
  CompareOp .vceq 0
  ∧ CompareOp .vcne 1
  ∧ CompareOp .vclt 2
  ∧ CompareOp .vcle 3
  ∧ CompareOp .vcgt 4
  ∧ CompareOp .vcge 5
  ∧ CompareOp .vcun 6
  ∧ CompareOp .vcor 7

/-- R114, R115: reductions over the active lanes into a scalar register: the exact integer sum wrapped or saturated once, and
the identity when no lane is active; a bitwise reduction has the bit that the active lanes make. Scans write active lanes
only; the inclusive and the exclusive integer sums are the exact sums of the active lanes up to the lane, with it or without
it, wrapped or saturated. -/
def Obligations.LaneReductionsAndScans : Prop :=
  (ScalarOp true .vredadd (fun o h w => (active h o = [] → w = 0) ∧ (tyOf o 5 ≠ 7 →
    w = redResult (tyOf o 5) (BitVec.ofNat 32 (narrow (isSigned (tyOf o 5)) o.sat 32
      ((active h o).map (fun l => intOf (isSigned (tyOf o 5)) 32 (h.V o.a.toNat l).toNat)).sum))))
  ∧ ScalarOp true .vredmin (fun o h w => (active h o = [] →
      w = redResult (tyOf o 5) (if tyOf o 5 = 7 then 0x7F800000 else if tyOf o 5 = 6 then 0xFFFFFFFF else 0x7FFFFFFF))
    ∧ (active h o ≠ [] → tyOf o 5 ≠ 7 → ∃ l ∈ active h o, w = redResult (tyOf o 5) (h.V o.a.toNat l) ∧ ∀ j ∈ active h o,
        intOf (isSigned (tyOf o 5)) 32 (h.V o.a.toNat l).toNat ≤ intOf (isSigned (tyOf o 5)) 32 (h.V o.a.toNat j).toNat))
  ∧ ScalarOp true .vredmax (fun o h w => (active h o = [] →
      w = redResult (tyOf o 5) (if tyOf o 5 = 7 then 0xFF800000 else if tyOf o 5 = 6 then 0 else 0x80000000))
    ∧ (active h o ≠ [] → tyOf o 5 ≠ 7 → ∃ l ∈ active h o, w = redResult (tyOf o 5) (h.V o.a.toNat l) ∧ ∀ j ∈ active h o,
        intOf (isSigned (tyOf o 5)) 32 (h.V o.a.toNat j).toNat ≤ intOf (isSigned (tyOf o 5)) 32 (h.V o.a.toNat l).toNat))
  ∧ ScalarOp true .vredand (fun o h w => ∀ b, b < 32 → w.getLsbD b = decide (∀ l ∈ active h o, (h.V o.a.toNat l).getLsbD b = true))
  ∧ ScalarOp true .vredor (fun o h w => ∀ b, b < 32 → w.getLsbD b = decide (∃ l ∈ active h o, (h.V o.a.toNat l).getLsbD b = true))
  ∧ ScalarOp true .vredxor (fun o h w => ∀ b, b < 32 →
      w.getLsbD b = decide (((active h o).filter (fun l => (h.V o.a.toNat l).getLsbD b)).length % 2 = 1)))
  ∧ (Completes .vpfxadd (fun o s t => LaneFrame true o s t ∧ (tyOf o 5 ≠ 7 → ∀ l ∈ active s.me o,
    t.me.V o.d.toNat l = BitVec.ofNat 32 (narrow (isSigned (tyOf o 5)) o.sat 32
      (((active s.me o).filter (fun j => j ≤ l)).map (fun j => intOf (isSigned (tyOf o 5)) 32 (s.me.V o.a.toNat j).toNat)).sum)))
  ∧ Completes .vpfxop (fun o s t => LaneFrame true o s t ∧ (o.xop = 4 → ∀ l ∈ active s.me o, ∀ b, b < 32 →
    (t.me.V o.d.toNat l).getLsbD b = decide (∃ j ∈ active s.me o, j ≤ l ∧ (s.me.V o.a.toNat j).getLsbD b = true)))
  ∧ Completes .vepfxop (fun o s t => LaneFrame true o s t ∧ (o.xop = 8 → tyOf o 5 ≠ 7 → ∀ l ∈ active s.me o,
    t.me.V o.d.toNat l = BitVec.ofNat 32 (narrow (isSigned (tyOf o 5)) o.sat 32
      (((active s.me o).filter (fun j => j < l)).map (fun j => intOf (isSigned (tyOf o 5)) 32 (s.me.V o.a.toNat j).toNat)).sum))))

/-! ### Masks, divergent regions and waits -/

/-- R120, R121, R128: mask logic and the moves between masks and scalar registers; `mffs` gives the lowest set bit, 32 for an
empty mask. The hart branches on a mask test the lanes of m0; a taken branch goes to the pc plus four times the immediate. -/
def Obligations.MaskMovesAndBranches : Prop :=
  (MaskLogic .mand (fun a b => a &&& b) ∧ MaskLogic .mor (fun a b => a ||| b) ∧ MaskLogic .mxor (fun a b => a ^^^ b)
  ∧ MaskLogic .mandn (fun a b => a &&& ~~~ b) ∧ MaskLogic .morn (fun a b => a ||| ~~~ b)
  ∧ MaskLogic .mxnor (fun a b => ~~~ (a ^^^ b)) ∧ MaskLogic .mmov (fun a _ => a)
  ∧ Completes .mset (fun o s t => MaskFrame false o s t ∧ t.me.M o.d.toNat = o.w2)
  ∧ Completes .mfx (fun o s t => MaskFrame false o s t ∧ t.me.M o.d.toNat = (s.me.X o.a.toNat).setWidth 32)
  ∧ ScalarOp false .mtx (fun o h w => w = (h.M o.a.toNat).setWidth 64)
  ∧ ScalarOp false .mpopc (fun o h w => w.toNat = ((List.range 32).filter (fun i => (h.M o.a.toNat).getLsbD i)).length)
  ∧ ScalarOp false .mffs (fun o h w => (h.M o.a.toNat = 0 → w = 32) ∧ (h.M o.a.toNat ≠ 0 → w.toNat < 32
      ∧ (h.M o.a.toNat).getLsbD w.toNat = true ∧ ∀ i, i < w.toNat → (h.M o.a.toNat).getLsbD i = false))
  ∧ (MaskBranch .mbz (fun m c => m &&& c == 0) ∧ MaskBranch .mbnz (fun m c => m &&& c != 0)
    ∧ MaskBranch .mball (fun m c => m &&& ~~~ c == 0) ∧ MaskBranch .mbnall (fun m c => m &&& ~~~ c != 0))
  ∧ (∀ c ∈ ([Instr.mand, Instr.mor, Instr.mxor, Instr.mandn, Instr.morn, Instr.mxnor, Instr.mmov, Instr.mset, Instr.mfx,
      Instr.mtx, Instr.mpopc, Instr.mffs, Instr.mbz, Instr.mbnz, Instr.mball, Instr.mbnall] : List (Args → Instr)),
      IllegalElse c))

/-- R122, R123, R124: `lif` and `lifn` push an entry for the lanes that go first, with the others pending; `lelse` and `ljoin`
start the pending path of the branch on top, or leave it. -/
def Obligations.BranchRegions : Prop :=
  BranchOp .lif false ∧ BranchOp .lifn true
  ∧ (∀ e below, (e.kind = 1 ∨ e.kind = 2) →
    CompletesIf .lelse (fun _ s => s.stackOf = e :: below) (fun _ s t => StackFrame s t ∧
      if e.kind = 1 ∧ e.ppc ≠ 0 ∧ parentMask below &&& ~~~ e.mask ≠ 0 then
        t.stackOf = { mask := parentMask below &&& ~~~ e.mask, kind := 2, rpc := e.rpc, ppc := 0 } :: below ∧ t.me.pc = e.ppc
      else t.stackOf = e :: below ∧ t.me.pc = e.rpc)
    ∧ CompletesIf .ljoin (fun _ s => s.stackOf = e :: below) (fun o s t => StackFrame s t ∧
      if e.kind = 1 ∧ e.ppc ≠ 0 ∧ parentMask below &&& ~~~ e.mask ≠ 0 then
        t.stackOf = { mask := parentMask below &&& ~~~ e.mask, kind := 2, rpc := e.rpc, ppc := 0 } :: below ∧ t.me.pc = e.ppc
      else settle below (s.me.pc + BitVec.ofNat 64 (4 * o.words)) = .ok t.stackOf t.me.pc))

/-- R125: `lloop` pushes a LOOP entry with the current mask, and leaves at once for an empty one; `lbrk` and `lcont` on a LOOP
entry take lanes out of it, and end it or go round again. -/
def Obligations.LoopRegions : Prop :=
  CompletesIf .lloop (fun _ s => s.stackOf.length < 80) (fun o s t => StackFrame s t ∧
      let next := s.me.pc + BitVec.ofNat 64 (4 * o.words)
      let exit := s.me.pc + 4 * (o.w2.signExtend 64)
      if topMask s.stackOf = 0 then t.stackOf = s.stackOf ∧ t.me.pc = exit
      else t.stackOf = { mask := topMask s.stackOf, kind := 3, rpc := exit, ppc := next } :: s.stackOf ∧ t.me.pc = next)
  ∧ (∀ e below, e.kind = 3 →
    CompletesIf .lbrk (fun _ s => s.stackOf = e :: below) (fun o s t => StackFrame s t ∧
      let rest := e.mask &&& ~~~ s.me.M o.a.toNat
      if rest = 0 then t.stackOf = below ∧ t.me.pc = e.rpc
      else t.stackOf = { e with mask := rest } :: below ∧ t.me.pc = s.me.pc + BitVec.ofNat 64 (4 * o.words))
    ∧ CompletesIf .lcont (fun _ s => s.stackOf = e :: below) (fun o s t => StackFrame s t ∧
      let again := e.mask &&& s.me.M o.a.toNat
      if again = 0 then settle below e.rpc = .ok t.stackOf t.me.pc
      else t.stackOf = { e with mask := again } :: below ∧ t.me.pc = e.ppc))

/-- R127, R40, R122: reading and writing the mask stack by entry number, pushing, popping and the depth. A push at depth 80
takes cause 27 with `stval` 1; a step on an entry that the stack does not have takes cause 27 with `stval` 2. -/
def Obligations.MaskStackFunctions : Prop :=
  (CompletesIf .msPush (fun _ s => s.stackOf.length < 80) (fun o s t => StackFrame s t
    ∧ t.stackOf = { mask := topMask s.stackOf &&& s.me.M o.a.toNat, kind := 4, rpc := 0, ppc := 0 } :: s.stackOf
    ∧ t.me.pc = s.me.pc + BitVec.ofNat 64 (4 * o.words))
  ∧ CompletesIf .msPop (fun _ s => s.stackOf ≠ []) (fun o s t => StackFrame s t ∧ t.stackOf = s.stackOf.tail
    ∧ t.me.pc = s.me.pc + BitVec.ofNat 64 (4 * o.words))
  ∧ ScalarOp false .msDepth (fun _ h w => w = BitVec.ofNat 64 h.depth)
  ∧ StackRead .msRdm (fun e => (e.kind.setWidth 64 <<< 32) ||| e.mask.setWidth 64) ∧ StackRead .msRdr MaskEntry.rpc
  ∧ StackRead .msRdp MaskEntry.ppc
  ∧ (∀ e : MaskEntry, CompletesIf .msWrm (fun o s => s.stackOf[(s.me.X o.a.toNat).toNat]? = some e
        ∧ 1 ≤ (s.me.X o.d.toNat).toNat / 2 ^ 32 ∧ (s.me.X o.d.toNat).toNat / 2 ^ 32 ≤ 4)
      (fun o s t => StackFrame s t ∧ t.stackOf = s.stackOf.set (s.me.X o.a.toNat).toNat
          { e with mask := (s.me.X o.d.toNat).setWidth 32, kind := (s.me.X o.d.toNat).extractLsb' 32 8 }
        ∧ t.me.pc = s.me.pc + BitVec.ofNat 64 (4 * o.words)))
  ∧ (∀ o s, Machine.guard (.msWrm o) s.me = true → ((s.me.X o.d.toNat).toNat / 2 ^ 32 < 1 ∨ 4 < (s.me.X o.d.toNat).toNat / 2 ^ 32) →
      exec (.msWrm o) s = illegal (.msWrm o) s)
  ∧ StackWrite .msWrr (fun w e => { e with rpc := w &&& ~~~ 3#64 })
  ∧ StackWrite .msWrp (fun w e => { e with ppc := w &&& ~~~ 3#64 }))
  ∧ ((∀ c ∈ [Instr.lif, Instr.lifn, Instr.msPush], ∀ o s, Machine.guard (c o) s.me = true → 80 ≤ s.stackOf.length →
    exec (c o) s = trap 27 1 s)
  ∧ (∀ c ∈ [Instr.lelse, Instr.ljoin, Instr.lbrk, Instr.lcont, Instr.msPop], ∀ o s, Machine.guard (c o) s.me = true →
    s.stackOf = [] → exec (c o) s = trap 27 2 s)
  ∧ (∀ c ∈ [Instr.msRdm, Instr.msRdr, Instr.msRdp, Instr.msWrr, Instr.msWrp], ∀ o s, Machine.guard (c o) s.me = true →
    s.stackOf.length ≤ (s.me.X o.a.toNat).toNat → exec (c o) s = trap 27 2 s))

/-- R83, R129, R130: `pause` begins an interval; a `yield` that issues for the first time waits at its pc with the clk of that issue,
and one that issues again after its wait ends; `dfwait` and a clause header go on when none of the done flags they name is set, and
the header, which then sets the attachment, waits while one is. That a `yield` issues twice is the model's reading (log 2). -/
def Obligations.WaitsAndHeaders : Prop :=
  Completes .pause (fun o s t => OnlyMe s t ∧ SameMemory s t ∧ t.me = { s.me with
      pauseEnd := if o.d.toNat * 64 + o.a.toNat = 0 then s.me.pauseEnd else s.cycle + (o.d.toNat * 64 + o.a.toNat)
      pauseLen := if o.d.toNat * 64 + o.a.toNat = 0 then s.me.pauseLen else o.d.toNat * 64 + o.a.toNat
      pc := s.me.pc + BitVec.ofNat 64 (4 * o.words), instret := s.me.instret + 1, wait := {}, passed := false })
  ∧ CompletesIf .yield (fun _ s => s.me.inLine 11 = true) (fun o s t => OnlyMe s t ∧ SameMemory s t ∧ t.me = { s.me with
      pc := s.me.pc + BitVec.ofNat 64 (4 * o.words), instret := s.me.instret + 1, wait := {}, passed := false })
  ∧ (∀ o s, Machine.guard (.yield o) s.me = true → s.me.inLine 11 = false →
      exec (.yield o) s = .next (s.onMe (fun h => h.block 11 (BitVec.ofNat 64 s.cycle))))
  ∧ CompletesIf .dfwait (fun o s => ∀ n, n < 12 → (if n < 6 then o.a.getLsbD n else o.d.getLsbD (n - 6)) = true → s.me.doneFlag n = false)
      (fun o s t => RegisterFrame o.words s t ∧ KeepsX [] s t ∧ KeepsM [] s t ∧ KeepsV (fun _ _ => False) s t
        ∧ t.me.fflags = s.me.fflags)
  ∧ (∀ wait fa fb s, (∀ n, n < 12 → wait.getLsbD n = true → s.me.doneFlag n = false) →
      ∃ t, exec (.clh wait fa fb) s = .next t ∧ OnlyMe s t ∧ SameMemory s t ∧ t.me = { s.me with
        att := { fa, fb }, pc := s.me.pc + 4, instret := s.me.instret + 1, wait := {}, passed := false })
  ∧ (∀ wait fa fb s n, n < 12 → wait.getLsbD n = true → s.me.doneFlag n = true →
      exec (.clh wait fa fb) s = .next (s.onMe (fun h => h.block 1 (wait.setWidth 64))))

/-! ### Standard instructions -/

/-- R3, R89, R90: A standard computing instruction writes its result to rd, or nothing where rd is x0, and changes nothing
else. The multiply and divide operations of the M extension in bit-vector terms: high halves of products, division by zero and
the overflow of a signed division, at 64 and at 32 bits. -/
def Obligations.StandardComputing : Prop :=
  ((∀ rd k s, ∃ t, exec (.standardInstruction (.lui rd k)) s = .next t
    ∧ WritesX 1 rd.toNat ((k ++ (0 : BitVec 12)).signExtend 64) s t)
  ∧ (∀ rd k s, ∃ t, exec (.standardInstruction (.auipc rd k)) s = .next t
    ∧ WritesX 1 rd.toNat (s.me.pc + (k ++ (0 : BitVec 12)).signExtend 64) s t)
  ∧ (∀ op rd a k s, ∃ t, exec (.standardInstruction (.imm op rd a k)) s = .next t
    ∧ WritesX 1 rd.toNat (immOp op (s.me.X a.toNat) (k.signExtend 64)) s t)
  ∧ (∀ op rd a n s, ∃ t, exec (.standardInstruction (.sh op rd a n)) s = .next t
    ∧ WritesX 1 rd.toNat (shOp op (s.me.X a.toNat) n.toNat) s t)
  ∧ (∀ op rd a b s, ∃ t, exec (.standardInstruction (.reg op rd a b)) s = .next t
    ∧ WritesX 1 rd.toNat (regOp op (s.me.X a.toNat) (s.me.X b.toNat)) s t)
  ∧ (∀ op rd a s, ∃ t, exec (.standardInstruction (.un op rd a)) s = .next t
    ∧ WritesX 1 rd.toNat (unOp op (s.me.X a.toNat)) s t))
  ∧ (∀ a b : W64,
  regOp .mulhu a b = (a.setWidth 128 * b.setWidth 128).extractLsb' 64 64
  ∧ regOp .mulh a b = (a.signExtend 128 * b.signExtend 128).extractLsb' 64 64
  ∧ regOp .mulhsu a b = (a.signExtend 128 * b.setWidth 128).extractLsb' 64 64
  ∧ regOp .divu a b = (if b = 0 then -1 else a / b) ∧ regOp .remu a b = (if b = 0 then a else a % b)
  ∧ regOp .div a b = (if b = 0 then -1 else a.sdiv b) ∧ regOp .rem a b = (if b = 0 then a else a.srem b)
  ∧ regOp .divuw a b = (if b.setWidth 32 = (0 : W32) then -1 else (a.setWidth 32 / b.setWidth 32 : W32).signExtend 64)
  ∧ regOp .divw a b = (if b.setWidth 32 = (0 : W32) then -1 else ((a.setWidth 32 : W32).sdiv (b.setWidth 32)).signExtend 64))

/-- R89: jumps and branches: a target that is a multiple of 4 is where control goes, with the next pc in rd; any other target
takes the misaligned-fetch exception with the target in the trap value and writes nothing. `sfence.vma` drops the core's own
translations, and those of its cluster for the hart's context. -/
def Obligations.JumpsAndBranches : Prop :=
  (∀ s, ∀ p ∈ [(fun (rd : BitVec 5) (_ : BitVec 5) (off : BitVec 20) (_ : BitVec 12) =>
          (RvOp.jal rd off, s.me.pc + (off ++ (0 : BitVec 1)).signExtend 64)),
        (fun (rd rs1 : BitVec 5) (_ : BitVec 20) (k : BitVec 12) =>
          (RvOp.jalr rd rs1 k, (s.me.X rs1.toNat + k.signExtend 64) &&& ~~~ 1#64))], ∀ rd rs1 off k,
      ((p rd rs1 off k).2.toNat % 4 = 0 → ∃ t, exec (.standardInstruction (p rd rs1 off k).1) s = .next t
        ∧ OnlyMe s t ∧ SameMemory s t ∧ KeepsX [rd.toNat] s t ∧ (rd ≠ 0 → t.me.X rd.toNat = s.me.pc + 4)
        ∧ t.me = { s.me with x := t.me.x, pc := (p rd rs1 off k).2, instret := s.me.instret + 1, wait := {}, passed := false })
      ∧ ((p rd rs1 off k).2.toNat % 4 ≠ 0 → exec (.standardInstruction (p rd rs1 off k).1) s = trap 0 (p rd rs1 off k).2 s))
  ∧ (∀ c a b off s,
      let taken := match c with
        | .eq => decide (s.me.X a.toNat = s.me.X b.toNat)
        | .ne => decide (s.me.X a.toNat ≠ s.me.X b.toNat)
        | .lt => decide ((s.me.X a.toNat).toInt < (s.me.X b.toNat).toInt)
        | .ge => decide ((s.me.X b.toNat).toInt ≤ (s.me.X a.toNat).toInt)
        | .ltu => decide ((s.me.X a.toNat).toNat < (s.me.X b.toNat).toNat)
        | .geu => decide ((s.me.X b.toNat).toNat ≤ (s.me.X a.toNat).toNat)
      let target := if taken then s.me.pc + (off ++ (0 : BitVec 1)).signExtend 64 else s.me.pc + 4
      ((taken = false ∨ target.toNat % 4 = 0) → ∃ t, exec (.standardInstruction (.branch c a b off)) s = .next t
        ∧ OnlyMe s t ∧ SameMemory s t
        ∧ t.me = { s.me with pc := target, instret := s.me.instret + 1, wait := {}, passed := false })
      ∧ (taken = true → target.toNat % 4 ≠ 0 → exec (.standardInstruction (.branch c a b off)) s = trap 0 target s))
  ∧ (∀ a b s, (s.me.mode = .m ∨ (s.me.mode = .s ∧ s.me.csr.mstatus.getLsbD 20 = false)) →
      ∃ t, exec (.standardInstruction (.sfenceVma a b)) s = .next t ∧ FallsThrough 1 s t ∧ KeepsX [] s t ∧ SameMemory s t
        ∧ t.core s.myCore = { s.core s.myCore with l1tlb := [] } ∧ (∀ c, c ≠ s.myCore → t.core c = s.core c)
        ∧ t.cluster (clusterOf s.myCore) = { s.cluster (clusterOf s.myCore) with
            tlb := (s.cluster (clusterOf s.myCore)).tlb.filter (fun e => e.pasid != ctxOf s s.cur) })

/-- R89, R164, R326: A standard load whose address is placed brings the value that its hart reads there, widened by its sign;
a standard store leaves every byte of every other location as it was and makes its hart read its bytes. One that is not
naturally aligned takes the misaligned exception, cause 4 or 6, with its address. -/
def Obligations.StandardLoadsAndStores : Prop :=
  ∀ op r rs1 imm s,
    let i := Instr.standardAccess op r rs1 imm
    let job := stdJob op r rs1 imm s.me
    let va := s.me.X rs1.toNat + imm.signExtend 64
    let n := (memOpShape op).1
    (∀ l, Placed s job → inDomain va = false → s.reach s.cur va n job.kind = .here l → l.isDmi = false → s.me.ops = [] → NothingFirst s job [l] →
      (op.isStore = false → ∃ t, exec i s = .next t ∧ FallsThrough 1 s t ∧ SameStored s t
        ∧ KeepsX [r.toNat] s t ∧ KeepsM [] s t ∧ KeepsV (fun _ _ => False) s t ∧ (∀ h, h ≠ s.cur → t.hart h = s.hart h)
        ∧ t.me.ops = []
        ∧ (r ≠ 0 → t.me.X r.toNat = extend (memOpShape op).2 n (s.readElem s.cur s.me.tag va l n)))
      ∧ (op.isStore = true → s.me.tag = 0 → ∃ t, exec i s = .next t ∧ FallsThrough 1 s t ∧ OnlyMe s t
        ∧ KeepsX [] s t ∧ KeepsM [] s t ∧ KeepsV (fun _ _ => False) s t
        ∧ (∀ k, k < n → t.readByte s.cur 0 (l.plus k) = BitVec.ofNat 8 ((s.me.X r.toNat).toNat / 256 ^ k))
        ∧ (∀ h tag loc, (h = s.cur → ∀ k, k < n → loc ≠ l.plus k) → t.readByte h tag loc = s.readByte h tag loc)))
    ∧ (s.me.ordered = false → s.me.conflicts job = false → va.toNat % n ≠ 0 →
        exec i s = trap (if op.isStore then 6 else 4) va s)

/-- R89, R179: `lr` reserves what it loads; `sc` on a standing reservation of the granule stores and answers 0, and otherwise
leaves memory alone and answers 1; an AMO gives the old value and leaves the new one of its operation. The forms without `aq`
and `rl` are stated on a location of the hart's own TCM, where no cache stands between. -/
def Obligations.ReservationsAndAmos : Prop :=
  (∀ (o : AmoArgs) (s : State) off, o.aq = false → o.rl = false → s.me.ordered = false → s.me.ops = [] →
    inLocal (s.me.X o.rs1.toNat) = true → (s.me.X o.rs1.toNat).toNat % (if o.dbl then 8 else 4) = 0 →
    s.localAt s.cur (s.me.X o.rs1.toNat) (if o.dbl then 8 else 4) false true = some ⟨.tcm s.myCore, off⟩ →
    s.localAt s.cur (s.me.X o.rs1.toNat) (if o.dbl then 8 else 4) false false = some ⟨.tcm s.myCore, off⟩ →
      (∃ t, exec (.lr o) s = .next t ∧ FallsThrough 1 s t ∧ KeepsX [o.rd.toNat] s t ∧ SameStored s t
        ∧ t.me.reservation = some ⟨⟨.tcm s.myCore, off⟩, if o.dbl then 8 else 4⟩
        ∧ (o.rd ≠ 0 → t.me.X o.rd.toNat = extend true (if o.dbl then 8 else 4)
            (leNat ((s.core s.myCore).tcm.readBytes off (if o.dbl then 8 else 4)))))
      ∧ ((∀ r, s.me.reservation = some r → r.covers ⟨.tcm s.myCore, off⟩ = false) →
          ∃ t, exec (.sc o) s = .next t ∧ FallsThrough 1 s t ∧ KeepsX [o.rd.toNat] s t ∧ SameStored s t
            ∧ t.me.reservation = none ∧ (o.rd ≠ 0 → t.me.X o.rd.toNat = 1))
      ∧ (∀ r, s.me.reservation = some r → r.covers ⟨.tcm s.myCore, off⟩ = true →
          ∃ t, exec (.sc o) s = .next t ∧ FallsThrough 1 s t ∧ KeepsX [o.rd.toNat] s t ∧ t.me.reservation = none
            ∧ (o.rd ≠ 0 → t.me.X o.rd.toNat = 0)
            ∧ (t.core s.myCore).tcm.readBytes off (if o.dbl then 8 else 4)
                = leBytes (if o.dbl then 8 else 4) (s.me.X o.rs2.toNat).toNat
            ∧ (∀ tag loc, (∀ k, k < (if o.dbl then 8 else 4) → loc ≠ ⟨.tcm s.myCore, off + k⟩) →
                t.latest tag loc 1 = s.latest tag loc 1))
      ∧ (∀ op, ∃ t, exec (.amo op o) s = .next t ∧ FallsThrough 1 s t ∧ KeepsX [o.rd.toNat] s t
          ∧ (o.rd ≠ 0 → t.me.X o.rd.toNat = extend true (if o.dbl then 8 else 4)
              (leNat ((s.core s.myCore).tcm.readBytes off (if o.dbl then 8 else 4))))
          ∧ (t.core s.myCore).tcm.readBytes off (if o.dbl then 8 else 4) = leBytes (if o.dbl then 8 else 4)
              (amoNew (amoCode op) (if o.dbl then 8 else 4)
                (leNat ((s.core s.myCore).tcm.readBytes off (if o.dbl then 8 else 4)))
                ((s.me.X o.rs2.toNat).toNat % 2 ^ (8 * (if o.dbl then 8 else 4))) 0).1
          ∧ (∀ tag loc, (∀ k, k < (if o.dbl then 8 else 4) → loc ≠ ⟨.tcm s.myCore, off + k⟩) →
              t.latest tag loc 1 = s.latest tag loc 1)))

/-- R44, R45, R6, R36, R61: A CSR instruction gives the old value and leaves the new one in the fields that the register has:
bits that a register does not have read zero afterwards. An access from a lower mode than the number's, or to a number that
the hart does not have, is illegal. The four user CSRs with effects of their own: `lfcsr` sets the flags, the rounding mode
and `ftz`; `dflags` reads the done flags, and a drain holds the hart while one is set; `msdepth` discards the entries above
the depth written; `regwin` sets the window, and the registers that it takes away lose their contents. -/
def Obligations.CsrAccess : Prop :=
  ((∀ (o : CsrArgs) (s : State) old, csrAllowed o s.me = true → csrValue s o.csr.toNat = some old → csrWrites o = false →
    ∃ t, exec (.csrWrite o) s = .next t ∧ WritesX 1 o.rd.toNat old s t)
  ∧ (∀ p ∈ ([(0x804, 0), (0x805, 3), (0x105, 2), (0x140, 0), (0x141, 3), (0x142, 0), (0x143, 0), (0x305, 2), (0x340, 0),
        (0x341, 3), (0x342, 0), (0x343, 0), (0x302, 0xFFFFFFFF00FF4C00)] : List (Nat × Nat)),
      ∀ (o : CsrArgs) (s : State) old, o.csr.toNat = p.1 → s.me.tinker = true → csrAllowed o s.me = true →
        csrValue s p.1 = some old → csrWrites o = true →
        ∃ t, exec (.csrWrite o) s = .next t ∧ FallsThrough 1 s t ∧ OnlyMe s t ∧ SameMemory s t ∧ KeepsX [o.rd.toNat] s t
          ∧ KeepsM [] s t ∧ KeepsV (fun _ _ => False) s t
          ∧ (o.rd ≠ 0 → t.me.X o.rd.toNat = old)
          ∧ csrValue t p.1 = some (csrNew o s.me old &&& ~~~ BitVec.ofNat 64 p.2))
  ∧ (∀ (o : CsrArgs) (s : State), (s.me.mode.code < bitsOf o.csr.toNat 9 8 ∨ csrValue s o.csr.toNat = none) →
      exec (.csrWrite o) s = illegal (.csrWrite o) s))
  ∧ ((∀ (o : CsrArgs) (s : State), o.csr = 0x800 → s.me.tinker = false → s.me.ops = [] → s.me.oplog = [] → csrWrites o = true →
    ∃ t, exec (.lfcsrAccess o) s = .next t ∧ FallsThrough 1 s t ∧ OnlyMe s t ∧ SameMemory s t ∧ KeepsX [o.rd.toNat] s t
      ∧ (o.rd ≠ 0 → t.me.X o.rd.toNat = s.me.lfcsr)
      ∧ t.me.lfcsr = csrNew o s.me s.me.lfcsr &&& 0x1FF)
  ∧ (∀ (o : CsrArgs) (s : State), o.csr = 0x801 → s.me.doneFlags = 0 →
    ∃ t, exec (.dflagsDrain o) s = .next t ∧ WritesX 1 o.rd.toNat 0 s t)
  ∧ (∀ (o : CsrArgs) (s : State), o.csr = 0x801 → csrWrites o = true → s.me.doneFlags ≠ 0 →
      (csrNew o s.me (s.me.doneFlags.setWidth 64)).getLsbD 12 = true →
      exec (.dflagsDrain o) s = .next (s.onMe (fun x => x.block 13)))
  ∧ (∀ (o : CsrArgs) (s : State), o.csr = 0x802 → s.me.tinker = false → csrWrites o = true →
      bitsOf (csrNew o s.me (BitVec.ofNat 64 s.me.depth)).toNat 6 0 ≤ s.stackOf.length →
      ∃ t, exec (.msdepthWrite o) s = .next t ∧ FallsThrough 1 s t ∧ KeepsX [o.rd.toNat] s t
        ∧ t.stackOf = s.stackOf.drop (s.stackOf.length - bitsOf (csrNew o s.me (BitVec.ofNat 64 s.me.depth)).toNat 6 0)
        ∧ (o.rd ≠ 0 → t.me.X o.rd.toNat = BitVec.ofNat 64 s.me.depth))
  ∧ (∀ (o : CsrArgs) (s : State) n, o.csr = 0x803 → s.me.tinker = false → csrWrites o = true → s.me.ops = [] → s.me.oplog = [] →
      n = bitsOf (csrNew o s.me (BitVec.ofNat 64 (s.me.window / 16))).toNat 4 0 → 1 ≤ n → n ≤ 16 → 16 * n ≤ s.me.window →
      ∃ t, exec (.regwinWrite o) s = .next t ∧ FallsThrough 1 s t ∧ OnlyMe s t ∧ SameMemory s t ∧ KeepsX [o.rd.toNat] s t
        ∧ t.me.window = 16 * n ∧ (o.rd ≠ 0 → t.me.X o.rd.toNat = BitVec.ofNat 64 (s.me.window / 16))
        ∧ (∀ r l, l < 32 → t.me.V r l = if r < 16 * n then s.me.V r l else 0)))

/-- R47, R84, R89: an exception delegated to S mode saves the pc, the cause and the trap value, puts the old mode and
interrupt enable into SPP and SPIE and clears SIE, goes to the base of the vector in S mode, saves the attachment in S mode's
hidden copy and clears it, loses the reservation, cuts off a release or a `pause` interval that is under way, and leaves every
other register, lane, mask and byte as it was. -/
def Obligations.TrapIntoSupervisor : Prop :=
  ∀ (s : State) (cause : Nat) (tval : W64), cause < 2 ^ 63 → s.me.mode ≠ .m → s.me.inShadow = false →
    s.me.csr.medeleg.getLsbD cause = true →
    ∃ t, trap cause tval s = .next t ∧ t.trapped = true ∧ t = { s with harts := t.harts, trapped := true }
      ∧ (∀ h, h ≠ s.cur → t.hart h = s.hart h) ∧ SameMemory s t
      ∧ t.me = { s.me with
          csr := { s.me.csr with mstatus := t.me.csr.mstatus, sepc := s.me.pc, scause := BitVec.ofNat 64 cause, stval := tval }
          pc := s.me.csr.stvec &&& ~~~ 3#64, mode := .s, attS := s.me.att, att := {}, reservation := none, wait := {}
          rel := none, noSpace := false, pauseS := (if s.cycle < s.me.pauseEnd then s.me.pauseLen else 0) :: s.me.pauseS, pauseLen := 0, pauseEnd := 0 }
      ∧ t.me.csr.mstatus.getLsbD 8 = (s.me.mode == .s) ∧ t.me.csr.mstatus.getLsbD 5 = s.me.csr.mstatus.getLsbD 1
      ∧ t.me.csr.mstatus.getLsbD 1 = false
      ∧ (∀ b, b ≠ 1 → b ≠ 5 → b ≠ 8 → t.me.csr.mstatus.getLsbD b = s.me.csr.mstatus.getLsbD b)

/-- R47, R84, R278: any other exception goes to M mode in the same way; on a compute hart, other than an environment call from
S mode, it makes the monitor kill the hart's context at the end of the step. That the context is killed at the end of the step
is the model's choice (log 37). -/
def Obligations.TrapIntoMachine : Prop :=
  ∀ (s : State) (cause : Nat) (tval : W64), cause < 2 ^ 63 →
    (s.me.mode = .m ∨ s.me.inShadow = true ∨ s.me.csr.medeleg.getLsbD cause = false) →
    ∃ t, trap cause tval s = .next t ∧ t = { s with harts := t.harts, trapped := true, doomed := t.doomed }
      ∧ (∀ h, h ≠ s.cur → t.hart h = s.hart h) ∧ SameMemory s t
      ∧ t.me = { s.me with
          csr := { s.me.csr with mstatus := t.me.csr.mstatus, mepc := s.me.pc, mcause := BitVec.ofNat 64 cause, mtval := tval }
          pc := s.me.csr.mtvec &&& ~~~ 3#64, mode := .m, attM := s.me.att, att := {}, reservation := none, wait := {}
          rel := none, noSpace := false, pauseM := (if s.cycle < s.me.pauseEnd then s.me.pauseLen else 0) :: s.me.pauseM, pauseLen := 0, pauseEnd := 0 }
      ∧ bitsOf t.me.csr.mstatus.toNat 12 11 = s.me.mode.code
      ∧ t.me.csr.mstatus.getLsbD 7 = s.me.csr.mstatus.getLsbD 3 ∧ t.me.csr.mstatus.getLsbD 3 = false
      ∧ (∀ b, b ≠ 3 → b ≠ 7 → b ≠ 11 → b ≠ 12 → t.me.csr.mstatus.getLsbD b = s.me.csr.mstatus.getLsbD b)
      ∧ (∀ p, s.me.tinker = false → (cause ≠ 9 ∨ s.me.inShadow = true) → (s.core s.myCore).holder = some p →
          t.doomed = s.doomed ++ [(p, 4)])

/-- R34, R47, R84: `sret` and `mret` put the saved pc, mode, interrupt enable and attachment back, and begin anew a `pause` interval
that the trap cut off; below their mode they are illegal. That such an interval begins anew in full is deduced (log 2). -/
def Obligations.TrapReturns : Prop :=
  (∀ s : State, (s.me.mode = .m ∨ (s.me.mode = .s ∧ s.me.csr.mstatus.getLsbD 22 = false)) →
    ∃ t, exec (.sretMret false) s = .next t ∧ OnlyMe s t ∧ SameMemory s t
      ∧ t.me = { s.me with
          csr := { s.me.csr with mstatus := t.me.csr.mstatus }, pc := s.me.csr.sepc
          mode := if s.me.csr.mstatus.getLsbD 8 then .s else .u, att := s.me.attS, instret := s.me.instret + 1, wait := {}
          pauseS := s.me.pauseS.tail, pauseLen := if s.me.pauseS.headD 0 = 0 then s.me.pauseLen else s.me.pauseS.headD 0
          pauseEnd := if s.me.pauseS.headD 0 = 0 then s.me.pauseEnd else s.cycle + s.me.pauseS.headD 0 }
      ∧ t.me.csr.mstatus.getLsbD 1 = s.me.csr.mstatus.getLsbD 5 ∧ t.me.csr.mstatus.getLsbD 5 = true
      ∧ t.me.csr.mstatus.getLsbD 8 = false)
  ∧ (∀ s : State, s.me.mode = .m →
    ∃ t, exec (.sretMret true) s = .next t ∧ OnlyMe s t ∧ SameMemory s t
      ∧ t.me = { s.me with
          csr := { s.me.csr with mstatus := t.me.csr.mstatus }, pc := s.me.csr.mepc
          mode := match bitsOf s.me.csr.mstatus.toNat 12 11 with
            | 3 => .m
            | 1 => .s
            | _ => .u
          att := s.me.attM, instret := s.me.instret + 1, wait := {}
          pauseM := s.me.pauseM.tail, pauseLen := if s.me.pauseM.headD 0 = 0 then s.me.pauseLen else s.me.pauseM.headD 0
          pauseEnd := if s.me.pauseM.headD 0 = 0 then s.me.pauseEnd else s.cycle + s.me.pauseM.headD 0 }
      ∧ t.me.csr.mstatus.getLsbD 3 = s.me.csr.mstatus.getLsbD 7 ∧ t.me.csr.mstatus.getLsbD 7 = true)
  ∧ (∀ s : State, s.me.mode ≠ .m → exec (.sretMret true) s = illegal (.sretMret true) s)
  ∧ (∀ s : State, s.me.mode = .u → exec (.sretMret false) s = illegal (.sretMret false) s)

/-- R47, R87, R89, R377: the environment calls, the breakpoint and an illegal word take their exceptions. The bits of dcsr are
presumed (log 22). -/
def Obligations.CallsAndBreakpoints : Prop :=
  (∀ s : State, s.me.mode = .u → (s.me.X 17 ≠ 0 ∨ s.me.tinker = true) → exec .ecall s = trap 8 0 s)
  ∧ (∀ s : State, s.me.mode = .s → (s.me.X 17 ≠ 0 ∨ s.me.tinker = false) → exec .ecall s = trap 9 0 s)
  ∧ (∀ s : State, s.me.mode = .m → exec .ecall s = trap 11 0 s)
  ∧ (∀ s : State, s.me.dbg.running = none → s.me.breakHalts = false → exec .ebreak s = trap 3 s.me.pc s)
  ∧ (∀ (w : W32) (s : State), exec (.illegalInstruction w) s = trap 2 (w.setWidth 64) s)
  ∧ (∀ (s : State), s.me.tinker = false → s.me.dbg.running = none →
      (s.me.mode = .u ∧ s.me.dbg.dcsr.getLsbD 12 = true ∨ s.me.mode = .s ∧ s.me.dbg.dcsr.getLsbD 13 = true
        ∨ s.me.mode = .m ∧ s.me.dbg.dcsr.getLsbD 15 = true) →
      ∃ t, exec .ebreak s = .next t ∧ OnlyMe s t ∧ t.me.dbg.halted = true ∧ t.me.dbg.dpc = s.me.pc ∧ KeepsX [] s t)

/-- R10, R195: `ecall` with a7 = 0 retires a compute hart in U mode whose stores are published and whose commands are done,
and ends a tinker's handler in S mode; the two rows that name these cases have the same effect. -/
def Obligations.Retirement : Prop :=
  (∀ i ∈ [Instr.ecall, Instr.ecallRetire], ∀ s : State, s.me.mode = .u → s.me.X 17 = 0 → s.me.tinker = false →
    s.releaseDone s.cur 5 = true → s.commandsDone s.cur = true → s.me.streams = [] → s.me.fork = none →
    ∃ t, exec i s = .next t ∧ (t.hart s.cur).live = false ∧ (t.hart s.cur).resident = false)
  ∧ (∀ i ∈ [Instr.ecall, Instr.tinkerHandlerEnd], ∀ s : State, s.me.mode = .s → s.me.X 17 = 0 → s.me.tinker = true →
    s.releaseDone s.cur 5 = true → s.me.ops = [] → s.me.oplog = [] → s.me.taken = none →
    ∃ t, exec i s = .next t ∧ OnlyMe s t ∧ SameMemory s t ∧ FallsThrough 1 s t ∧ KeepsX [] s t ∧ t.me.idle = true)

/-- R34, R50, R84, R89: `uiret` returns to `uiepc` with user interrupts enabled and the attachment put back, and begins anew a `pause`
interval that the interrupt cut off (log 2); `wfi` goes on when an
interrupt is pending, waits when none is, and is illegal in U mode. -/
def Obligations.InterruptReturnAndWait : Prop :=
  (∀ s : State, Machine.guard .uiret s.me = true → s.me.taken = none →
    ∃ t, exec .uiret s = .next t ∧ OnlyMe s t ∧ SameMemory s t ∧ t.me = { s.me with
      pc := s.me.uiepc, uie := true, att := s.me.attU, instret := s.me.instret + 1, wait := {}, passed := false
      pauseU := s.me.pauseU.tail, pauseLen := if s.me.pauseU.headD 0 = 0 then s.me.pauseLen else s.me.pauseU.headD 0
      pauseEnd := if s.me.pauseU.headD 0 = 0 then s.me.pauseEnd else s.cycle + s.me.pauseU.headD 0 })
  ∧ (∀ s : State, s.me.mode ≠ .u → exec .uiret s = illegal .uiret s)
  ∧ (∀ s : State, s.me.mode = .s → s.me.csr.mstatus.getLsbD 21 = false → s.me.csr.mip &&& s.me.csr.mie ≠ 0 →
    ∃ t, exec .wfi s = .next t ∧ RegisterFrame 1 s t ∧ KeepsX [] s t ∧ KeepsM [] s t ∧ KeepsV (fun _ _ => False) s t)
  ∧ (∀ s : State, s.me.mode = .s → s.me.csr.mstatus.getLsbD 21 = false → s.me.csr.mip &&& s.me.csr.mie = 0 →
    exec .wfi s = .next (s.onMe (fun x => x.block 19)))
  ∧ (∀ s : State, s.me.mode = .u → exec .wfi s = illegal .wfi s)

/-- R36, R46, R86, R87, R269: an instruction of the Osier majors that its row, the hart's kind, its mode or its window does
not admit takes the illegal-instruction exception with its first word, whatever else holds; it has no other effect. That this
trap comes before any other of the instruction is deduced (log 38). -/
def Obligations.IllegalWhereNotAdmitted : Prop :=
  ∀ i s, i.osier ≠ none → Machine.guard i s.me = false → exec i s = trap 2 (i.word.setWidth 64) s

/-! ### Memory -/

/-- R161, R164, R165, R168, R169, R219: lane and uniform loads whose pages are translated and not migrating complete: the hart's
earlier operations that must come first are performed, if any must, then the value of every active lane is bound in one step and
is outstanding until it returns, and the load changes no stored byte. -/
def Obligations.Loads : Prop :=
  LoadOp .vld false (fun _ => 0) (fun o => laneAddr false (dispOf o) o)
  ∧ LoadOp .vldPair false (fun _ => 0) (fun o => laneAddr true (dispOf o) o)
  ∧ LoadOp .vld64 true (fun _ => 0) (fun o => laneAddr (o.xop == 3) (dispOf o) o)
  ∧ LoadOp .vlds false (fun _ => 0) scratchAddr
  ∧ LoadOp .vldRc false (fun o => o.xop.toNat) (fun o => laneAddr false (dispOf o) o)
  ∧ (∀ (o : Args) (s u : State) loc, Machine.guard (.uld o) s.me = true → Ready s (uldJob o s.me) →
      s.reach s.cur (s.me.X o.a.toNat + o.imm.signExtend 64) (uldJob o s.me).size .load = .here loc → loc.isDmi = false →
      WayClear s (uldJob o s.me) [loc] u →
      ∃ t, exec (.uld o) s = .next t ∧ MemFrame o.words (uldJob o s.me) u t ∧ CachesOnly u t
        ∧ (s.me.mustDrain (uldJob o s.me) [loc] = false → u = s)
        ∧ t.me.ops = u.me.ops ++ [{ job := uldJob o s.me, xw := [(o.d.toNat, extend (signedType o.ty.toNat) (uldJob o s.me).size
            (u.readElem s.cur s.me.tag (s.me.X o.a.toNat + o.imm.signExtend 64) loc (uldJob o s.me).size))] }])

/-- R161, R163, R165, R169: lane and uniform stores whose pages are translated and not migrating complete: the store is
outstanding until it is performed; to its own hart alone, the bytes stored at the addresses of the active lanes, and no
others, read anew. -/
def Obligations.Stores : Prop :=
  StoreOp .vst false (fun o => laneAddr (o.xop == 1) (dispOf o) o)
  ∧ StoreOp .vst64 true (fun o => laneAddr (o.xop == 3) (dispOf o) o)
  ∧ StoreOp .vsts false scratchAddr
  ∧ (∀ (o : Args) (s : State) loc, Machine.guard (.ust o) s.me = true → Ready s (ustJob o s.me) →
      s.reach s.cur (s.me.X o.a.toNat + o.imm.signExtend 64) (ustJob o s.me).size .store = .here loc →
      NothingFirst s (ustJob o s.me) [loc] → (s.me.tag = 0 ∨ loc.place ≠ .host) →
      ∃ t, exec (.ust o) s = .next t ∧ MemFrame o.words (ustJob o s.me) s t ∧ t = { s with harts := t.harts, worlds := t.worlds }
        ∧ (∀ k, k < (ustJob o s.me).size →
            t.readByte s.cur s.me.tag (loc.plus k) = BitVec.ofNat 8 ((s.me.X o.d.toNat).toNat / 256 ^ k))
        ∧ ∀ h tag p, (h = s.cur → ∀ k, k < (ustJob o s.me).size → p ≠ loc.plus k) → t.readByte h tag p = s.readByte h tag p)

/-- R162: A MEM instruction whose lanes are not all aligned takes cause 4 or 6 with the address of the lowest such lane, and
does nothing else. -/
def Obligations.MisalignedAccesses : Prop :=
  (∀ c ∈ [Instr.vld, Instr.vldPair, Instr.vld64, Instr.vlds, Instr.vldRc, Instr.vst, Instr.vst64, Instr.vsts, Instr.vamo,
      Instr.vamoCas, Instr.vamoNr], ∀ (o : Args) (s : State) l,
    let i := c o
    let load := match i with
      | .vld _ => true
      | .vldPair _ => true
      | .vld64 _ => true
      | .vlds _ => true
      | .vldRc _ => true
      | _ => false
    let size := match i with
      | .vld64 _ => 8
      | .vst64 _ => 8
      | .vamo _ => if Rows.wide o then 8 else 4
      | .vamoCas _ => if Rows.wide o then 8 else 4
      | .vamoNr _ => if Rows.wide o then 8 else 4
      | _ => sizeOfType 4 o.ty.toNat
    let addr := fun m => match i with
      | .vlds _ => scratchAddr o s.me m
      | .vsts _ => scratchAddr o s.me m
      | .vldPair _ => laneAddr true (dispOf o) o s.me m
      | .vld64 _ => laneAddr (o.xop == 3) (dispOf o) o s.me m
      | .vst _ => laneAddr (o.xop == 1) (dispOf o) o s.me m
      | .vst64 _ => laneAddr (o.xop == 3) (dispOf o) o s.me m
      | .vamo _ => atomicAddr o s.me m
      | .vamoCas _ => atomicAddr o s.me m
      | .vamoNr _ => atomicAddr o s.me m
      | _ => laneAddr false (dispOf o) o s.me m
    Machine.guard i s.me = true → s.me.ordered = false → l ∈ active s.me o → (addr l).toNat % size ≠ 0 →
    (∀ m ∈ active s.me o, m < l → (addr m).toNat % size = 0) →
    exec i s = trap (if load then 4 else 6) (addr l) s)
  ∧ (∀ (o : Args) (s : State), Machine.guard (.uld o) s.me = true → s.me.ordered = false →
      (s.me.X o.a.toNat + o.imm.signExtend 64).toNat % (uldJob o s.me).size ≠ 0 →
      exec (.uld o) s = trap 4 (s.me.X o.a.toNat + o.imm.signExtend 64) s)
  ∧ (∀ (o : Args) (s : State), Machine.guard (.ust o) s.me = true → s.me.ordered = false →
      (s.me.X o.a.toNat + o.imm.signExtend 64).toNat % (ustJob o s.me).size ≠ 0 →
      exec (.ust o) s = trap 6 (s.me.X o.a.toNat + o.imm.signExtend 64) s)

/-- R170, R171, R172: an atomic with return whose lanes are placed performs the hart's earlier operations, runs its lanes in order,
each seeing what those before it left, and holds their old values until they return; one without return is outstanding until it is
performed, and one without return but with an acquire part is performed, after the operations before it, in the same step. One
lane's step gives the latest value and leaves the operation's result in its bytes alone. -/
def Obligations.Atomics : Prop :=
  (AtomicOp .vamo (fun o h => atomicJob (.vamo o) o true h) ∧ AtomicOp .vamoCas (fun o h => atomicJob (.vamoCas o) o true h)
    ∧ AtomicOp .uamo uamoJob)
  ∧ (PostedAtomicOp .vamoNr (fun o h => atomicJob (.vamoNr o) o false h) ∧ PostedAtomicOp .uamo uamoJob)
  ∧ (∀ (s : State) (h : Nat) (job : MemJob) (l : LaneReq) (loc : Loc), job.tag = 0 → (job.size = 4 ∨ job.size = 8) →
      (loc.place = .hbm ∨ (∃ c, loc.place = .scratch c) ∨ ∃ c, loc.place = .tcm c) →
      (∀ u ∈ (s.core (coreOf h)).unpub, ∀ k, k < job.size → u.loc ≠ loc.plus k) →
      let r := s.atomicStep h job l loc
      r.1 = s.latest 0 loc job.size
        ∧ r.2.2.latest 0 loc job.size = (amoNew job.op job.size r.1 (l.b.toNat % 2 ^ (8 * job.size))
            (l.c.toNat % 2 ^ (8 * job.size))).1 % 2 ^ (8 * job.size)
        ∧ ∀ p, (∀ k, k < job.size → p ≠ loc.plus k) → r.2.2.latest 0 p 1 = s.latest 0 p 1)

/-- R89, R167, R175, R176, R213, R215: an acquire applies every deferred invalidation of the core and ends the reservation; a
release waits until the hart's stores are performed and published; `fence.sc` then waits for the tick it has drawn, at domain
scope until it has closed on every module, before its acquire; a module that has lost the heartbeat waits for twice the bound of R369 on the
close, which is deduced (log 63). After `fence.i` the hart's fetches see every published store. -/
def Obligations.Fences : Prop :=
  (∀ (o : Args) (s : State), Machine.guard (.fenceAcq o) s.me = true → s.me.ordered = false → s.me.bound = true →
    ∃ t, exec (.fenceAcq o) s = .next t ∧ MemFrame o.words { jobOf (.fenceAcq o) o true s.me with acq := true, rel := false } s t
      ∧ CachesOnly s t ∧ t.me.ops = s.me.ops
      ∧ (o.rsc ≠ 0 → (t.core s.myCore).defer = [] ∧ ∀ key ∈ (s.core s.myCore).defer, (t.core s.myCore).holds key = false))
  ∧ (∀ (o : Args) (s : State), Machine.guard (.fenceRel o) s.me = true → s.me.ordered = false →
    if s.releaseDone s.cur o.rsc.toNat then
      ∃ t, exec (.fenceRel o) s = .next t ∧ OnlyMe s t ∧ SameMemory s t ∧ t.me = { s.me with
        reservation := none, rel := none, pc := s.me.pc + BitVec.ofNat 64 (4 * o.words), instret := s.me.instret + 1, wait := {},
        passed := false }
    else exec (.fenceRel o) s = .next (s.onMe (fun x => { x with wait := { code := 8 }, rel := some o.rsc.toNat })))
  ∧ (∀ (o : Args) (s : State), Machine.guard (.fenceAr o) s.me = true → s.me.ordered = false → s.me.bound = true → s.releaseDone s.cur o.rsc.toNat = true →
    ∃ t, exec (.fenceAr o) s = .next t ∧ MemFrame o.words { jobOf (.fenceAr o) o true s.me with acq := true, rel := true } s t
      ∧ CachesOnly s t ∧ t.me.ops = s.me.ops ∧ (o.rsc ≠ 0 → (t.core s.myCore).defer = []))
  ∧ (∀ (o : Args) (s : State), Machine.guard (.fenceSc o) s.me = true → s.me.ordered = false → s.me.wait.code = 8 →
      s.me.wait.a = 1 →
    if s.me.wait.b.toNat ≤ s.cycle ∧ (o.rsc.toNat ≤ 3 ∨ s.domain.size = 0
        ∨ (if s.domain.lost then s.me.wait.b.toNat + 2 * closeBound s.domain.size ≤ s.cycle
           else s.me.wait.b.toNat ≤ s.domain.closed * 256)) then
      ∃ t, exec (.fenceSc o) s = .next t ∧ FallsThrough o.words s t ∧ CachesOnly s t ∧ t.me.scReads = []
        ∧ (o.rsc ≠ 0 → (t.core s.myCore).defer = [])
    else exec (.fenceSc o) s = .next s)
  ∧ (∀ (o : Args) (s : State), Machine.guard (.fenceSc o) s.me = true → s.me.ordered = false →
      (s.me.wait.code ≠ 8 ∨ s.me.wait.a ≠ 1) →
      if s.releaseDone s.cur o.rsc.toNat = true ∧ (∀ u ∈ (s.core s.myCore).unpub, (u.hart, u.loc) ∉ s.me.scReads)
          ∧ ∀ tr ∈ s.trackers, s.cur ∉ tr.2.readers then
        ∃ t, exec (.fenceSc o) s = .next t ∧ OnlyMe s t ∧ t.me.pc = s.me.pc
          ∧ t.me.wait = { code := 8, a := 1, b := BitVec.ofNat 64 ((s.cycle / 256 + 1) * 256) }
      else exec (.fenceSc o) s = .next (s.onMe (fun x => { x with wait := { code := 8 }, rel := some o.rsc.toNat })))
  ∧ (∀ (o : FenceArgs) (s : State), s.me.bound = true → s.releaseDone s.cur 3 = true →
    ∃ t, exec (.fence o) s = .next t ∧ FallsThrough 1 s t ∧ CachesOnly s t ∧ KeepsX [] s t ∧ t.me.reservation = none
      ∧ (t.core s.myCore).defer = [])
  ∧ (∀ (o : FenceIArgs) (s : State), s.allPerformed s.cur = true →
    ∃ t, exec (.fenceI o) s = .next t ∧ t = { s with harts := t.harts, written := t.written }
      ∧ (∀ h, h ≠ s.cur → t.hart h = s.hart h)
      ∧ t.me = { s.me with
          icache := [], fenceSeq := t.me.fenceSeq, fetchOwn := s.ownCode s.cur, pc := s.me.pc + 4, instret := s.me.instret + 1, wait := {}
          passed := false }
      ∧ ((∀ u ∈ (s.core s.myCore).unpub, u.hart ≠ s.cur) →
          ∀ a, t.codeByte s.cur ⟨.hbm, a⟩ = s.published s.me.tag a))

/-- R177, R178: `cctl` functions on an address act where its translation is held, and only advance the pc where it is not; the
flag word is read once the hart's earlier atomics are done, and its bits are cleared by name; on a tinker it reads zero. That an
address which is no multiple of 4 has no effect is the model's choice (log 39). -/
def Obligations.CacheControl : Prop :=
  (∀ (o : Args) (s : State) va pa, Machine.guard (.cctlPf1 o) s.me = true → s.me.ordered = false → s.cctlAt o = some (va, pa) →
    s.migrating.contains (pa / 4096) = false → ∃ t, exec (.cctlPf1 o) s = .next t ∧ CachesOnly s t ∧ FallsThrough o.words s t ∧ KeepsX [] s t
      ∧ ((s.core s.myCore).canFill (lineKey (s.seenTag s.me.tag pa) (lineOf pa)) = true → (t.core s.myCore).holds (lineKey (s.seenTag s.me.tag pa) (lineOf pa)) = true))
  ∧ (∀ (o : Args) (s : State), Machine.guard (.cctlPf2 o) s.me = true → s.me.ordered = false →
    ∃ t, exec (.cctlPf2 o) s = .next t ∧ RegisterFrame o.words s t ∧ KeepsX [] s t ∧ KeepsM [] s t ∧ KeepsV (fun _ _ => False) s t)
  ∧ (∀ (o : Args) (s : State) va pa, Machine.guard (.cctlInv o) s.me = true → s.me.ordered = false → s.cctlAt o = some (va, pa) →
    ∃ t, exec (.cctlInv o) s = .next t ∧ CachesOnly s t ∧ FallsThrough o.words s t ∧ KeepsX [] s t
      ∧ ((∀ u ∈ (s.core s.myCore).unpub, u.loc.place = .hbm → lineOf u.loc.off ≠ lineOf pa) →
          (t.core s.myCore).holds (lineKey (s.seenTag s.me.tag pa) (lineOf pa)) = false))
  ∧ (∀ c ∈ [Instr.cctlPf1, Instr.cctlInv], ∀ (o : Args) (s : State), Machine.guard (c o) s.me = true → s.me.ordered = false → s.cctlAt o = none →
    ∃ t, exec (c o) s = .next t ∧ RegisterFrame o.words s t ∧ KeepsX [] s t ∧ KeepsM [] s t ∧ KeepsV (fun _ _ => False) s t)
  ∧ (∀ (o : Args) (s : State), Machine.guard (.cctlMaf o) s.me = true → s.me.ordered = false →
      if s.me.tinker = true ∨ (s.me.atomicsDone = true ∧ s.me.caddDone = true) then
        ∃ t, exec (.cctlMaf o) s = .next t
          ∧ WritesX o.words o.d.toNat (if s.me.tinker then 0 else (s.ctx s.cur).maf.setWidth 64) s t
      else exec (.cctlMaf o) s = .next (s.onMe (fun x => x.block 17 1)))
  ∧ (∀ (o : Args) (s : State), Machine.guard (.cctlMafclr o) s.me = true → s.me.ordered = false → s.me.tinker = true →
      ∃ t, exec (.cctlMafclr o) s = .next t ∧ RegisterFrame o.words s t ∧ KeepsX [] s t ∧ KeepsM [] s t
        ∧ KeepsV (fun _ _ => False) s t)
  ∧ (∀ (o : Args) (s : State), Machine.guard (.cctlMafclr o) s.me = true → s.me.ordered = false → s.me.tinker = false →
      ∃ t, exec (.cctlMafclr o) s = .next t ∧ FallsThrough o.words s t ∧ KeepsX [] s t
        ∧ t = { s with harts := t.harts, ctxs := t.ctxs } ∧ (∀ h, h ≠ s.cur → t.hart h = s.hart h)
        ∧ Tab.get t.ctxs {} (ctxOf s s.cur)
            = { s.ctx s.cur with maf := (s.ctx s.cur).maf &&& ~~~ (s.me.X o.a.toNat).setWidth 5 }
        ∧ ∀ p, p ≠ ctxOf s s.cur → Tab.get t.ctxs {} p = Tab.get s.ctxs {} p)

/-- R163, R209, R172, R213, R225: A value returns into its registers in one step; the hart's oldest store is performed at its
core, after which its hart reads the bytes stored as before, and every byte whose line its L1 has not dropped meanwhile, and no
published byte of device memory has changed; a no-return atomic whose home can take it is performed lane by lane; a line of the release
under way is published, and its completion ends the wait. -/
def Obligations.PerformingAndPublishing : Prop :=
  (∀ (s : State) p, s.me.ops[s.focus.item]? = some p → p.waits = false → p.acks = [] →
    ∃ t, exec .loadReturn s = .next t ∧ OnlyMe s t ∧ KeepsM [] s t
      ∧ t.me = { s.me with x := t.me.x, v := t.me.v, fflags := s.me.fflags ||| p.fflags, ops := s.me.ops.eraseIdx s.focus.item }
      ∧ (∀ r l w, l < 32 → p.vw.reverse.find? (fun c => c.1 == 32 * r + l) = some (32 * r + l, w) → t.me.V r l = w)
      ∧ (∀ r l, l < 32 → (∀ c ∈ p.vw, c.1 ≠ 32 * r + l) → t.me.V r l = s.me.V r l)
      ∧ (∀ n w, n ≠ 0 → p.xw = [(n, w)] → t.me.X n = w)
      ∧ (∀ n, (∀ c ∈ p.xw, c.1 ≠ n) → t.me.X n = s.me.X n))
  ∧ (∀ (s : State) p, s.me.ops.find? PendOp.waits = some p → p.job.kind = .store → p.job.tag = 0 → p.job.rel = false →
      (∀ w ∈ p.writes, w.1.isDmi = false ∧ (w.1.place = .hbm ∨ (∃ c, w.1.place = .scratch c) ∨ ∃ c, w.1.place = .tcm c)) →
      (∀ l ∈ p.locs, l.isDmi = false) → (∀ q ∈ s.me.ops, q.waits = false → q.writes = []) →
      ∃ t, exec .storePerformed s = .next t ∧ t.me.ops = s.me.ops.eraseP PendOp.waits ∧ t.me.pc = s.me.pc
        ∧ KeepsX [] s t ∧ KeepsM [] s t ∧ KeepsV (fun _ _ => False) s t ∧ t.hbm = s.hbm
        ∧ (∀ w ∈ p.writes, t.readByte s.cur 0 w.1 = s.readByte s.cur 0 w.1)
        ∧ ∀ loc, (loc.place = .hbm → (t.core s.myCore).holds (lineKey 0 (lineOf loc.off))
              = (s.core s.myCore).holds (lineKey 0 (lineOf loc.off))) →
            t.readByte s.cur 0 loc = s.readByte s.cur 0 loc)
  ∧ (∀ (s : State) p, s.me.ops.find? PendOp.waits = some p → p.job.kind = .amoNr → (∀ w ∈ p.writes, w.1.isDmi = false) →
      (∀ l ∈ p.locs, l.isDmi = false) → (∀ w ∈ p.writes, s.tileBusy w.1 = false) →
      s.canOrderAll p.homeLines (some s.myCore) = true →
      exec .homeAtomic s = .next (atomicLanes s.cur p.job (p.job.lanes.zip p.locs)
        (s.onMe (fun x => { x with ops := x.ops.eraseP PendOp.waits }))).2.2)
  ∧ (∀ (s : State) scope u, s.me.rel = some scope → scope ≠ 0 → s.allPerformed s.cur = true → s.nextToOrder = some u → u.loc.place = .hbm →
      u.tag = 0 → s.focus.unit ≠ 1 → s.canOrderAll [(0, lineOf u.loc.off)] (some s.myCore) = true →
      ∃ t, exec .homeOrder s = .next t
        ∧ (∀ v ∈ (t.core s.myCore).unpub, v ∈ (s.core s.myCore).unpub
            ∧ ¬ (v.hart = s.cur ∧ v.tag = 0 ∧ v.loc.place = .hbm ∧ lineOf v.loc.off = lineOf u.loc.off))
        ∧ ∀ a, t.hbm.read a =
            match ((s.core s.myCore).unpub.filter (fun v => v.hart == s.cur && v.tag == 0 && v.loc == ⟨.hbm, a⟩
              && lineOf a == lineOf u.loc.off)).getLast? with
            | some v => v.byte
            | none => s.hbm.read a)
  ∧ (∀ (s : State) scope, s.me.rel = some scope → s.releaseDone s.cur scope = true →
      exec .releaseComplete s = .next (s.onMe (fun x => { x with wait := { code := 0, a := BitVec.ofNat 64 x.wait.code } })))

/-- R150, R223, R225, R226, R227, R230, R231: invalidations reach the clusters that share a line and are acknowledged; the
home serves a read miss, takes back an owned line and learns of one dropped; a line with unpublished stores leaves the L1; a
page is marked, copied and freed, with the versions that worlds have of it, and requests refused meanwhile go to the new page once its
leaves are in place. Which step comes when is the
environment's (logs 2, 42 and 43). -/
def Obligations.CoherenceSteps : Prop :=
  (∀ (s : State) tr, s.trackers.look s.focus.item = some tr → s.focus.unit ∈ tr.sent →
      (∀ e ∈ s.trackers, e.2.slice = tr.slice → s.focus.unit ∈ e.2.sent → tr.order ≤ e.2.order) →
    ∃ t, exec .invalidationArrive s = .next t ∧ t.hbm = s.hbm ∧ t.harts = s.harts
      ∧ t.trackers.look s.focus.item = some { tr with sent := tr.sent.erase s.focus.unit }
      ∧ (∀ i, i < 4 → (s.core (s.focus.unit * 4 + i)).holds (lineKey tr.tag tr.line) = true →
          (s.core (s.focus.unit * 4 + i)).defer.length < 63 →
          (t.core (s.focus.unit * 4 + i)).holds (lineKey tr.tag tr.line) = true
          ∧ lineKey tr.tag tr.line ∈ (t.core (s.focus.unit * 4 + i)).defer)
      ∧ Tab.has (t.cluster s.focus.unit).copies (lineKey tr.tag tr.line) = false)
  ∧ (∀ (s : State) tr, s.trackers.look s.focus.item = some tr → s.focus.unit ∈ tr.unacked → s.focus.unit ∉ tr.sent →
      (∀ e ∈ s.trackers, e.2.slice = tr.slice → s.focus.unit ∈ e.2.unacked → tr.order ≤ e.2.order) →
    ∃ t, exec .invalidationAck s = .next t ∧ t = { s with trackers := t.trackers }
      ∧ (tr.unacked = [s.focus.unit] → t.trackers.look s.focus.item = none)
      ∧ (tr.unacked.erase s.focus.unit ≠ [] →
          t.trackers.look s.focus.item = some { tr with unacked := tr.unacked.erase s.focus.unit }))
  ∧ (∀ (s : State), s.focus.code = 0 → s.focus.unit < Config.cores + Config.tinkers → s.focus.item < 2 ^ 40 →
      s.focus.item * 128 < Config.hbmBytes → s.migrating.contains (s.focus.item * 128 / 4096) = false →
      (s.core s.focus.unit).canFill s.focus.item = true →
    ∃ t, exec .homeRead s = .next t ∧ CachesOnly s t ∧ t.harts = s.harts ∧ (t.core s.focus.unit).holds s.focus.item = true)
  ∧ (∀ (s : State), s.focus.code ≠ 1 → (s.core s.focus.unit).holds s.focus.item = true →
      (s.core s.focus.unit).dirty s.focus.item = false →
    ∃ t, exec .evictionNotice s = .next t ∧ CachesOnly s t ∧ t.harts = s.harts
      ∧ (t.core s.focus.unit).holds s.focus.item = false
      ∧ t.dirEntry s.focus.item = (if ((s.dirEntry s.focus.item).evict s.focus.unit).st = 0 then {}
          else (s.dirEntry s.focus.item).evict s.focus.unit))
  ∧ (∀ (s : State), (s.dirEntry s.focus.item).st = 2 →
    ∃ t, exec .recallLine s = .next t ∧ t = { s with cores := t.cores, dir := t.dir }
      ∧ t.dirEntry s.focus.item = {}
      ∧ (∀ c ∈ (s.dirEntry s.focus.item).ptrs, (t.core c).holds s.focus.item = false)
      ∧ ∀ c, (t.core c).unpub = (s.core c).unpub)
  ∧ (∀ (s : State), (s.dirEntry s.focus.item).st ≠ 2 → s.focus.code = 1 →
    ∃ t, exec .recallLine s = .next t ∧ CachesOnly s t ∧ t.harts = s.harts ∧ t.dirEntry s.focus.item = {})
  ∧ (∀ (s : State), s.me.tinker = true →
      (s.focus.code = 0 → ∃ t, exec .pageMigrating s = .next t ∧ t = { s with migrating := t.migrating }
        ∧ ∀ p, p ∈ t.migrating ↔ p = s.focus.item ∨ p ∈ s.migrating)
      ∧ (s.focus.code = 1 → ∃ t, exec .pageMigrating s = .next t ∧ t.hbm = s.hbm ∧ t.migrating = s.migrating.erase s.focus.item
        ∧ t.moves = Tab.del s.moves s.focus.item
        ∧ (s.moves.look s.focus.item = none → t = { s with migrating := t.migrating, moves := t.moves })
        ∧ ∀ q, s.moves.look s.focus.item = some q → q ≠ s.focus.item → ∀ c, c ∈ s.cores.map Prod.fst → ∀ u ∈ (t.core c).unpub,
            u.loc.place = .hbm → u.loc.off / 4096 ≠ s.focus.item)
      ∧ (s.focus.code = 2 → s.focus.item ∈ s.migrating → s.focus.item < 2 ^ 35 → s.focus.unit ≠ s.focus.item →
          s.focus.unit * 4096 + 4096 ≤ Config.hbmBytes → ∃ t, exec .pageMigrating s = .next t
        ∧ t.moves.look s.focus.item = some s.focus.unit
        ∧ (∀ v ∈ s.vers, v.line / 32 = s.focus.item → { v with line := s.focus.unit * 32 + v.line % 32 } ∈ t.vers)
        ∧ (∀ k, k < 4096 → t.hbm.read (s.focus.unit * 4096 + k) = s.hbmByte (s.focus.item * 4096 + k))
        ∧ (∀ a, a / 4096 ≠ s.focus.unit → t.hbm.read a = s.hbm.read a)
        ∧ ∀ i, i < 32 → t.dirEntry (s.focus.item * 32 + i) = {}))
  ∧ (∀ (s : State), s.focus.item ∈ s.migrating →
    ∃ t, exec .movedReply s = .next t ∧ t.hbm = s.hbm
      ∧ (∀ e ∈ (t.core s.myCore).l1tlb, e.host = true ∨ ¬ (e.ppn ≤ s.focus.item ∧ s.focus.item < e.ppn + 512 ^ e.level))
      ∧ ∀ q, s.moves.look s.focus.item = some q → q ≠ s.focus.item →
          (∀ k ∈ ((s.refusePage s.myCore s.focus.item).core s.myCore).held, k.page = s.focus.item →
            (s.refusePage s.myCore s.focus.item).leafAt s.myCore k q = true) →
          ∀ u ∈ (t.core s.myCore).unpub, u.loc.place = .hbm → u.loc.off / 4096 ≠ s.focus.item)
  ∧ (∀ (s : State), (s.core s.myCore).dirty s.focus.item = true →
      (s.focus.item / 2 ^ 40 ≠ 0 ∨ (s.ctx s.cur).pages.contains (s.focus.item % 2 ^ 40 / 32) = true) →
    ∃ t, exec .l1EvictPending s = .next t ∧ t = { s with cores := t.cores, ctxs := t.ctxs } ∧ (t.core s.myCore).holds s.focus.item = false
      ∧ (t.core s.myCore).unpub.map Unpub.byte = (s.core s.myCore).unpub.map Unpub.byte
      ∧ (t.core s.myCore).dirty s.focus.item = false)
  ∧ (∀ (s : State), (s.core s.myCore).dirty s.focus.item = true → s.focus.item / 2 ^ 40 = 0 →
      (s.ctx s.cur).pages.contains (s.focus.item % 2 ^ 40 / 32) = false → s.rootSpent (ctxOf s s.cur) 1 = true →
    exec .l1EvictPending s = .next (s.onMe (fun x => { x with noSpace := true })))

/-- R317, R319, R322, R324, R327: walks settle a logged load, a verdict of resolution has the page walked again and one
against it holds the entry for cause 24, a deferred trap takes the oldest held entry's cause and address, and a shootdown
leaves no matching translation in its cluster. -/
def Obligations.OperandLogSteps : Prop :=
  (∀ (s : State) e (loc : LaneReq → Loc), s.focus.item < 8 → s.me.oplog.look s.focus.item = some e → (e.state = .walking ∨ e.state = .replaying) → e.engine = none →
      e.job.kind = .load → e.job.acq = false → e.job.mode = s.me.mode → e.job.mstatus = s.me.csr.mstatus → s.me.ops = [] →
      e.job.lanes ≠ [] → s.worldFault s.cur e.job (s.placeOf s.cur e.job) = none → s.movedPages (s.located s.cur e.job) = [] →
      (∀ l ∈ e.job.lanes, inDomain l.addr = false ∧ s.heldAt s.cur l.addr = false ∧ s.reach s.cur l.addr e.job.size .load = .here (loc l)
        ∧ (loc l).isDmi = false ∧ s.tilePartial (loc l) = false) →
      ((∃ l ∈ e.job.lanes, (loc l).place = .host) → s.hostLogged s.cur e.order = false) →
    ∃ t, exec .walkDone s = .next t ∧ CachesOnly s t ∧ t.me.oplog = Tab.del s.me.oplog s.focus.item ∧ t.me.pc = s.me.pc
      ∧ KeepsX [] s t ∧
      (let c := destCells e.job.dest (e.job.lanes.map (fun l =>
          (l.lane, extend e.job.signed e.job.size (s.readElem s.cur e.job.tag l.addr (loc l) e.job.size))))
       t.me.ops = [{ job := e.job, vw := c.1, xw := c.2 }]))
  ∧ (∀ (s : State) n e, s.me.dueEntry = some (n, e) → s.me.mayDefer = true →
      exec .deferredTrap s =
        .next { takeTrap s.cur false e.cause e.tval (s.onMe (fun x => { x with oplogidx := n })) with trapped := true })
  ∧ (∀ (s : State) m e, s.net[s.focus.item]? = some m → m.tag = 254 → m.special = true → m.dec = none → m.reply = 0 →
      let h := hartAt m.core (bitsOf (leNat m.payload) 13 11)
      let n := bitsOf (leNat m.payload) 10 8
      (s.hart h).heldSeq = none → (s.hart h).oplog.look n = some e → e.state = .verdict →
      e.seq % 2 ^ 48 = bitsOf (leNat m.payload) 63 16 →
    ∃ t, exec .verdict s = .next t ∧ (t.hart h).pc = (s.hart h).pc
      ∧ (t.hart h).oplog.look n = some (if bitsOf (leNat m.payload) 7 0 = 0 then { e with state := .walking }
          else { e with state := .held, cause := 24, tval := e.fva }))
  ∧ (∀ (s : State) m, s.net[s.focus.item]? = some m → m.tag = 253 → m.special = true → m.dec = none → m.reply = 0 →
    ∃ t, exec .shootdown s = .next t ∧ ∀ p, (s.cluster (clusterOf m.core)).ctx = some p →
      ∀ e ∈ (t.cluster (clusterOf m.core)).tlb, e.pasid = p →
        bitOf (leNat m.payload) 60 = false
        ∧ e.vpn % 2 ^ 44 / 512 ^ (max (bitsOf (leNat m.payload) 59 56) e.level)
            ≠ bitsOf (leNat m.payload) 55 12 / 512 ^ (max (bitsOf (leNat m.payload) 59 56) e.level))

/-! ### Synchronisation, messages, tasks and streams -/

/-- R183, R184, R186, R187: an arrive of the last member to a barrier that counts no bytes completes the phase; an earlier one
is counted; the token is the phase arrived in; a wait is over exactly when the phase has gone on by 1 to 32,768 since the
token's. The barrier instructions on a consistent object of the hart's block act in one step on its 32 bytes and leave every
other byte alone; an arrive waits for its release, and while it leads by three; a completed wait acquires, and one that is not yet
done holds the hart. An address that is misaligned or outside the local window, an inconsistent object and a hart that is no member
take cause 28. The wake step of a wait that is done makes the hart ready. -/
def Obligations.Barriers : Prop :=
  ((∀ (b : Bar) h, b.consistent = true → h < 32 → bitOf b.members h = true → bitOf b.here h = false → b.bexpect = 0 →
    b.arrived + 1 < b.expect →
    b.arrive h = some (b.phase, { b with here := b.here + 2 ^ h, arrived := b.arrived + 1 }))
  ∧ (∀ (b : Bar) h, b.consistent = true → h < 32 → bitOf b.members h = true → bitOf b.here h = false → b.bexpect = 0 →
    b.lead = 0 → b.arrived + 1 = b.expect →
    b.arrive h = some (b.phase, { b with here := 0, arrived := 0, phase := (b.phase + 1) % 65536 }))
  ∧ (∀ (b : Bar) h, bitOf b.here h = true → b.leadOf h = 3 → b.arrive h = none)
  ∧ (∀ (b : Bar) k t, b.phase < 65536 → t < 65536 → k < 65536 → b.phase = (t + k) % 65536 →
    b.done t = (decide (1 ≤ k) && decide (k ≤ 32768))))
  ∧ (∀ (o : Args) (s : State) l b, AtBarrier .barArrive o s l b → b.consistent = true → s.me.hib < 32 →
      bitOf b.members s.me.hib = true →
      (s.releaseDone s.cur (max o.rsc.toNat 1) = true → ∀ tok b', b.arrive s.me.hib = some (tok, b') →
        ∃ t, exec (.barArrive o) s = .next t ∧ FallsThrough o.words s t ∧ KeepsX [o.d.toNat] s t
          ∧ ObjectStep l 32 (leNat b'.bytes) s t ∧ (o.d ≠ 0 → t.me.X o.d.toNat = BitVec.ofNat 64 tok))
      ∧ (s.releaseDone s.cur (max o.rsc.toNat 1) = true → b.arrive s.me.hib = none →
        ∃ t, exec (.barArrive o) s = .next t ∧ t.me.pc = s.me.pc ∧ t.me.wait.code = 3 ∧ KeepsX [] s t ∧ SameLatest s t)
      ∧ (s.releaseDone s.cur (max o.rsc.toNat 1) = false →
        exec (.barArrive o) s = .next (s.onMe (fun x => { x with wait := { code := 3 }, rel := some (max o.rsc.toNat 1) }))))
  ∧ (∀ (o : Args) (s : State) l b, AtBarrier .barWait o s l b → b.consistent = true →
      (b.done (bitsOf (s.me.X o.b.toNat).toNat 15 0) = true →
        ∃ t, exec (.barWait o) s = .next t ∧ FallsThrough o.words s t ∧ KeepsX [] s t ∧ SameLatest s t
          ∧ (t.core s.myCore).defer = [])
      ∧ (b.done (bitsOf (s.me.X o.b.toNat).toNat 15 0) = false →
        ∃ t, exec (.barWait o) s = .next t ∧ t.me.pc = s.me.pc ∧ t.me.wait.code = 3 ∧ KeepsX [] s t ∧ SameLatest s t))
  ∧ (∀ (o : Args) (s : State) l b tok, AtBarrier .barSync o s l b → b.consistent = true →
      s.me.arrivals.find? (fun a => a.1 == s.me.pc && a.2.1 == s.me.X o.a.toNat) = some (s.me.pc, s.me.X o.a.toNat, tok) →
      (b.done tok = true →
        ∃ t, exec (.barSync o) s = .next t ∧ FallsThrough o.words s t ∧ KeepsX [] s t ∧ SameLatest s t
          ∧ (t.core s.myCore).defer = [])
      ∧ (b.done tok = false →
        ∃ t, exec (.barSync o) s = .next t ∧ t.me.pc = s.me.pc ∧ t.me.wait.code = 3 ∧ KeepsX [] s t ∧ SameLatest s t))
  ∧ (∀ (o : Args) (s : State) l b tok b', AtBarrier .barSync o s l b → b.consistent = true → b'.consistent = true →
      s.me.arrivals.find? (fun a => a.1 == s.me.pc && a.2.1 == s.me.X o.a.toNat) = none →
      s.releaseDone s.cur (max o.rsc.toNat 1) = true → s.me.hib < 32 → bitOf b.members s.me.hib = true →
      b.arrive s.me.hib = some (tok, b') → Bar.ofNat (leNat b'.bytes) = b' →
      (b'.done tok = true →
        ∃ t, exec (.barSync o) s = .next t ∧ FallsThrough o.words s t ∧ KeepsX [] s t ∧ ObjectStep l 32 (leNat b'.bytes) s t
          ∧ (t.core s.myCore).defer = [])
      ∧ (b'.done tok = false →
        ∃ t, exec (.barSync o) s = .next t ∧ t.me.pc = s.me.pc ∧ t.me.wait.code = 3 ∧ KeepsX [] s t
          ∧ ObjectStep l 32 (leNat b'.bytes) s t ∧ (s.me.pc, s.me.X o.a.toNat, tok) ∈ t.me.arrivals))
  ∧ (∀ (o : Args) (s : State) l b, AtBarrier .barTest o s l b → b.consistent = true →
      ∃ t, exec (.barTest o) s = .next t ∧ FallsThrough o.words s t ∧ KeepsX [o.d.toNat] s t ∧ SameLatest s t
        ∧ (o.d ≠ 0 → t.me.X o.d.toNat = if b.done (bitsOf (s.me.X o.b.toNat).toNat 15 0) then 1 else 0))
  ∧ (∀ (o : Args) (s : State) l b, AtBarrier .barInit o s l b → b.consistent = true → (s.me.X o.d.toNat).toNat < 2 ^ 32 →
      (s.me.X o.b.toNat).toNat < 2 ^ 32 → (s.me.X o.d.toNat ≠ 0 ∨ s.me.X o.b.toNat ≠ 0) →
      ∃ t, exec (.barInit o) s = .next t ∧ FallsThrough o.words s t ∧ KeepsX [] s t
        ∧ ObjectStep l 32 (leNat (Bar.bytes { b with
            members := (s.me.X o.d.toNat).toNat, here := 0, lead := 0, arrived := 0, brecv := 0
            expect := popcount (s.me.X o.d.toNat).toNat 32, bexpect := (s.me.X o.b.toNat).toNat })) s t)
  ∧ (∀ (o : Args) (s : State) l b, AtBarrier .barBytes o s l b → b.consistent = true →
      ∃ t, exec (.barBytes o) s = .next t ∧ FallsThrough o.words s t ∧ KeepsX [] s t
        ∧ ObjectStep l 32 (leNat (Bar.complete { b with bexpect := bitsOf (s.me.X o.b.toNat).toNat 31 0 }).bytes) s t)
  ∧ (∀ (o : Args) (s : State) l b, AtBarrier .barDrop o s l b → b.consistent = true →
      s.releaseDone s.cur (max o.rsc.toNat 1) = true → s.me.hib < 32 → bitOf b.members s.me.hib = true → b.leadOf s.me.hib = 0 →
      ∃ t, exec (.barDrop o) s = .next t ∧ FallsThrough o.words s t ∧ KeepsX [] s t
        ∧ ObjectStep l 32 (leNat (b.drop s.me.hib).bytes) s t)
  ∧ (∀ c ∈ [Instr.barArrive, Instr.barWait, Instr.barSync, Instr.barTest, Instr.barInit, Instr.barBytes, Instr.barDrop],
    ∀ (o : Args) (s : State),
      (Machine.guard (c o) s.me = true → s.me.ordered = false →
        ((s.me.X o.a.toNat).toNat % 32 ≠ 0 ∨ inLocal (s.me.X o.a.toNat) = false) → exec (c o) s = trap 28 (s.me.X o.a.toNat) s)
      ∧ (∀ l b, AtBarrier c o s l b → b.consistent = false → s.releaseDone s.cur (max o.rsc.toNat 1) = true →
        ∃ t, exec (c o) s = .next t ∧ t.trapped = true ∧ SameLatest s t ∧ KeepsX [] s t
          ∧ (s.me.mode = .u → s.me.inShadow = false → s.me.csr.medeleg.getLsbD 28 = true →
              t.me.csr.scause = 28 ∧ t.me.csr.stval = s.me.X o.a.toNat ∧ t.me.csr.sepc = s.me.pc)))
  ∧ (∀ c ∈ [Instr.barArrive, Instr.barDrop], ∀ (o : Args) (s : State) l b, AtBarrier c o s l b → b.consistent = true →
      s.releaseDone s.cur (max o.rsc.toNat 1) = true → (32 ≤ s.me.hib ∨ bitOf b.members s.me.hib = false) →
      ∃ t, exec (c o) s = .next t ∧ t.trapped = true ∧ SameLatest s t ∧ KeepsX [] s t)
  ∧ (∀ (s : State) l, s.me.wait.code = 3 → s.me.wait.b ≠ 0 → s.barPlace s.cur s.me.wait.a = .inl l → Quiet s l 32 →
      (Bar.ofNat (s.latest s.me.tag l 32)).done (s.me.wait.b.toNat - 65536) = true →
      exec .barrierWake s = .next (s.onMe (fun x => { x with wait := {} })))

/-- R36, R188, R189: A push to a queue with room writes the entry at its tail and counts it; a pop of a queue that is not empty
reads the entry at its head, takes it out, and acquires; a full or an empty queue, or another hart of the core that issued
there earlier and waits, holds the hart. A role with no allowance and a misaligned header take cause 28; a lane register outside the
window is R36's illegal instruction. The wake step of a push that finds room, or of a pop that finds an entry, makes the first hart
of the line ready. -/
def Obligations.Queues : Prop :=
  QueuePushOp .qPush (fun q => q.esize = 4 ∨ q.esize = 8) (fun o x n => leBytes n (x.X o.d.toNat).toNat)
  ∧ QueuePushOp .qVpush (fun _ => True) (fun o x n => laneBytes x o.d.toNat n)
  ∧ (∀ (o : Args) (s : State) l base q, AtQueue .qPop o s l base q → (q.esize = 4 ∨ q.esize = 8) →
      (∀ e, e = (⟨l.place, base + q.base + q.head * q.esize⟩ : Loc) → 0 < q.count → Quiet s e q.esize →
        s.queueTurn s.cur l false = true →
        ∃ t, exec (.qPop o) s = .next t ∧ FallsThrough o.words s t ∧ KeepsX [o.d.toNat] s t ∧ KeepsV (fun _ _ => False) s t
          ∧ (o.d ≠ 0 → t.me.X o.d.toNat = BitVec.ofNat 64 (s.latest s.me.tag e q.esize))
          ∧ Queue.ofNat (t.latest s.me.tag l 32) = { q with head := (q.head + 1) % q.cap, count := q.count - 1 }
          ∧ (t.core s.myCore).defer = [])
      ∧ (q.count = 0 ∨ s.queueTurn s.cur l false = false →
        ∃ t, exec (.qPop o) s = .next t ∧ t.me.pc = s.me.pc ∧ t.me.wait.code = 4 ∧ KeepsX [] s t ∧ SameLatest s t))
  ∧ (∀ (o : Args) (s : State) l base q, AtQueue .qVpop o s l base q →
      (∀ e, e = (⟨l.place, base + q.base + q.head * q.esize⟩ : Loc) → 0 < q.count → Quiet s e q.esize →
        s.queueTurn s.cur l false = true →
        ∃ t, exec (.qVpop o) s = .next t ∧ FallsThrough o.words s t ∧ KeepsX [] s t
          ∧ KeepsV (fun r m => r = o.d.toNat ∧ m < q.esize / 4) s t
          ∧ (∀ m, m < q.esize / 4 → t.me.V o.d.toNat m = BitVec.ofNat 32 (s.latest s.me.tag (e.plus (4 * m)) 4))
          ∧ Queue.ofNat (t.latest s.me.tag l 32) = { q with head := (q.head + 1) % q.cap, count := q.count - 1 }
          ∧ (t.core s.myCore).defer = [])
      ∧ (q.count = 0 ∨ s.queueTurn s.cur l false = false →
        ∃ t, exec (.qVpop o) s = .next t ∧ t.me.pc = s.me.pc ∧ t.me.wait.code = 4 ∧ KeepsX [] s t
          ∧ KeepsV (fun _ _ => False) s t ∧ SameLatest s t))
  ∧ (∀ (o : Args) (s : State) l base q, AtQueue .qCount o s l base q →
      ∃ t, exec (.qCount o) s = .next t ∧ FallsThrough o.words s t ∧ KeepsX [o.d.toNat] s t ∧ SameLatest s t
        ∧ (o.d ≠ 0 → t.me.X o.d.toNat = BitVec.ofNat 64 q.count))
  ∧ (∀ c ∈ [Instr.qPush, Instr.qVpush, Instr.qPop, Instr.qVpop, Instr.qCount], ∀ (o : Args) (s : State), let va := s.me.X o.a.toNat
      Machine.guard (c o) s.me = true → s.me.ordered = false → (va.toNat % 32 ≠ 0 ∨ inLocal va = false) → exec (c o) s = trap 28 va s)
  ∧ (∀ c ∈ [Instr.qVpush, Instr.qVpop], ∀ (o : Args) (s : State), s.me.window ≤ o.d.toNat → exec (c o) s = illegal (c o) s)
  ∧ (∀ (s : State) l base len, s.me.wait.code = 4 → s.me.rel = none →
      s.queuePlace s.cur s.me.wait.a = some (l, base, len) → Quiet s l 32 →
      (s.me.wait.b = 1 ∧ 0 < (Queue.ofNat (s.latest s.me.tag l 32)).count ∧ s.queueTurn s.cur l false = true
        ∨ s.me.wait.b ≠ 1 ∧ s.queueTurn s.cur l true = true
          ∧ (Queue.ofNat (s.latest s.me.tag l 32)).count < min (Queue.ofNat (s.latest s.me.tag l 32)).cap
              ((Queue.ofNat (s.latest s.me.tag l 32)).allowOf s.me.role.toNat)) →
      exec .queueWake s = .next (s.onMe Hart.woken))

/-- R31, R129, R204, R205: `claim` takes the window it asks for when the core's pool has it and waits otherwise; `tryclaim`
says whether it was taken; `give` returns registers, once none of them is pending; `role` exchanges the hart's role; the waits end
when their time or their registers come. -/
def Obligations.WindowsAndRoles : Prop :=
  (∀ (o : Args) (s : State), Machine.guard (.claim o) s.me = true →
    (s.canClaim s.cur (16 * o.imm.toNat) = true →
      ∃ t, exec (.claim o) s = .next t ∧ FallsThrough o.words s t ∧ KeepsX [] s t ∧ SameStored s t
        ∧ t.me.window = max s.me.window (16 * o.imm.toNat))
    ∧ (s.canClaim s.cur (16 * o.imm.toNat) = false →
      ∃ t, exec (.claim o) s = .next t ∧ t.me = { s.me with wait := { code := 7, a := BitVec.ofNat 64 (16 * o.imm.toNat) } }))
  ∧ (∀ (o : Args) (s : State), Machine.guard (.tryclaim o) s.me = true →
    ∃ t, exec (.tryclaim o) s = .next t ∧ FallsThrough o.words s t ∧ KeepsX [o.d.toNat] s t
      ∧ (if 16 * o.imm.toNat ≤ s.me.window ∨ (s.claimers s.myCore = [] ∧ s.canClaim s.cur (16 * o.imm.toNat) = true) then
          t.me.window = max s.me.window (16 * o.imm.toNat) ∧ (o.d ≠ 0 → t.me.X o.d.toNat = 1)
        else t.me.window = s.me.window ∧ (o.d ≠ 0 → t.me.X o.d.toNat = 0)))
  ∧ (∀ (o : Args) (s : State), Machine.guard (.give o) s.me = true →
      s.me.windowPending (16 * o.imm.toNat) s.me.window = false →
    ∃ t, exec (.give o) s = .next t ∧ OnlyMe s t ∧ SameMemory s t ∧ FallsThrough o.words s t ∧ KeepsX [] s t ∧ KeepsM [] s t
      ∧ t.me.window = min s.me.window (16 * o.imm.toNat) ∧ (∀ r l, r < t.me.window → l < 32 → t.me.V r l = s.me.V r l))
  ∧ (∀ (o : Args) (s : State), Machine.guard (.give o) s.me = true → 16 * o.imm.toNat < s.me.window →
      s.me.windowPending (16 * o.imm.toNat) s.me.window = true →
      exec (.give o) s = .next (s.onMe (fun x => x.block 14 (BitVec.ofNat 64 (16 * o.imm.toNat)))))
  ∧ (∀ (o : Args) (s : State), Machine.guard (.role o) s.me = true →
    ∃ t, exec (.role o) s = .next t ∧ OnlyMe s t ∧ SameMemory s t ∧ FallsThrough o.words s t ∧ KeepsX [o.d.toNat] s t
      ∧ (o.d ≠ 0 → t.me.X o.d.toNat = s.me.role.setWidth 64) ∧ t.me.role = BitVec.ofNat 2 o.imm.toNat)
  ∧ (∀ (s : State) h hs, s.claimers s.focus.unit = h :: hs → (s.hart h).wait.code = 7 →
      s.canClaim h (s.hart h).wait.a.toNat = true → exec .claimGrant s = .next (s.onHart h Hart.woken))
  ∧ (∀ s : State, exec .yieldExpire s = .next
      (if s.me.wait.code = 11 ∧ s.me.wait.a.toNat + 16 ≤ s.cycle then s.onMe Hart.woken else s))
  ∧ (∀ s : State, exec .pauseExpire s = .next
      (if s.me.pauseEnd ≠ 0 ∧ s.me.pauseEnd ≤ s.cycle then s.onMe (fun x => { x with pauseEnd := 0, pauseLen := 0 }) else s))

/-- R191, R192, R200, R201, R202, R203, R301, R304: A send whose descriptor keeps to the limits and whose destination the gate admits
waits for its release and for room in the outbox, and then puts one message, with the header and payload given, at the end of
its core's; a remote one of a world other than the root becomes an entry of the world's log. A descriptor outside the limits is
illegal, a destination that the gate does not admit takes cause 31, and a remote one cause 26 in a sealed world. A task decrement, a put and the close of a stream send in the
same way; an open reserves a handle, and a put's acknowledgement counts it off. -/
def Obligations.Sends : Prop :=
  SendOp .msgSend (fun _ => True) (fun o h n => laneBytes h o.b.toNat n) (fun _ _ => none)
  ∧ SendOp .msgSendx (fun n => n = 0 ∨ n = 8) (fun o h n => leBytes n (h.X o.b.toNat).toNat) (fun _ _ => none)
  ∧ SendOp .msgSendw (fun _ => True) (fun o h n => laneBytes h o.b.toNat n) (fun o h => some (h.X o.d.toNat))
  ∧ (∀ (o : Args) (s : State), Machine.guard (.msgSendw o) s.me = true → (s.me.X o.d.toNat).toNat % 4 ≠ 0 →
      exec (.msgSendw o) s = illegal (.msgSendw o) s)
  ∧ (∀ (o : Args) (s : State), Machine.guard (.taskDec o) s.me = true → s.me.ordered = false → (s.me.X o.a.toNat).toNat < 4096 →
      (s.me.X o.b.toNat).toNat % 64 = 0 → (s.me.X o.b.toNat).toNat < 131072 →
      (o.d ≠ 0 → 0 < (s.me.X o.d.toNat).toNat ∧ (s.me.X o.d.toNat).toNat < 2 ^ 31) →
      s.mayReach s.cur (s.me.X o.a.toNat).toNat 0 false = true → s.releaseDone s.cur (max o.rsc.toNat 3) = true →
      s.outbox s.myCore < 16 →
    ∃ (t : State) (m : Msg), exec (.taskDec o) s = .next t ∧ t = { s with harts := t.harts, net := s.net ++ [m] } ∧ FallsThrough o.words s t
      ∧ KeepsX [] s t ∧ m.core = (s.me.X o.a.toNat).toNat ∧ m.tag = 255
      ∧ m.dec = some ((s.me.X o.b.toNat).toNat, if o.d = 0 then 1 else (s.me.X o.d.toNat).toNat))
  ∧ (∀ (o : Args) (s : State) n st, Machine.guard (.strmPut o) s.me = true → s.me.ordered = false → n < 4 →
      (s.me.X o.a.toNat).toNat = n → s.me.streams.look n = some st → st.unacked < 8 →
      descOf st.desc st.reply (fun _ => true) ≠ none → (bitOf st.desc.toNat 42 = false ∨ s.me.tag = 0) → s.outbox s.myCore < 16 →
    ∃ (t : State) (m : Msg), exec (.strmPut o) s = .next t ∧ t = { s with harts := t.harts, net := s.net ++ [m] } ∧ FallsThrough o.words s t
      ∧ m.put = some (putKey s.cur s.me n) ∧ m.payload = laneBytes s.me o.b.toNat (bitsOf st.desc.toNat 28 22)
      ∧ t.me.streams.look n = some { st with unacked := st.unacked + 1 })
  ∧ (∀ (o : Args) (s : State), let d := (s.me.X o.a.toNat).toNat
      Machine.guard (.strmOpen o) s.me = true → s.me.ordered = false → bitsOf d 31 29 = 0 → d < 2 ^ 42 →
      bitsOf d 28 22 % 4 = 0 → 4 ≤ bitsOf d 28 22 → bitsOf d 28 22 ≤ 64 → (s.me.X (o.a.toNat + 1)).toNat % 8 = 0 →
      s.mayReach s.cur (bitsOf d 11 0) (bitsOf d 41 32) false = true → s.releaseDone s.cur (max o.rsc.toNat 3) = true →
    ∃ t, exec (.strmOpen o) s = .next t ∧ OnlyMe s t ∧ FallsThrough o.words s t ∧ KeepsX [o.d.toNat] s t
      ∧ ((∀ n, n < 4 → Tab.has s.me.streams n = true) → (o.d ≠ 0 → t.me.X o.d.toNat = -1) ∧ t.me.streams = s.me.streams)
      ∧ (∀ n, n < 4 → Tab.has s.me.streams n = false → (∀ k, k < n → Tab.has s.me.streams k = true) →
          (o.d ≠ 0 → t.me.X o.d.toNat = BitVec.ofNat 64 n)
          ∧ t.me.streams.look n = some { desc := s.me.X o.a.toNat, reply := s.me.X (o.a.toNat + 1) }))
  ∧ (∀ (o : Args) (s : State) n, let d := (s.me.X o.a.toNat).toNat
      Machine.guard (.strmOpen o) s.me = true → s.me.ordered = false → bitsOf d 31 29 = 0 → d < 2 ^ 43 → bitOf d 42 = true →
      bitsOf d 28 22 % 4 = 0 → 4 ≤ bitsOf d 28 22 → bitsOf d 28 22 ≤ 64 → (s.me.X (o.a.toNat + 1)).toNat % 8 = 0 →
      s.mayReach s.cur (bitsOf d 11 0) (bitsOf d 41 32) true = true → s.releaseDone s.cur 4 = true → s.me.tag = 0 →
      s.outbox s.myCore < 16 → n < 4 → Tab.has s.me.streams n = false → (∀ k, k < n → Tab.has s.me.streams k = true) →
    ∃ (t : State) (m : Msg), exec (.strmOpen o) s = .next t ∧ t = { s with harts := t.harts, net := s.net ++ [m] }
      ∧ FallsThrough o.words s t ∧ KeepsX [o.d.toNat] s t ∧ m.opening = true ∧ m.dstModule = bitsOf d 41 32
      ∧ (o.d ≠ 0 → t.me.X o.d.toNat = BitVec.ofNat 64 n)
      ∧ t.me.streams.look n = some { desc := s.me.X o.a.toNat, reply := s.me.X (o.a.toNat + 1) })
  ∧ (∀ (o : Args) (s : State) n st, Machine.guard (.strmClose o) s.me = true → s.me.ordered = false → n < 4 →
      (s.me.X o.a.toNat).toNat = n → s.me.streams.look n = some st → st.unacked = 0 →
      descOf st.desc st.reply (fun _ => true) ≠ none → (bitOf st.desc.toNat 42 = false ∨ s.me.tag = 0) →
      s.releaseDone s.cur (if bitOf st.desc.toNat 42 then 4 else max o.rsc.toNat 3) = true → s.outbox s.myCore < 16 →
    ∃ (t : State) (m : Msg), exec (.strmClose o) s = .next t ∧ t = { s with harts := t.harts, net := s.net ++ [m] } ∧ FallsThrough o.words s t
      ∧ m.last = true ∧ m.len = 0 ∧ Tab.has t.me.streams n = false)
  ∧ (∀ (s : State) st, s.me.streams.look s.focus.item = some st → 0 < st.acks →
    ∃ t, exec .strmPutAck s = .next t ∧ OnlyMe s t ∧ SameMemory s t
      ∧ t.me.streams.look s.focus.item = some { st with unacked := st.unacked - 1, acks := st.acks - 1 })

/-- R49, R193, R194, R195, R197, R198, R202: A message arrives in its core's inbox in order; the tag table is written and
read; a receive takes the oldest message of its tag with its header and payload; a handler starts in a free slot with the
header, reply, time, write address and key in its argument registers, on an idle tinker in S mode with the attachment cleared; a user
interrupt is delivered at a boundary. That `uicause.prio` takes the effective priority is the model's choice (log 58). -/
def Obligations.Arrivals : Prop :=
  (∀ (s : State) n m, s.net[n]? = some m → m.answer = none → m.special = false → s.behind n m = false → s.gangHeld m.gang = false →
      m.remote = false → s.refuses m = false → (s.core m.core).inbox.length < 64 → m.held = none → m.write = none → m.put = none →
      m.reply = 0 →
    ∃ t, exec (.msgArrive (.net n)) s = .next t ∧ t = { s with net := s.net.eraseIdx n, cores := t.cores }
      ∧ t.core m.core = { s.core m.core with inbox := (s.core m.core).inbox ++ [{ m with arrival := s.cycle }] }
      ∧ ∀ c, c ≠ m.core → t.core c = s.core c)
  ∧ (∀ (o : Args) (s : State), let w := s.me.X o.b.toNat
      Machine.guard (.msgTset o) s.me = true → s.me.ordered = false → (s.me.X o.a.toNat).toNat < 256 →
      bitsOf w.toNat 1 0 ≠ 3 → w.getLsbD 9 = false → (s.me.tinker = true → bitsOf w.toNat 1 0 = 0) →
    ∃ t, exec (.msgTset o) s = .next t ∧ FallsThrough o.words s t ∧ KeepsX [] s t
      ∧ t.core s.myCore = { s.core s.myCore with tags := (t.core s.myCore).tags }
      ∧ (∀ k, Tab.get (t.core s.myCore).tags 0 k = if k = (s.me.X o.a.toNat).toNat then w &&& ~~~ 0x220#64 else Tab.get (s.core s.myCore).tags 0 k))
  ∧ (∀ (o : Args) (s : State), Machine.guard (.msgTget o) s.me = true → s.me.ordered = false → (s.me.X o.a.toNat).toNat < 256 →
    ∃ t, exec (.msgTget o) s = .next t ∧ WritesX o.words o.d.toNat (Tab.get (s.core s.myCore).tags 0 (s.me.X o.a.toNat).toNat
      ||| (if (s.core s.myCore).inbox.any (fun m => m.tag == (s.me.X o.a.toNat).toNat) then 32 else 0)) s t)
  ∧ (∀ (o : Args) (s : State) n m, let tag := bitsOf (s.me.X o.a.toNat).toNat 7 0
      Machine.guard (.msgRecv o) s.me = true → s.me.ordered = false → (s.core s.myCore).inbox[n]? = some m → m.tag = tag → m.dec = none →
      (∀ k, k < n → ∀ m', (s.core s.myCore).inbox[k]? = some m' → m'.tag = tag → m'.dec ≠ none) →
      (bitsOf ((s.core s.myCore).tagWord tag) 1 0 = 1 ∨ bitsOf ((s.core s.myCore).tagWord tag) 1 0 = 2) →
      (Tab.get (s.ctx s.cur).profile 0 2) = 0 → m.payload.length % 4 = 0 → m.payload.length ≤ 128 →
    ∃ t, exec (.msgRecv o) s = .next t ∧ FallsThrough o.words s t ∧ KeepsX [o.d.toNat] s t
      ∧ (t.core s.myCore).inbox = (s.core s.myCore).inbox.eraseIdx n ∧ (t.core s.myCore).defer = []
      ∧ (o.d ≠ 0 → t.me.X o.d.toNat = headerWord s.domain.module (s.core s.myCore) m)
      ∧ (∀ l, l < m.payload.length / 4 → t.me.V o.b.toNat l = BitVec.ofNat 32 (leNat ((m.payload.drop (4 * l)).take 4)))
      ∧ KeepsV (fun r l => r = o.b.toNat ∧ l < m.payload.length / 4) s t)
  ∧ (∀ (o : Args) (s : State), Machine.guard (.msgRecv o) s.me = true → s.me.ordered = false →
      (∀ m ∈ (s.core s.myCore).inbox, m.tag = bitsOf (s.me.X o.a.toNat).toNat 7 0 → m.dec ≠ none) →
    ∃ t, exec (.msgRecv o) s = .next t ∧ WritesX o.words o.d.toNat 0 s t)
  ∧ (∀ (o : Args) (s : State), Machine.guard (.taskTake o) s.me = true → s.me.ordered = false → s.me.tinker = false →
      taskHost (s.core s.myCore) s.myCore = s.cur →
    ∃ t, exec (.taskTake o) s = .next t ∧ FallsThrough o.words s t ∧ KeepsX [o.d.toNat] s t
      ∧ (t.core s.myCore).ring = (s.core s.myCore).ring.tail
      ∧ (o.d ≠ 0 → t.me.X o.d.toNat = match (s.core s.myCore).ring with
          | off :: _ => BitVec.ofNat 64 off
          | [] => -1))
  ∧ (∀ (s : State) m off n, s.focus.code ≠ 1 → s.net[s.focus.item]? = some m → m.dec = some (off, n) → s.behind s.focus.item m = false →
      s.refuses m = false → m.reply = 0 →
      let x := s.hart (taskHost (s.core m.core) m.core)
      x.live = true → x.resident = true → off + 64 ≤ x.tcmSize →
      let k := leNat ((s.core m.core).tcm.readBytes (x.tcmBase + off + 8) 4)
      k < 2 ^ 31 → 0 < k →
    (k ≤ n → (s.core m.core).ring.length = 64 → (s.core m.core).inbox.length < 64 →
      ∃ t, exec .taskDecArrive s = .next t ∧ t.net = s.net.eraseIdx s.focus.item
        ∧ t.core m.core = { s.core m.core with inbox := (s.core m.core).inbox ++ [{ m with arrival := s.cycle }] })
    ∧ (k ≤ n → (s.core m.core).ring.length < 64 →
      ∃ t, exec .taskDecArrive s = .next t ∧ t.net = s.net.eraseIdx s.focus.item
        ∧ leNat ((t.core m.core).tcm.readBytes (x.tcmBase + off + 8) 4) = 0
        ∧ (t.core m.core).tcm.read (x.tcmBase + off + 12) = (s.core m.core).tcm.read (x.tcmBase + off + 12) ||| 1
        ∧ (t.core m.core).ring = (s.core m.core).ring ++ [off])
    ∧ (n < k →
    ∃ t, exec .taskDecArrive s = .next t ∧ t.net = s.net.eraseIdx s.focus.item
      ∧ leNat ((t.core m.core).tcm.readBytes (x.tcmBase + off + 8) 4) = k - n
      ∧ (∀ a, (a < x.tcmBase + off + 8 ∨ x.tcmBase + off + 12 ≤ a) → (t.core m.core).tcm.read a = (s.core m.core).tcm.read a)
      ∧ (t.core m.core).ring = (s.core m.core).ring))
  ∧ (∀ (s : State) n m i base, s.focus.unit < Config.cores → s.focus.code ≠ 1 → s.coreHeld s.focus.unit = false →
      let c := s.core s.focus.unit
      (c.startOrder (fun m => bitsOf (c.tagWord m.tag) 1 0 == 0 && bitOf (c.tagWord m.tag) 4)).head? = some (n, m) →
      (List.range 8).find? (fun i => (s.hart (hartAt s.focus.unit i)).slotFree) = some i →
      fitAt 1 (s.tcmHeld s.focus.unit) Config.tcmBytes 2048 = some base → 16 ≤ s.poolFree s.focus.unit →
      Tab.get (Tab.get s.ctxs {} (c.holder.getD 0)).profile 0 2 = 0 →
    ∃ t, exec .handlerStart s = .next t ∧ (t.core s.focus.unit).inbox = c.inbox.eraseIdx n
      ∧ (let y := t.hart (hartAt s.focus.unit i)
         y.live = true ∧ y.resident = true ∧ y.handler = true ∧ y.mode = .u ∧ y.window = 16
         ∧ y.pc = BitVec.ofNat 64 (bitsOf (c.tagWord m.tag) 63 10) <<< 2
         ∧ y.X 10 = headerWord s.domain.module c m ∧ y.X 11 = m.reply ∧ y.X 12 = BitVec.ofNat 64 m.time ∧ y.X 13 = m.write.getD 0
         ∧ y.X 14 = BitVec.ofNat 64 m.key)
      ∧ ∀ h, h ≠ hartAt s.focus.unit i → t.hart h = s.hart h)
  ∧ (∀ (s : State) n m, Config.cores ≤ s.focus.unit → s.focus.unit < Config.cores + Config.tinkers → s.focus.code ≠ 1 →
      s.coreHeld s.focus.unit = false →
      let c := s.core s.focus.unit
      (c.startOrder (fun m => bitsOf (c.tagWord m.tag) 1 0 == 0 && bitOf (c.tagWord m.tag) 4)).head? = some (n, m) →
      (s.hart (hartAt s.focus.unit 0)).idle = true → Tab.get (Tab.get s.ctxs {} (c.holder.getD 0)).profile 0 2 = 0 →
    ∃ t, exec .handlerStart s = .next t ∧ (t.core s.focus.unit).inbox = c.inbox.eraseIdx n
      ∧ (let y := t.hart (hartAt s.focus.unit 0)
         y.live = true ∧ y.idle = false ∧ y.mode = .s ∧ y.att = {}
         ∧ y.pc = BitVec.ofNat 64 (bitsOf (c.tagWord m.tag) 63 10) <<< 2 ∧ y.X 10 = headerWord s.domain.module c m))
  ∧ (∀ (s : State) n m, s.me.mayInterrupt = true → s.coreHeld s.myCore = false → ringInterrupt s s.cur = false →
      interruptFor s s.cur = some (n, m) →
    ∃ t, exec .uintDeliver s = .next t ∧ (∀ h, h ≠ s.cur → t.hart h = s.hart h) ∧ t.me = { s.me with
        uiepc := s.me.pc &&& ~~~ 3#64, ucTag := BitVec.ofNat 8 m.tag, ucPrio := BitVec.ofNat 2 ((s.core s.myCore).effPrio m)
        uie := false, pc := s.me.uitvec &&& ~~~ 3#64, attU := s.me.att, att := {}, wait := {}, rel := none
        pauseU := (if s.cycle < s.me.pauseEnd then s.me.pauseLen else 0) :: s.me.pauseU, pauseLen := 0, pauseEnd := 0
        taken := some (whoOf m, s.cycle) })

/-! ### Engines and accumulators -/

/-- R235, R236, R238, R243, R245, R246, R252, R263: A command whose descriptor keeps to the rules is entered, with room in the queue,
under the next ticket, and its hart goes on with the promise word of that ticket, at least 32 clk ahead; without room its hart waits
with the command that it has read, and a copy read so is entered when its turn comes. Any other descriptor takes cause 29 with the
instruction's first word, and one whose rows or scales name a closed domain window cause 31. The number that a promise holds beyond the bound
stated is the model's figure (log 9). -/
def Obligations.EngineAcceptance : Prop :=
  CopyCommandOp .eCopy 0 ∧ CopyCommandOp .eMcast 1 ∧ CopyCommandOp .eCadd 2 ∧ CopyCommandOp .eGath 3 ∧ CopyCommandOp .eScat 4
  ∧ (∀ (o : Args) (s : State), Machine.guard (.eMma o) s.me = true → s.me.ordered = false → s.me.holdsQueued = false →
      (∀ d, (s.descriptor s.cur (s.me.X o.a.toNat)).bind matDesc = some d → s.matOk s.cur d = true →
        (∀ va, s.scaleGate s.cur d s.me.sbase s.me.sshift.toNat = some va → exec (.eMma o) s = trap 31 va s)
        ∧ (s.scaleGate s.cur d s.me.sbase s.me.sshift.toNat = none → s.entriesFor s.cur 1 = true →
          ∃ (t : State) (k : EngCmd), exec (.eMma o) s = .next t ∧ Entered o [k] s t ∧ k.kind = 5 ∧ k.mat = d ∧ k.hart = s.cur
            ∧ k.sbase = s.me.sbase ∧ k.sshift = s.me.sshift.toNat
            ∧ (t.core s.myCore).array = (s.core s.myCore).array ++ [k.ticket])
        ∧ (s.scaleGate s.cur d s.me.sbase s.me.sshift.toNat = none → s.entriesFor s.cur 1 = false →
          ∃ t, exec (.eMma o) s = .next t ∧ WaitsForEntry s t))
      ∧ (((s.descriptor s.cur (s.me.X o.a.toNat)).bind matDesc = none
          ∨ ∃ d, (s.descriptor s.cur (s.me.X o.a.toNat)).bind matDesc = some d ∧ s.matOk s.cur d = false) →
        exec (.eMma o) s = trap 29 ((Instr.eMma o).word.setWidth 64) s))
  ∧ (∀ (o : Args) (s : State) d m, Machine.guard (.eCmma o) s.me = true → s.me.ordered = false → s.me.holdsQueued = false →
      (s.descriptor s.cur (s.me.X o.a.toNat)).bind copyDesc = some d → (s.descriptor s.cur (s.me.X o.b.toNat)).bind matDesc = some m →
      (s.copyOk s.cur 6 d = true → s.matOk s.cur m = true → s.copyGate s.cur 6 d = none →
        s.scaleGate s.cur m s.me.sbase s.me.sshift.toNat = none → s.copyWorldFault d = none →
        (s.entriesFor s.cur 2 = true →
          ∃ (t : State) (k f : EngCmd), exec (.eCmma o) s = .next t ∧ Entered o [k, f] s t
            ∧ (t.core s.myCore).array = (s.core s.myCore).array ∧ k.kind = 0 ∧ k.cop = d ∧ f.kind = 5 ∧ f.mat = m
            ∧ f.ticket = (k.ticket + 1) % 65536)
        ∧ (s.entriesFor s.cur 2 = false → ∃ t, exec (.eCmma o) s = .next t ∧ WaitsForEntry s t))
      ∧ (∀ va, s.copyOk s.cur 6 d = true → s.matOk s.cur m = true →
          (s.copyGate s.cur 6 d).or (s.scaleGate s.cur m s.me.sbase s.me.sshift.toNat) = some va → exec (.eCmma o) s = trap 31 va s)
      ∧ (s.copyOk s.cur 6 d = false ∨ s.matOk s.cur m = false →
        exec (.eCmma o) s = trap 29 ((Instr.eCmma o).word.setWidth 64) s))
  ∧ (∀ (o : Args) (s : State), let n := (s.me.X o.b.toNat).toNat
      let a := s.me.X o.a.toNat
      let legal := 0 < n ∧ n ≤ 4096 ∧ a.toNat % 2 = 0 ∧ (inLocal a = true → s.inView s.cur (a, 2 * n) (fun _ => true) = true)
      Machine.guard (.eScale o) s.me = true → s.me.ordered = false → s.me.holdsQueued = false →
      (legal → s.shutAt s.cur a (2 * n) = none →
        (s.entriesFor s.cur 1 = true →
          ∃ (t : State) (k : EngCmd), exec (.eScale o) s = .next t ∧ Entered o [k] s t ∧ k.kind = 7 ∧ k.sbase = a ∧ k.scount = n
            ∧ (t.core s.myCore).array = (s.core s.myCore).array ++ [k.ticket])
        ∧ (s.entriesFor s.cur 1 = false → ∃ t, exec (.eScale o) s = .next t ∧ WaitsForEntry s t))
      ∧ (¬ legal → exec (.eScale o) s = trap 29 ((Instr.eScale o).word.setWidth 64) s)
      ∧ (∀ va, legal → s.shutAt s.cur a (2 * n) = some va → exec (.eScale o) s = trap 31 va s))

/-- R43, R247, R248, R249: sleeping on a ticket that has ended goes on, on one outstanding waits for its promised cycle, and
past it takes cause 25; a poll of an ended ticket gives 0, and of one outstanding its current promise, always later than now; the
status bits are read and cleared, and a clearing word of 32 or more is illegal; accumulator rows are zeroed, read and written, once no
earlier matrix command of the hart names the tile, and a row of 64 or more is illegal. That a write waits too for another hart's
command that computes on its tile, and a read for one that a save has stopped there, is the model's reading (log 46). -/
def Obligations.PromisesAndAccumulators : Prop :=
  (∀ (o : Args) (s : State), let w := s.me.X o.a.toNat
    Machine.guard (.eSleep o) s.me = true → s.me.ordered = false →
    (s.outstanding s.myCore (bitsOf w.toNat 63 48) = false →
      ∃ t, exec (.eSleep o) s = .next t ∧ RegisterFrame o.words s t ∧ KeepsX [] s t ∧ KeepsM [] s t ∧ KeepsV (fun _ _ => False) s t)
    ∧ (s.outstanding s.myCore (bitsOf w.toNat 63 48) = true → reached s.cycle (bitsOf w.toNat 47 0) = true →
      exec (.eSleep o) s = trap 25 (BitVec.ofNat 64 (bitsOf w.toNat 47 0)) s)
    ∧ (s.outstanding s.myCore (bitsOf w.toNat 63 48) = true → reached s.cycle (bitsOf w.toNat 47 0) = false →
      exec (.eSleep o) s = .next (s.onMe (fun x => { x with wait := { code := 6, a := w } }))))
  ∧ (∀ (o : Args) (s : State), Machine.guard (.ePoll o) s.me = true → s.me.ordered = false →
    (s.core s.myCore).command (bitsOf (s.me.X o.a.toNat).toNat 63 48) = none →
    ∃ t, exec (.ePoll o) s = .next t ∧ WritesX o.words o.d.toNat 0 s t)
  ∧ (∀ (o : Args) (s : State) (k : EngCmd), Machine.guard (.ePoll o) s.me = true → s.me.ordered = false →
    (s.core s.myCore).command (bitsOf (s.me.X o.a.toNat).toNat 63 48) = some k →
    ∃ t p, exec (.ePoll o) s = .next t ∧ FallsThrough o.words s t ∧ KeepsX [o.d.toNat] s t ∧ s.cycle < p
      ∧ (s.cycle < k.promise → p = k.promise)
      ∧ (t.core s.myCore).command (bitsOf (s.me.X o.a.toNat).toNat 63 48) = some { k with promise := p }
      ∧ (o.d ≠ 0 → t.me.X o.d.toNat = BitVec.ofNat 64 (bitsOf (s.me.X o.a.toNat).toNat 63 48 * 2 ^ 48 + p % 2 ^ 48)))
  ∧ (∀ (o : Args) (s : State), Machine.guard (.eStat o) s.me = true → s.me.ordered = false →
    ∃ t, exec (.eStat o) s = .next t ∧ WritesX o.words o.d.toNat (s.me.estat.setWidth 64) s t)
  ∧ (∀ (o : Args) (s : State), Machine.guard (.eStatclr o) s.me = true → s.me.ordered = false →
    ((s.me.X o.a.toNat).toNat < 32 →
      ∃ t, exec (.eStatclr o) s = .next t ∧ OnlyMe s t ∧ SameMemory s t ∧ FallsThrough o.words s t ∧ KeepsX [] s t
        ∧ t.me.estat = s.me.estat &&& ~~~ (s.me.X o.a.toNat).setWidth 5)
    ∧ (32 ≤ (s.me.X o.a.toNat).toNat → exec (.eStatclr o) s = illegal (.eStatclr o) s))
  ∧ (∀ (o : Args) (s : State), s.me.ordered = false →
      (∀ e ∈ (s.core s.myCore).engine, e.kind = 5 → e.mat.tile = o.a.toNat → e.hart ≠ s.cur ∧ e.begun = false) →
    (Machine.guard (.accZero o) s.me = true →
      ∃ t, exec (.accZero o) s = .next t ∧ FallsThrough o.words s t ∧ KeepsX [] s t
        ∧ ∀ n, (t.core s.myCore).acc.read n
            = if o.a.toNat * 0x4000 ≤ n ∧ n < o.a.toNat * 0x4000 + 0x4000 then 0 else (s.core s.myCore).acc.read n)
    ∧ (Machine.guard (.accWr o) s.me = true → (s.me.X o.b.toNat).toNat < 64 →
      ∃ t, exec (.accWr o) s = .next t ∧ FallsThrough o.words s t ∧ KeepsX [] s t ∧ KeepsV (fun _ _ => False) s t
        ∧ (∀ l ∈ active s.me o, (t.core s.myCore).accElem o.a.toNat (s.me.X o.b.toNat).toNat l = s.me.V o.d.toNat l
            ∧ (t.core s.myCore).accElem o.a.toNat (s.me.X o.b.toNat).toNat (32 + l) = s.me.V (o.d.toNat + 1) l)
        ∧ (∀ l, l < 32 → l ∉ active s.me o → (t.core s.myCore).accElem o.a.toNat (s.me.X o.b.toNat).toNat l
            = (s.core s.myCore).accElem o.a.toNat (s.me.X o.b.toNat).toNat l)
        ∧ ∀ tile row col, tile < 4 → row < 64 → col < 64 → (tile ≠ o.a.toNat ∨ row ≠ (s.me.X o.b.toNat).toNat) →
            (t.core s.myCore).accElem tile row col = (s.core s.myCore).accElem tile row col)
    ∧ (Machine.guard (.accWr o) s.me = true → 64 ≤ (s.me.X o.b.toNat).toNat → exec (.accWr o) s = illegal (.accWr o) s))
  ∧ (∀ (o : Args) (s : State), s.me.ordered = false → Machine.guard (.accRd o) s.me = true →
      (∀ e ∈ (s.core s.myCore).engine, e.kind = 5 → e.mat.tile = o.a.toNat → e.hart ≠ s.cur ∧ ¬ (e.begun = true ∧ e.stopped = true)) →
    ((s.me.X o.b.toNat).toNat < 64 →
      ∃ t, exec (.accRd o) s = .next t ∧ RegisterFrame o.words s t ∧ KeepsX [] s t ∧ KeepsM [] s t
        ∧ KeepsV (fun r l => (r = o.d.toNat ∨ r = o.d.toNat + 1) ∧ l ∈ active s.me o) s t
        ∧ ∀ l ∈ active s.me o, t.me.V o.d.toNat l = (s.core s.myCore).accElem o.a.toNat (s.me.X o.b.toNat).toNat l
          ∧ t.me.V (o.d.toNat + 1) l = (s.core s.myCore).accElem o.a.toNat (s.me.X o.b.toNat).toNat (32 + l))
    ∧ (64 ≤ (s.me.X o.b.toNat).toNat → exec (.accRd o) s = illegal (.accRd o) s))
  ∧ (∀ (o : Args) (s : State) e, s.me.ordered = false → e ∈ (s.core s.myCore).engine → e.kind = 5 → e.mat.tile = o.a.toNat →
      e.hart = s.cur →
    (Machine.guard (.accZero o) s.me = true → exec (.accZero o) s = .next (s.onMe (fun x => x.block 17 1)))
    ∧ (Machine.guard (.accRd o) s.me = true → exec (.accRd o) s = .next (s.onMe (fun x => x.block 17 1)))
    ∧ (Machine.guard (.accWr o) s.me = true → exec (.accWr o) s = .next (s.onMe (fun x => x.block 17 1))))

/-- R235, R240, R246, R247, R252, R253, R256, R257, R264, R333: the engines start the command whose turn it is, with the stores of its
hart performed, and the array loads the tile of
one that it takes, unless the command clears it; a piece of a row of a copy is written at its destination; a copy that is done and
published leaves the queue and its hart's done flags; the follow-on of an `e.cmma` takes its place with the last byte of its copy;
freed entries are granted in order; at a heartbeat tick no promise decreases; a missed promise takes cause 25. That a copy moves one
piece of a row at a step is the model's choice (log 46). -/
def Obligations.EngineSteps : Prop :=
  (∀ (s : State) (k : EngCmd), s.focus.code ≠ 1 → s.nextCopy s.focus.unit = some k →
    ∃ t, exec .copyStart s = .next t ∧ t = { s.drainOwn k.hart with cores := t.cores }
      ∧ (t.core s.focus.unit).command k.ticket = some { k with started := some s.cycle, begun := true })
  ∧ (∀ (s : State) (k : EngCmd) c off n, s.focus.code = 1 → WritesNext s k c off n → k.paired = false →
    ∃ t, exec .copyStart s = .next t
      ∧ (t.core c).tcm.readBytes (off + k.put % k.cop.rowbytes) n = k.buf.take n
      ∧ (∀ a, (a < off + k.put % k.cop.rowbytes ∨ off + k.put % k.cop.rowbytes + n ≤ a) →
          (t.core c).tcm.read a = (s.core c).tcm.read a)
      ∧ (t.core s.focus.unit).command s.focus.item = some { k with put := k.put + n, buf := k.buf.drop n })
  ∧ (∀ (s : State) (k : EngCmd), (s.core s.focus.unit).arrayHead = some k → k.started = none →
    s.sourceReady k = true → ∃ t, exec .matrixTake s = .next t ∧ t = { s.drainOwn k.hart with cores := t.cores }
      ∧ (t.core s.focus.unit).command k.ticket = some { k with
          started := some s.cycle, begun := true
          tile := if k.begun then k.tile
            else if k.kind = 5 ∧ k.mat.zero = false then ((s.drainOwn k.hart).core s.focus.unit).tileOf k.mat.tile else [] })
  ∧ (∀ (s : State) (k : EngCmd), (s.core s.focus.unit).command s.focus.item = some k → coreOf k.hart = s.focus.unit → k.kind ≤ 4 →
      k.paired = false → k.started ≠ none → k.stopped = false → k.stopping = false → k.dropped = false → s.suspended k = false →
      k.cop.count ≤ k.put → k.cop.bar = 0 → s.publishedAll k = true →
    ∃ t, exec .engineComplete s = .next t ∧ (t.core s.focus.unit).command s.focus.item = none ∧ SameStored s t
      ∧ (∀ e ∈ (t.hart k.hart).engFlags, e.ticket ≠ k.ticket)
      ∧ ∀ n, (t.hart k.hart).X n = (s.hart k.hart).X n)
  ∧ (∀ (s : State) (k : EngCmd) c off n, WritesNext s k c off n → k.paired = true → k.cop.count ≤ k.put + n →
      (s.core s.focus.unit).array.contains ((k.ticket + 1) % 65536) = false →
    ∃ t, exec .cmmaFollowon s = .next t
      ∧ (t.core c).tcm.readBytes (off + k.put % k.cop.rowbytes) n = k.buf.take n
      ∧ (t.core s.focus.unit).array = (s.core s.focus.unit).array ++ [(k.ticket + 1) % 65536])
  ∧ (∀ (s : State) h hs, s.engineWaiters s.focus.unit = h :: hs → (s.hart h).wait.code = 12 → (s.core s.focus.unit).engine.length < 32 →
      exec .engineEntryGrant s = .next (s.onHart h Hart.woken))
  ∧ (∀ s : State, s.cycle % 256 = 0 → ∃ t, exec .promiseRecompute s = .next t ∧ t = { s with cores := t.cores }
      ∧ (t.core s.focus.unit).engine.length = (s.core s.focus.unit).engine.length
      ∧ ∀ (i : Nat) (k : EngCmd), (s.core s.focus.unit).engine[i]? = some k →
          ∃ p, (t.core s.focus.unit).engine[i]? = some { k with promise := p } ∧ k.promise ≤ p ∧ s.cycle + 32 ≤ p)
  ∧ (∀ s : State, s.me.wait.code = 6 → s.outstanding s.myCore (bitsOf s.me.wait.a.toNat 63 48) = true →
      reached s.cycle (bitsOf s.me.wait.a.toNat 47 0) = true →
      exec .promiseMissed s = trap 25 (BitVec.ofNat 64 (bitsOf s.me.wait.a.toNat 47 0)) s)

/-! ### Worlds and instrumentation -/

/-- R271, R272, R273, R274, R291, R308, R311: A fork that passes its checks takes the lowest free tags, makes a running world
of each under the hart's own, and seals that; a join answers 0 once every child has finished; a query tells whether it has;
abandoning and choosing close the fork. A hart with no fork open gets 3. Committing a world into the root publishes the bytes
of its versions and leaves none under its tag; freeing a tag that is ending leaves nothing under it, and zeros where its log lay. -/
def Obligations.Worlds : Prop :=
  ((∀ (o : Args) (s : State) l, let addr := s.me.X o.a.toNat
    let k := (s.me.X o.b.toNat).toNat
    let job := standardJob (.wFork o) .load 128 addr 0 s.me
    Machine.guard (.wFork o) s.me = true → 1 ≤ k → k ≤ 8 → addr.toNat % 128 = 0 → s.me.fork = none → Placed s job →
    s.reach s.cur addr 128 .load = .here l → NothingFirst s job [l] →
    recordOk (s.recordBytes s.cur 128 addr (.at l)) (s.ctx s.cur).cap false = true → s.me.wdepth ≠ 4 → k ≤ s.freeTags.length →
    s.overlayUsed (ctxOf s s.cur) + 6 * k ≤ (s.ctx s.cur).ovpages → s.releaseDone s.cur 3 = true →
    (s.me.tag ≠ 0 → (Tab.get s.worlds {} s.me.tag).state = .running) →
    ∃ t, exec (.wFork o) s = .next t ∧ FallsThrough o.words s t ∧ KeepsX [o.d.toNat] s t
      ∧ t.me.fork = some { tags := s.freeTags.take k, launches := (List.range k).map (· + s.nextLaunch) }
      ∧ (∀ (i tag : Nat), (s.freeTags.take k)[i]? = some tag → ∃ w, t.worlds.look tag = some w ∧ w.state = .running
          ∧ w.parent = s.me.tag ∧ w.index = i ∧ w.depth = s.me.wdepth + 1 ∧ w.pages = [] ∧ w.log = [])
      ∧ (s.me.tag ≠ 0 → (Tab.get t.worlds {} s.me.tag).state = .sealed)
      ∧ (o.d ≠ 0 → t.me.X o.d.toNat = BitVec.ofNat 64 (((s.freeTags.take k).zipIdx.map (fun e => e.1 * 64 ^ e.2)).sum + k * 2 ^ 48)))
  ∧ (∀ (o : Args) (s : State), s.me.fork = none →
      (Machine.guard (.wJoin o) s.me = true → ∃ t, exec (.wJoin o) s = .next t ∧ WritesX o.words o.d.toNat 3 s t)
      ∧ (Machine.guard (.wAbandon o) s.me = true → ∃ t, exec (.wAbandon o) s = .next t ∧ WritesX o.words o.d.toNat 3 s t)
      ∧ (Machine.guard (.wChoose o) s.me = true → ∃ t, exec (.wChoose o) s = .next t ∧ WritesX o.words o.d.toNat 3 s t))
  ∧ (∀ (o : Args) (s : State) f, Machine.guard (.wJoin o) s.me = true → s.me.fork = some f →
      ((∀ tag ∈ f.tags, (Tab.get s.worlds {} tag).state = .finished) →
        ∃ t, exec (.wJoin o) s = .next t ∧ FallsThrough o.words s t ∧ CachesOnly s t ∧ KeepsX [o.d.toNat] s t
          ∧ (o.d ≠ 0 → t.me.X o.d.toNat = 0) ∧ (t.core s.myCore).defer = [])
      ∧ ((∃ tag ∈ f.tags, (Tab.get s.worlds {} tag).state ≠ .finished) →
        exec (.wJoin o) s = .next (s.onMe (fun x => { x with wait := { code := 9 } }))))
  ∧ (∀ (o : Args) (s : State) f (tag : Nat), Machine.guard (.wQuery o) s.me = true → s.me.fork = some f →
      f.tags[(s.me.X o.a.toNat).toNat]? = some tag →
      ∃ t, exec (.wQuery o) s = .next t ∧ WritesX o.words o.d.toNat (BitVec.ofNat 64 ((if (Tab.get s.worlds {} tag).state = .finished then 1 else 0)
        + tag * 2 ^ 8 + (Tab.get s.worlds {} tag).pages.length % 2 ^ 32 * 2 ^ 16 + (Tab.get s.worlds {} tag).log.length * 2 ^ 48)) s t)
  ∧ (∀ (o : Args) (s : State) f, Machine.guard (.wAbandon o) s.me = true → s.me.fork = some f →
      ∃ t, exec (.wAbandon o) s = .next t ∧ t.me.fork = none ∧ (o.d ≠ 0 → t.me.X o.d.toNat = 0))
  ∧ (∀ (o : Args) (s : State) f (tag : Nat), Machine.guard (.wChoose o) s.me = true → s.me.fork = some f → f.commit = none →
      f.tags[(s.me.X o.a.toNat).toNat]? = some tag →
      ((Tab.get s.worlds {} tag).state ≠ .finished → ∃ t, exec (.wChoose o) s = .next t ∧ WritesX o.words o.d.toNat 4 s t)
      ∧ ((Tab.get s.worlds {} tag).state = .finished → (Tab.get s.worlds {} tag).log = [] → s.me.tag = 0 → s.me.oplog = [] →
        ∃ t, exec (.wChoose o) s = .next t ∧ t.me.fork = none ∧ (o.d ≠ 0 → t.me.X o.d.toNat = 0))))
  ∧ ((∀ (s : State) c (v : Version), c ≠ 0 → v ∈ s.vers → v.tag = c →
    (∀ w ∈ s.vers, w.tag = c → w.bytes.length = 128 ∧ (w.line = v.line → w = v)) →
    (∀ i, i < 128 → (s.commitWorld c 0).hbm.read (v.line * 128 + i) = v.bytes.getD i 0)
      ∧ ∀ w ∈ (s.commitWorld c 0).vers, w.tag ≠ c)
  ∧ (∀ s : State, s.focus.item ≠ 0 → (Tab.get s.worlds {} s.focus.item).state = .ending →
    ∃ t, exec .tagFree s = .next t ∧ t.worlds = Tab.del s.worlds s.focus.item ∧ t.harts = s.harts
      ∧ (let base := (Tab.get s.worlds {} s.focus.item).logbase
         ∀ a, t.hbm.read a = if base ≤ a ∧ a < base + 128 * 192 then 0 else s.hbm.read a)
      ∧ (Tab.get t.worlds {} s.focus.item).state = .free ∧ (∀ v ∈ t.vers, v.tag ≠ s.focus.item)
      ∧ (∀ v ∈ s.vers, v.tag ≠ s.focus.item → v ∈ t.vers)))

/-- R276, R277, R278: A logged instruction is replayed, dropped, or named by its pc; a block hint adds one to its counter; a
PC match switches to the shadow context with the pc and the entry in x10 and x11, and the return from it puts the program
back. -/
def Obligations.Instrumentation : Prop :=
  (∀ (o : Args) (s : State) e, (s.me.X o.a.toNat).toNat < 8 → s.me.oplog.look (s.me.X o.a.toNat).toNat = some e →
    (Machine.guard (.replay o) s.me = true →
      ∃ t, exec (.replay o) s = .next t ∧ t = { s with harts := t.harts, cores := t.cores, ats := t.ats, atsBad := t.atsBad }
        ∧ (∀ h, h ≠ s.cur → t.hart h = s.hart h) ∧ SameMemory s t ∧ FallsThrough o.words s t ∧ KeepsX [] s t
        ∧ (e.engine = none → t.cores = s.cores)
        ∧ (∀ n k, e.engine = some n → k ∈ (t.core s.myCore).engine → k.ticket = n → k.index = none)
        ∧ t.me.oplog.look (s.me.X o.a.toNat).toNat = some { e with state := .replaying, answers := [], asked := [], fails := [] })
    ∧ (Machine.guard (.oplogDrop o) s.me = true → e.engine = none → e.job.acq = false →
      ∃ t, exec (.oplogDrop o) s = .next t
        ∧ t = { s with harts := t.harts, wale := t.wale, flows := t.flows, ats := t.ats, atsBad := t.atsBad }
        ∧ (∀ h, h ≠ s.cur → t.hart h = s.hart h) ∧ SameMemory s t ∧ FallsThrough o.words s t ∧ KeepsX [] s t
        ∧ ((∀ l ∈ e.job.lanes, Tab.has e.asked l.lane = false) → t.wale = s.wale)
        ∧ t.me.oplog = Tab.del s.me.oplog (s.me.X o.a.toNat).toNat)
    ∧ (Machine.guard (.oplogPc o) s.me = true → ∃ t, exec (.oplogPc o) s = .next t ∧ WritesX o.words o.d.toNat e.job.pc s t))
  ∧ (∀ c ∈ [Instr.replay, Instr.oplogDrop, Instr.oplogPc], ∀ (o : Args) (s : State),
      ((s.me.X o.a.toNat).toNat ≥ 8 ∨ s.me.oplog.look (s.me.X o.a.toNat).toNat = none) → exec (c o) s = illegal (c o) s)
  ∧ (∀ (o : Args) (s : State), let n := o.d.toNat * 64 + o.a.toNat
      let a := (Tab.get (s.ctx s.cur).profile 0 0).toNat + 8 * n
      Machine.guard (.bbhint o) s.me = true → n < (s.ctx s.cur).ccount →
      ∃ t, exec (.bbhint o) s = .next t ∧ FallsThrough o.words s t ∧ KeepsX [] s t
        ∧ leNat (t.hbm.readBytes a 8) = (leNat ((List.range 8).map (fun i => s.hbmByte (a + i))) + 1) % 2 ^ 64
        ∧ ∀ b, (b < a ∨ a + 8 ≤ b) → t.hbm.read b = s.hbm.read b)
  ∧ (∀ (o : Args) (s : State), Machine.guard (.bbhint o) s.me = true →
      ((s.ctx s.cur).ccount = 0 → exec (.bbhint o) s = illegal (.bbhint o) s)
      ∧ (0 < (s.ctx s.cur).ccount → (s.ctx s.cur).ccount ≤ o.d.toNat * 64 + o.a.toNat →
        exec (.bbhint o) s = .next (s.onMe (fun x => x.advance o.words))))
  ∧ (∀ (o : Args) (s : State), Machine.guard (.pcmHnd o) s.me = true →
      ∃ t, exec (.pcmHnd o) s = .next t ∧ OnlyMe s t ∧ SameMemory s t ∧ FallsThrough o.words s t ∧ KeepsX [] s t
        ∧ t.me.pcmHnd = s.me.X o.a.toNat &&& ~~~ 3#64)
  ∧ (∀ (s : State) i, s.me.mode = .u → s.me.inShadow = false → s.me.tinker = false → s.me.pcmHnd ≠ 0 → s.me.passed = false →
      i < 16 → (Tab.get s.me.pcmdat 0 i).getLsbD 0 = true → Tab.get s.me.pcmdat 0 i &&& ~~~ 3#64 = s.me.pc →
      (∀ j, j < i → (Tab.get s.me.pcmdat 0 j).getLsbD 0 = false ∨ Tab.get s.me.pcmdat 0 j &&& ~~~ 3#64 ≠ s.me.pc) →
      ∃ t, exec .pcMatch s = .next t ∧ OnlyMe s t ∧ SameMemory s t ∧ t.me.pc = s.me.pcmHnd ∧ t.me.mode = .s ∧ t.me.inShadow = true
        ∧ t.me.shadowPc = s.me.pc ∧ t.me.shadowX = s.me.x ∧ t.me.X 10 = s.me.pc ∧ t.me.X 11 = BitVec.ofNat 64 i)
  ∧ (∀ (o : Args) (s : State), Machine.guard (.pcmRet o) s.me = true →
      ∃ t, exec (.pcmRet o) s = .next t ∧ OnlyMe s t ∧ SameMemory s t ∧ t.me.pc = s.me.shadowPc ∧ t.me.mode = .u
        ∧ t.me.inShadow = false ∧ t.me.x = s.me.shadowX ∧ t.me.shadowX = s.me.x ∧ t.me.att = s.me.attP ∧ t.me.passed = true)

/-! ### Tinkers -/

/-- R281, R283, R285, R286, R287, R288: A gate field is written and read at the core that a selector names; a save or load
request that keeps its limits joins the requests; a killed context has no live hart; `ctx.bind` and `ctx.upd` read the context
block; `g.arm` arms a gang, `g.sweep` reports and seals, `g.resume` admits the gang's traffic; a whole context saved is out. A
breach of a request's alignment as an illegal instruction is deduced (log 28). -/
def Obligations.TinkerInstructions : Prop :=
  (∀ (o : Args) (s : State), let w := (s.me.X o.a.toNat).toNat
      (Machine.guard (.gateWr o) s.me = true → selectorOk w = true →
        ∃ t, exec (.gateWr o) s = .next t ∧ FallsThrough o.words s t ∧ KeepsX [] s t ∧ KeepsV (fun _ _ => False) s t
          ∧ t = { s with harts := t.harts, cores := t.cores } ∧ (∀ h, h ≠ s.cur → t.hart h = s.hart h)
          ∧ (∀ c, t.core c = { s.core c with gate := (t.core c).gate })
          ∧ ∀ c f, Tab.get (t.core c).gate 0 f = if c = bitsOf w 11 0 ∧ f = bitsOf w 19 16 then s.me.X o.b.toNat &&& gateMask f
              else Tab.get (s.core c).gate 0 f)
      ∧ (Machine.guard (.gateRd o) s.me = true → selectorOk w = true →
        ∃ t, exec (.gateRd o) s = .next t
          ∧ WritesX o.words o.d.toNat (Tab.get (s.core (bitsOf w 11 0)).gate 0 (bitsOf w 19 16)) s t)
      ∧ (selectorOk w = false → exec (.gateWr o) s = illegal (.gateWr o) s ∧ exec (.gateRd o) s = illegal (.gateRd o) s))
  ∧ RequestOp .ctxSave false ∧ RequestOp .ctxLoad true
  ∧ (∀ (s : State) (r : CtxRequest), let x : Context := Tab.get s.ctxs {} r.pasid
      let live : Cohort → Bool := fun k => k.phase == .resident || k.phase == .placed || k.phase == .returning || k.phase == .saving
      let cs := s.cohortsOf r.pasid live
      s.requests[s.focus.item]? = some r → r.load = false → r.busy = false → r.whole = true → r.begun = none →
      s.switching x.gang = false → s.ctxs.has r.pasid = true → x.killed = false → x.out = false → cs ≠ [] →
      (∀ c ∈ cs, s.lastRetirement c.1 c.2 = none ∧ ∀ l k, s.cohort c.1 c.2 = some (l, k) → k.phase ≠ .saving) →
      imageSize s r.pasid (s.targetSections r.pasid true cs) ≤ r.limit →
      ∃ t, exec .ctxRequestComplete s = .next t
        ∧ t.requests = s.requests.map (fun q => if q = r then { q with begun := some cs } else q)
        ∧ ∀ c ∈ cs, ∃ l k, t.cohort c.1 c.2 = some (l, k) ∧ k.phase = .saving ∧ k.parked = true)
  ∧ (∀ (s : State) (r : CtxRequest) cs, s.requests[s.focus.item]? = some r → r.begun = some cs →
      (∀ c ∈ cs, ∃ l k, s.cohort c.1 c.2 = some (l, k) ∧ k.phase = .saving) →
      (s.stopHarts (s.targetHarts r cs)).stoppedAll (s.targetHarts r cs) false = true →
      ∃ (t : State) (a : SaveArea), exec .ctxRequestComplete s = .next t ∧ t.requests = s.requests.filter (fun q => q != r)
        ∧ t.saves.look r.area = some a ∧ a.pasid = r.pasid ∧ a.whole = r.whole ∧ a.cohorts = cs
        ∧ (r.whole = true → (Tab.get t.ctxs {} r.pasid).out = true))
  ∧ (∀ (o : Args) (s : State), let w := (s.me.X o.a.toNat).toNat
      let c : Context := Tab.get s.ctxs {} w
      Machine.guard (.ctxKill o) s.me = true → w < 2 ^ 20 → s.me.home = none →
      ((s.ctxs.has w = true ∧ c.killed = false) →
        ∃ t, exec (.ctxKill o) s = .next t ∧ FallsThrough o.words s t ∧ (Tab.get t.ctxs {} w).killed = true
          ∧ ∀ h, s.hartOf w h (s.hart h) = true → (t.hart h).live = false)
      ∧ ((s.ctxs.has w = false ∨ c.killed = true) →
        ∃ t, exec (.ctxKill o) s = .next t ∧ FallsThrough o.words s t ∧ KeepsX [] s t
          ∧ t = { s with harts := t.harts, freeCtr := t.freeCtr }))
  ∧ (∀ (o : Args) (s : State), let w := (s.me.X o.a.toNat).toNat
      let pa := (s.me.X o.b.toNat).toNat
      let c : Context := Tab.get s.ctxs {} w
      Machine.guard (.ctxBind o) s.me = true → w < 2 ^ 20 → pa % 4096 = 0 → pa < Config.hbmBytes →
      (pa ≠ 0 ∨ s.inUse w = false) →
      ∃ t, exec (.ctxBind o) s = .next t ∧ FallsThrough o.words s t ∧ KeepsX [] s t ∧ t = { s with harts := t.harts, ctxs := t.ctxs }
        ∧ (∀ h, h ≠ s.cur → t.hart h = s.hart h) ∧ (∀ p, p ≠ w → Tab.get t.ctxs {} p = Tab.get s.ctxs {} p)
        ∧ (let d : Context := Tab.get t.ctxs {} w
           if pa = 0 then d = { c with bound := false, block := 0 }
           else d.bound = true ∧ d.block = pa ∧ d.root = s.blockWord pa ∧ PolicyWritten c.policy (s.blockWord (pa + 8)) d.policy
             ∧ d.froute = s.blockWord (pa + 16) ∧ d.gang = bitsOf (s.blockWord (pa + 24)).toNat 15 0
             ∧ d.cap = bitsOf (s.blockWord (pa + 24)).toNat 17 16 ∧ d.domain = s.blockWord (pa + 32)
             ∧ d.ovbase = (s.blockWord (pa + 40)).toNat ∧ d.ovpages = (s.blockWord (pa + 48)).toNat
             ∧ d.svbase = (s.blockWord (pa + 56)).toNat ∧ d.svpages = (s.blockWord (pa + 64)).toNat
             ∧ (∀ i, i < 128 → Tab.get d.ptab 0 i = s.blockWord (pa + (0x100 + 8 * i)))
             ∧ d.made = c.made ∧ d.killed = c.killed ∧ d.maf = c.maf ∧ d.cmeas = c.cmeas))
  ∧ (∀ (o : Args) (s : State), let w := (s.me.X o.a.toNat).toNat
      let mask := (s.me.X o.b.toNat).toNat
      let c : Context := Tab.get s.ctxs {} w
      Machine.guard (.ctxUpd o) s.me = true → w < 2 ^ 20 →
      (mask < 256 → c.bound = true →
        ∃ t, exec (.ctxUpd o) s = .next t ∧ FallsThrough o.words s t ∧ KeepsX [] s t ∧ t = { s with harts := t.harts, ctxs := t.ctxs }
          ∧ (∀ p, p ≠ w → Tab.get t.ctxs {} p = Tab.get s.ctxs {} p)
          ∧ (let d : Context := Tab.get t.ctxs {} w
             d.bound = true ∧ d.block = c.block ∧ d.root = (if bitOf mask 0 then s.blockWord c.block else c.root)
             ∧ (if bitOf mask 1 then PolicyWritten c.policy (s.blockWord (c.block + 8)) d.policy else d.policy = c.policy)
             ∧ d.froute = (if bitOf mask 2 then s.blockWord (c.block + 16) else c.froute)
             ∧ d.domain = (if bitOf mask 3 then s.blockWord (c.block + 32) else c.domain)
             ∧ d.ovbase = (if bitOf mask 4 then (s.blockWord (c.block + 40)).toNat else c.ovbase)
             ∧ d.svbase = (if bitOf mask 5 then (s.blockWord (c.block + 56)).toNat else c.svbase)
             ∧ (bitOf mask 6 = false → d.profile = c.profile) ∧ (bitOf mask 7 = false → d.ptab = c.ptab)))
      ∧ ((256 ≤ mask ∨ c.bound = false) → exec (.ctxUpd o) s = illegal (.ctxUpd o) s))
  ∧ (∀ (o : Args) (s : State) (l : Loc) (g h tick area pages late : Nat), let addr := s.me.X o.a.toNat
      Machine.guard (.gArm o) s.me = true → addr.toNat % 32 = 0 → Placed s (standardJob (.gArm o) .load 32 addr 0 s.me) →
      s.reach s.cur addr 32 .load = .here l → NothingFirst s (standardJob (.gArm o) .load 32 addr 0 s.me) [l] →
      armOf (s.recordBytes s.cur 32 addr (.at l)) = some (g, h, tick, area, pages, late) →
      (tick ≠ 0 → s.armRefusal g h tick = none → ((s.domain.size = 0 ∧ s.me.wait.code ≠ 19)
          ∨ (s.domain.size ≠ 0 ∧ s.me.wait.code = 19 ∧ s.wale.any isArmFlit = false
            ∧ ∀ k ∈ walePorts, (Tab.get s.switches {} k).armed.contains (g, tick) = true)) →
        ∃ t, exec (.gArm o) s = .next t ∧ FallsThrough o.words s t ∧ KeepsX [o.d.toNat] s t ∧ (o.d ≠ 0 → t.me.X o.d.toNat = 0)
          ∧ t = { s with harts := t.harts, gangs := t.gangs } ∧ (∀ k, k ≠ g → t.gang k = s.gang k)
          ∧ t.gang g = { s.gang g with st := 1, next := h, tick, area, pages, late, records := [], lates := 0, closed := false
                                       tinker := s.cur })
      ∧ (∀ status, s.me.wait.code ≠ 19 → s.armRefusal g h tick = some status →
        ∃ t, exec (.gArm o) s = .next t ∧ WritesX o.words o.d.toNat (BitVec.ofNat 64 status) s t))
  ∧ (∀ (o : Args) (s : State), let w := (s.me.X o.a.toNat).toNat
      let g := w % 65536
      Machine.guard (.gSweep o) s.me = true → w < 2 ^ 17 →
      (bitOf w 16 = false ∨ (s.gang g).st ≠ 3 → ∃ t, exec (.gSweep o) s = .next t ∧ WritesX o.words o.d.toNat (s.gang g).report s t)
      ∧ (bitOf w 16 = true → (s.gang g).st = 3 →
        ∃ t, exec (.gSweep o) s = .next t ∧ FallsThrough o.words s t ∧ KeepsX [o.d.toNat] s t
          ∧ t = { s with harts := t.harts, gangs := t.gangs, hbm := t.hbm, lost := t.lost } ∧ t.gang g = { s.gang g with st := 4 }
          ∧ (o.d ≠ 0 → t.me.X o.d.toNat = (t.gang g).report)))
  ∧ (∀ (o : Args) (s : State), let g := (s.me.X o.a.toNat).toNat
      Machine.guard (.gResume o) s.me = true → g < 65536 →
      ((∀ c ∈ s.gangContexts g, c.2.out = true) → ∃ t, exec (.gResume o) s = .next t ∧ WritesX o.words o.d.toNat 3 s t)
      ∧ ((∃ c ∈ s.gangContexts g, c.2.out = false) → 1 ≤ (s.gang g).st → (s.gang g).st ≤ 3 →
        ∃ t, exec (.gResume o) s = .next t ∧ WritesX o.words o.d.toNat 2 s t)
      ∧ ((∃ c ∈ s.gangContexts g, c.2.out = false) → ((s.gang g).st = 0 ∨ 3 < (s.gang g).st) →
        ∃ t, exec (.gResume o) s = .next t ∧ (o.d ≠ 0 → t.me.X o.d.toNat = 0)
          ∧ (t.gang g).st = 0 ∧ (t.gang g).out = false ∧ (t.gang g).records = []
          ∧ ((∀ r ∈ (s.gang g).records, let p := r.2.2.2
                p.dstModule ≠ s.domain.module ∨ p.kind = 1 ∨ (requestOfPacket p).isSome = true) →
              FallsThrough o.words s t ∧ KeepsX [o.d.toNat] s t
              ∧ t = { s with harts := t.harts, gangs := t.gangs, net := t.net, wale := t.wale, winWaits := t.winWaits }
              ∧ t.gang g = { s.gang g with st := 0, out := false, records := [], lates := 0 }
              ∧ (∀ p, p ∈ t.wale ↔ p ∈ s.wale ∨ (p.dstModule ≠ s.domain.module ∧ ∃ r ∈ (s.gang g).records, r.2.2.2 = p))
              ∧ (∀ m, m ∈ t.net ↔ m ∈ s.net ∨ ∃ r ∈ (s.gang g).records, r.2.2.2.dstModule = s.domain.module ∧ r.2.2.2.kind = 1
                  ∧ m = { msgOf r.2.2.2 with inbound := true })
              ∧ (∀ w, w ∈ t.winWaits ↔ w ∈ s.winWaits ∨ ∃ r ∈ (s.gang g).records, ∃ q, r.2.2.2.dstModule = s.domain.module
                  ∧ r.2.2.2.kind ≠ 1 ∧ requestOfPacket r.2.2.2 = some q ∧ w = { req := q, core := 0, seq := 0, bad := some false }))))

/-! ### The host -/

/-- R20, R21, R359, R360, R363, R366, R384, R387: A chain that nothing turns away does its command and is answered: contexts
and queues made and ended, moderation, domain and gang set, launches taken and measured, drains, messages to Hallmark. What
counts as applied, and a CTXNEW of a context that exists, are the model's choices (logs 24 and 25). -/
def Obligations.HostCommands : Prop :=
  (∀ (c : Chain) (s : State), ChainRuns c 0x12 0 false s → ∃ t, exec (.nop c) s = .next t ∧ Replied c 0 0 s t ∧ t.launches = s.launches)
  ∧ (∀ (c : Chain) (s : State), ChainRuns c 0x11 0 false s →
      (s.launchesDone s.focus.unit c.queue = true → ∃ t, exec (.drain c) s = .next t ∧ Replied c 0 0 s t ∧ t.launches = s.launches)
      ∧ (s.launchesDone s.focus.unit c.queue = false → ∃ t, exec (.drain c) s = .next t ∧ t.hostMem = s.hostMem
          ∧ (t.queue s.focus.unit c.queue).chains = [c]))
  ∧ (∀ (c : Chain) (s : State) bs (u v : State), let q := s.queue s.focus.unit c.queue
      let r := LaunchRec.ofBytes bs
      ChainRuns c 0x10 8 false s → c.notice ≤ Tab.get (s.fn s.focus.unit).notified 0 c.queue → q.kept = [] →
      chainGet c 0 8 % 128 = 0 → bs ≠ [] →
      s.fetchRecord q.pasid (BitVec.ofNat 64 (chainGet c 0 8)) = (some (bs, u), v) → (u.launches.look u.nextLaunch) = none →
      (recordOk bs (Tab.get u.ctxs {} q.pasid).cap true = true →
        ∃ t, exec (.launch c) s = .next t ∧ Replied c 0 0 s t ∧ (t.queue s.focus.unit c.queue).ldone = r.done
          ∧ t.launches.look u.nextLaunch = some { record := r, addr := BitVec.ofNat 64 (chainGet c 0 8), pasid := q.pasid
                                                  queue := some c.queue, tie := c.queue
                                                  earliest := if u.nextLaunch = 0 then u.tick + 1 else 0 }
          ∧ (Tab.get t.ctxs {} q.pasid).cmeas = Sha.extend (Tab.get u.ctxs {} q.pasid).cmeas (Sha.digest bs))
      ∧ (recordOk bs (Tab.get u.ctxs {} q.pasid).cap true = false → r.done = 0 →
        ∃ t, exec (.launch c) s = .next t ∧ Replied c 1 0 s t ∧ t.launches = u.launches))
  ∧ (∀ (c : Chain) (s : State), let p := chainGet c 0 4
      let x : Context := Tab.get s.ctxs {} p
      ChainRuns c 0x01 16 true s →
      (p < 2 ^ 20 → chainGet c 4 1 ≤ 3 → chainGet c 5 3 = 0 → (x.made = false ∨ x.killed = true) →
        (s.standingPages + chainGet c 8 4 + chainGet c 12 4) * 4096 ≤ Config.hbmBytes →
        ∃ t, exec (.ctxnew c) s = .next t ∧ Replied c 0 0 s t
          ∧ (let y : Context := Tab.get t.ctxs {} p
             y.made = true ∧ y.killed = false ∧ y.bound = false ∧ y.link = s.focus.unit ∧ y.cap = chainGet c 4 1
               ∧ y.ovpages = chainGet c 8 4 ∧ y.svpages = chainGet c 12 4 ∧ y.cmeas = List.replicate 32 0
               ∧ y.ovbase % 4096 = 0 ∧ y.svbase % 4096 = 0))
      ∧ ((2 ^ 20 ≤ p ∨ 3 < chainGet c 4 1) →
        ∃ t, exec (.ctxnew c) s = .next t ∧ Replied c 1 0 s t ∧ t.ctxs = s.ctxs)
      ∧ (p < 2 ^ 20 → chainGet c 4 1 ≤ 3 → chainGet c 5 3 = 0 → (x.made = false ∨ x.killed = true) →
        Config.hbmBytes < (s.standingPages + chainGet c 8 4 + chainGet c 12 4) * 4096 →
        ∃ t, exec (.ctxnew c) s = .next t ∧ Replied c 5 0 s t ∧ t.ctxs = s.ctxs))
  ∧ (∀ (c : Chain) (s : State), ChainMet c 0x01 16 true s → chainGet c 5 3 ≠ 0 →
      ∃ t, exec (.ctxnew c) s = .next t ∧ t.ctxs = s.ctxs ∧ t.hostMem.readBytes c.reply.toNat 16 = leBytes 4 1 ++ leBytes 4 0 ++ leBytes 8 0
        ∧ (t.queue s.focus.unit c.queue).applied = (s.queue s.focus.unit c.queue).applied)
  ∧ (∀ (c : Chain) (s : State), ChainRuns c 0x02 4 true s → s.ctxs.has (chainGet c 0 4) = true →
      ∃ t, exec (.ctxdel c) s = .next t ∧ Replied c 0 0 s t ∧ (Tab.get t.ctxs {} (chainGet c 0 4)).killed = true)
  ∧ (∀ (c : Chain) (s : State), let q := chainGet c 0 2
      let x : Context := Tab.get s.ctxs {} (chainGet c 4 4)
      ChainRuns c 0x03 16 true s → 2 ≤ q → q ≤ 4097 → chainGet c 2 2 < 2048 → x.made = true → x.killed = false →
      x.link = s.focus.unit → (s.queue s.focus.unit q).bound = false →
      ∃ t, exec (.qbind c) s = .next t ∧ Replied c 0 0 s t
        ∧ t.queue s.focus.unit q = { bound := true, pasid := chainGet c 4 4, vector := chainGet c 2 2, status := chainGet c 8 8 })
  ∧ (∀ (c : Chain) (s : State), let q := chainGet c 0 2
      ChainRuns c 0x04 2 true s → 2 ≤ q → (s.queue s.focus.unit q).bound = true → (s.queue s.focus.unit q).qstate ≠ 1 →
      (s.queue s.focus.unit q).begun = false →
      (s.launchesDone s.focus.unit q = true →
        ∃ t, exec (.qunbind c) s = .next t ∧ Replied c 0 0 s t ∧ (t.queue s.focus.unit q).bound = false)
      ∧ (s.launchesDone s.focus.unit q = false →
        ∃ t, exec (.qunbind c) s = .next t ∧ (t.queue s.focus.unit q).qstate = 1 ∧ (t.queue s.focus.unit q).bound = true
          ∧ (t.queue s.focus.unit c.queue).chains = [c]))
  ∧ (∀ (c : Chain) (s : State), ChainRuns c 0x05 6 true s → chainGet c 0 2 < 2048 → chainGet c 2 1 ≠ 0 → chainGet c 3 1 = 0 →
      ∃ t, exec (.qmod c) s = .next t ∧ Replied c 0 0 s t
        ∧ ((t.fn s.focus.unit).vector (chainGet c 0 2)).count = chainGet c 2 1
        ∧ ((t.fn s.focus.unit).vector (chainGet c 0 2)).timer = chainGet c 4 2)
  ∧ (∀ (c : Chain) (s : State), ChainRuns c 0x06 16 true s →
      (bitOf (s.fn s.focus.unit).features 1 = false → ∃ t, exec (.domset c) s = .next t ∧ Replied c 4 0 s t ∧ t.domain = s.domain)
      ∧ (bitOf (s.fn s.focus.unit).features 1 = true → 1 ≤ chainGet c 2 2 → chainGet c 2 2 ≤ 1024 →
        chainGet c 0 2 < chainGet c 2 2 → chainGet c 4 4 = 0 →
        ∃ t, exec (.domset c) s = .next t ∧ Replied c 0 0 s t
          ∧ t.domain = { size := chainGet c 2 2, module := chainGet c 0 2, ident := chainGet c 8 8, beat := s.cycle }))
  ∧ (∀ (c : Chain) (s : State), let x : Context := Tab.get s.ctxs {} (chainGet c 0 4)
      ChainRuns c 0x07 16 true s → x.made = true → x.killed = false → chainGet c 4 2 ≠ 0 → chainGet c 6 2 = 0 →
      ∃ t, exec (.gangbind c) s = .next t ∧ Replied c 0 0 s t
        ∧ Tab.get t.ctxs {} (chainGet c 0 4) = { x with gang := chainGet c 4 2, domain := BitVec.ofNat 64 (chainGet c 8 8) })
  ∧ (∀ (c : Chain) (s : State), ChainRuns c 0x08 8 true s → c.payload.length ≤ 4096 → chainGet c 0 4 + 8 ≤ c.payload.length →
      chainGet c 4 4 = 0 →
      ∃ t, exec (.spdm c) s = .next t
        ∧ Replied c 0 (s.spdmResponse ((c.payload.drop 8).take (chainGet c 0 4))).length s t
        ∧ t.hallmark = { s.hallmark with response := s.spdmResponse ((c.payload.drop 8).take (chainGet c 0 4)) })
  ∧ (∀ (c : Chain) (s : State), (s.queue s.focus.unit c.queue).qstate = 2 → (s.fn s.focus.unit).featuresOk = true →
      (s.fn s.focus.unit).needsReset = false → (s.queue s.focus.unit c.queue).bound = true →
      (s.queue s.focus.unit c.queue).chains = [] → s.focus.code ≠ 1 →
      let killed : Out → Prop := fun r => ∃ t, r = .next t
        ∧ t.hostMem.readBytes c.reply.toNat 16 = leBytes 4 2 ++ leBytes 4 0 ++ leBytes 8 0 ∧ t.launches = s.launches
      killed (exec (.drain c) s) ∧ killed (exec (.nop c) s)
        ∧ (c.notice ≤ Tab.get (s.fn s.focus.unit).notified 0 c.queue → killed (exec (.launch c) s)))
  ∧ (∀ (c : Chain) (s : State), Tab.get (s.fn s.focus.unit).notified 0 c.queue < c.notice → exec (.launch c) s = .next s)

/-- R318, R325, R357, R362, R363, R364, R390: feature negotiation, notifications, interrupts and their masks, events written
to the driver's buffers, and the answers to page requests and to translation requests. What each step acts on is read from the
focus (log 42). -/
def Obligations.HostLink : Prop :=
  (∀ s : State, s.presented = true → s.focus.unit < Config.links → ∃ t, exec .featuresOk s = .next t ∧ t = { s with fns := t.fns }
    ∧ (t.fn s.focus.unit).featuresOk = decide (s.focus.item &&& offered s.focus.code = s.focus.item
        ∧ s.focus.item &&& requiredBits = requiredBits)
    ∧ ∀ l, l ≠ s.focus.unit → t.fn l = s.fn l)
  ∧ (∀ (page off width : Nat) (value : W32) (s : State), ∃ t, exec (.notify page off width value) s = .next t ∧ t = { s with fns := t.fns }
      ∧ (if Config.links ≤ s.focus.unit then t = s
        else if off = 0 ∧ width = 4 ∧ value.toNat = page ∧ page < 4098 then
          Tab.get (t.fn s.focus.unit).notified 0 page = Tab.get (s.fn s.focus.unit).notified 0 page + 1
            ∧ (t.fn s.focus.unit).ignored = (s.fn s.focus.unit).ignored
        else (t.fn s.focus.unit).notified = (s.fn s.focus.unit).notified
            ∧ (t.fn s.focus.unit).ignored = (s.fn s.focus.unit).ignored + 1))
  ∧ (∀ s : State, s.focus.unit < Config.links → ((s.fn s.focus.unit).vector s.focus.item).due s.tick = true →
      ∃ t, exec .msixFire s = .next t ∧ t = { s with fns := t.fns }
        ∧ (let m := (s.fn s.focus.unit).vector s.focus.item
           (t.fn s.focus.unit).vector s.focus.item = { m with n := 0, pending := m.masked || m.pending }
             ∧ (t.fn s.focus.unit).sent = (s.fn s.focus.unit).sent ++ (if m.masked then [] else [s.focus.item])))
  ∧ (∀ s : State, s.focus.unit < Config.links → ∃ t, exec .msixUnmask s = .next t ∧ t = { s with fns := t.fns }
      ∧ (let m := (s.fn s.focus.unit).vector s.focus.item
         if s.focus.code = 1 then (t.fn s.focus.unit).vector s.focus.item = { m with masked := true }
            ∧ (t.fn s.focus.unit).sent = (s.fn s.focus.unit).sent
         else (t.fn s.focus.unit).vector s.focus.item = { m with masked := false, pending := false }
            ∧ (t.fn s.focus.unit).sent = (s.fn s.focus.unit).sent ++ (if m.pending then [s.focus.item] else [])))
  ∧ (∀ (s : State) e es, let q := s.queue s.focus.unit 1
      s.focus.unit < Config.links → (s.fn s.focus.unit).events = e :: es → ∃ t, exec .eventWrite s = .next t
      ∧ t = { s with fns := t.fns, hostMem := t.hostMem } ∧ (t.fn s.focus.unit).events = es ∧ (t.fn s.focus.unit).lost = 0
      ∧ t.hostMem.readBytes s.focus.item 48 = e.bytes (s.fn s.focus.unit).lost
      ∧ (q.ring ≠ 0 → (s.focus.item + 48 ≤ q.ring + 16 * q.used + 8 ∨ q.ring + 16 * q.used + 16 ≤ s.focus.item) →
          t.hostMem.readBytes (q.ring + 16 * q.used + 8) 8
            = leBytes 4 48 ++ leBytes 2 s.focus.code ++ leBytes 2 (if q.wrap = true then 0x8082 else 2)))
  ∧ (∀ s : State, s.focus.unit < Config.links → ∃ t, exec .ideFailure s = .next t ∧ t = { s with fns := t.fns }
      ∧ (if (s.fn s.focus.unit).events.length < 256 then
          ∃ e, (t.fn s.focus.unit).events = (s.fn s.focus.unit).events ++ [e] ∧ e.kind = 7 ∧ e.tick = s.tick
            ∧ (t.fn s.focus.unit).discarded = 0
        else (t.fn s.focus.unit).events = (s.fn s.focus.unit).events
            ∧ (t.fn s.focus.unit).lost = min 65535 ((s.fn s.focus.unit).lost + 1)
            ∧ (t.fn s.focus.unit).discarded = min (2 ^ 64 - 1) ((s.fn s.focus.unit).discarded + 1))
      ∧ (t.fn s.focus.unit).insecure = true)
  ∧ (∀ (s : State) (e : LogEntry), let link := (s.ctx s.cur).link
      s.focus.code = 8 → s.me.oplog.look s.focus.item = some e → e.state = .verdict →
      (((s.fn link).priStopped = true ∨ bitOf (s.fn link).features 5 = false) →
        ∃ (t : State) (m : Msg), exec .pageRequestResponse s = .next t ∧ t = { s with net := s.net ++ [m] } ∧ m.core = s.myCore
          ∧ m.tag = 254 ∧ m.payload = leBytes 8 (1 + s.focus.item % 8 * 256 + slotOf s.cur * 2048 + e.seq % 2 ^ 48 * 65536))
      ∧ (∀ g, (s.fn link).priStopped = false → bitOf (s.fn link).features 5 = true → link < Config.links → g < Config.pageGroups →
          (s.fn link).groups.look g = none → (∀ i, i < g → (s.fn link).groups.has i = true) →
          (∀ x ∈ (s.fn link).groups, ¬ (x.2.hart = s.cur ∧ x.2.entry = s.focus.item ∧ x.2.seq = e.seq)) →
        ∃ t, exec .pageRequestResponse s = .next t ∧ OnlyMe { s with fns := t.fns } t ∧ t.net = s.net
          ∧ t.me.oplog.look s.focus.item = some { e with pgroup := g }
          ∧ (t.fn link).groups.look g = some { pasid := ctxOf s s.cur, hart := s.cur, entry := s.focus.item, seq := e.seq, vpn := vpnOf e.fva }))
  ∧ (∀ (s : State) (r : PageReq), s.focus.code ≠ 8 → s.focus.unit < Config.links →
      (s.fn s.focus.unit).groups.look s.focus.item = some r → ∃ t, exec .pageRequestResponse s = .next t
        ∧ (t.fn s.focus.unit).groups.look s.focus.item = none ∧ (1 < s.focus.code → (t.fn s.focus.unit).priStopped = true)
        ∧ (s.focus.code ≤ 1 → (t.fn s.focus.unit).priStopped = (s.fn s.focus.unit).priStopped)
        ∧ (r.retired = true → t = { s with fns := t.fns })
        ∧ (r.retired = false → ∃ m : Msg, t = { s with fns := t.fns, net := s.net ++ [m] } ∧ m.core = coreOf r.hart ∧ m.tag = 254
            ∧ m.payload = leBytes 8 ((if s.focus.code ≠ 0 then 1 else 0) + r.entry % 8 * 256 + slotOf r.hart * 2048
                + r.seq % 2 ^ 48 * 65536)))
  ∧ (∀ s : State, s.focus.unit < Config.links → ∃ t, exec .pageRequestRestart s = .next t ∧ t = { s with fns := t.fns }
      ∧ (t.fn s.focus.unit).priStopped = false ∧ (t.fn s.focus.unit).events = (s.fn s.focus.unit).events
      ∧ ∀ l, l ≠ s.focus.unit → t.fn l = s.fn l)
  ∧ (∀ (a : AtsAnswer) (s : State) (q : AtsReq),
      s.ats.filter (fun r => r.link == a.link && r.pasid == a.pasid && r.vpn == a.vpn) = [q] →
      ∃ t, exec (.atsCompletion a) s = .next t
        ∧ t.ats = s.ats.filter (fun r => !(r.link == a.link && r.pasid == a.pasid && r.vpn == a.vpn))
        ∧ (a.error = true ∨ a.present = false →
            t.atsBad = s.atsBad ++ [(q.asker, a.pasid, a.vpn, if a.error then 6 else 5)] ∧ t.cores = s.cores ∧ t.clusters = s.clusters)
        ∧ (a.error = false → a.present = true → s.tlbServes q.core a.pasid = true → t.atsBad = s.atsBad
            ∧ (∃ e ∈ (t.core q.core).l1tlb, e.host = true ∧ e.pasid = a.pasid ∧ e.vpn = a.vpn ∧ e.ppn = a.pa / 4096
                ∧ (a.readable = false → e.r = false) ∧ (a.writable = false → e.w = false))
            ∧ ∃ e ∈ (t.cluster (clusterOf q.core)).tlb, e.host = true ∧ e.pasid = a.pasid ∧ e.vpn = a.vpn ∧ e.ppn = a.pa / 4096)
        ∧ (a.error = false → a.present = true → s.tlbServes q.core a.pasid = false → t = { s with ats := t.ats }))
  ∧ (∀ (pasid vpn level : Nat) (every : Bool) (s : State), ∃ t, exec (.atsInvalidate pasid vpn level every) s = .next t
      ∧ ((∃ x ∈ t.harts, ∃ p ∈ x.2.ops, p.waits = true ∧ ∃ l ∈ p.writes.map Prod.fst ++ p.locs, l.place = .host) ∨
      (∀ c, ∀ e ∈ (t.core c).l1tlb, ¬ (e.host = true ∧ e.pasid = pasid ∧ (every = true ∨ e.vpn / 512 ^ level = vpn / 512 ^ level)))
      ∧ ∀ c, ∀ e ∈ (t.cluster c).tlb, ¬ (e.host = true ∧ e.pasid = pasid ∧ (every = true ∨ e.vpn / 512 ^ level = vpn / 512 ^ level))))

/-- R157, R219, R330, R365, R367, R395: the host's accesses to device memory reach what is published, and not what the service
kernel keeps private; the other modules' accesses through the domain window are translated in the context of the sender's gang and
answered: a load's bytes are given, a store is held with memory as it was, and its confirmation performs it, or gives it up; this
module's accesses take the answers, and its outstanding stores their acknowledgements. The packets' codes are the model's choice
(log 20). -/
def Obligations.OutsideAccesses : Prop :=
  (∀ s : State, let pa := s.focus.item / 64 * 64
      bitOf (s.fn s.focus.unit).features 4 = true → pa < Config.hbmBytes →
      (s.isPrivate pa = false → s.retired.contains (pa / 4096) = false →
        ∃ t, exec .hdmRead s = .next t ∧ t.hdmRead = (List.range 64).map (fun i => s.hbmByte (pa + i))
          ∧ t = { s with dir := t.dir, cores := t.cores, hostLines := t.hostLines, hdmRead := t.hdmRead } ∧ lineOf pa ∈ t.hostLines)
      ∧ (s.isPrivate pa = true → ∃ t, exec .hdmRead s = .next t ∧ t.hdmRead = List.replicate 64 0xFF ∧ t.hbm = s.hbm
          ∧ ((s.fn s.focus.unit).events.length < 256 →
              ∃ e, (t.fn s.focus.unit).events = (s.fn s.focus.unit).events ++ [e] ∧ e.kind = 5))
      ∧ (s.isPrivate pa = false → s.retired.contains (pa / 4096) = true →
          exec .hdmRead s = .next { s with hdmRead := List.replicate 64 0xFF }))
  ∧ (∀ (pa : Nat) (data : List Byte) (s : State), bitOf (s.fn s.focus.unit).features 4 = true → pa + data.length ≤ Config.hbmBytes →
      (s.isPrivate pa = false → s.isPrivate (pa + data.length - 1) = false →
        ∃ t, exec (.hdmWrite pa data) s = .next t ∧ t.hbm.readBytes pa data.length = data
          ∧ ∀ a, (a < pa ∨ pa + data.length ≤ a) → t.hbm.read a = s.hbm.read a)
      ∧ ((s.isPrivate pa = true ∨ s.isPrivate (pa + data.length - 1) = true) →
        ∃ t, exec (.hdmWrite pa data) s = .next t ∧ t = { s with fns := t.fns }))
  ∧ (∀ s : State, s.snoops.contains s.focus.item = true → exec .backInvalidationResponse s =
      .next { s with snoops := s.snoops.erase s.focus.item, hostLines := s.hostLines.erase s.focus.item })
  ∧ (∀ (a : WindowReply) (s : State), s.gangHeld (s.ctx s.cur).gang = false → s.focus.item = 8 → s.me.wait.code = 17 → s.me.wait.a = 2 →
      exec (.windowAnswer a) s = .next (s.onMe (fun x => { x with winAnswer := some (a, x.wait.b.toNat), wait := {} })))
  ∧ (∀ (a : WindowReply) (s : State) (p : PendOp) (l : LaneReq), s.gangHeld (s.ctx s.cur).gang = false → 16 ≤ s.focus.item →
      s.me.ops[s.focus.item - 16]? = some p → p.job.kind = .store → p.job.dest = .none → p.job.acq = false → p.job.lanes = [l] →
      p.acks = [l.lane] → s.focus.code = l.lane →
      exec (.windowAnswer a) s = .next (s.onMe (fun x => { x with ops := x.ops.eraseIdx (s.focus.item - 16) })))
  ∧ (∀ (bs : List Byte) (s : State) (e : LogEntry), s.gangHeld (s.ctx s.cur).gang = false → s.focus.item < 8 →
      s.me.oplog.look s.focus.item = some e → e.job.kind = .load →
      (e.state = .walking ∨ e.state = .replaying) → Tab.has e.asked s.focus.code = true → Tab.has e.answers s.focus.code = false →
      e.fails = [] → e.engine = none →
      ∃ t, exec (.windowAnswer (.data bs)) s = .next t ∧ OnlyMe s t ∧ SameMemory s t
        ∧ ∃ f, t.me.oplog.look s.focus.item = some f ∧ f = { e with answers := f.answers }
          ∧ f.answers.look s.focus.code = some (leNat bs))
  ∧ (∀ (r : WindowReq) (s : State), s.contextOfGang r.gang = none →
      ∃ (t : State) (p : Packet), exec (.windowRequest r) s = .next t ∧ t = { s with wale := s.wale ++ [p], flows := t.flows }
        ∧ p.kind = 5 ∧ p.vc = 1 ∧ p.dstModule = r.srcModule ∧ p.gang = r.gang ∧ p.offset = r.offset ∧ p.tag = 2)
  ∧ (∀ (r : WindowReq) (s u : State) (pasid off n : Nat) (c : Context), s.contextOfGang r.gang = some (pasid, c) → s.gangHeld r.gang = false →
      r.op = .load n → Unheld s r →
      s.ctxPlace pasid deviceCore (c.domain + BitVec.ofNat 64 r.offset) false = (.at ⟨.hbm, off⟩, u) →
      ∃ (t : State) (p : Packet), exec (.windowRequest r) s = .next t
        ∧ t = { u with wale := u.wale ++ [p], flows := t.flows, dir := t.dir, cores := t.cores }
        ∧ p.kind = 5 ∧ p.vc = 1 ∧ p.dstModule = r.srcModule ∧ p.tag = 0 ∧ p.payload = (List.range n).map (fun i => u.hbmByte (off + i)))
  ∧ (∀ (r : WindowReq) (s u : State) (pasid off : Nat) (c : Context) (bs : List Byte), s.contextOfGang r.gang = some (pasid, c) →
      s.gangHeld r.gang = false → r.op = .store bs → Unheld s r →
      s.ctxPlace pasid deviceCore (c.domain + BitVec.ofNat 64 r.offset) true = (.at ⟨.hbm, off⟩, u) →
      ∃ (t : State) (p : Packet), exec (.windowRequest r) s = .next t
        ∧ t = { u with wale := u.wale ++ [p], flows := t.flows, winHeld := u.winHeld ++ [(r, ⟨.hbm, off⟩)] } ∧ p.kind = 5 ∧ p.tag = 1)
  ∧ (∀ (r : WindowReq) (s u : State) (pasid reason : Nat) (c : Context) (bs : List Byte), s.contextOfGang r.gang = some (pasid, c) →
      s.gangHeld r.gang = false → r.op = .store bs → Unheld s r →
      s.ctxPlace pasid deviceCore (c.domain + BitVec.ofNat 64 r.offset) true = (.fail reason, u) →
      ∃ (t : State) (m : Msg) (w : WinWait), exec (.windowRequest r) s = .next t
        ∧ t = { u with cores := t.cores, net := u.net ++ [m], winWaits := u.winWaits ++ [w] } ∧ w.req = r ∧ w.bad = none
        ∧ m.core = Config.cores + bitsOf (Tab.get u.ctxs {} pasid).froute.toNat 4 0 ∧ m.len = 64
        ∧ exec (.windowRequest r) { s with winWaits := [w] } = .next { s with winWaits := [w] })
  ∧ (∀ (r : WindowReq) (s : State) (w : WinWait), (s.contextOfGang r.gang).isSome = true → s.gangHeld r.gang = false →
      windowHolds r.op = true → s.winWaits = [w] → w.req = r → w.bad = some true →
      ∃ (t : State) (p : Packet), exec (.windowRequest r) s = .next t
        ∧ t = { s with wale := s.wale ++ [p], flows := t.flows, winWaits := [] } ∧ p.kind = 5 ∧ p.tag = 3 ∧ p.dstModule = r.srcModule)
  ∧ (∀ (r q : WindowReq) (s : State) (off : Nat) (bs : List Byte), (s.contextOfGang r.gang).isSome = true → s.gangHeld r.gang = false →
      s.winHeld.find? (fun w => windowConfirms r w.1) = some (q, ⟨.hbm, off⟩) → q.op = .store bs →
      (r.op = .confirm false → exec (.windowRequest r) s = .next { s with winHeld := s.winHeld.erase (q, ⟨.hbm, off⟩) })
      ∧ (r.op = .confirm true → s.migrating.contains (off / 4096) = false →
        ∃ (t : State) (p : Packet), exec (.windowRequest r) s = .next t ∧ t.wale = s.wale ++ [p] ∧ p.kind = 5 ∧ p.tag = 1
          ∧ p.dstModule = q.srcModule ∧ t.winHeld = s.winHeld.erase (q, ⟨.hbm, off⟩) ∧ t.hbm.readBytes off bs.length = bs))

/-! ### Scheduling, gangs, the domain and the module -/

/-- R11, R23, R24, R25, R336, R337, R340, R342, R343, R397: the one client that fits is granted and charged; a placed cohort
starts on zeroed memory; a quantum that ends renews or begins a save; a saved cohort gives up its harts, and returns; a client
ages; a finished launch completes with its record; the scheduling word takes the fields written, but for zero quanta and ages.
Which cohort follows and who waits meanwhile are read as log 31 says. -/
def Obligations.Scheduling : Prop :=
  (∀ (s : State) (e : Nat × Launch) (l : Launch) (f : (Nat × Nat × Nat × Nat × Nat) × List Block × State),
      let u := s.joinAll
      (u.cohorts.any (fun c => c.2.2.2.phase == .saving)) = false → u.returning = [] → u.clients 3 = [e] →
      u.admits e.2.pasid = true → u.fitCohort e.1 e.2.next = some f → f.2.2.launches.look e.1 = some l →
      ∃ (t : State) (m : Launch), exec .arbiterGrant s = .next t ∧ t.launches.look e.1 = some m ∧ m.next = l.next + 1
        ∧ m.pass = l.pass + 2 ^ 20 / max 1 l.record.tickets * l.record.blocks ∧ m.aged = false ∧ m.granted = f.2.2.tick
        ∧ m.cohorts.look l.next = some { blocks := f.2.1, phase := .placed, since := f.2.2.cycle, placing := f.2.2.placings, rect := f.1 }
        ∧ t.harts = f.2.2.harts)
  ∧ (∀ (s : State) (l : Launch) (k : Cohort), s.cohort s.focus.unit s.focus.item = some (l, k) →
      (k.phase = .placed ∨ k.phase = .returning) → l.earliest ≤ s.tick →
      ∃ (t : State) (m : Launch) (j : Cohort), exec .cohortResident s = .next t ∧ t.cohort s.focus.unit s.focus.item = some (m, j)
        ∧ j = { k with phase := .resident, since := s.cycle, quantum := s.cycle } ∧ m.started = true
        ∧ (∀ h ∈ k.allHarts, t.hart h = { s.hart h with
            resident := (s.hart h).live, fenceSeq := if k.phase = .placed then s.writes else (s.hart h).fenceSeq })
        ∧ (∀ h, h ∉ k.allHarts → t.hart h = s.hart h) ∧ (∀ h ∈ k.allHarts, (t.core (coreOf h)).defer = [])
        ∧ (k.phase = .placed → ∀ h ∈ k.allHarts, ∀ a, (s.hart h).tcmBase ≤ a →
            a < (s.hart h).tcmBase + ((s.hart h).tcmSize + 2048) → (t.core (coreOf h)).tcm.read a = 0))
  ∧ (∀ (s : State) (l : Launch) (k : Cohort), let n := s.focus.unit
      let c := s.focus.item
      let others := l.cohorts.any (fun e => e.1 != c && e.2.phase.holds && e.2.phase != .saving)
      s.cohort n c = some (l, k) → k.phase = .resident → k.quantum + 256 * s.sliceTicks ≤ s.cycle → s.lastRetirement n c = none →
      (((s.without [(n, c)]).successor n c).isSome = false → (others = false ∨ s.outbid n c l = false) →
        ∃ (t : State) (m : Launch) (j : Cohort), exec .quantumEnd s = .next t ∧ t.cohort n c = some (m, j)
          ∧ j = { k with quantum := s.cycle } ∧ m.pass = l.pass + 2 ^ 20 / max 1 l.record.tickets * l.record.blocks
          ∧ t = { s with launches := t.launches })
      ∧ (((s.without [(n, c)]).successor n c).isSome = false → others = true → s.outbid n c l = true →
        ∃ (t : State) (m : Launch) (j : Cohort), exec .quantumEnd s = .next t ∧ t.cohort n c = some (m, j)
          ∧ j = { k with phase := .saving, ceded := true } ∧ t = { s with launches := t.launches, harts := t.harts, cores := t.cores })
      ∧ (((s.without [(n, c)]).successor n c).isSome = true →
        ∃ (t : State) (m : Launch) (j : Cohort), exec .quantumEnd s = .next t ∧ t.cohort n c = some (m, j)
          ∧ j = { k with phase := .saving, rotating := true }
          ∧ t = { s with launches := t.launches, harts := t.harts, cores := t.cores }
          ∧ ∀ h ∈ k.allHarts, (s.hart h).committing = false → t.hart h = { s.hart h with resident := false }))
  ∧ (∀ (s : State) (l : Launch) (k : Cohort), let u := s.stopHarts k.allHarts k.ganged
      s.cohort s.focus.unit s.focus.item = some (l, k) → k.phase = .saving → k.parked = false →
      (u.stoppedAll k.allHarts k.ganged = false → exec .swapComplete s = .next u)
      ∧ (u.stoppedAll k.allHarts k.ganged = true → k.rotating = false →
        ∃ (t : State) (m : Launch) (j : Cohort), exec .swapComplete s = .next t ∧ t.cohort s.focus.unit s.focus.item = some (m, j)
          ∧ j.phase = .swapped ∧ j.saved.isSome = true ∧ j.blocks = k.blocks ∧ ∀ h ∈ k.allHarts, t.hart h = Hart.vacant))
  ∧ (∀ (s : State) (e : Nat × Nat × Launch × Cohort) es, s.focus.code ≠ 1 → s.returning = e :: es → e.1 = s.focus.unit →
      e.2.1 = s.focus.item →
      s.cohort e.1 e.2.1 = some (e.2.2.1, e.2.2.2) →
      ∃ (t : State) (m : Launch) (j : Cohort), exec .cohortReturn s = .next t ∧ t.cohort e.1 e.2.1 = some (m, j)
        ∧ j = { e.2.2.2 with phase := .returning, saved := none, parked := false, ganged := false, ceded := false, placing := s.placings }
        ∧ m.started = true
        ∧ m.pass = e.2.2.1.pass + 2 ^ 20 / max 1 e.2.2.1.record.tickets * e.2.2.1.record.blocks)
  ∧ (∀ (s : State) (l : Launch), s.launches.look s.focus.unit = some l → l.joined = true → l.queued = true → l.aged = false →
      l.granted + s.agemax ≤ s.tick →
      ∃ t, exec .clientAged s = .next t ∧ t = { s with launches := t.launches, floors := t.floors }
        ∧ t.launches.look s.focus.unit = some { l with aged := true } ∧ ∀ n, n ≠ s.focus.unit → t.launches.look n = s.launches.look n)
  ∧ (∀ (s : State) (l : Launch), s.launches.look s.focus.unit = some l → l.queue.isSome = true → l.ended = false → l.finished = true →
      s.tagsFree s.focus.unit = true →
      (l.record.done = 0 → ∃ t, exec .launchComplete s = .next t ∧ t = { s with launches := t.launches }
        ∧ t.launches.look s.focus.unit = some { l with ended := true })
      ∧ (∀ off u, l.record.done ≠ 0 → s.ctxPlace l.pasid deviceCore l.record.done true = (.at ⟨.host, off⟩, u) →
        ∃ t, exec .launchComplete s = .next t ∧ t.launches.look s.focus.unit = some { l with ended := true }
          ∧ t.hostMem.readBytes off 32 = leBytes 8 l.record.seq.toNat ++ leBytes 4 l.status ++ leBytes 4 0 ++ leBytes 8 l.startTick
              ++ leBytes 8 s.tick))
  ∧ (∀ s : State, (s.focus.code = 1 → exec .schedWrite s = .next { s with
          schedNext := some (s.tick + 1, schedWord ((s.schedNext.map Prod.snd).getD s.sched) (BitVec.ofNat 64 s.focus.item)) })
      ∧ (∀ n w, s.focus.code = 0 → s.schedNext = some (n, w) → n ≤ s.tick →
          ∃ t, exec .schedWrite s = .next t ∧ t = { s with sched := t.sched, schedNext := none }
            ∧ t.sliceTicks = (if bitsOf w.toNat 15 0 = 0 then s.sliceTicks else bitsOf w.toNat 15 0)
            ∧ t.minres = bitsOf w.toNat 31 16
            ∧ t.agemax = (if bitsOf w.toNat 47 32 = 0 then s.agemax else bitsOf w.toNat 47 32)
            ∧ bitsOf t.sched.toNat 63 48 = 0))

/-- R347, R348, R350, R351, R368: at its tick a gang is swept and its contexts are out; the switches are armed and divert; the
closing wave opens the save window and the window closes; a packet that comes late is a record, or aborts the gang. The place
fields of a late packet's record and the flag that closes the window are the model's choices (logs 18 and 34). -/
def Obligations.GangSwitches : Prop :=
  (∀ s : State, let g := s.focus.item
      let ps := (s.gangContexts g).map Prod.fst
      let u := ps.foldl (fun (v : State) (p : Nat) => v.stopHarts (v.handlersOf p) true) s
      ((s.gang g).st = 1 → (s.gang g).tick ≤ s.tick →
        ∃ t, exec .gangSwitch s = .next t ∧ (t.gang g).out = true ∧ (t.gang g).leaving = true
          ∧ ((s.gang g).records.length + (s.openRoutes g ++ s.portPackets g).length ≤ (s.gang g).room →
              (t.gang g).st = 2 ∧ (t.gang g).records.length = (s.gang g).records.length + (s.openRoutes g ++ s.portPackets g).length))
      ∧ ((s.gang g).st = 2 → (s.gang g).leaving = true → ps.all u.hasLeft = false → exec .gangSwitch s = .next u)
      ∧ ((s.gang g).st = 2 → (s.gang g).leaving = true → ps.all u.hasLeft = true → g ≠ 0 → (s.gang g).next ≠ g →
        ∃ t, exec .gangSwitch s = .next t ∧ (t.gang g).leaving = false
          ∧ (∀ p, (Tab.get s.ctxs ({} : Context) p).gang = g → (Tab.get s.ctxs ({} : Context) p).killed = false →
              (Tab.get t.ctxs ({} : Context) p).out = true)
          ∧ ∀ p, (s.gang g).next ≠ 0 → (Tab.get s.ctxs ({} : Context) p).gang = (s.gang g).next →
              (Tab.get s.ctxs ({} : Context) p).killed = false → (Tab.get t.ctxs ({} : Context) p).out = false))
  ∧ (∀ s : State, let g := s.focus.item
      (s.gang g).st = 2 →
      (s.domain.size = 0 ∨ ∀ k ∈ walePorts, ∃ p ∈ (Tab.get s.switches {} k).diverted, p.kind = 10 ∧ p.gang = g) →
      ∃ t, exec .closingWaveDone s = .next t ∧ t = { s with gangs := t.gangs, switches := t.switches, hbm := t.hbm, lost := t.lost }
        ∧ t.gang g = { s.gang g with st := 3, swept := s.tick, closed := false })
  ∧ (∀ s : State, let x := s.gang s.focus.item
      x.st = 3 → x.closed = false → x.swept + x.late ≤ s.tick →
      ∃ t, exec .saveWindowClose s = .next t ∧ t = { s with gangs := t.gangs } ∧ t.gang s.focus.item = { x with closed := true })
  ∧ (∀ (s : State) (p : Packet), s.focus.unit < 18 → s.focus.code ≠ 1 →
      s.wale.find? (fun q => isArmFlit q && q.tag == s.focus.unit) = some p →
      ∃ t, exec .sweepArmFlit s = .next t ∧ t = { s with wale := s.wale.erase p, switches := t.switches }
        ∧ (p.time = 0 → ∀ a ∈ (Tab.get t.switches {} s.focus.unit).armed, a.1 ≠ p.gang)
        ∧ (p.time ≠ 0 → (Tab.get s.switches {} s.focus.unit).armed.length < 64 →
            (p.gang, p.time) ∈ (Tab.get t.switches {} s.focus.unit).armed)
        ∧ ∀ k, k ≠ s.focus.unit → Tab.get t.switches {} k = Tab.get s.switches {} k)
  ∧ (∀ s : State, (∃ a ∈ (Tab.get s.switches {} s.focus.unit).armed, a.1 = s.focus.item ∧ a.2 ≤ s.tick) →
      ∃ t, exec .switchDivert s = .next t ∧ t = { s with switches := t.switches }
        ∧ (∀ a ∈ (Tab.get t.switches {} s.focus.unit).armed, a.1 ≠ s.focus.item)
        ∧ ∃ p ∈ (Tab.get t.switches {} s.focus.unit).diverted, p.kind = 10 ∧ p.vc = 3 ∧ p.gang = s.focus.item)
  ∧ (∀ (p : Packet) (s : State), let x := s.gang p.gang
      p.gang ≠ 0 →
      (x.st = 2 → x.records.length < x.room → ∃ t, exec (.latePacket p) s = .next t
        ∧ t = { s with gangs := t.gangs, hbm := t.hbm, lost := t.lost } ∧ t.gang p.gang = { x with records := x.records ++ [(0, 0, 2, p)] })
      ∧ (x.st = 3 → x.records.length < x.room → x.closed = false → s.tick < x.swept + x.late →
        ∃ (t : State) (m : Msg), exec (.latePacket p) s = .next t
          ∧ t.gang p.gang = { x with records := x.records ++ [(0, 0, 3, p)], lates := x.lates + 1 }
          ∧ t.net = s.net ++ [m] ∧ m.tag = 251 ∧ m.hart = x.tinker)
      ∧ ((x.st = 4 ∨ x.st = 3 ∧ x.closed = true) →
        ∃ t, exec (.latePacket p) s = .next t ∧ t.gang p.gang = { x with st := 5 }
          ∧ ∀ c, (Tab.get s.ctxs ({} : Context) c).gang = p.gang → (Tab.get s.ctxs ({} : Context) c).killed = false →
              (c, 2) ∈ t.doomed))

/-- R8, R216, R330, R364, R366, R384, R385, R386, R391, R392: ticks close on the domain's reports; heartbeats keep the count
and their loss is an event; module reset measures the boot; an error that codes report kills the contexts it affects and
retires its page; a hot die throttles, cools and trips. That events of no context go to both links, and what a reset keeps,
are the model's choices (logs 14 and 35). -/
def Obligations.DomainAndModule : Prop :=
  (∀ s : State, s.domain.size ≠ 0 → s.domain.module ≠ 0 → s.focus.item ≤ s.tick → exec .tickClose s = .next { s with
      domain := { s.domain with closed := max s.domain.closed s.focus.item } })
  ∧ (∀ s : State, let d := s.domain
      let tick := s.focus.item
      d.size ≠ 0 → d.module = 0 → s.focus.unit ≠ 0 → s.focus.unit < d.size → d.closed < tick →
      d.reports.contains (s.focus.unit, tick) = false →
      ∃ t, exec .tickCloseReport s = .next t ∧ t = { s with domain := t.domain, wale := t.wale }
        ∧ ((∀ m, m < d.size → m ≠ s.focus.unit → (m, tick) ∈ d.reports) → t.domain.closed = tick
            ∧ t.wale = s.wale ++ (List.range (d.size - 1)).map (fun m => heartbeatFlit 0 (m + 1) 2 tick))
        ∧ ((∃ m, m < d.size ∧ m ≠ s.focus.unit ∧ (m, tick) ∉ d.reports) →
            t.domain = { d with reports := d.reports ++ [(s.focus.unit, tick)] } ∧ t.wale = s.wale))
  ∧ (∀ s : State, s.domain.size ≠ 0 → s.domain.module ≠ 0 → ∃ t, exec .heartbeatFlit s = .next t ∧ t = { s with domain := t.domain }
      ∧ t.domain.beat = s.cycle ∧ t.domain.drift = (s.focus.item : Int) - s.cycle
      ∧ (t.domain.lost = true ↔ s.domain.lost = true ∧ (t.domain.drift < -8 ∨ 8 < t.domain.drift)))
  ∧ (∀ s : State, s.domain.size ≠ 0 → s.domain.module = 0 → s.domain.beat + 65536 ≤ s.cycle →
      ∃ (t : State) (ps : List Packet), exec .heartbeatSend s = .next t
        ∧ t = { s with wale := s.wale ++ ps, domain := { s.domain with beat := s.cycle } } ∧ ps.length = s.domain.size - 1
        ∧ ∀ p ∈ ps, p.kind = 8 ∧ p.vc = 3 ∧ p.time = s.cycle ∧ 0 < p.dstModule ∧ p.dstModule < s.domain.size)
  ∧ (∀ s : State, s.domain.size ≠ 0 → s.domain.module ≠ 0 → s.domain.lost = false → s.domain.beat + 2 ^ 20 ≤ s.cycle →
      ∃ t, exec .heartbeatLost s = .next t ∧ t = { s with domain := { s.domain with lost := true }, fns := t.fns }
        ∧ ∀ l, l < 2 → (s.fn l).events.length < 256 → ∃ e, (t.fn l).events = (s.fn l).events ++ [e] ∧ e.kind = 4 ∧ e.tick = s.tick)
  ∧ (∀ (b : BootInput) (s : State), ∃ t, exec (.moduleReset b) s = .next t ∧ t.hostMem = s.hostMem ∧ t.retired = s.retired
      ∧ t.cycle = State.reset.cycle ∧ t.ctxs = [] ∧ t.launches = [] ∧ t.hbm = State.reset.hbm ∧ t.sched = State.reset.sched
      ∧ ((∀ i, i < 5 → b.verified.getD i false = true) → t.hallmark.step = 6 ∧ t.hallmark.failed = false
          ∧ ∀ i, i < 5 → t.hallmark.meas.getD i [] = Sha.extend (List.replicate 32 0) (b.digests.getD i []))
      ∧ (b.verified.getD 0 false = false → t.hallmark.failed = true ∧ t.hallmark.step = 1 ∧ t.harts = [])
      ∧ ((∀ i, i < 5 → b.verified.getD i false = true) → b.services = true →
          ∀ i, i < Config.tinkers → t.hart (Config.harts + i) = tinkerAt b.serviceEntry))
  ∧ (∀ (err : EccError) (s : State), let e := withStack err
      s.affected e = [] → s.ofService e = false →
      ∃ t, exec (.eccUncorrectable err) s = .next t
        ∧ t = { s with fns := t.fns, retired := t.retired, corrected := t.corrected, lost := t.lost }
        ∧ (∀ i, i < 128 → (e.place = .hbm ∨ e.place = .l2) → t.hbmByte (e.address / 128 * 128 + i) = 0xFF)
        ∧ (e.place ≠ .hbm → e.place ≠ .l2 → t.lost = s.lost)
        ∧ (e.place = .hbm → t.retired.contains (e.address / 4096) = true) ∧ (e.place ≠ .hbm → t.retired = s.retired)
        ∧ Tab.get t.corrected 0 (placeKey (placeCode e.place) e.unit) = 0
        ∧ ∀ l, l < 2 → (s.fn l).events.length < 256 → ∃ v, (t.fn l).events = (s.fn l).events ++ [v] ∧ v.kind = 1)
  ∧ (∀ (e : EccError) (s : State) p, p ∈ s.affected (withStack e) → s.ctxs.has p = true →
      ∃ t, exec (.eccUncorrectable e) s = .next t ∧ (Tab.get t.ctxs {} p).killed = true)
  ∧ (∀ s : State, let key := placeKey s.focus.code s.focus.unit
      ∃ t, exec .eccCorrected s = .next t ∧ t = { s with corrected := t.corrected }
        ∧ ∀ k, Tab.get t.corrected 0 k = Tab.get s.corrected 0 k + (if k = key then 1 else 0))
  ∧ (∀ (r : Reading) (s : State), r.die < Config.cdies → (95 < r.celsius ∨ 550 < r.watts) → (Tab.get s.dies {} r.die).st = 0 →
      ∃ t, exec (.thermalThrottle r) s = .next t ∧ t = { s with dies := t.dies, fns := t.fns }
        ∧ Tab.get t.dies {} r.die = { st := 1, cool := 0 }
        ∧ ∀ l, l < 2 → (s.fn l).events.length < 256 → ∃ v, (t.fn l).events = (s.fn l).events ++ [v] ∧ v.kind = 6)
  ∧ (∀ (r : Reading) (s : State), r.die < Config.cdies → (Tab.get s.dies {} r.die).st = 1 →
      ∃ t, exec (.thermalRecover r) s = .next t ∧ t = { s with dies := t.dies, fns := t.fns }
        ∧ Tab.get t.dies {} r.die = (if r.celsius < 90 ∧ r.watts < 520 then
            (if (Tab.get s.dies {} r.die).cool + 1 < 64 then { st := 1, cool := (Tab.get s.dies {} r.die).cool + 1 } else {})
          else { st := 1, cool := 0 }))
  ∧ (∀ (r : Reading) (s : State), r.die < Config.cdies → 110 < r.celsius → (Tab.get s.dies {} r.die).st ≠ 2 →
      ∃ t, exec (.thermalTrip r) s = .next t ∧ (Tab.get t.dies {} r.die).st = 2
        ∧ (∀ p, s.ctxs.has p = true → (Tab.get t.ctxs {} p).killed = true) ∧ ∀ l, l < 2 → (t.fn l).needsReset = true)

/-! ### Debug -/

/-- R47, R48, R372, R374, R375, R377: A debugger reads and writes the registers of a halted hart, and of no other; halting and
resuming save and restore the pc; a trigger that matches halts the hart or is a breakpoint exception; a pending interrupt is
taken. The places of the bits of dcsr, the register numbers and the cmderr codes are presumed (log 22). -/
def Obligations.DebugAndInterrupts : Prop :=
  (∀ (r : RegAccess) (s : State), let x := s.hart r.hart
      let m := (s.core (coreOf r.hart)).dm
      x.tinker = false → r.hart < Config.harts → m.cmderr = 0 → x.live = true → x.resident = true →
      (x.dbg.halted = false → ∃ t, exec (.accessRegister r) s = .next t ∧ t = { s with cores := t.cores }
        ∧ (t.core (coreOf r.hart)).dm = { m with cmderr := 4, command := none })
      ∧ (x.dbg.halted = true → r.transfer = true → r.size = 3 → r.postexec = false →
        (∀ n, n < 32 → r.reg = 0x1000 + n → r.write = none → ∃ t, exec (.accessRegister r) s = .next t ∧ t = { s with cores := t.cores }
          ∧ (t.core (coreOf r.hart)).dm = { m with data := x.X n, command := none })
        ∧ (∀ n w, n < 32 → r.reg = 0x1000 + n → r.write = some w → ∃ t, exec (.accessRegister r) s = .next t
          ∧ t = { s with cores := t.cores, harts := t.harts } ∧ (∀ h, h ≠ r.hart → t.hart h = s.hart h)
          ∧ t.hart r.hart = { x with x := (t.hart r.hart).x } ∧ (∀ k, k ≠ n → (t.hart r.hart).X k = x.X k)
          ∧ (n ≠ 0 → (t.hart r.hart).X n = w))
        ∧ (∀ v, r.reg < 0x1000 → r.write = none → csrValue (debugView s r.hart) r.reg = some v →
          ∃ t, exec (.accessRegister r) s = .next t ∧ t = { s with cores := t.cores }
            ∧ (t.core (coreOf r.hart)).dm = { m with data := v, command := none })
        ∧ (r.reg < 0x1000 → csrValue (debugView s r.hart) r.reg = none → ∃ t, exec (.accessRegister r) s = .next t
          ∧ t = { s with cores := t.cores } ∧ (t.core (coreOf r.hart)).dm = { m with cmderr := 3, command := none })
        ∧ (0x1020 ≤ r.reg → ∃ t, exec (.accessRegister r) s = .next t
          ∧ t = { s with cores := t.cores } ∧ (t.core (coreOf r.hart)).dm = { m with cmderr := 2, command := none })))
  ∧ (∀ s : State, s.me.tinker = false → s.me.live = true → s.me.resident = true → s.me.dbg.halted = false →
      s.lastOf (s.blockHarts s.cur) = none →
      ∃ t, exec .haltreq s = .next t ∧ t = { s with harts := t.harts, cores := t.cores } ∧ (∀ h, h ≠ s.cur → t.hart h = s.hart h)
        ∧ t.me = { s.me with dbg := t.me.dbg, mode := t.me.mode, rel := none, wait := {} } ∧ t.me.dbg.halted = true ∧ t.me.dbg.dpc = s.me.pc
        ∧ bitsOf t.me.dbg.dcsr.toNat 8 6 = 3 ∧ bitsOf t.me.dbg.dcsr.toNat 1 0 = s.me.mode.code)
  ∧ (∀ s : State, s.me.dbg.halted = true →
      ∃ t, exec .resumereq s = .next t ∧ t = { s with harts := t.harts, cores := t.cores } ∧ (∀ h, h ≠ s.cur → t.hart h = s.hart h)
        ∧ t.me = { s.me with dbg := t.me.dbg, mode := t.me.mode, pc := s.me.dbg.dpc, wait := {} } ∧ t.me.dbg.halted = false
        ∧ t.me.dbg.stepping = s.me.dbg.dcsr.getLsbD 2
        ∧ (bitsOf s.me.dbg.dcsr.toNat 1 0 ≠ 2 → t.me.mode.code = bitsOf s.me.dbg.dcsr.toNat 1 0))
  ∧ (∀ (s : State) n a, s.me.triggered (s.peek s.cur) true = some (n, a) →
      ∃ t, exec .triggerMatch s = .next t ∧ OnlyMe s t ∧ t.me.dbg.halted = true ∧ t.me.dbg.dpc = s.me.pc ∧ t.me.pc = s.me.pc
        ∧ bitsOf t.me.dbg.dcsr.toNat 8 6 = 2 ∧ (Tab.get t.me.dbg.triggers {} n).hit = true ∧ KeepsX [] s t)
  ∧ (∀ (s : State) n a, s.me.triggered (s.peek s.cur) true = none → s.me.triggered (s.peek s.cur) false = some (n, a) →
      exec .triggerMatch s = trap 3 a (s.onMe (fun x => { x with dbg := { x.dbg with
        triggers := Tab.set x.dbg.triggers {} n { Tab.get x.dbg.triggers {} n with hit := true } } })))
  ∧ (∀ (s : State) i, s.me.live = true → s.me.resident = true → s.me.dbg.halted = false → s.me.idle = false →
      s.me.defers = false → s.me.interruptDue = some i →
      (s.me.inShadow = false → s.me.mode ≠ .m → s.me.csr.mideleg.getLsbD i = true →
        ∃ t, exec .interruptTaken s = .next t ∧ OnlyMe s t ∧ SameMemory s t ∧ KeepsX [] s t ∧ t.me.mode = .s ∧ t.me.csr.sepc = s.me.pc
          ∧ t.me.csr.scause = (1#64 <<< 63) ||| BitVec.ofNat 64 i ∧ t.me.attS = s.me.att ∧ t.me.csr.mstatus.getLsbD 1 = false
          ∧ (s.me.csr.stvec.getLsbD 0 = false → t.me.pc = s.me.csr.stvec &&& ~~~ 3#64))
      ∧ (s.me.csr.mideleg.getLsbD i = false →
        ∃ t, exec .interruptTaken s = .next t ∧ t = { s with harts := t.harts, doomed := t.doomed }
          ∧ (∀ h, h ≠ s.cur → t.hart h = s.hart h) ∧ SameMemory s t ∧ KeepsX [] s t ∧ t.me.mode = .m ∧ t.me.csr.mepc = s.me.pc
          ∧ (∀ p, s.me.tinker = false → (s.core s.myCore).holder = some p → t.doomed = s.doomed ++ [(p, 4)])
          ∧ t.me.csr.mcause = (1#64 <<< 63) ||| BitVec.ofNat 64 i ∧ t.me.attM = s.me.att ∧ t.me.csr.mstatus.getLsbD 3 = false))

/-! ### Decoding, steps, reset and invariants -/

/-- R75 to R82, R87, R89: every well-formed instruction is read back from its words, whatever words follow it. -/
def Obligations.EncodeThenDecode : Prop :=
  ∀ (i : Instr) (rest : List W32), i.wf = true → decodeWords (encode i ++ rest) = (.ok i, rest)

/-- R75 to R82, R87: whatever words are read as an instruction, the instruction keeps every rule of its row, and its words are
the ones that were read: no bit of them is dropped. -/
def Obligations.DecodeThenEncode : Prop :=
  ∀ (i : Instr) (ws rest : List W32), decodeWords ws = (.ok i, rest) → i.wf = true ∧ ws = encode i ++ rest

/-- R79, R82, R105, R116, R120, R124, R128, R181, R234: words that the spec writes out are the instructions that it says. -/
def Obligations.WordsOfTheSpec : Prop :=
  decodeWords [0x00A18E0B] = (.ok (.vadd { d := 7, a := 3, b := 5 }), [])
  ∧ decodeWords [0x00A18D0B, 0x0002A141, 0]
      = (.ok (.vadd { form := .ext, d := 70, a := 3, b := 5, ty := 5, sat := true, pm := 2, pinv := true }), [])
  ∧ decodeWords [0x8840910B, 0x002005C0, 9]
      = (.ok (.vfma4 { form := .ext, d := 8, a := 1, b := 2, ty := 7, rsc := 1, xop := 2, w2 := 9 }), [])
  ∧ decodeWords [0xF000088B, 0x3F800000, 0] = (.ok (.vbcst { form := .lit, d := 4, xop := 1, lit := 0x3F800000 }), [])
  ∧ decodeWords [0x8049A05B] = (.ok (.clh 9 3 4), [])
  ∧ decodeWords [0x0020045B] = (.ok (.mand { d := 2, a := 0, b := 1 }), [])
  ∧ decodeWords [0x28A0825B] = (.ok (.mbnz { d := 1, a := 1, b := 5 }), [])
  ∧ decodeWords [0x0029042B] = (.ok (.vld { d := 2, a := 18, b := 1 }), [])
  ∧ decodeWords [0x38050D5B, 0x00100800, 0] = (.ok (.barArrive { form := .ext, d := 6, a := 10, rsc := 2, xop := 1 }), [])
  ∧ decodeWords [0x31650C7B] = (.ok (.eCmma { d := 6, a := 10, b := 11 }), [])
  ∧ decodeWords [0x7820005B] = (.ok .uiret, [])
  ∧ decodeWords [0xFFFFFFFF, 1, 2] = (.reject .major, [1, 2])

/-- R30, R75, R88, R95, R96, R377: A step in which the environment lets a ready hart issue, whose instruction finds a lane pipe or
needs none, runs, where nothing comes before it, the instruction that the words at its pc decode to, and adds to what `exec` answers
only the clk of the issue, the pipe held, the trace, and the clk that is over, with what happens at the first clk of a tick. The words
of an untranslated fetch are the four published bytes at their address, the lowest first. That a step takes one clk and that the agenda
names the hart are the model's choices (logs 1 and 2). -/
def Obligations.StepRunsDecodedInstruction : Prop :=
  (∀ (s : State) (e : Event) es i (t u : State), s.agenda = e :: es → e.step = none →
      let s1 : State := { s with agenda := es }
      let s2 : State := { s1 with cur := e.hart, trapped := false }
      s1.ready.contains e.hart = true → s1.pipeFree e.hart = true → NothingBefore e.hart s2 →
      (s2.hart e.hart).scoreClear i = true → s2.fetch e.hart = .instr i t → exec i t = .next u →
      (u.trapped = true ∨ NoInterrupt e.hart s2) → (u.hart e.hart).dbg.stepping = false →
      step s = .next (s1.trace (noted e.hart s1 u) e.hart).tickOver)
  ∧ (∀ (s : State) (h : Nat) (w0 : W32) (ws : List W32) (a b : State) (i : Instr), (s.hart h).pc.toNat % 4 = 0 →
      fetchWords h 1 (s.hart h).pc [] s = .inl ([w0], a) →
      fetchWords h (wordCount w0 - 1) ((s.hart h).pc + 4) [w0] a = .inl (ws, b) → decodeWords ws = (.ok i, []) → i.wf = true →
      s.fetch h = .instr i b)
  ∧ (∀ (s : State) (h : Nat) (va : W64), inLocal va = false → inDomain va = false → rootOf s h .fetch = none →
      va.toNat + 4 ≤ Config.hbmBytes → va.toNat % 4 = 0 → s.migrating.contains (va.toNat / 4096) = false →
      (s.hart h).icache.look (va.toNat / 128) = none → (s.hart h).fetchOwn = [] → (∀ w ∈ s.written, w.1 < (s.hart h).fenceSeq) →
      ∃ t, s.fetchWord h va = .word (BitVec.ofNat 32 (leNat ((List.range 4).map (fun k => s.published (s.hart h).tag (va.toNat + k))))) t
        ∧ t = { s with harts := t.harts } ∧ (t.hart h).pc = (s.hart h).pc)
  ∧ (∀ t : State, t.doomed = [] → -8 ≤ t.domain.drift → t.domain.drift ≤ 8 → t.domain.slipped = false →
      ((t.cycle + 1) % 256 ≠ 0 → t.tickOver = { t with cycle := t.cycle + 1 })
      ∧ ((t.cycle + 1) % 256 = 0 → t.tickOver = { t with cycle := t.cycle + 1 }.atTick))
  ∧ (∀ (s u : State) (h : Nat), s.traced h = false → s.trace u h = u)

/-- R9, R36, R42, R44, R83, R336, R385: module reset leaves the scheduling word at the quantum, residency and age of R336, the
counter at 0, the measurements at zero and nothing running; a hart starts at its launch's entry in U mode with its arguments
in a0 and a1, every other scalar register, lane and mask zero, an empty mask stack, and no done flag or attachment. -/
def Obligations.ResetState : Prop :=
  (State.reset.cycle = 0 ∧ State.reset.sliceTicks = 1024 ∧ State.reset.minres = 64 ∧ State.reset.agemax = 16384
    ∧ State.reset.hallmark.meas = List.replicate 8 (List.replicate 32 0) ∧ (∀ h, (State.reset.hart h).live = false)
    ∧ ∀ p, (Tab.get State.reset.ctxs ({} : Context) p).made = false)
  ∧ (∀ (s : State) (l : Launch) (p : Home) (base : Nat), let x := s.freshHart l p base
      x.pc = l.record.entry ∧ x.mode = .u ∧ x.X 10 = l.record.args ∧ x.X 11 = l.addr
        ∧ x.launchAddr = l.addr ∧ (∀ n, n ≠ 10 → n ≠ 11 → x.X n = 0) ∧ (∀ r k, k < 32 → x.V r k = 0) ∧ (∀ k, 1 ≤ k → k ≤ 7 → x.M k = 0) ∧ x.m0 = 0xFFFFFFFF
        ∧ x.depth = 0 ∧ x.doneFlags = 0 ∧ x.att = {} ∧ x.lfcsr = 0 ∧ x.window = 16 * l.record.windows.getD (l.record.stage p.hib) 1)

/-- R336: the scheduling word is legal at reset. -/
def Obligations.SchedulingWordLegalAtReset : Prop := State.reset.schedOk

/-- R330, R336: no step of the module, whatever it runs, makes the scheduling word illegal, and none brings a retired page
back. That retired pages stay recorded over a module reset is the model's choice (log 35). -/
def Obligations.SchedulingWordStaysLegal : Prop :=
  (∀ s t : State, s.schedOk → step s = .next t → t.schedOk)
  ∧ (∀ s t : State, step s = .next t → ∀ p ∈ s.retired, p ∈ t.retired)
end

