-- ==== Sys2Proof/Laws/Table.lean ====
section
/-! SUPPORT. Tables: reading after writing, and the order of keys that every operation keeps. -/

namespace Sys2Proof.Machine

variable {β : Type}

theorem Tab.get_del_other (t : Tab β) (d : β) {k j : Nat} (h : j ≠ k) : Tab.get (t.del k) d j = Tab.get t d j := by
  induction t with
  | nil => rfl
  | cons e r ih =>
    obtain ⟨i, v⟩ := e
    by_cases hk : k = i
    · subst hk; simp [Tab.del, Tab.get, h, ih]
    · simp [Tab.del, Tab.get, hk, ih]

theorem Tab.get_del_same (t : Tab β) (d : β) (k : Nat) : Tab.get (t.del k) d k = d := by
  induction t with
  | nil => rfl
  | cons e r ih =>
    obtain ⟨i, v⟩ := e
    by_cases hk : k = i
    · simp [Tab.del, hk]; simpa [hk] using ih
    · simp [Tab.del, Tab.get, hk, ih]

theorem Tab.get_ins_other (t : Tab β) (d v : β) {k j : Nat} (h : j ≠ k) : Tab.get (t.ins k v) d j = Tab.get t d j := by
  induction t with
  | nil => simp [Tab.ins, Tab.get, h]
  | cons e r ih =>
    obtain ⟨i, w⟩ := e
    by_cases hk : k < i
    · simp [Tab.ins, Tab.get, hk, h]
    · simp [Tab.ins, Tab.get, hk, ih]

theorem Tab.get_ins_same (t : Tab β) (d v : β) (k : Nat) : Tab.get ((t.del k).ins k v) d k = v := by
  induction t with
  | nil => simp [Tab.del, Tab.ins, Tab.get]
  | cons e r ih =>
    obtain ⟨i, w⟩ := e
    by_cases hk : k = i
    · simpa [Tab.del, hk] using ih
    · by_cases hl : k < i
      · simp [Tab.del, Tab.ins, Tab.get, hk, hl]
      · simp [Tab.del, Tab.ins, Tab.get, hk, hl, ih]

/-- A key written reads as what was written. -/
@[simp] theorem Tab.get_set_same [DecidableEq β] (t : Tab β) (d : β) (k : Nat) (v : β) : Tab.get (t.set d k v) d k = v := by
  unfold Tab.set
  split
  · rename_i h; rw [h, Tab.get_del_same]
  · exact Tab.get_ins_same t d v k

/-- Writing a key leaves every other key alone. -/
theorem Tab.get_set_other [DecidableEq β] (t : Tab β) (d : β) {k j : Nat} (v : β) (h : j ≠ k) :
    Tab.get (t.set d k v) d j = Tab.get t d j := by
  unfold Tab.set
  split
  · exact Tab.get_del_other t d h
  · rw [Tab.get_ins_other _ _ _ h, Tab.get_del_other _ _ h]

theorem Tab.get_set [DecidableEq β] (t : Tab β) (d : β) (k j : Nat) (v : β) :
    Tab.get (t.set d k v) d j = if j = k then v else Tab.get t d j := by
  split
  · rename_i h; rw [h, Tab.get_set_same]
  · rename_i h; exact Tab.get_set_other t d v h

/-! ### Order of keys -/

/-- Every key of a table is greater than `a`. -/
def Tab.above (a : Nat) (t : Tab β) : Prop := ∀ e ∈ t, a < e.1

theorem Tab.sorted_cons (a : Nat) (v : β) (t : Tab β) :
    Tab.sorted ((a, v) :: t) = true ↔ Tab.above a t ∧ Tab.sorted t = true := by
  induction t generalizing a v with
  | nil => simp [Tab.sorted, Tab.above]
  | cons e r ih =>
    obtain ⟨b, w⟩ := e
    simp only [Tab.sorted, Bool.and_eq_true, decide_eq_true_eq, Tab.above, List.mem_cons, forall_eq_or_imp]
    constructor
    · rintro ⟨h, hs⟩
      exact ⟨⟨h, fun e he => lt_trans h (((ih b w).1 hs).1 e he)⟩, hs⟩
    · rintro ⟨⟨h, -⟩, hs⟩
      exact ⟨h, hs⟩

theorem Tab.del_mem {t : Tab β} {k : Nat} {e : Nat × β} (h : e ∈ t.del k) : e ∈ t ∧ e.1 ≠ k := by
  induction t with
  | nil => simp [Tab.del] at h
  | cons a r ih =>
    obtain ⟨i, v⟩ := a
    by_cases hk : k = i
    · rw [Tab.del, if_pos hk] at h
      exact ⟨List.mem_cons_of_mem _ (ih h).1, (ih h).2⟩
    · rw [Tab.del, if_neg hk] at h
      rcases List.mem_cons.1 h with rfl | h
      · exact ⟨List.mem_cons_self, fun e => hk e.symm⟩
      · exact ⟨List.mem_cons_of_mem _ (ih h).1, (ih h).2⟩

theorem Tab.sorted_del {t : Tab β} (k : Nat) (h : Tab.sorted t = true) : Tab.sorted (t.del k) = true := by
  induction t with
  | nil => rfl
  | cons e r ih =>
    obtain ⟨i, v⟩ := e
    rw [Tab.sorted_cons] at h
    by_cases hk : k = i
    · rw [Tab.del, if_pos hk]; exact ih h.2
    · rw [Tab.del, if_neg hk, Tab.sorted_cons]
      exact ⟨fun e he => h.1 e (Tab.del_mem he).1, ih h.2⟩

theorem Tab.ins_mem {t : Tab β} {k : Nat} {v : β} {e : Nat × β} (h : e ∈ t.ins k v) : e = (k, v) ∨ e ∈ t := by
  induction t with
  | nil => simpa [Tab.ins] using h
  | cons a r ih =>
    obtain ⟨i, w⟩ := a
    by_cases hk : k < i
    · rw [Tab.ins, if_pos hk] at h; exact List.mem_cons.1 h
    · rw [Tab.ins, if_neg hk] at h
      rcases List.mem_cons.1 h with rfl | h
      · exact .inr List.mem_cons_self
      · exact (ih h).imp id (List.mem_cons_of_mem _)

theorem Tab.sorted_ins {t : Tab β} {k : Nat} (v : β) (h : Tab.sorted t = true) (hn : ∀ e ∈ t, e.1 ≠ k) :
    Tab.sorted (t.ins k v) = true := by
  induction t with
  | nil => rfl
  | cons e r ih =>
    obtain ⟨i, w⟩ := e
    have hs := (Tab.sorted_cons i w r).1 h
    by_cases hk : k < i
    · rw [Tab.ins, if_pos hk, Tab.sorted_cons]
      refine ⟨fun e he => ?_, h⟩
      rcases List.mem_cons.1 he with rfl | he
      · exact hk
      · exact lt_trans hk (hs.1 e he)
    · rw [Tab.ins, if_neg hk, Tab.sorted_cons]
      have hi : i < k := lt_of_le_of_ne (not_lt.1 hk) (hn _ List.mem_cons_self)
      refine ⟨fun e he => ?_, ih hs.2 (fun e he => hn e (List.mem_cons_of_mem _ he))⟩
      rcases Tab.ins_mem he with rfl | he
      · exact hi
      · exact hs.1 e he

/-- Writing a key keeps the order of keys. -/
theorem Tab.sorted_set [DecidableEq β] {t : Tab β} (d : β) (k : Nat) (v : β) (h : Tab.sorted t = true) :
    Tab.sorted (t.set d k v) = true := by
  unfold Tab.set
  split
  · exact Tab.sorted_del k h
  · exact Tab.sorted_ins v (Tab.sorted_del k h) (fun e he => (Tab.del_mem he).2)

theorem Tab.sorted_filter {t : Tab β} (p : Nat × β → Bool) (h : Tab.sorted t = true) : Tab.sorted (t.filter p) = true := by
  induction t with
  | nil => rfl
  | cons e r ih =>
    obtain ⟨i, v⟩ := e
    rw [Tab.sorted_cons] at h
    rw [List.filter_cons]
    split
    · rw [Tab.sorted_cons]
      exact ⟨fun e he => h.1 e (List.mem_of_mem_filter he), ih h.2⟩
    · exact ih h.2

end Sys2Proof.Machine
end

