-- ==== Sys2Proof/Laws/Memory.lean ====
section
/-! SUPPORT. Memories: every operation keeps the canonical form; a byte reads as it was written last. -/

namespace Sys2Proof.Machine

namespace Memory

/-- A byte written reads as what was written. -/
@[simp] theorem read_write_same (m : Memory) (a : Nat) (b : Byte) : (m.write a b).read a = b := Tab.get_set_same m unlisted a b

/-- Writing a byte leaves every other byte alone. -/
theorem read_write_other (m : Memory) {a c : Nat} (b : Byte) (h : c ≠ a) : (m.write a b).read c = m.read c :=
  Tab.get_set_other m unlisted b h

/-- A byte outside a run of written bytes is left alone. -/
theorem read_writeBytes_other (m : Memory) (a : Nat) (bs : List Byte) (c : Nat) (h : c < a ∨ a + bs.length ≤ c) :
    (m.writeBytes a bs).read c = m.read c := by
  induction bs generalizing m a with
  | nil => rfl
  | cons b bs ih =>
    simp only [List.length_cons] at h
    rw [writeBytes, ih _ _ (by omega), read_write_other _ _ (by omega)]

/-- A byte of a run of written bytes reads as it was written. -/
theorem read_writeBytes_in (m : Memory) (a : Nat) (bs : List Byte) (k : Nat) (h : k < bs.length) :
    (m.writeBytes a bs).read (a + k) = bs[k] := by
  induction bs generalizing m a k with
  | nil => simp at h
  | cons b bs ih =>
    cases k with
    | zero => rw [writeBytes, read_writeBytes_other _ _ _ _ (by omega)]; simp
    | succ k =>
      have := ih (m.write a b) (a + 1) k (by simpa using h)
      rw [writeBytes, show a + (k + 1) = a + 1 + k by omega, this]
      rfl

@[simp] theorem length_readBytes (m : Memory) (a n : Nat) : (m.readBytes a n).length = n := by
  induction n generalizing a with
  | zero => rfl
  | succ n ih => simp [readBytes, ih]

/-- A run of bytes reads as it was written. -/
theorem readBytes_writeBytes (m : Memory) (a : Nat) (bs : List Byte) : (m.writeBytes a bs).readBytes a bs.length = bs := by
  induction bs generalizing m a with
  | nil => rfl
  | cons b bs ih =>
    rw [List.length_cons, readBytes, writeBytes, ih, read_writeBytes_other _ _ _ _ (by omega), read_write_same]

theorem all_del {m : Memory} {k : Nat} {p : Nat × Byte → Bool} (h : m.all p = true) : (Tab.del m k).all p = true := by
  rw [List.all_eq_true] at *
  exact fun e he => h e (Tab.del_mem he).1

/-- Writing a byte keeps the canonical form. -/
theorem wf_write {m : Memory} (a : Nat) (b : Byte) (h : m.wf = true) : (m.write a b).wf = true := by
  simp only [Memory.wf, Bool.and_eq_true] at *
  refine ⟨Tab.sorted_set _ _ _ h.1, ?_⟩
  unfold Memory.write Tab.set
  split
  · exact all_del h.2
  · rename_i hb
    rw [List.all_eq_true]
    intro e he
    rcases Tab.ins_mem he with rfl | he
    · simpa using hb
    · exact List.all_eq_true.1 h.2 e (Tab.del_mem he).1

/-- Writing bytes keeps the canonical form. -/
theorem wf_writeBytes {m : Memory} (a : Nat) (bs : List Byte) (h : m.wf = true) : (m.writeBytes a bs).wf = true := by
  induction bs generalizing m a with
  | nil => exact h
  | cons b bs ih => exact ih _ (wf_write a b h)

/-- Keeping some bytes keeps the canonical form. -/
theorem wf_filter {m : Memory} (p : Host.Cell → Bool) (h : m.wf = true) : Memory.wf (m.filter p) = true := by
  simp only [Memory.wf, Bool.and_eq_true] at *
  refine ⟨Tab.sorted_filter p h.1, ?_⟩
  rw [List.all_eq_true] at *
  exact fun e he => h.2 e (List.mem_of_mem_filter he)

/-- Clearing bytes keeps the canonical form. -/
theorem wf_clear {m : Memory} (a n : Nat) (h : m.wf = true) : (m.clear a n).wf = true := wf_filter _ h

/-- The empty memory has the canonical form. -/
theorem wf_nil : Memory.wf [] = true := rfl

end Memory

/-- The memories right after reset have the canonical form. -/
theorem State.reset_memories_wf : Memory.wf State.reset.hbm = true ∧ Memory.wf State.reset.hostMem = true := ⟨rfl, rfl⟩

end Sys2Proof.Machine
end

