-- ==== Sys2Proof/Laws/State.lean ====
section
/-! SUPPORT. One lemma for each field and each update of the state and of a hart, so that no proof unfolds a record
update; and units and registers read after being written. -/

namespace Sys2Proof.Machine

/-! ### Units read after being written -/

namespace State

@[simp] theorem hart_setHart_same (s : State) (h : Nat) (x : Hart) : (s.setHart h x).hart h = x :=
  Tab.get_set_same s.harts Hart.vacant h x

theorem hart_setHart_other (s : State) {h k : Nat} (x : Hart) (n : k ≠ h) : (s.setHart h x).hart k = s.hart k :=
  Tab.get_set_other s.harts Hart.vacant x n

theorem hart_setHart (s : State) (h k : Nat) (x : Hart) : (s.setHart h x).hart k = if k = h then x else s.hart k :=
  Tab.get_set s.harts Hart.vacant h k x

@[simp] theorem core_setCore_same (s : State) (c : Nat) (x : Core) : (s.setCore c x).core c = x :=
  Tab.get_set_same s.cores {} c x

theorem core_setCore_other (s : State) {c k : Nat} (x : Core) (n : k ≠ c) : (s.setCore c x).core k = s.core k :=
  Tab.get_set_other s.cores {} x n

theorem core_setCore (s : State) (c k : Nat) (x : Core) : (s.setCore c x).core k = if k = c then x else s.core k :=
  Tab.get_set s.cores {} c k x

@[simp] theorem cluster_setCluster_same (s : State) (c : Nat) (x : Cluster) : (s.setCluster c x).cluster c = x :=
  Tab.get_set_same s.clusters {} c x

theorem cluster_setCluster_other (s : State) {c k : Nat} (x : Cluster) (n : k ≠ c) :
    (s.setCluster c x).cluster k = s.cluster k := Tab.get_set_other s.clusters {} x n

@[simp] theorem core_setHart (s : State) (h c : Nat) (x : Hart) : (s.setHart h x).core c = s.core c := rfl
@[simp] theorem cluster_setHart (s : State) (h c : Nat) (x : Hart) : (s.setHart h x).cluster c = s.cluster c := rfl
@[simp] theorem hart_setCore (s : State) (h c : Nat) (x : Core) : (s.setCore c x).hart h = s.hart h := rfl
@[simp] theorem cluster_setCore (s : State) (h c : Nat) (x : Core) : (s.setCore c x).cluster h = s.cluster h := rfl
@[simp] theorem hart_setCluster (s : State) (h c : Nat) (x : Cluster) : (s.setCluster c x).hart h = s.hart h := rfl
@[simp] theorem core_setCluster (s : State) (h c : Nat) (x : Cluster) : (s.setCluster c x).core h = s.core h := rfl

@[simp] theorem me_setMe (s : State) (x : Hart) : (s.setMe x).me = x := hart_setHart_same s s.cur x
@[simp] theorem hart_setMe_same (s : State) (x : Hart) : (s.setMe x).hart s.cur = x := hart_setHart_same s s.cur x
theorem hart_setMe_other (s : State) {k : Nat} (x : Hart) (n : k ≠ s.cur) : (s.setMe x).hart k = s.hart k :=
  hart_setHart_other s x n
@[simp] theorem core_setMe (s : State) (c : Nat) (x : Hart) : (s.setMe x).core c = s.core c := rfl
@[simp] theorem cluster_setMe (s : State) (c : Nat) (x : Hart) : (s.setMe x).cluster c = s.cluster c := rfl
@[simp] theorem me_setCore (s : State) (c : Nat) (x : Core) : (s.setCore c x).me = s.me := rfl
@[simp] theorem me_setCluster (s : State) (c : Nat) (x : Cluster) : (s.setCluster c x).me = s.me := rfl
@[simp] theorem myCore_setMe (s : State) (x : Hart) : (s.setMe x).myCore = s.myCore := rfl

@[simp] theorem me_onMe (s : State) (f : Hart → Hart) : (s.onMe f).me = f s.me := me_setMe s (f s.me)
@[simp] theorem hart_onHart_same (s : State) (h : Nat) (f : Hart → Hart) : (s.onHart h f).hart h = f (s.hart h) :=
  hart_setHart_same s h _
theorem hart_onHart_other (s : State) {h k : Nat} (f : Hart → Hart) (n : k ≠ h) : (s.onHart h f).hart k = s.hart k :=
  hart_setHart_other s _ n
theorem hart_onMe_other (s : State) {k : Nat} (f : Hart → Hart) (n : k ≠ s.cur) : (s.onMe f).hart k = s.hart k :=
  hart_setHart_other s _ n
@[simp] theorem core_onMe (s : State) (c : Nat) (f : Hart → Hart) : (s.onMe f).core c = s.core c := rfl
@[simp] theorem cluster_onMe (s : State) (c : Nat) (f : Hart → Hart) : (s.onMe f).cluster c = s.cluster c := rfl
@[simp] theorem core_onHart (s : State) (h c : Nat) (f : Hart → Hart) : (s.onHart h f).core c = s.core c := rfl
@[simp] theorem cluster_onHart (s : State) (h c : Nat) (f : Hart → Hart) : (s.onHart h f).cluster c = s.cluster c := rfl
@[simp] theorem core_onCore_same (s : State) (c : Nat) (f : Core → Core) : (s.onCore c f).core c = f (s.core c) :=
  core_setCore_same s c _
theorem core_onCore_other (s : State) {c k : Nat} (f : Core → Core) (n : k ≠ c) : (s.onCore c f).core k = s.core k :=
  core_setCore_other s _ n
@[simp] theorem hart_onCore (s : State) (h c : Nat) (f : Core → Core) : (s.onCore c f).hart h = s.hart h := rfl
@[simp] theorem cluster_onCore (s : State) (h c : Nat) (f : Core → Core) : (s.onCore c f).cluster h = s.cluster h := rfl
@[simp] theorem me_onCore (s : State) (c : Nat) (f : Core → Core) : (s.onCore c f).me = s.me := rfl
@[simp] theorem cluster_onCluster_same (s : State) (c : Nat) (f : Cluster → Cluster) :
    (s.onCluster c f).cluster c = f (s.cluster c) := cluster_setCluster_same s c _
theorem cluster_onCluster_other (s : State) {c k : Nat} (f : Cluster → Cluster) (n : k ≠ c) :
    (s.onCluster c f).cluster k = s.cluster k := cluster_setCluster_other s _ n
@[simp] theorem hart_onCluster (s : State) (h c : Nat) (f : Cluster → Cluster) : (s.onCluster c f).hart h = s.hart h := rfl
@[simp] theorem core_onCluster (s : State) (h c : Nat) (f : Cluster → Cluster) : (s.onCluster c f).core h = s.core h := rfl
@[simp] theorem me_onCluster (s : State) (c : Nat) (f : Cluster → Cluster) : (s.onCluster c f).me = s.me := rfl

/-- A hart's writing is the table's: what else the state holds stays. -/
theorem setHart_eta (s : State) (h : Nat) (x : Hart) : s.setHart h x = { s with harts := (s.setHart h x).harts } := rfl

/-! ### One lemma for each field and each update -/

@[simp] theorem setHart_agenda (s : State) (h : Nat) (x : Hart) : (s.setHart h x).agenda = s.agenda := rfl
@[simp] theorem setHart_cycle (s : State) (h : Nat) (x : Hart) : (s.setHart h x).cycle = s.cycle := rfl
@[simp] theorem setHart_cur (s : State) (h : Nat) (x : Hart) : (s.setHart h x).cur = s.cur := rfl
@[simp] theorem setHart_focus (s : State) (h : Nat) (x : Hart) : (s.setHart h x).focus = s.focus := rfl
@[simp] theorem setHart_freeCtr (s : State) (h : Nat) (x : Hart) : (s.setHart h x).freeCtr = s.freeCtr := rfl
@[simp] theorem setHart_trapped (s : State) (h : Nat) (x : Hart) : (s.setHart h x).trapped = s.trapped := rfl
@[simp] theorem setHart_doomed (s : State) (h : Nat) (x : Hart) : (s.setHart h x).doomed = s.doomed := rfl
@[simp] theorem setHart_domain (s : State) (h : Nat) (x : Hart) : (s.setHart h x).domain = s.domain := rfl
@[simp] theorem setHart_wale (s : State) (h : Nat) (x : Hart) : (s.setHart h x).wale = s.wale := rfl
@[simp] theorem setHart_flows (s : State) (h : Nat) (x : Hart) : (s.setHart h x).flows = s.flows := rfl
@[simp] theorem setHart_net (s : State) (h : Nat) (x : Hart) : (s.setHart h x).net = s.net := rfl
@[simp] theorem setHart_ats (s : State) (h : Nat) (x : Hart) : (s.setHart h x).ats = s.ats := rfl
@[simp] theorem setHart_atsBad (s : State) (h : Nat) (x : Hart) : (s.setHart h x).atsBad = s.atsBad := rfl
@[simp] theorem setHart_fns (s : State) (h : Nat) (x : Hart) : (s.setHart h x).fns = s.fns := rfl
@[simp] theorem setHart_gangs (s : State) (h : Nat) (x : Hart) : (s.setHart h x).gangs = s.gangs := rfl
@[simp] theorem setHart_cores (s : State) (h : Nat) (x : Hart) : (s.setHart h x).cores = s.cores := rfl
@[simp] theorem setHart_clusters (s : State) (h : Nat) (x : Hart) : (s.setHart h x).clusters = s.clusters := rfl
@[simp] theorem setHart_hbm (s : State) (h : Nat) (x : Hart) : (s.setHart h x).hbm = s.hbm := rfl
@[simp] theorem setHart_hostMem (s : State) (h : Nat) (x : Hart) : (s.setHart h x).hostMem = s.hostMem := rfl
@[simp] theorem setHart_vers (s : State) (h : Nat) (x : Hart) : (s.setHart h x).vers = s.vers := rfl
@[simp] theorem setHart_dir (s : State) (h : Nat) (x : Hart) : (s.setHart h x).dir = s.dir := rfl
@[simp] theorem setHart_trackers (s : State) (h : Nat) (x : Hart) : (s.setHart h x).trackers = s.trackers := rfl
@[simp] theorem setHart_migrating (s : State) (h : Nat) (x : Hart) : (s.setHart h x).migrating = s.migrating := rfl
@[simp] theorem setHart_worlds (s : State) (h : Nat) (x : Hart) : (s.setHart h x).worlds = s.worlds := rfl
@[simp] theorem setHart_ctxs (s : State) (h : Nat) (x : Hart) : (s.setHart h x).ctxs = s.ctxs := rfl
@[simp] theorem setHart_launches (s : State) (h : Nat) (x : Hart) : (s.setHart h x).launches = s.launches := rfl
@[simp] theorem setHart_nextLaunch (s : State) (h : Nat) (x : Hart) : (s.setHart h x).nextLaunch = s.nextLaunch := rfl
@[simp] theorem setHart_placings (s : State) (h : Nat) (x : Hart) : (s.setHart h x).placings = s.placings := rfl
@[simp] theorem setHart_sched (s : State) (h : Nat) (x : Hart) : (s.setHart h x).sched = s.sched := rfl
@[simp] theorem setHart_schedNext (s : State) (h : Nat) (x : Hart) : (s.setHart h x).schedNext = s.schedNext := rfl
@[simp] theorem setHart_floors (s : State) (h : Nat) (x : Hart) : (s.setHart h x).floors = s.floors := rfl
@[simp] theorem setHart_requests (s : State) (h : Nat) (x : Hart) : (s.setHart h x).requests = s.requests := rfl
@[simp] theorem setHart_saves (s : State) (h : Nat) (x : Hart) : (s.setHart h x).saves = s.saves := rfl
@[simp] theorem setHart_switches (s : State) (h : Nat) (x : Hart) : (s.setHart h x).switches = s.switches := rfl
@[simp] theorem setHart_hallmark (s : State) (h : Nat) (x : Hart) : (s.setHart h x).hallmark = s.hallmark := rfl
@[simp] theorem setHart_dies (s : State) (h : Nat) (x : Hart) : (s.setHart h x).dies = s.dies := rfl
@[simp] theorem setHart_corrected (s : State) (h : Nat) (x : Hart) : (s.setHart h x).corrected = s.corrected := rfl
@[simp] theorem setHart_retired (s : State) (h : Nat) (x : Hart) : (s.setHart h x).retired = s.retired := rfl
@[simp] theorem setHart_lost (s : State) (h : Nat) (x : Hart) : (s.setHart h x).lost = s.lost := rfl
@[simp] theorem setHart_hostLines (s : State) (h : Nat) (x : Hart) : (s.setHart h x).hostLines = s.hostLines := rfl
@[simp] theorem setHart_snoops (s : State) (h : Nat) (x : Hart) : (s.setHart h x).snoops = s.snoops := rfl
@[simp] theorem setHart_winHeld (s : State) (h : Nat) (x : Hart) : (s.setHart h x).winHeld = s.winHeld := rfl
@[simp] theorem setHart_winWaits (s : State) (h : Nat) (x : Hart) : (s.setHart h x).winWaits = s.winWaits := rfl
@[simp] theorem setHart_hdmRead (s : State) (h : Nat) (x : Hart) : (s.setHart h x).hdmRead = s.hdmRead := rfl
@[simp] theorem setHart_shimVec (s : State) (h : Nat) (x : Hart) : (s.setHart h x).shimVec = s.shimVec := rfl
@[simp] theorem setHart_monitorVec (s : State) (h : Nat) (x : Hart) : (s.setHart h x).monitorVec = s.monitorVec := rfl
@[simp] theorem setHart_traces (s : State) (h : Nat) (x : Hart) : (s.setHart h x).traces = s.traces := rfl
@[simp] theorem setHart_awaited (s : State) (h : Nat) (x : Hart) : (s.setHart h x).awaited = s.awaited := rfl
@[simp] theorem setHart_moves (s : State) (h : Nat) (x : Hart) : (s.setHart h x).moves = s.moves := rfl
@[simp] theorem setHart_written (s : State) (h : Nat) (x : Hart) : (s.setHart h x).written = s.written := rfl
@[simp] theorem setHart_writes (s : State) (h : Nat) (x : Hart) : (s.setHart h x).writes = s.writes := rfl

@[simp] theorem setMe_agenda (s : State) (x : Hart) : (s.setMe x).agenda = s.agenda := rfl
@[simp] theorem setMe_cycle (s : State) (x : Hart) : (s.setMe x).cycle = s.cycle := rfl
@[simp] theorem setMe_cur (s : State) (x : Hart) : (s.setMe x).cur = s.cur := rfl
@[simp] theorem setMe_focus (s : State) (x : Hart) : (s.setMe x).focus = s.focus := rfl
@[simp] theorem setMe_freeCtr (s : State) (x : Hart) : (s.setMe x).freeCtr = s.freeCtr := rfl
@[simp] theorem setMe_trapped (s : State) (x : Hart) : (s.setMe x).trapped = s.trapped := rfl
@[simp] theorem setMe_doomed (s : State) (x : Hart) : (s.setMe x).doomed = s.doomed := rfl
@[simp] theorem setMe_domain (s : State) (x : Hart) : (s.setMe x).domain = s.domain := rfl
@[simp] theorem setMe_wale (s : State) (x : Hart) : (s.setMe x).wale = s.wale := rfl
@[simp] theorem setMe_flows (s : State) (x : Hart) : (s.setMe x).flows = s.flows := rfl
@[simp] theorem setMe_net (s : State) (x : Hart) : (s.setMe x).net = s.net := rfl
@[simp] theorem setMe_ats (s : State) (x : Hart) : (s.setMe x).ats = s.ats := rfl
@[simp] theorem setMe_atsBad (s : State) (x : Hart) : (s.setMe x).atsBad = s.atsBad := rfl
@[simp] theorem setMe_fns (s : State) (x : Hart) : (s.setMe x).fns = s.fns := rfl
@[simp] theorem setMe_gangs (s : State) (x : Hart) : (s.setMe x).gangs = s.gangs := rfl
@[simp] theorem setMe_cores (s : State) (x : Hart) : (s.setMe x).cores = s.cores := rfl
@[simp] theorem setMe_clusters (s : State) (x : Hart) : (s.setMe x).clusters = s.clusters := rfl
@[simp] theorem setMe_hbm (s : State) (x : Hart) : (s.setMe x).hbm = s.hbm := rfl
@[simp] theorem setMe_hostMem (s : State) (x : Hart) : (s.setMe x).hostMem = s.hostMem := rfl
@[simp] theorem setMe_vers (s : State) (x : Hart) : (s.setMe x).vers = s.vers := rfl
@[simp] theorem setMe_dir (s : State) (x : Hart) : (s.setMe x).dir = s.dir := rfl
@[simp] theorem setMe_trackers (s : State) (x : Hart) : (s.setMe x).trackers = s.trackers := rfl
@[simp] theorem setMe_migrating (s : State) (x : Hart) : (s.setMe x).migrating = s.migrating := rfl
@[simp] theorem setMe_worlds (s : State) (x : Hart) : (s.setMe x).worlds = s.worlds := rfl
@[simp] theorem setMe_ctxs (s : State) (x : Hart) : (s.setMe x).ctxs = s.ctxs := rfl
@[simp] theorem setMe_launches (s : State) (x : Hart) : (s.setMe x).launches = s.launches := rfl
@[simp] theorem setMe_nextLaunch (s : State) (x : Hart) : (s.setMe x).nextLaunch = s.nextLaunch := rfl
@[simp] theorem setMe_placings (s : State) (x : Hart) : (s.setMe x).placings = s.placings := rfl
@[simp] theorem setMe_sched (s : State) (x : Hart) : (s.setMe x).sched = s.sched := rfl
@[simp] theorem setMe_schedNext (s : State) (x : Hart) : (s.setMe x).schedNext = s.schedNext := rfl
@[simp] theorem setMe_floors (s : State) (x : Hart) : (s.setMe x).floors = s.floors := rfl
@[simp] theorem setMe_requests (s : State) (x : Hart) : (s.setMe x).requests = s.requests := rfl
@[simp] theorem setMe_saves (s : State) (x : Hart) : (s.setMe x).saves = s.saves := rfl
@[simp] theorem setMe_switches (s : State) (x : Hart) : (s.setMe x).switches = s.switches := rfl
@[simp] theorem setMe_hallmark (s : State) (x : Hart) : (s.setMe x).hallmark = s.hallmark := rfl
@[simp] theorem setMe_dies (s : State) (x : Hart) : (s.setMe x).dies = s.dies := rfl
@[simp] theorem setMe_corrected (s : State) (x : Hart) : (s.setMe x).corrected = s.corrected := rfl
@[simp] theorem setMe_retired (s : State) (x : Hart) : (s.setMe x).retired = s.retired := rfl
@[simp] theorem setMe_lost (s : State) (x : Hart) : (s.setMe x).lost = s.lost := rfl
@[simp] theorem setMe_hostLines (s : State) (x : Hart) : (s.setMe x).hostLines = s.hostLines := rfl
@[simp] theorem setMe_snoops (s : State) (x : Hart) : (s.setMe x).snoops = s.snoops := rfl
@[simp] theorem setMe_winHeld (s : State) (x : Hart) : (s.setMe x).winHeld = s.winHeld := rfl
@[simp] theorem setMe_winWaits (s : State) (x : Hart) : (s.setMe x).winWaits = s.winWaits := rfl
@[simp] theorem setMe_hdmRead (s : State) (x : Hart) : (s.setMe x).hdmRead = s.hdmRead := rfl
@[simp] theorem setMe_shimVec (s : State) (x : Hart) : (s.setMe x).shimVec = s.shimVec := rfl
@[simp] theorem setMe_monitorVec (s : State) (x : Hart) : (s.setMe x).monitorVec = s.monitorVec := rfl
@[simp] theorem setMe_traces (s : State) (x : Hart) : (s.setMe x).traces = s.traces := rfl
@[simp] theorem setMe_awaited (s : State) (x : Hart) : (s.setMe x).awaited = s.awaited := rfl
@[simp] theorem setMe_moves (s : State) (x : Hart) : (s.setMe x).moves = s.moves := rfl
@[simp] theorem setMe_written (s : State) (x : Hart) : (s.setMe x).written = s.written := rfl
@[simp] theorem setMe_writes (s : State) (x : Hart) : (s.setMe x).writes = s.writes := rfl

@[simp] theorem onMe_agenda (s : State) (f : Hart → Hart) : (s.onMe f).agenda = s.agenda := rfl
@[simp] theorem onMe_cycle (s : State) (f : Hart → Hart) : (s.onMe f).cycle = s.cycle := rfl
@[simp] theorem onMe_cur (s : State) (f : Hart → Hart) : (s.onMe f).cur = s.cur := rfl
@[simp] theorem onMe_focus (s : State) (f : Hart → Hart) : (s.onMe f).focus = s.focus := rfl
@[simp] theorem onMe_freeCtr (s : State) (f : Hart → Hart) : (s.onMe f).freeCtr = s.freeCtr := rfl
@[simp] theorem onMe_trapped (s : State) (f : Hart → Hart) : (s.onMe f).trapped = s.trapped := rfl
@[simp] theorem onMe_doomed (s : State) (f : Hart → Hart) : (s.onMe f).doomed = s.doomed := rfl
@[simp] theorem onMe_domain (s : State) (f : Hart → Hart) : (s.onMe f).domain = s.domain := rfl
@[simp] theorem onMe_wale (s : State) (f : Hart → Hart) : (s.onMe f).wale = s.wale := rfl
@[simp] theorem onMe_flows (s : State) (f : Hart → Hart) : (s.onMe f).flows = s.flows := rfl
@[simp] theorem onMe_net (s : State) (f : Hart → Hart) : (s.onMe f).net = s.net := rfl
@[simp] theorem onMe_ats (s : State) (f : Hart → Hart) : (s.onMe f).ats = s.ats := rfl
@[simp] theorem onMe_atsBad (s : State) (f : Hart → Hart) : (s.onMe f).atsBad = s.atsBad := rfl
@[simp] theorem onMe_fns (s : State) (f : Hart → Hart) : (s.onMe f).fns = s.fns := rfl
@[simp] theorem onMe_gangs (s : State) (f : Hart → Hart) : (s.onMe f).gangs = s.gangs := rfl
@[simp] theorem onMe_cores (s : State) (f : Hart → Hart) : (s.onMe f).cores = s.cores := rfl
@[simp] theorem onMe_clusters (s : State) (f : Hart → Hart) : (s.onMe f).clusters = s.clusters := rfl
@[simp] theorem onMe_hbm (s : State) (f : Hart → Hart) : (s.onMe f).hbm = s.hbm := rfl
@[simp] theorem onMe_hostMem (s : State) (f : Hart → Hart) : (s.onMe f).hostMem = s.hostMem := rfl
@[simp] theorem onMe_vers (s : State) (f : Hart → Hart) : (s.onMe f).vers = s.vers := rfl
@[simp] theorem onMe_dir (s : State) (f : Hart → Hart) : (s.onMe f).dir = s.dir := rfl
@[simp] theorem onMe_trackers (s : State) (f : Hart → Hart) : (s.onMe f).trackers = s.trackers := rfl
@[simp] theorem onMe_migrating (s : State) (f : Hart → Hart) : (s.onMe f).migrating = s.migrating := rfl
@[simp] theorem onMe_worlds (s : State) (f : Hart → Hart) : (s.onMe f).worlds = s.worlds := rfl
@[simp] theorem onMe_ctxs (s : State) (f : Hart → Hart) : (s.onMe f).ctxs = s.ctxs := rfl
@[simp] theorem onMe_launches (s : State) (f : Hart → Hart) : (s.onMe f).launches = s.launches := rfl
@[simp] theorem onMe_nextLaunch (s : State) (f : Hart → Hart) : (s.onMe f).nextLaunch = s.nextLaunch := rfl
@[simp] theorem onMe_placings (s : State) (f : Hart → Hart) : (s.onMe f).placings = s.placings := rfl
@[simp] theorem onMe_sched (s : State) (f : Hart → Hart) : (s.onMe f).sched = s.sched := rfl
@[simp] theorem onMe_schedNext (s : State) (f : Hart → Hart) : (s.onMe f).schedNext = s.schedNext := rfl
@[simp] theorem onMe_floors (s : State) (f : Hart → Hart) : (s.onMe f).floors = s.floors := rfl
@[simp] theorem onMe_requests (s : State) (f : Hart → Hart) : (s.onMe f).requests = s.requests := rfl
@[simp] theorem onMe_saves (s : State) (f : Hart → Hart) : (s.onMe f).saves = s.saves := rfl
@[simp] theorem onMe_switches (s : State) (f : Hart → Hart) : (s.onMe f).switches = s.switches := rfl
@[simp] theorem onMe_hallmark (s : State) (f : Hart → Hart) : (s.onMe f).hallmark = s.hallmark := rfl
@[simp] theorem onMe_dies (s : State) (f : Hart → Hart) : (s.onMe f).dies = s.dies := rfl
@[simp] theorem onMe_corrected (s : State) (f : Hart → Hart) : (s.onMe f).corrected = s.corrected := rfl
@[simp] theorem onMe_retired (s : State) (f : Hart → Hart) : (s.onMe f).retired = s.retired := rfl
@[simp] theorem onMe_lost (s : State) (f : Hart → Hart) : (s.onMe f).lost = s.lost := rfl
@[simp] theorem onMe_hostLines (s : State) (f : Hart → Hart) : (s.onMe f).hostLines = s.hostLines := rfl
@[simp] theorem onMe_snoops (s : State) (f : Hart → Hart) : (s.onMe f).snoops = s.snoops := rfl
@[simp] theorem onMe_winHeld (s : State) (f : Hart → Hart) : (s.onMe f).winHeld = s.winHeld := rfl
@[simp] theorem onMe_winWaits (s : State) (f : Hart → Hart) : (s.onMe f).winWaits = s.winWaits := rfl
@[simp] theorem onMe_hdmRead (s : State) (f : Hart → Hart) : (s.onMe f).hdmRead = s.hdmRead := rfl
@[simp] theorem onMe_shimVec (s : State) (f : Hart → Hart) : (s.onMe f).shimVec = s.shimVec := rfl
@[simp] theorem onMe_monitorVec (s : State) (f : Hart → Hart) : (s.onMe f).monitorVec = s.monitorVec := rfl
@[simp] theorem onMe_traces (s : State) (f : Hart → Hart) : (s.onMe f).traces = s.traces := rfl
@[simp] theorem onMe_awaited (s : State) (f : Hart → Hart) : (s.onMe f).awaited = s.awaited := rfl
@[simp] theorem onMe_moves (s : State) (f : Hart → Hart) : (s.onMe f).moves = s.moves := rfl
@[simp] theorem onMe_written (s : State) (f : Hart → Hart) : (s.onMe f).written = s.written := rfl
@[simp] theorem onMe_writes (s : State) (f : Hart → Hart) : (s.onMe f).writes = s.writes := rfl

@[simp] theorem onHart_agenda (s : State) (h : Nat) (f : Hart → Hart) : (s.onHart h f).agenda = s.agenda := rfl
@[simp] theorem onHart_cycle (s : State) (h : Nat) (f : Hart → Hart) : (s.onHart h f).cycle = s.cycle := rfl
@[simp] theorem onHart_cur (s : State) (h : Nat) (f : Hart → Hart) : (s.onHart h f).cur = s.cur := rfl
@[simp] theorem onHart_focus (s : State) (h : Nat) (f : Hart → Hart) : (s.onHart h f).focus = s.focus := rfl
@[simp] theorem onHart_freeCtr (s : State) (h : Nat) (f : Hart → Hart) : (s.onHart h f).freeCtr = s.freeCtr := rfl
@[simp] theorem onHart_trapped (s : State) (h : Nat) (f : Hart → Hart) : (s.onHart h f).trapped = s.trapped := rfl
@[simp] theorem onHart_doomed (s : State) (h : Nat) (f : Hart → Hart) : (s.onHart h f).doomed = s.doomed := rfl
@[simp] theorem onHart_domain (s : State) (h : Nat) (f : Hart → Hart) : (s.onHart h f).domain = s.domain := rfl
@[simp] theorem onHart_wale (s : State) (h : Nat) (f : Hart → Hart) : (s.onHart h f).wale = s.wale := rfl
@[simp] theorem onHart_flows (s : State) (h : Nat) (f : Hart → Hart) : (s.onHart h f).flows = s.flows := rfl
@[simp] theorem onHart_net (s : State) (h : Nat) (f : Hart → Hart) : (s.onHart h f).net = s.net := rfl
@[simp] theorem onHart_ats (s : State) (h : Nat) (f : Hart → Hart) : (s.onHart h f).ats = s.ats := rfl
@[simp] theorem onHart_atsBad (s : State) (h : Nat) (f : Hart → Hart) : (s.onHart h f).atsBad = s.atsBad := rfl
@[simp] theorem onHart_fns (s : State) (h : Nat) (f : Hart → Hart) : (s.onHart h f).fns = s.fns := rfl
@[simp] theorem onHart_gangs (s : State) (h : Nat) (f : Hart → Hart) : (s.onHart h f).gangs = s.gangs := rfl
@[simp] theorem onHart_cores (s : State) (h : Nat) (f : Hart → Hart) : (s.onHart h f).cores = s.cores := rfl
@[simp] theorem onHart_clusters (s : State) (h : Nat) (f : Hart → Hart) : (s.onHart h f).clusters = s.clusters := rfl
@[simp] theorem onHart_hbm (s : State) (h : Nat) (f : Hart → Hart) : (s.onHart h f).hbm = s.hbm := rfl
@[simp] theorem onHart_hostMem (s : State) (h : Nat) (f : Hart → Hart) : (s.onHart h f).hostMem = s.hostMem := rfl
@[simp] theorem onHart_vers (s : State) (h : Nat) (f : Hart → Hart) : (s.onHart h f).vers = s.vers := rfl
@[simp] theorem onHart_dir (s : State) (h : Nat) (f : Hart → Hart) : (s.onHart h f).dir = s.dir := rfl
@[simp] theorem onHart_trackers (s : State) (h : Nat) (f : Hart → Hart) : (s.onHart h f).trackers = s.trackers := rfl
@[simp] theorem onHart_migrating (s : State) (h : Nat) (f : Hart → Hart) : (s.onHart h f).migrating = s.migrating := rfl
@[simp] theorem onHart_worlds (s : State) (h : Nat) (f : Hart → Hart) : (s.onHart h f).worlds = s.worlds := rfl
@[simp] theorem onHart_ctxs (s : State) (h : Nat) (f : Hart → Hart) : (s.onHart h f).ctxs = s.ctxs := rfl
@[simp] theorem onHart_launches (s : State) (h : Nat) (f : Hart → Hart) : (s.onHart h f).launches = s.launches := rfl
@[simp] theorem onHart_nextLaunch (s : State) (h : Nat) (f : Hart → Hart) : (s.onHart h f).nextLaunch = s.nextLaunch := rfl
@[simp] theorem onHart_placings (s : State) (h : Nat) (f : Hart → Hart) : (s.onHart h f).placings = s.placings := rfl
@[simp] theorem onHart_sched (s : State) (h : Nat) (f : Hart → Hart) : (s.onHart h f).sched = s.sched := rfl
@[simp] theorem onHart_schedNext (s : State) (h : Nat) (f : Hart → Hart) : (s.onHart h f).schedNext = s.schedNext := rfl
@[simp] theorem onHart_floors (s : State) (h : Nat) (f : Hart → Hart) : (s.onHart h f).floors = s.floors := rfl
@[simp] theorem onHart_requests (s : State) (h : Nat) (f : Hart → Hart) : (s.onHart h f).requests = s.requests := rfl
@[simp] theorem onHart_saves (s : State) (h : Nat) (f : Hart → Hart) : (s.onHart h f).saves = s.saves := rfl
@[simp] theorem onHart_switches (s : State) (h : Nat) (f : Hart → Hart) : (s.onHart h f).switches = s.switches := rfl
@[simp] theorem onHart_hallmark (s : State) (h : Nat) (f : Hart → Hart) : (s.onHart h f).hallmark = s.hallmark := rfl
@[simp] theorem onHart_dies (s : State) (h : Nat) (f : Hart → Hart) : (s.onHart h f).dies = s.dies := rfl
@[simp] theorem onHart_corrected (s : State) (h : Nat) (f : Hart → Hart) : (s.onHart h f).corrected = s.corrected := rfl
@[simp] theorem onHart_retired (s : State) (h : Nat) (f : Hart → Hart) : (s.onHart h f).retired = s.retired := rfl
@[simp] theorem onHart_lost (s : State) (h : Nat) (f : Hart → Hart) : (s.onHart h f).lost = s.lost := rfl
@[simp] theorem onHart_hostLines (s : State) (h : Nat) (f : Hart → Hart) : (s.onHart h f).hostLines = s.hostLines := rfl
@[simp] theorem onHart_snoops (s : State) (h : Nat) (f : Hart → Hart) : (s.onHart h f).snoops = s.snoops := rfl
@[simp] theorem onHart_winHeld (s : State) (h : Nat) (f : Hart → Hart) : (s.onHart h f).winHeld = s.winHeld := rfl
@[simp] theorem onHart_winWaits (s : State) (h : Nat) (f : Hart → Hart) : (s.onHart h f).winWaits = s.winWaits := rfl
@[simp] theorem onHart_hdmRead (s : State) (h : Nat) (f : Hart → Hart) : (s.onHart h f).hdmRead = s.hdmRead := rfl
@[simp] theorem onHart_shimVec (s : State) (h : Nat) (f : Hart → Hart) : (s.onHart h f).shimVec = s.shimVec := rfl
@[simp] theorem onHart_monitorVec (s : State) (h : Nat) (f : Hart → Hart) : (s.onHart h f).monitorVec = s.monitorVec := rfl
@[simp] theorem onHart_traces (s : State) (h : Nat) (f : Hart → Hart) : (s.onHart h f).traces = s.traces := rfl
@[simp] theorem onHart_awaited (s : State) (h : Nat) (f : Hart → Hart) : (s.onHart h f).awaited = s.awaited := rfl
@[simp] theorem onHart_moves (s : State) (h : Nat) (f : Hart → Hart) : (s.onHart h f).moves = s.moves := rfl
@[simp] theorem onHart_written (s : State) (h : Nat) (f : Hart → Hart) : (s.onHart h f).written = s.written := rfl
@[simp] theorem onHart_writes (s : State) (h : Nat) (f : Hart → Hart) : (s.onHart h f).writes = s.writes := rfl

@[simp] theorem setCore_agenda (s : State) (c : Nat) (x : Core) : (s.setCore c x).agenda = s.agenda := rfl
@[simp] theorem setCore_cycle (s : State) (c : Nat) (x : Core) : (s.setCore c x).cycle = s.cycle := rfl
@[simp] theorem setCore_cur (s : State) (c : Nat) (x : Core) : (s.setCore c x).cur = s.cur := rfl
@[simp] theorem setCore_focus (s : State) (c : Nat) (x : Core) : (s.setCore c x).focus = s.focus := rfl
@[simp] theorem setCore_freeCtr (s : State) (c : Nat) (x : Core) : (s.setCore c x).freeCtr = s.freeCtr := rfl
@[simp] theorem setCore_trapped (s : State) (c : Nat) (x : Core) : (s.setCore c x).trapped = s.trapped := rfl
@[simp] theorem setCore_doomed (s : State) (c : Nat) (x : Core) : (s.setCore c x).doomed = s.doomed := rfl
@[simp] theorem setCore_domain (s : State) (c : Nat) (x : Core) : (s.setCore c x).domain = s.domain := rfl
@[simp] theorem setCore_wale (s : State) (c : Nat) (x : Core) : (s.setCore c x).wale = s.wale := rfl
@[simp] theorem setCore_flows (s : State) (c : Nat) (x : Core) : (s.setCore c x).flows = s.flows := rfl
@[simp] theorem setCore_net (s : State) (c : Nat) (x : Core) : (s.setCore c x).net = s.net := rfl
@[simp] theorem setCore_ats (s : State) (c : Nat) (x : Core) : (s.setCore c x).ats = s.ats := rfl
@[simp] theorem setCore_atsBad (s : State) (c : Nat) (x : Core) : (s.setCore c x).atsBad = s.atsBad := rfl
@[simp] theorem setCore_fns (s : State) (c : Nat) (x : Core) : (s.setCore c x).fns = s.fns := rfl
@[simp] theorem setCore_gangs (s : State) (c : Nat) (x : Core) : (s.setCore c x).gangs = s.gangs := rfl
@[simp] theorem setCore_harts (s : State) (c : Nat) (x : Core) : (s.setCore c x).harts = s.harts := rfl
@[simp] theorem setCore_clusters (s : State) (c : Nat) (x : Core) : (s.setCore c x).clusters = s.clusters := rfl
@[simp] theorem setCore_hbm (s : State) (c : Nat) (x : Core) : (s.setCore c x).hbm = s.hbm := rfl
@[simp] theorem setCore_hostMem (s : State) (c : Nat) (x : Core) : (s.setCore c x).hostMem = s.hostMem := rfl
@[simp] theorem setCore_vers (s : State) (c : Nat) (x : Core) : (s.setCore c x).vers = s.vers := rfl
@[simp] theorem setCore_dir (s : State) (c : Nat) (x : Core) : (s.setCore c x).dir = s.dir := rfl
@[simp] theorem setCore_trackers (s : State) (c : Nat) (x : Core) : (s.setCore c x).trackers = s.trackers := rfl
@[simp] theorem setCore_migrating (s : State) (c : Nat) (x : Core) : (s.setCore c x).migrating = s.migrating := rfl
@[simp] theorem setCore_worlds (s : State) (c : Nat) (x : Core) : (s.setCore c x).worlds = s.worlds := rfl
@[simp] theorem setCore_ctxs (s : State) (c : Nat) (x : Core) : (s.setCore c x).ctxs = s.ctxs := rfl
@[simp] theorem setCore_launches (s : State) (c : Nat) (x : Core) : (s.setCore c x).launches = s.launches := rfl
@[simp] theorem setCore_nextLaunch (s : State) (c : Nat) (x : Core) : (s.setCore c x).nextLaunch = s.nextLaunch := rfl
@[simp] theorem setCore_placings (s : State) (c : Nat) (x : Core) : (s.setCore c x).placings = s.placings := rfl
@[simp] theorem setCore_sched (s : State) (c : Nat) (x : Core) : (s.setCore c x).sched = s.sched := rfl
@[simp] theorem setCore_schedNext (s : State) (c : Nat) (x : Core) : (s.setCore c x).schedNext = s.schedNext := rfl
@[simp] theorem setCore_floors (s : State) (c : Nat) (x : Core) : (s.setCore c x).floors = s.floors := rfl
@[simp] theorem setCore_requests (s : State) (c : Nat) (x : Core) : (s.setCore c x).requests = s.requests := rfl
@[simp] theorem setCore_saves (s : State) (c : Nat) (x : Core) : (s.setCore c x).saves = s.saves := rfl
@[simp] theorem setCore_switches (s : State) (c : Nat) (x : Core) : (s.setCore c x).switches = s.switches := rfl
@[simp] theorem setCore_hallmark (s : State) (c : Nat) (x : Core) : (s.setCore c x).hallmark = s.hallmark := rfl
@[simp] theorem setCore_dies (s : State) (c : Nat) (x : Core) : (s.setCore c x).dies = s.dies := rfl
@[simp] theorem setCore_corrected (s : State) (c : Nat) (x : Core) : (s.setCore c x).corrected = s.corrected := rfl
@[simp] theorem setCore_retired (s : State) (c : Nat) (x : Core) : (s.setCore c x).retired = s.retired := rfl
@[simp] theorem setCore_lost (s : State) (c : Nat) (x : Core) : (s.setCore c x).lost = s.lost := rfl
@[simp] theorem setCore_hostLines (s : State) (c : Nat) (x : Core) : (s.setCore c x).hostLines = s.hostLines := rfl
@[simp] theorem setCore_snoops (s : State) (c : Nat) (x : Core) : (s.setCore c x).snoops = s.snoops := rfl
@[simp] theorem setCore_winHeld (s : State) (c : Nat) (x : Core) : (s.setCore c x).winHeld = s.winHeld := rfl
@[simp] theorem setCore_winWaits (s : State) (c : Nat) (x : Core) : (s.setCore c x).winWaits = s.winWaits := rfl
@[simp] theorem setCore_hdmRead (s : State) (c : Nat) (x : Core) : (s.setCore c x).hdmRead = s.hdmRead := rfl
@[simp] theorem setCore_shimVec (s : State) (c : Nat) (x : Core) : (s.setCore c x).shimVec = s.shimVec := rfl
@[simp] theorem setCore_monitorVec (s : State) (c : Nat) (x : Core) : (s.setCore c x).monitorVec = s.monitorVec := rfl
@[simp] theorem setCore_traces (s : State) (c : Nat) (x : Core) : (s.setCore c x).traces = s.traces := rfl
@[simp] theorem setCore_awaited (s : State) (c : Nat) (x : Core) : (s.setCore c x).awaited = s.awaited := rfl
@[simp] theorem setCore_moves (s : State) (c : Nat) (x : Core) : (s.setCore c x).moves = s.moves := rfl
@[simp] theorem setCore_written (s : State) (c : Nat) (x : Core) : (s.setCore c x).written = s.written := rfl
@[simp] theorem setCore_writes (s : State) (c : Nat) (x : Core) : (s.setCore c x).writes = s.writes := rfl

@[simp] theorem onCore_agenda (s : State) (c : Nat) (f : Core → Core) : (s.onCore c f).agenda = s.agenda := rfl
@[simp] theorem onCore_cycle (s : State) (c : Nat) (f : Core → Core) : (s.onCore c f).cycle = s.cycle := rfl
@[simp] theorem onCore_cur (s : State) (c : Nat) (f : Core → Core) : (s.onCore c f).cur = s.cur := rfl
@[simp] theorem onCore_focus (s : State) (c : Nat) (f : Core → Core) : (s.onCore c f).focus = s.focus := rfl
@[simp] theorem onCore_freeCtr (s : State) (c : Nat) (f : Core → Core) : (s.onCore c f).freeCtr = s.freeCtr := rfl
@[simp] theorem onCore_trapped (s : State) (c : Nat) (f : Core → Core) : (s.onCore c f).trapped = s.trapped := rfl
@[simp] theorem onCore_doomed (s : State) (c : Nat) (f : Core → Core) : (s.onCore c f).doomed = s.doomed := rfl
@[simp] theorem onCore_domain (s : State) (c : Nat) (f : Core → Core) : (s.onCore c f).domain = s.domain := rfl
@[simp] theorem onCore_wale (s : State) (c : Nat) (f : Core → Core) : (s.onCore c f).wale = s.wale := rfl
@[simp] theorem onCore_flows (s : State) (c : Nat) (f : Core → Core) : (s.onCore c f).flows = s.flows := rfl
@[simp] theorem onCore_net (s : State) (c : Nat) (f : Core → Core) : (s.onCore c f).net = s.net := rfl
@[simp] theorem onCore_ats (s : State) (c : Nat) (f : Core → Core) : (s.onCore c f).ats = s.ats := rfl
@[simp] theorem onCore_atsBad (s : State) (c : Nat) (f : Core → Core) : (s.onCore c f).atsBad = s.atsBad := rfl
@[simp] theorem onCore_fns (s : State) (c : Nat) (f : Core → Core) : (s.onCore c f).fns = s.fns := rfl
@[simp] theorem onCore_gangs (s : State) (c : Nat) (f : Core → Core) : (s.onCore c f).gangs = s.gangs := rfl
@[simp] theorem onCore_harts (s : State) (c : Nat) (f : Core → Core) : (s.onCore c f).harts = s.harts := rfl
@[simp] theorem onCore_clusters (s : State) (c : Nat) (f : Core → Core) : (s.onCore c f).clusters = s.clusters := rfl
@[simp] theorem onCore_hbm (s : State) (c : Nat) (f : Core → Core) : (s.onCore c f).hbm = s.hbm := rfl
@[simp] theorem onCore_hostMem (s : State) (c : Nat) (f : Core → Core) : (s.onCore c f).hostMem = s.hostMem := rfl
@[simp] theorem onCore_vers (s : State) (c : Nat) (f : Core → Core) : (s.onCore c f).vers = s.vers := rfl
@[simp] theorem onCore_dir (s : State) (c : Nat) (f : Core → Core) : (s.onCore c f).dir = s.dir := rfl
@[simp] theorem onCore_trackers (s : State) (c : Nat) (f : Core → Core) : (s.onCore c f).trackers = s.trackers := rfl
@[simp] theorem onCore_migrating (s : State) (c : Nat) (f : Core → Core) : (s.onCore c f).migrating = s.migrating := rfl
@[simp] theorem onCore_worlds (s : State) (c : Nat) (f : Core → Core) : (s.onCore c f).worlds = s.worlds := rfl
@[simp] theorem onCore_ctxs (s : State) (c : Nat) (f : Core → Core) : (s.onCore c f).ctxs = s.ctxs := rfl
@[simp] theorem onCore_launches (s : State) (c : Nat) (f : Core → Core) : (s.onCore c f).launches = s.launches := rfl
@[simp] theorem onCore_nextLaunch (s : State) (c : Nat) (f : Core → Core) : (s.onCore c f).nextLaunch = s.nextLaunch := rfl
@[simp] theorem onCore_placings (s : State) (c : Nat) (f : Core → Core) : (s.onCore c f).placings = s.placings := rfl
@[simp] theorem onCore_sched (s : State) (c : Nat) (f : Core → Core) : (s.onCore c f).sched = s.sched := rfl
@[simp] theorem onCore_schedNext (s : State) (c : Nat) (f : Core → Core) : (s.onCore c f).schedNext = s.schedNext := rfl
@[simp] theorem onCore_floors (s : State) (c : Nat) (f : Core → Core) : (s.onCore c f).floors = s.floors := rfl
@[simp] theorem onCore_requests (s : State) (c : Nat) (f : Core → Core) : (s.onCore c f).requests = s.requests := rfl
@[simp] theorem onCore_saves (s : State) (c : Nat) (f : Core → Core) : (s.onCore c f).saves = s.saves := rfl
@[simp] theorem onCore_switches (s : State) (c : Nat) (f : Core → Core) : (s.onCore c f).switches = s.switches := rfl
@[simp] theorem onCore_hallmark (s : State) (c : Nat) (f : Core → Core) : (s.onCore c f).hallmark = s.hallmark := rfl
@[simp] theorem onCore_dies (s : State) (c : Nat) (f : Core → Core) : (s.onCore c f).dies = s.dies := rfl
@[simp] theorem onCore_corrected (s : State) (c : Nat) (f : Core → Core) : (s.onCore c f).corrected = s.corrected := rfl
@[simp] theorem onCore_retired (s : State) (c : Nat) (f : Core → Core) : (s.onCore c f).retired = s.retired := rfl
@[simp] theorem onCore_lost (s : State) (c : Nat) (f : Core → Core) : (s.onCore c f).lost = s.lost := rfl
@[simp] theorem onCore_hostLines (s : State) (c : Nat) (f : Core → Core) : (s.onCore c f).hostLines = s.hostLines := rfl
@[simp] theorem onCore_snoops (s : State) (c : Nat) (f : Core → Core) : (s.onCore c f).snoops = s.snoops := rfl
@[simp] theorem onCore_winHeld (s : State) (c : Nat) (f : Core → Core) : (s.onCore c f).winHeld = s.winHeld := rfl
@[simp] theorem onCore_winWaits (s : State) (c : Nat) (f : Core → Core) : (s.onCore c f).winWaits = s.winWaits := rfl
@[simp] theorem onCore_hdmRead (s : State) (c : Nat) (f : Core → Core) : (s.onCore c f).hdmRead = s.hdmRead := rfl
@[simp] theorem onCore_shimVec (s : State) (c : Nat) (f : Core → Core) : (s.onCore c f).shimVec = s.shimVec := rfl
@[simp] theorem onCore_monitorVec (s : State) (c : Nat) (f : Core → Core) : (s.onCore c f).monitorVec = s.monitorVec := rfl
@[simp] theorem onCore_traces (s : State) (c : Nat) (f : Core → Core) : (s.onCore c f).traces = s.traces := rfl
@[simp] theorem onCore_awaited (s : State) (c : Nat) (f : Core → Core) : (s.onCore c f).awaited = s.awaited := rfl
@[simp] theorem onCore_moves (s : State) (c : Nat) (f : Core → Core) : (s.onCore c f).moves = s.moves := rfl
@[simp] theorem onCore_written (s : State) (c : Nat) (f : Core → Core) : (s.onCore c f).written = s.written := rfl
@[simp] theorem onCore_writes (s : State) (c : Nat) (f : Core → Core) : (s.onCore c f).writes = s.writes := rfl

@[simp] theorem setCluster_agenda (s : State) (c : Nat) (x : Cluster) : (s.setCluster c x).agenda = s.agenda := rfl
@[simp] theorem setCluster_cycle (s : State) (c : Nat) (x : Cluster) : (s.setCluster c x).cycle = s.cycle := rfl
@[simp] theorem setCluster_cur (s : State) (c : Nat) (x : Cluster) : (s.setCluster c x).cur = s.cur := rfl
@[simp] theorem setCluster_focus (s : State) (c : Nat) (x : Cluster) : (s.setCluster c x).focus = s.focus := rfl
@[simp] theorem setCluster_freeCtr (s : State) (c : Nat) (x : Cluster) : (s.setCluster c x).freeCtr = s.freeCtr := rfl
@[simp] theorem setCluster_trapped (s : State) (c : Nat) (x : Cluster) : (s.setCluster c x).trapped = s.trapped := rfl
@[simp] theorem setCluster_doomed (s : State) (c : Nat) (x : Cluster) : (s.setCluster c x).doomed = s.doomed := rfl
@[simp] theorem setCluster_domain (s : State) (c : Nat) (x : Cluster) : (s.setCluster c x).domain = s.domain := rfl
@[simp] theorem setCluster_wale (s : State) (c : Nat) (x : Cluster) : (s.setCluster c x).wale = s.wale := rfl
@[simp] theorem setCluster_flows (s : State) (c : Nat) (x : Cluster) : (s.setCluster c x).flows = s.flows := rfl
@[simp] theorem setCluster_net (s : State) (c : Nat) (x : Cluster) : (s.setCluster c x).net = s.net := rfl
@[simp] theorem setCluster_ats (s : State) (c : Nat) (x : Cluster) : (s.setCluster c x).ats = s.ats := rfl
@[simp] theorem setCluster_atsBad (s : State) (c : Nat) (x : Cluster) : (s.setCluster c x).atsBad = s.atsBad := rfl
@[simp] theorem setCluster_fns (s : State) (c : Nat) (x : Cluster) : (s.setCluster c x).fns = s.fns := rfl
@[simp] theorem setCluster_gangs (s : State) (c : Nat) (x : Cluster) : (s.setCluster c x).gangs = s.gangs := rfl
@[simp] theorem setCluster_harts (s : State) (c : Nat) (x : Cluster) : (s.setCluster c x).harts = s.harts := rfl
@[simp] theorem setCluster_cores (s : State) (c : Nat) (x : Cluster) : (s.setCluster c x).cores = s.cores := rfl
@[simp] theorem setCluster_hbm (s : State) (c : Nat) (x : Cluster) : (s.setCluster c x).hbm = s.hbm := rfl
@[simp] theorem setCluster_hostMem (s : State) (c : Nat) (x : Cluster) : (s.setCluster c x).hostMem = s.hostMem := rfl
@[simp] theorem setCluster_vers (s : State) (c : Nat) (x : Cluster) : (s.setCluster c x).vers = s.vers := rfl
@[simp] theorem setCluster_dir (s : State) (c : Nat) (x : Cluster) : (s.setCluster c x).dir = s.dir := rfl
@[simp] theorem setCluster_trackers (s : State) (c : Nat) (x : Cluster) : (s.setCluster c x).trackers = s.trackers := rfl
@[simp] theorem setCluster_migrating (s : State) (c : Nat) (x : Cluster) : (s.setCluster c x).migrating = s.migrating := rfl
@[simp] theorem setCluster_worlds (s : State) (c : Nat) (x : Cluster) : (s.setCluster c x).worlds = s.worlds := rfl
@[simp] theorem setCluster_ctxs (s : State) (c : Nat) (x : Cluster) : (s.setCluster c x).ctxs = s.ctxs := rfl
@[simp] theorem setCluster_launches (s : State) (c : Nat) (x : Cluster) : (s.setCluster c x).launches = s.launches := rfl
@[simp] theorem setCluster_nextLaunch (s : State) (c : Nat) (x : Cluster) : (s.setCluster c x).nextLaunch = s.nextLaunch := rfl
@[simp] theorem setCluster_placings (s : State) (c : Nat) (x : Cluster) : (s.setCluster c x).placings = s.placings := rfl
@[simp] theorem setCluster_sched (s : State) (c : Nat) (x : Cluster) : (s.setCluster c x).sched = s.sched := rfl
@[simp] theorem setCluster_schedNext (s : State) (c : Nat) (x : Cluster) : (s.setCluster c x).schedNext = s.schedNext := rfl
@[simp] theorem setCluster_floors (s : State) (c : Nat) (x : Cluster) : (s.setCluster c x).floors = s.floors := rfl
@[simp] theorem setCluster_requests (s : State) (c : Nat) (x : Cluster) : (s.setCluster c x).requests = s.requests := rfl
@[simp] theorem setCluster_saves (s : State) (c : Nat) (x : Cluster) : (s.setCluster c x).saves = s.saves := rfl
@[simp] theorem setCluster_switches (s : State) (c : Nat) (x : Cluster) : (s.setCluster c x).switches = s.switches := rfl
@[simp] theorem setCluster_hallmark (s : State) (c : Nat) (x : Cluster) : (s.setCluster c x).hallmark = s.hallmark := rfl
@[simp] theorem setCluster_dies (s : State) (c : Nat) (x : Cluster) : (s.setCluster c x).dies = s.dies := rfl
@[simp] theorem setCluster_corrected (s : State) (c : Nat) (x : Cluster) : (s.setCluster c x).corrected = s.corrected := rfl
@[simp] theorem setCluster_retired (s : State) (c : Nat) (x : Cluster) : (s.setCluster c x).retired = s.retired := rfl
@[simp] theorem setCluster_lost (s : State) (c : Nat) (x : Cluster) : (s.setCluster c x).lost = s.lost := rfl
@[simp] theorem setCluster_hostLines (s : State) (c : Nat) (x : Cluster) : (s.setCluster c x).hostLines = s.hostLines := rfl
@[simp] theorem setCluster_snoops (s : State) (c : Nat) (x : Cluster) : (s.setCluster c x).snoops = s.snoops := rfl
@[simp] theorem setCluster_winHeld (s : State) (c : Nat) (x : Cluster) : (s.setCluster c x).winHeld = s.winHeld := rfl
@[simp] theorem setCluster_winWaits (s : State) (c : Nat) (x : Cluster) : (s.setCluster c x).winWaits = s.winWaits := rfl
@[simp] theorem setCluster_hdmRead (s : State) (c : Nat) (x : Cluster) : (s.setCluster c x).hdmRead = s.hdmRead := rfl
@[simp] theorem setCluster_shimVec (s : State) (c : Nat) (x : Cluster) : (s.setCluster c x).shimVec = s.shimVec := rfl
@[simp] theorem setCluster_monitorVec (s : State) (c : Nat) (x : Cluster) : (s.setCluster c x).monitorVec = s.monitorVec := rfl
@[simp] theorem setCluster_traces (s : State) (c : Nat) (x : Cluster) : (s.setCluster c x).traces = s.traces := rfl
@[simp] theorem setCluster_awaited (s : State) (c : Nat) (x : Cluster) : (s.setCluster c x).awaited = s.awaited := rfl
@[simp] theorem setCluster_moves (s : State) (c : Nat) (x : Cluster) : (s.setCluster c x).moves = s.moves := rfl
@[simp] theorem setCluster_written (s : State) (c : Nat) (x : Cluster) : (s.setCluster c x).written = s.written := rfl
@[simp] theorem setCluster_writes (s : State) (c : Nat) (x : Cluster) : (s.setCluster c x).writes = s.writes := rfl

@[simp] theorem onCluster_agenda (s : State) (c : Nat) (f : Cluster → Cluster) : (s.onCluster c f).agenda = s.agenda := rfl
@[simp] theorem onCluster_cycle (s : State) (c : Nat) (f : Cluster → Cluster) : (s.onCluster c f).cycle = s.cycle := rfl
@[simp] theorem onCluster_cur (s : State) (c : Nat) (f : Cluster → Cluster) : (s.onCluster c f).cur = s.cur := rfl
@[simp] theorem onCluster_focus (s : State) (c : Nat) (f : Cluster → Cluster) : (s.onCluster c f).focus = s.focus := rfl
@[simp] theorem onCluster_freeCtr (s : State) (c : Nat) (f : Cluster → Cluster) : (s.onCluster c f).freeCtr = s.freeCtr := rfl
@[simp] theorem onCluster_trapped (s : State) (c : Nat) (f : Cluster → Cluster) : (s.onCluster c f).trapped = s.trapped := rfl
@[simp] theorem onCluster_doomed (s : State) (c : Nat) (f : Cluster → Cluster) : (s.onCluster c f).doomed = s.doomed := rfl
@[simp] theorem onCluster_domain (s : State) (c : Nat) (f : Cluster → Cluster) : (s.onCluster c f).domain = s.domain := rfl
@[simp] theorem onCluster_wale (s : State) (c : Nat) (f : Cluster → Cluster) : (s.onCluster c f).wale = s.wale := rfl
@[simp] theorem onCluster_flows (s : State) (c : Nat) (f : Cluster → Cluster) : (s.onCluster c f).flows = s.flows := rfl
@[simp] theorem onCluster_net (s : State) (c : Nat) (f : Cluster → Cluster) : (s.onCluster c f).net = s.net := rfl
@[simp] theorem onCluster_ats (s : State) (c : Nat) (f : Cluster → Cluster) : (s.onCluster c f).ats = s.ats := rfl
@[simp] theorem onCluster_atsBad (s : State) (c : Nat) (f : Cluster → Cluster) : (s.onCluster c f).atsBad = s.atsBad := rfl
@[simp] theorem onCluster_fns (s : State) (c : Nat) (f : Cluster → Cluster) : (s.onCluster c f).fns = s.fns := rfl
@[simp] theorem onCluster_gangs (s : State) (c : Nat) (f : Cluster → Cluster) : (s.onCluster c f).gangs = s.gangs := rfl
@[simp] theorem onCluster_harts (s : State) (c : Nat) (f : Cluster → Cluster) : (s.onCluster c f).harts = s.harts := rfl
@[simp] theorem onCluster_cores (s : State) (c : Nat) (f : Cluster → Cluster) : (s.onCluster c f).cores = s.cores := rfl
@[simp] theorem onCluster_hbm (s : State) (c : Nat) (f : Cluster → Cluster) : (s.onCluster c f).hbm = s.hbm := rfl
@[simp] theorem onCluster_hostMem (s : State) (c : Nat) (f : Cluster → Cluster) : (s.onCluster c f).hostMem = s.hostMem := rfl
@[simp] theorem onCluster_vers (s : State) (c : Nat) (f : Cluster → Cluster) : (s.onCluster c f).vers = s.vers := rfl
@[simp] theorem onCluster_dir (s : State) (c : Nat) (f : Cluster → Cluster) : (s.onCluster c f).dir = s.dir := rfl
@[simp] theorem onCluster_trackers (s : State) (c : Nat) (f : Cluster → Cluster) : (s.onCluster c f).trackers = s.trackers := rfl
@[simp] theorem onCluster_migrating (s : State) (c : Nat) (f : Cluster → Cluster) : (s.onCluster c f).migrating = s.migrating := rfl
@[simp] theorem onCluster_worlds (s : State) (c : Nat) (f : Cluster → Cluster) : (s.onCluster c f).worlds = s.worlds := rfl
@[simp] theorem onCluster_ctxs (s : State) (c : Nat) (f : Cluster → Cluster) : (s.onCluster c f).ctxs = s.ctxs := rfl
@[simp] theorem onCluster_launches (s : State) (c : Nat) (f : Cluster → Cluster) : (s.onCluster c f).launches = s.launches := rfl
@[simp] theorem onCluster_nextLaunch (s : State) (c : Nat) (f : Cluster → Cluster) : (s.onCluster c f).nextLaunch = s.nextLaunch := rfl
@[simp] theorem onCluster_placings (s : State) (c : Nat) (f : Cluster → Cluster) : (s.onCluster c f).placings = s.placings := rfl
@[simp] theorem onCluster_sched (s : State) (c : Nat) (f : Cluster → Cluster) : (s.onCluster c f).sched = s.sched := rfl
@[simp] theorem onCluster_schedNext (s : State) (c : Nat) (f : Cluster → Cluster) : (s.onCluster c f).schedNext = s.schedNext := rfl
@[simp] theorem onCluster_floors (s : State) (c : Nat) (f : Cluster → Cluster) : (s.onCluster c f).floors = s.floors := rfl
@[simp] theorem onCluster_requests (s : State) (c : Nat) (f : Cluster → Cluster) : (s.onCluster c f).requests = s.requests := rfl
@[simp] theorem onCluster_saves (s : State) (c : Nat) (f : Cluster → Cluster) : (s.onCluster c f).saves = s.saves := rfl
@[simp] theorem onCluster_switches (s : State) (c : Nat) (f : Cluster → Cluster) : (s.onCluster c f).switches = s.switches := rfl
@[simp] theorem onCluster_hallmark (s : State) (c : Nat) (f : Cluster → Cluster) : (s.onCluster c f).hallmark = s.hallmark := rfl
@[simp] theorem onCluster_dies (s : State) (c : Nat) (f : Cluster → Cluster) : (s.onCluster c f).dies = s.dies := rfl
@[simp] theorem onCluster_corrected (s : State) (c : Nat) (f : Cluster → Cluster) : (s.onCluster c f).corrected = s.corrected := rfl
@[simp] theorem onCluster_retired (s : State) (c : Nat) (f : Cluster → Cluster) : (s.onCluster c f).retired = s.retired := rfl
@[simp] theorem onCluster_lost (s : State) (c : Nat) (f : Cluster → Cluster) : (s.onCluster c f).lost = s.lost := rfl
@[simp] theorem onCluster_hostLines (s : State) (c : Nat) (f : Cluster → Cluster) : (s.onCluster c f).hostLines = s.hostLines := rfl
@[simp] theorem onCluster_snoops (s : State) (c : Nat) (f : Cluster → Cluster) : (s.onCluster c f).snoops = s.snoops := rfl
@[simp] theorem onCluster_winHeld (s : State) (c : Nat) (f : Cluster → Cluster) : (s.onCluster c f).winHeld = s.winHeld := rfl
@[simp] theorem onCluster_winWaits (s : State) (c : Nat) (f : Cluster → Cluster) : (s.onCluster c f).winWaits = s.winWaits := rfl
@[simp] theorem onCluster_hdmRead (s : State) (c : Nat) (f : Cluster → Cluster) : (s.onCluster c f).hdmRead = s.hdmRead := rfl
@[simp] theorem onCluster_shimVec (s : State) (c : Nat) (f : Cluster → Cluster) : (s.onCluster c f).shimVec = s.shimVec := rfl
@[simp] theorem onCluster_monitorVec (s : State) (c : Nat) (f : Cluster → Cluster) : (s.onCluster c f).monitorVec = s.monitorVec := rfl
@[simp] theorem onCluster_traces (s : State) (c : Nat) (f : Cluster → Cluster) : (s.onCluster c f).traces = s.traces := rfl
@[simp] theorem onCluster_awaited (s : State) (c : Nat) (f : Cluster → Cluster) : (s.onCluster c f).awaited = s.awaited := rfl
@[simp] theorem onCluster_moves (s : State) (c : Nat) (f : Cluster → Cluster) : (s.onCluster c f).moves = s.moves := rfl
@[simp] theorem onCluster_written (s : State) (c : Nat) (f : Cluster → Cluster) : (s.onCluster c f).written = s.written := rfl
@[simp] theorem onCluster_writes (s : State) (c : Nat) (f : Cluster → Cluster) : (s.onCluster c f).writes = s.writes := rfl

end State

/-! ### Registers -/

namespace Hart

@[simp] theorem X_zero (h : Hart) : h.X 0 = 0 := rfl

theorem X_setX (h : Hart) (n k : Nat) (w : W64) : (h.setX n w).X k = if k = n ∧ n ≠ 0 then w else h.X k := by
  unfold setX X
  by_cases hk : k = 0
  · subst hk
    by_cases hn : n = 0
    · simp [hn]
    · simp [hn, Ne.symm hn]
  · by_cases hn : n = 0
    · simp [hk, hn]
    · simp only [hk, hn, if_false, Tab.get_set]
      by_cases hkn : k = n <;> simp [hkn, hn]

theorem V_setV (h : Hart) {r l q m : Nat} (w : W32) (hl : l < 32) (hm : m < 32) :
    (h.setV r l w).V q m = if q = r ∧ m = l then w else h.V q m := by
  unfold setV V
  rw [Tab.get_set]
  by_cases hq : q = r ∧ m = l
  · simp [hq.1, hq.2]
  · have : ¬ (32 * q + m = 32 * r + l) := by omega
    simp [hq, this]

theorem M_setM (h : Hart) (n k : Nat) (w : W32) : (h.setM n w).M k = if k = n ∧ n ≠ 0 then w else h.M k := by
  unfold setM M
  by_cases hn : n = 0
  · simp [hn]
  · by_cases hk : k = 0
    · subst hk
      simp [hn, Ne.symm hn, m0]
    · simp only [hk, hn, if_false, Tab.get_set]
      by_cases hkn : k = n <;> simp [hkn, hn]

@[simp] theorem X_setV (h : Hart) (r l n : Nat) (w : W32) : (h.setV r l w).X n = h.X n := rfl
@[simp] theorem X_setM (h : Hart) (k n : Nat) (w : W32) : (h.setM k w).X n = h.X n := by unfold setM; split <;> rfl
@[simp] theorem V_setX (h : Hart) (n r l : Nat) (w : W64) : (h.setX n w).V r l = h.V r l := by unfold setX; split <;> rfl
@[simp] theorem V_setM (h : Hart) (k r l : Nat) (w : W32) : (h.setM k w).V r l = h.V r l := by unfold setM; split <;> rfl
@[simp] theorem M_setX (h : Hart) (n k : Nat) (w : W64) : (h.setX n w).M k = h.M k := by unfold setX; split <;> rfl
@[simp] theorem M_setV (h : Hart) (r l k : Nat) (w : W32) : (h.setV r l w).M k = h.M k := rfl
@[simp] theorem X_goto (h : Hart) (pc : W64) (n : Nat) : (h.goto pc).X n = h.X n := rfl
@[simp] theorem V_goto (h : Hart) (pc : W64) (r l : Nat) : (h.goto pc).V r l = h.V r l := rfl
@[simp] theorem M_goto (h : Hart) (pc : W64) (k : Nat) : (h.goto pc).M k = h.M k := rfl
@[simp] theorem X_advance (h : Hart) (w n : Nat) : (h.advance w).X n = h.X n := rfl
@[simp] theorem V_advance (h : Hart) (w r l : Nat) : (h.advance w).V r l = h.V r l := rfl
@[simp] theorem M_advance (h : Hart) (w k : Nat) : (h.advance w).M k = h.M k := rfl
@[simp] theorem X_orFlags (h : Hart) (f : BitVec 5) (n : Nat) : (h.orFlags f).X n = h.X n := rfl
@[simp] theorem V_orFlags (h : Hart) (f : BitVec 5) (r l : Nat) : (h.orFlags f).V r l = h.V r l := rfl
@[simp] theorem M_orFlags (h : Hart) (f : BitVec 5) (k : Nat) : (h.orFlags f).M k = h.M k := rfl
@[simp] theorem goto_pc (h : Hart) (pc : W64) : (h.goto pc).pc = pc := rfl
@[simp] theorem goto_instret (h : Hart) (pc : W64) : (h.goto pc).instret = h.instret + 1 := rfl
@[simp] theorem goto_wait (h : Hart) (pc : W64) : (h.goto pc).wait = {} := rfl
@[simp] theorem goto_passed (h : Hart) (pc : W64) : (h.goto pc).passed = false := rfl
@[simp] theorem advance_pc (h : Hart) (n : Nat) : (h.advance n).pc = h.nextPc n := rfl
@[simp] theorem advance_instret (h : Hart) (n : Nat) : (h.advance n).instret = h.instret + 1 := rfl
@[simp] theorem advance_wait (h : Hart) (n : Nat) : (h.advance n).wait = {} := rfl
@[simp] theorem advance_passed (h : Hart) (n : Nat) : (h.advance n).passed = false := rfl
@[simp] theorem block_wait (h : Hart) (c : Nat) (a b : W64) : (h.block c a b).wait = { code := c, a, b } := rfl
@[simp] theorem orFlags_fflags (h : Hart) (f : BitVec 5) : (h.orFlags f).fflags = h.fflags ||| f := rfl
@[simp] theorem setX_zero (h : Hart) (w : W64) : h.setX 0 w = h := rfl
@[simp] theorem setM_zero (h : Hart) (w : W32) : h.setM 0 w = h := rfl
@[simp] theorem nextPc_setX (h : Hart) (n k : Nat) (w : W64) : (h.setX n w).nextPc k = h.nextPc k := by unfold setX; split <;> rfl
@[simp] theorem nextPc_setM (h : Hart) (n k : Nat) (w : W32) : (h.setM n w).nextPc k = h.nextPc k := by unfold setM; split <;> rfl
@[simp] theorem nextPc_setV (h : Hart) (r l k : Nat) (w : W32) : (h.setV r l w).nextPc k = h.nextPc k := rfl
@[simp] theorem nextPc_orFlags (h : Hart) (f : BitVec 5) (k : Nat) : (h.orFlags f).nextPc k = h.nextPc k := rfl

@[simp] theorem setX_live (h : Hart) (n : Nat) (w : W64) : (h.setX n w).live = h.live := by unfold setX; split <;> rfl
@[simp] theorem setX_resident (h : Hart) (n : Nat) (w : W64) : (h.setX n w).resident = h.resident := by unfold setX; split <;> rfl
@[simp] theorem setX_tinker (h : Hart) (n : Nat) (w : W64) : (h.setX n w).tinker = h.tinker := by unfold setX; split <;> rfl
@[simp] theorem setX_reserved (h : Hart) (n : Nat) (w : W64) : (h.setX n w).reserved = h.reserved := by unfold setX; split <;> rfl
@[simp] theorem setX_handler (h : Hart) (n : Nat) (w : W64) : (h.setX n w).handler = h.handler := by unfold setX; split <;> rfl
@[simp] theorem setX_home (h : Hart) (n : Nat) (w : W64) : (h.setX n w).home = h.home := by unfold setX; split <;> rfl
@[simp] theorem setX_pc (h : Hart) (n : Nat) (w : W64) : (h.setX n w).pc = h.pc := by unfold setX; split <;> rfl
@[simp] theorem setX_mode (h : Hart) (n : Nat) (w : W64) : (h.setX n w).mode = h.mode := by unfold setX; split <;> rfl
@[simp] theorem setX_v (h : Hart) (n : Nat) (w : W64) : (h.setX n w).v = h.v := by unfold setX; split <;> rfl
@[simp] theorem setX_window (h : Hart) (n : Nat) (w : W64) : (h.setX n w).window = h.window := by unfold setX; split <;> rfl
@[simp] theorem setX_m (h : Hart) (n : Nat) (w : W64) : (h.setX n w).m = h.m := by unfold setX; split <;> rfl
@[simp] theorem setX_stack (h : Hart) (n : Nat) (w : W64) : (h.setX n w).stack = h.stack := by unfold setX; split <;> rfl
@[simp] theorem setX_depth (h : Hart) (n : Nat) (w : W64) : (h.setX n w).depth = h.depth := by unfold setX; split <;> rfl
@[simp] theorem setX_att (h : Hart) (n : Nat) (w : W64) : (h.setX n w).att = h.att := by unfold setX; split <;> rfl
@[simp] theorem setX_attS (h : Hart) (n : Nat) (w : W64) : (h.setX n w).attS = h.attS := by unfold setX; split <;> rfl
@[simp] theorem setX_attM (h : Hart) (n : Nat) (w : W64) : (h.setX n w).attM = h.attM := by unfold setX; split <;> rfl
@[simp] theorem setX_attU (h : Hart) (n : Nat) (w : W64) : (h.setX n w).attU = h.attU := by unfold setX; split <;> rfl
@[simp] theorem setX_attP (h : Hart) (n : Nat) (w : W64) : (h.setX n w).attP = h.attP := by unfold setX; split <;> rfl
@[simp] theorem setX_passed (h : Hart) (n : Nat) (w : W64) : (h.setX n w).passed = h.passed := by unfold setX; split <;> rfl
@[simp] theorem setX_fflags (h : Hart) (n : Nat) (w : W64) : (h.setX n w).fflags = h.fflags := by unfold setX; split <;> rfl
@[simp] theorem setX_frm (h : Hart) (n : Nat) (w : W64) : (h.setX n w).frm = h.frm := by unfold setX; split <;> rfl
@[simp] theorem setX_ftz (h : Hart) (n : Nat) (w : W64) : (h.setX n w).ftz = h.ftz := by unfold setX; split <;> rfl
@[simp] theorem setX_uitvec (h : Hart) (n : Nat) (w : W64) : (h.setX n w).uitvec = h.uitvec := by unfold setX; split <;> rfl
@[simp] theorem setX_uiepc (h : Hart) (n : Nat) (w : W64) : (h.setX n w).uiepc = h.uiepc := by unfold setX; split <;> rfl
@[simp] theorem setX_ucTag (h : Hart) (n : Nat) (w : W64) : (h.setX n w).ucTag = h.ucTag := by unfold setX; split <;> rfl
@[simp] theorem setX_ucPrio (h : Hart) (n : Nat) (w : W64) : (h.setX n w).ucPrio = h.ucPrio := by unfold setX; split <;> rfl
@[simp] theorem setX_uie (h : Hart) (n : Nat) (w : W64) : (h.setX n w).uie = h.uie := by unfold setX; split <;> rfl
@[simp] theorem setX_sbase (h : Hart) (n : Nat) (w : W64) : (h.setX n w).sbase = h.sbase := by unfold setX; split <;> rfl
@[simp] theorem setX_sshift (h : Hart) (n : Nat) (w : W64) : (h.setX n w).sshift = h.sshift := by unfold setX; split <;> rfl
@[simp] theorem setX_coord (h : Hart) (n : Nat) (w : W64) : (h.setX n w).coord = h.coord := by unfold setX; split <;> rfl
@[simp] theorem setX_launchAddr (h : Hart) (n : Nat) (w : W64) : (h.setX n w).launchAddr = h.launchAddr := by unfold setX; split <;> rfl
@[simp] theorem setX_tag (h : Hart) (n : Nat) (w : W64) : (h.setX n w).tag = h.tag := by unfold setX; split <;> rfl
@[simp] theorem setX_windex (h : Hart) (n : Nat) (w : W64) : (h.setX n w).windex = h.windex := by unfold setX; split <;> rfl
@[simp] theorem setX_wdepth (h : Hart) (n : Nat) (w : W64) : (h.setX n w).wdepth = h.wdepth := by unfold setX; split <;> rfl
@[simp] theorem setX_oplogidx (h : Hart) (n : Nat) (w : W64) : (h.setX n w).oplogidx = h.oplogidx := by unfold setX; split <;> rfl
@[simp] theorem setX_pcmsel (h : Hart) (n : Nat) (w : W64) : (h.setX n w).pcmsel = h.pcmsel := by unfold setX; split <;> rfl
@[simp] theorem setX_pcmdat (h : Hart) (n : Nat) (w : W64) : (h.setX n w).pcmdat = h.pcmdat := by unfold setX; split <;> rfl
@[simp] theorem setX_pcmHnd (h : Hart) (n : Nat) (w : W64) : (h.setX n w).pcmHnd = h.pcmHnd := by unfold setX; split <;> rfl
@[simp] theorem setX_inShadow (h : Hart) (n : Nat) (w : W64) : (h.setX n w).inShadow = h.inShadow := by unfold setX; split <;> rfl
@[simp] theorem setX_shadowX (h : Hart) (n : Nat) (w : W64) : (h.setX n w).shadowX = h.shadowX := by unfold setX; split <;> rfl
@[simp] theorem setX_shadowPc (h : Hart) (n : Nat) (w : W64) : (h.setX n w).shadowPc = h.shadowPc := by unfold setX; split <;> rfl
@[simp] theorem setX_csr (h : Hart) (n : Nat) (w : W64) : (h.setX n w).csr = h.csr := by unfold setX; split <;> rfl
@[simp] theorem setX_instret (h : Hart) (n : Nat) (w : W64) : (h.setX n w).instret = h.instret := by unfold setX; split <;> rfl
@[simp] theorem setX_tcmBase (h : Hart) (n : Nat) (w : W64) : (h.setX n w).tcmBase = h.tcmBase := by unfold setX; split <;> rfl
@[simp] theorem setX_tcmSize (h : Hart) (n : Nat) (w : W64) : (h.setX n w).tcmSize = h.tcmSize := by unfold setX; split <;> rfl
@[simp] theorem setX_ops (h : Hart) (n : Nat) (w : W64) : (h.setX n w).ops = h.ops := by unfold setX; split <;> rfl
@[simp] theorem setX_oplog (h : Hart) (n : Nat) (w : W64) : (h.setX n w).oplog = h.oplog := by unfold setX; split <;> rfl
@[simp] theorem setX_nextOrder (h : Hart) (n : Nat) (w : W64) : (h.setX n w).nextOrder = h.nextOrder := by unfold setX; split <;> rfl
@[simp] theorem setX_engFlags (h : Hart) (n : Nat) (w : W64) : (h.setX n w).engFlags = h.engFlags := by unfold setX; split <;> rfl
@[simp] theorem setX_reservation (h : Hart) (n : Nat) (w : W64) : (h.setX n w).reservation = h.reservation := by unfold setX; split <;> rfl
@[simp] theorem setX_rel (h : Hart) (n : Nat) (w : W64) : (h.setX n w).rel = h.rel := by unfold setX; split <;> rfl
@[simp] theorem setX_scReads (h : Hart) (n : Nat) (w : W64) : (h.setX n w).scReads = h.scReads := by unfold setX; split <;> rfl
@[simp] theorem setX_icache (h : Hart) (n : Nat) (w : W64) : (h.setX n w).icache = h.icache := by unfold setX; split <;> rfl
@[simp] theorem setX_role (h : Hart) (n : Nat) (w : W64) : (h.setX n w).role = h.role := by unfold setX; split <;> rfl
@[simp] theorem setX_wait (h : Hart) (n : Nat) (w : W64) : (h.setX n w).wait = h.wait := by unfold setX; split <;> rfl
@[simp] theorem setX_arrivals (h : Hart) (n : Nat) (w : W64) : (h.setX n w).arrivals = h.arrivals := by unfold setX; split <;> rfl
@[simp] theorem setX_pauseEnd (h : Hart) (n : Nat) (w : W64) : (h.setX n w).pauseEnd = h.pauseEnd := by unfold setX; split <;> rfl
@[simp] theorem setX_estat (h : Hart) (n : Nat) (w : W64) : (h.setX n w).estat = h.estat := by unfold setX; split <;> rfl
@[simp] theorem setX_streams (h : Hart) (n : Nat) (w : W64) : (h.setX n w).streams = h.streams := by unfold setX; split <;> rfl
@[simp] theorem setX_fork (h : Hart) (n : Nat) (w : W64) : (h.setX n w).fork = h.fork := by unfold setX; split <;> rfl
@[simp] theorem setX_dbg (h : Hart) (n : Nat) (w : W64) : (h.setX n w).dbg = h.dbg := by unfold setX; split <;> rfl
@[simp] theorem setX_lastIssue (h : Hart) (n : Nat) (w : W64) : (h.setX n w).lastIssue = h.lastIssue := by unfold setX; split <;> rfl
@[simp] theorem setX_taken (h : Hart) (n : Nat) (w : W64) : (h.setX n w).taken = h.taken := by unfold setX; split <;> rfl
@[simp] theorem setX_idle (h : Hart) (n : Nat) (w : W64) : (h.setX n w).idle = h.idle := by unfold setX; split <;> rfl
@[simp] theorem setX_heldSeq (h : Hart) (n : Nat) (w : W64) : (h.setX n w).heldSeq = h.heldSeq := by unfold setX; split <;> rfl
@[simp] theorem setX_heldFor (h : Hart) (n : Nat) (w : W64) : (h.setX n w).heldFor = h.heldFor := by unfold setX; split <;> rfl
@[simp] theorem setX_wquota (h : Hart) (n : Nat) (w : W64) : (h.setX n w).wquota = h.wquota := by unfold setX; split <;> rfl
@[simp] theorem setX_heldBad (h : Hart) (n : Nat) (w : W64) : (h.setX n w).heldBad = h.heldBad := by unfold setX; split <;> rfl
@[simp] theorem setX_winAnswer (h : Hart) (n : Nat) (w : W64) : (h.setX n w).winAnswer = h.winAnswer := by unfold setX; split <;> rfl
@[simp] theorem setX_fenceSeq (h : Hart) (n : Nat) (w : W64) : (h.setX n w).fenceSeq = h.fenceSeq := by unfold setX; split <;> rfl
@[simp] theorem setX_fetchOwn (h : Hart) (n : Nat) (w : W64) : (h.setX n w).fetchOwn = h.fetchOwn := by unfold setX; split <;> rfl
@[simp] theorem setX_noSpace (h : Hart) (n : Nat) (w : W64) : (h.setX n w).noSpace = h.noSpace := by unfold setX; split <;> rfl
@[simp] theorem setX_queued (h : Hart) (n : Nat) (w : W64) : (h.setX n w).queued = h.queued := by unfold setX; split <;> rfl
@[simp] theorem setX_pauseLen (h : Hart) (n : Nat) (w : W64) : (h.setX n w).pauseLen = h.pauseLen := by unfold setX; split <;> rfl
@[simp] theorem setX_pauseS (h : Hart) (n : Nat) (w : W64) : (h.setX n w).pauseS = h.pauseS := by unfold setX; split <;> rfl
@[simp] theorem setX_pauseM (h : Hart) (n : Nat) (w : W64) : (h.setX n w).pauseM = h.pauseM := by unfold setX; split <;> rfl
@[simp] theorem setX_pauseU (h : Hart) (n : Nat) (w : W64) : (h.setX n w).pauseU = h.pauseU := by unfold setX; split <;> rfl

@[simp] theorem setM_live (h : Hart) (k : Nat) (w : W32) : (h.setM k w).live = h.live := by unfold setM; split <;> rfl
@[simp] theorem setM_resident (h : Hart) (k : Nat) (w : W32) : (h.setM k w).resident = h.resident := by unfold setM; split <;> rfl
@[simp] theorem setM_tinker (h : Hart) (k : Nat) (w : W32) : (h.setM k w).tinker = h.tinker := by unfold setM; split <;> rfl
@[simp] theorem setM_reserved (h : Hart) (k : Nat) (w : W32) : (h.setM k w).reserved = h.reserved := by unfold setM; split <;> rfl
@[simp] theorem setM_handler (h : Hart) (k : Nat) (w : W32) : (h.setM k w).handler = h.handler := by unfold setM; split <;> rfl
@[simp] theorem setM_home (h : Hart) (k : Nat) (w : W32) : (h.setM k w).home = h.home := by unfold setM; split <;> rfl
@[simp] theorem setM_x (h : Hart) (k : Nat) (w : W32) : (h.setM k w).x = h.x := by unfold setM; split <;> rfl
@[simp] theorem setM_pc (h : Hart) (k : Nat) (w : W32) : (h.setM k w).pc = h.pc := by unfold setM; split <;> rfl
@[simp] theorem setM_mode (h : Hart) (k : Nat) (w : W32) : (h.setM k w).mode = h.mode := by unfold setM; split <;> rfl
@[simp] theorem setM_v (h : Hart) (k : Nat) (w : W32) : (h.setM k w).v = h.v := by unfold setM; split <;> rfl
@[simp] theorem setM_window (h : Hart) (k : Nat) (w : W32) : (h.setM k w).window = h.window := by unfold setM; split <;> rfl
@[simp] theorem setM_stack (h : Hart) (k : Nat) (w : W32) : (h.setM k w).stack = h.stack := by unfold setM; split <;> rfl
@[simp] theorem setM_depth (h : Hart) (k : Nat) (w : W32) : (h.setM k w).depth = h.depth := by unfold setM; split <;> rfl
@[simp] theorem setM_att (h : Hart) (k : Nat) (w : W32) : (h.setM k w).att = h.att := by unfold setM; split <;> rfl
@[simp] theorem setM_attS (h : Hart) (k : Nat) (w : W32) : (h.setM k w).attS = h.attS := by unfold setM; split <;> rfl
@[simp] theorem setM_attM (h : Hart) (k : Nat) (w : W32) : (h.setM k w).attM = h.attM := by unfold setM; split <;> rfl
@[simp] theorem setM_attU (h : Hart) (k : Nat) (w : W32) : (h.setM k w).attU = h.attU := by unfold setM; split <;> rfl
@[simp] theorem setM_attP (h : Hart) (k : Nat) (w : W32) : (h.setM k w).attP = h.attP := by unfold setM; split <;> rfl
@[simp] theorem setM_passed (h : Hart) (k : Nat) (w : W32) : (h.setM k w).passed = h.passed := by unfold setM; split <;> rfl
@[simp] theorem setM_fflags (h : Hart) (k : Nat) (w : W32) : (h.setM k w).fflags = h.fflags := by unfold setM; split <;> rfl
@[simp] theorem setM_frm (h : Hart) (k : Nat) (w : W32) : (h.setM k w).frm = h.frm := by unfold setM; split <;> rfl
@[simp] theorem setM_ftz (h : Hart) (k : Nat) (w : W32) : (h.setM k w).ftz = h.ftz := by unfold setM; split <;> rfl
@[simp] theorem setM_uitvec (h : Hart) (k : Nat) (w : W32) : (h.setM k w).uitvec = h.uitvec := by unfold setM; split <;> rfl
@[simp] theorem setM_uiepc (h : Hart) (k : Nat) (w : W32) : (h.setM k w).uiepc = h.uiepc := by unfold setM; split <;> rfl
@[simp] theorem setM_ucTag (h : Hart) (k : Nat) (w : W32) : (h.setM k w).ucTag = h.ucTag := by unfold setM; split <;> rfl
@[simp] theorem setM_ucPrio (h : Hart) (k : Nat) (w : W32) : (h.setM k w).ucPrio = h.ucPrio := by unfold setM; split <;> rfl
@[simp] theorem setM_uie (h : Hart) (k : Nat) (w : W32) : (h.setM k w).uie = h.uie := by unfold setM; split <;> rfl
@[simp] theorem setM_sbase (h : Hart) (k : Nat) (w : W32) : (h.setM k w).sbase = h.sbase := by unfold setM; split <;> rfl
@[simp] theorem setM_sshift (h : Hart) (k : Nat) (w : W32) : (h.setM k w).sshift = h.sshift := by unfold setM; split <;> rfl
@[simp] theorem setM_coord (h : Hart) (k : Nat) (w : W32) : (h.setM k w).coord = h.coord := by unfold setM; split <;> rfl
@[simp] theorem setM_launchAddr (h : Hart) (k : Nat) (w : W32) : (h.setM k w).launchAddr = h.launchAddr := by unfold setM; split <;> rfl
@[simp] theorem setM_tag (h : Hart) (k : Nat) (w : W32) : (h.setM k w).tag = h.tag := by unfold setM; split <;> rfl
@[simp] theorem setM_windex (h : Hart) (k : Nat) (w : W32) : (h.setM k w).windex = h.windex := by unfold setM; split <;> rfl
@[simp] theorem setM_wdepth (h : Hart) (k : Nat) (w : W32) : (h.setM k w).wdepth = h.wdepth := by unfold setM; split <;> rfl
@[simp] theorem setM_oplogidx (h : Hart) (k : Nat) (w : W32) : (h.setM k w).oplogidx = h.oplogidx := by unfold setM; split <;> rfl
@[simp] theorem setM_pcmsel (h : Hart) (k : Nat) (w : W32) : (h.setM k w).pcmsel = h.pcmsel := by unfold setM; split <;> rfl
@[simp] theorem setM_pcmdat (h : Hart) (k : Nat) (w : W32) : (h.setM k w).pcmdat = h.pcmdat := by unfold setM; split <;> rfl
@[simp] theorem setM_pcmHnd (h : Hart) (k : Nat) (w : W32) : (h.setM k w).pcmHnd = h.pcmHnd := by unfold setM; split <;> rfl
@[simp] theorem setM_inShadow (h : Hart) (k : Nat) (w : W32) : (h.setM k w).inShadow = h.inShadow := by unfold setM; split <;> rfl
@[simp] theorem setM_shadowX (h : Hart) (k : Nat) (w : W32) : (h.setM k w).shadowX = h.shadowX := by unfold setM; split <;> rfl
@[simp] theorem setM_shadowPc (h : Hart) (k : Nat) (w : W32) : (h.setM k w).shadowPc = h.shadowPc := by unfold setM; split <;> rfl
@[simp] theorem setM_csr (h : Hart) (k : Nat) (w : W32) : (h.setM k w).csr = h.csr := by unfold setM; split <;> rfl
@[simp] theorem setM_instret (h : Hart) (k : Nat) (w : W32) : (h.setM k w).instret = h.instret := by unfold setM; split <;> rfl
@[simp] theorem setM_tcmBase (h : Hart) (k : Nat) (w : W32) : (h.setM k w).tcmBase = h.tcmBase := by unfold setM; split <;> rfl
@[simp] theorem setM_tcmSize (h : Hart) (k : Nat) (w : W32) : (h.setM k w).tcmSize = h.tcmSize := by unfold setM; split <;> rfl
@[simp] theorem setM_ops (h : Hart) (k : Nat) (w : W32) : (h.setM k w).ops = h.ops := by unfold setM; split <;> rfl
@[simp] theorem setM_oplog (h : Hart) (k : Nat) (w : W32) : (h.setM k w).oplog = h.oplog := by unfold setM; split <;> rfl
@[simp] theorem setM_nextOrder (h : Hart) (k : Nat) (w : W32) : (h.setM k w).nextOrder = h.nextOrder := by unfold setM; split <;> rfl
@[simp] theorem setM_engFlags (h : Hart) (k : Nat) (w : W32) : (h.setM k w).engFlags = h.engFlags := by unfold setM; split <;> rfl
@[simp] theorem setM_reservation (h : Hart) (k : Nat) (w : W32) : (h.setM k w).reservation = h.reservation := by unfold setM; split <;> rfl
@[simp] theorem setM_rel (h : Hart) (k : Nat) (w : W32) : (h.setM k w).rel = h.rel := by unfold setM; split <;> rfl
@[simp] theorem setM_scReads (h : Hart) (k : Nat) (w : W32) : (h.setM k w).scReads = h.scReads := by unfold setM; split <;> rfl
@[simp] theorem setM_icache (h : Hart) (k : Nat) (w : W32) : (h.setM k w).icache = h.icache := by unfold setM; split <;> rfl
@[simp] theorem setM_role (h : Hart) (k : Nat) (w : W32) : (h.setM k w).role = h.role := by unfold setM; split <;> rfl
@[simp] theorem setM_wait (h : Hart) (k : Nat) (w : W32) : (h.setM k w).wait = h.wait := by unfold setM; split <;> rfl
@[simp] theorem setM_arrivals (h : Hart) (k : Nat) (w : W32) : (h.setM k w).arrivals = h.arrivals := by unfold setM; split <;> rfl
@[simp] theorem setM_pauseEnd (h : Hart) (k : Nat) (w : W32) : (h.setM k w).pauseEnd = h.pauseEnd := by unfold setM; split <;> rfl
@[simp] theorem setM_estat (h : Hart) (k : Nat) (w : W32) : (h.setM k w).estat = h.estat := by unfold setM; split <;> rfl
@[simp] theorem setM_streams (h : Hart) (k : Nat) (w : W32) : (h.setM k w).streams = h.streams := by unfold setM; split <;> rfl
@[simp] theorem setM_fork (h : Hart) (k : Nat) (w : W32) : (h.setM k w).fork = h.fork := by unfold setM; split <;> rfl
@[simp] theorem setM_dbg (h : Hart) (k : Nat) (w : W32) : (h.setM k w).dbg = h.dbg := by unfold setM; split <;> rfl
@[simp] theorem setM_lastIssue (h : Hart) (k : Nat) (w : W32) : (h.setM k w).lastIssue = h.lastIssue := by unfold setM; split <;> rfl
@[simp] theorem setM_taken (h : Hart) (k : Nat) (w : W32) : (h.setM k w).taken = h.taken := by unfold setM; split <;> rfl
@[simp] theorem setM_idle (h : Hart) (k : Nat) (w : W32) : (h.setM k w).idle = h.idle := by unfold setM; split <;> rfl
@[simp] theorem setM_heldSeq (h : Hart) (k : Nat) (w : W32) : (h.setM k w).heldSeq = h.heldSeq := by unfold setM; split <;> rfl
@[simp] theorem setM_heldFor (h : Hart) (k : Nat) (w : W32) : (h.setM k w).heldFor = h.heldFor := by unfold setM; split <;> rfl
@[simp] theorem setM_wquota (h : Hart) (k : Nat) (w : W32) : (h.setM k w).wquota = h.wquota := by unfold setM; split <;> rfl
@[simp] theorem setM_heldBad (h : Hart) (k : Nat) (w : W32) : (h.setM k w).heldBad = h.heldBad := by unfold setM; split <;> rfl
@[simp] theorem setM_winAnswer (h : Hart) (k : Nat) (w : W32) : (h.setM k w).winAnswer = h.winAnswer := by unfold setM; split <;> rfl
@[simp] theorem setM_fenceSeq (h : Hart) (k : Nat) (w : W32) : (h.setM k w).fenceSeq = h.fenceSeq := by unfold setM; split <;> rfl
@[simp] theorem setM_fetchOwn (h : Hart) (k : Nat) (w : W32) : (h.setM k w).fetchOwn = h.fetchOwn := by unfold setM; split <;> rfl
@[simp] theorem setM_noSpace (h : Hart) (k : Nat) (w : W32) : (h.setM k w).noSpace = h.noSpace := by unfold setM; split <;> rfl
@[simp] theorem setM_queued (h : Hart) (k : Nat) (w : W32) : (h.setM k w).queued = h.queued := by unfold setM; split <;> rfl
@[simp] theorem setM_pauseLen (h : Hart) (k : Nat) (w : W32) : (h.setM k w).pauseLen = h.pauseLen := by unfold setM; split <;> rfl
@[simp] theorem setM_pauseS (h : Hart) (k : Nat) (w : W32) : (h.setM k w).pauseS = h.pauseS := by unfold setM; split <;> rfl
@[simp] theorem setM_pauseM (h : Hart) (k : Nat) (w : W32) : (h.setM k w).pauseM = h.pauseM := by unfold setM; split <;> rfl
@[simp] theorem setM_pauseU (h : Hart) (k : Nat) (w : W32) : (h.setM k w).pauseU = h.pauseU := by unfold setM; split <;> rfl

@[simp] theorem setV_live (h : Hart) (r l : Nat) (w : W32) : (h.setV r l w).live = h.live := rfl
@[simp] theorem setV_resident (h : Hart) (r l : Nat) (w : W32) : (h.setV r l w).resident = h.resident := rfl
@[simp] theorem setV_tinker (h : Hart) (r l : Nat) (w : W32) : (h.setV r l w).tinker = h.tinker := rfl
@[simp] theorem setV_reserved (h : Hart) (r l : Nat) (w : W32) : (h.setV r l w).reserved = h.reserved := rfl
@[simp] theorem setV_handler (h : Hart) (r l : Nat) (w : W32) : (h.setV r l w).handler = h.handler := rfl
@[simp] theorem setV_home (h : Hart) (r l : Nat) (w : W32) : (h.setV r l w).home = h.home := rfl
@[simp] theorem setV_x (h : Hart) (r l : Nat) (w : W32) : (h.setV r l w).x = h.x := rfl
@[simp] theorem setV_pc (h : Hart) (r l : Nat) (w : W32) : (h.setV r l w).pc = h.pc := rfl
@[simp] theorem setV_mode (h : Hart) (r l : Nat) (w : W32) : (h.setV r l w).mode = h.mode := rfl
@[simp] theorem setV_window (h : Hart) (r l : Nat) (w : W32) : (h.setV r l w).window = h.window := rfl
@[simp] theorem setV_m (h : Hart) (r l : Nat) (w : W32) : (h.setV r l w).m = h.m := rfl
@[simp] theorem setV_stack (h : Hart) (r l : Nat) (w : W32) : (h.setV r l w).stack = h.stack := rfl
@[simp] theorem setV_depth (h : Hart) (r l : Nat) (w : W32) : (h.setV r l w).depth = h.depth := rfl
@[simp] theorem setV_att (h : Hart) (r l : Nat) (w : W32) : (h.setV r l w).att = h.att := rfl
@[simp] theorem setV_attS (h : Hart) (r l : Nat) (w : W32) : (h.setV r l w).attS = h.attS := rfl
@[simp] theorem setV_attM (h : Hart) (r l : Nat) (w : W32) : (h.setV r l w).attM = h.attM := rfl
@[simp] theorem setV_attU (h : Hart) (r l : Nat) (w : W32) : (h.setV r l w).attU = h.attU := rfl
@[simp] theorem setV_attP (h : Hart) (r l : Nat) (w : W32) : (h.setV r l w).attP = h.attP := rfl
@[simp] theorem setV_passed (h : Hart) (r l : Nat) (w : W32) : (h.setV r l w).passed = h.passed := rfl
@[simp] theorem setV_fflags (h : Hart) (r l : Nat) (w : W32) : (h.setV r l w).fflags = h.fflags := rfl
@[simp] theorem setV_frm (h : Hart) (r l : Nat) (w : W32) : (h.setV r l w).frm = h.frm := rfl
@[simp] theorem setV_ftz (h : Hart) (r l : Nat) (w : W32) : (h.setV r l w).ftz = h.ftz := rfl
@[simp] theorem setV_uitvec (h : Hart) (r l : Nat) (w : W32) : (h.setV r l w).uitvec = h.uitvec := rfl
@[simp] theorem setV_uiepc (h : Hart) (r l : Nat) (w : W32) : (h.setV r l w).uiepc = h.uiepc := rfl
@[simp] theorem setV_ucTag (h : Hart) (r l : Nat) (w : W32) : (h.setV r l w).ucTag = h.ucTag := rfl
@[simp] theorem setV_ucPrio (h : Hart) (r l : Nat) (w : W32) : (h.setV r l w).ucPrio = h.ucPrio := rfl
@[simp] theorem setV_uie (h : Hart) (r l : Nat) (w : W32) : (h.setV r l w).uie = h.uie := rfl
@[simp] theorem setV_sbase (h : Hart) (r l : Nat) (w : W32) : (h.setV r l w).sbase = h.sbase := rfl
@[simp] theorem setV_sshift (h : Hart) (r l : Nat) (w : W32) : (h.setV r l w).sshift = h.sshift := rfl
@[simp] theorem setV_coord (h : Hart) (r l : Nat) (w : W32) : (h.setV r l w).coord = h.coord := rfl
@[simp] theorem setV_launchAddr (h : Hart) (r l : Nat) (w : W32) : (h.setV r l w).launchAddr = h.launchAddr := rfl
@[simp] theorem setV_tag (h : Hart) (r l : Nat) (w : W32) : (h.setV r l w).tag = h.tag := rfl
@[simp] theorem setV_windex (h : Hart) (r l : Nat) (w : W32) : (h.setV r l w).windex = h.windex := rfl
@[simp] theorem setV_wdepth (h : Hart) (r l : Nat) (w : W32) : (h.setV r l w).wdepth = h.wdepth := rfl
@[simp] theorem setV_oplogidx (h : Hart) (r l : Nat) (w : W32) : (h.setV r l w).oplogidx = h.oplogidx := rfl
@[simp] theorem setV_pcmsel (h : Hart) (r l : Nat) (w : W32) : (h.setV r l w).pcmsel = h.pcmsel := rfl
@[simp] theorem setV_pcmdat (h : Hart) (r l : Nat) (w : W32) : (h.setV r l w).pcmdat = h.pcmdat := rfl
@[simp] theorem setV_pcmHnd (h : Hart) (r l : Nat) (w : W32) : (h.setV r l w).pcmHnd = h.pcmHnd := rfl
@[simp] theorem setV_inShadow (h : Hart) (r l : Nat) (w : W32) : (h.setV r l w).inShadow = h.inShadow := rfl
@[simp] theorem setV_shadowX (h : Hart) (r l : Nat) (w : W32) : (h.setV r l w).shadowX = h.shadowX := rfl
@[simp] theorem setV_shadowPc (h : Hart) (r l : Nat) (w : W32) : (h.setV r l w).shadowPc = h.shadowPc := rfl
@[simp] theorem setV_csr (h : Hart) (r l : Nat) (w : W32) : (h.setV r l w).csr = h.csr := rfl
@[simp] theorem setV_instret (h : Hart) (r l : Nat) (w : W32) : (h.setV r l w).instret = h.instret := rfl
@[simp] theorem setV_tcmBase (h : Hart) (r l : Nat) (w : W32) : (h.setV r l w).tcmBase = h.tcmBase := rfl
@[simp] theorem setV_tcmSize (h : Hart) (r l : Nat) (w : W32) : (h.setV r l w).tcmSize = h.tcmSize := rfl
@[simp] theorem setV_ops (h : Hart) (r l : Nat) (w : W32) : (h.setV r l w).ops = h.ops := rfl
@[simp] theorem setV_oplog (h : Hart) (r l : Nat) (w : W32) : (h.setV r l w).oplog = h.oplog := rfl
@[simp] theorem setV_nextOrder (h : Hart) (r l : Nat) (w : W32) : (h.setV r l w).nextOrder = h.nextOrder := rfl
@[simp] theorem setV_engFlags (h : Hart) (r l : Nat) (w : W32) : (h.setV r l w).engFlags = h.engFlags := rfl
@[simp] theorem setV_reservation (h : Hart) (r l : Nat) (w : W32) : (h.setV r l w).reservation = h.reservation := rfl
@[simp] theorem setV_rel (h : Hart) (r l : Nat) (w : W32) : (h.setV r l w).rel = h.rel := rfl
@[simp] theorem setV_scReads (h : Hart) (r l : Nat) (w : W32) : (h.setV r l w).scReads = h.scReads := rfl
@[simp] theorem setV_icache (h : Hart) (r l : Nat) (w : W32) : (h.setV r l w).icache = h.icache := rfl
@[simp] theorem setV_role (h : Hart) (r l : Nat) (w : W32) : (h.setV r l w).role = h.role := rfl
@[simp] theorem setV_wait (h : Hart) (r l : Nat) (w : W32) : (h.setV r l w).wait = h.wait := rfl
@[simp] theorem setV_arrivals (h : Hart) (r l : Nat) (w : W32) : (h.setV r l w).arrivals = h.arrivals := rfl
@[simp] theorem setV_pauseEnd (h : Hart) (r l : Nat) (w : W32) : (h.setV r l w).pauseEnd = h.pauseEnd := rfl
@[simp] theorem setV_estat (h : Hart) (r l : Nat) (w : W32) : (h.setV r l w).estat = h.estat := rfl
@[simp] theorem setV_streams (h : Hart) (r l : Nat) (w : W32) : (h.setV r l w).streams = h.streams := rfl
@[simp] theorem setV_fork (h : Hart) (r l : Nat) (w : W32) : (h.setV r l w).fork = h.fork := rfl
@[simp] theorem setV_dbg (h : Hart) (r l : Nat) (w : W32) : (h.setV r l w).dbg = h.dbg := rfl
@[simp] theorem setV_lastIssue (h : Hart) (r l : Nat) (w : W32) : (h.setV r l w).lastIssue = h.lastIssue := rfl
@[simp] theorem setV_taken (h : Hart) (r l : Nat) (w : W32) : (h.setV r l w).taken = h.taken := rfl
@[simp] theorem setV_idle (h : Hart) (r l : Nat) (w : W32) : (h.setV r l w).idle = h.idle := rfl
@[simp] theorem setV_heldSeq (h : Hart) (r l : Nat) (w : W32) : (h.setV r l w).heldSeq = h.heldSeq := rfl
@[simp] theorem setV_heldFor (h : Hart) (r l : Nat) (w : W32) : (h.setV r l w).heldFor = h.heldFor := rfl
@[simp] theorem setV_wquota (h : Hart) (r l : Nat) (w : W32) : (h.setV r l w).wquota = h.wquota := rfl
@[simp] theorem setV_heldBad (h : Hart) (r l : Nat) (w : W32) : (h.setV r l w).heldBad = h.heldBad := rfl
@[simp] theorem setV_winAnswer (h : Hart) (r l : Nat) (w : W32) : (h.setV r l w).winAnswer = h.winAnswer := rfl
@[simp] theorem setV_fenceSeq (h : Hart) (r l : Nat) (w : W32) : (h.setV r l w).fenceSeq = h.fenceSeq := rfl
@[simp] theorem setV_fetchOwn (h : Hart) (r l : Nat) (w : W32) : (h.setV r l w).fetchOwn = h.fetchOwn := rfl
@[simp] theorem setV_noSpace (h : Hart) (r l : Nat) (w : W32) : (h.setV r l w).noSpace = h.noSpace := rfl
@[simp] theorem setV_queued (h : Hart) (r l : Nat) (w : W32) : (h.setV r l w).queued = h.queued := rfl
@[simp] theorem setV_pauseLen (h : Hart) (r l : Nat) (w : W32) : (h.setV r l w).pauseLen = h.pauseLen := rfl
@[simp] theorem setV_pauseS (h : Hart) (r l : Nat) (w : W32) : (h.setV r l w).pauseS = h.pauseS := rfl
@[simp] theorem setV_pauseM (h : Hart) (r l : Nat) (w : W32) : (h.setV r l w).pauseM = h.pauseM := rfl
@[simp] theorem setV_pauseU (h : Hart) (r l : Nat) (w : W32) : (h.setV r l w).pauseU = h.pauseU := rfl

@[simp] theorem goto_live (h : Hart) (pc : W64) : (h.goto pc).live = h.live := rfl
@[simp] theorem goto_resident (h : Hart) (pc : W64) : (h.goto pc).resident = h.resident := rfl
@[simp] theorem goto_tinker (h : Hart) (pc : W64) : (h.goto pc).tinker = h.tinker := rfl
@[simp] theorem goto_reserved (h : Hart) (pc : W64) : (h.goto pc).reserved = h.reserved := rfl
@[simp] theorem goto_handler (h : Hart) (pc : W64) : (h.goto pc).handler = h.handler := rfl
@[simp] theorem goto_home (h : Hart) (pc : W64) : (h.goto pc).home = h.home := rfl
@[simp] theorem goto_x (h : Hart) (pc : W64) : (h.goto pc).x = h.x := rfl
@[simp] theorem goto_mode (h : Hart) (pc : W64) : (h.goto pc).mode = h.mode := rfl
@[simp] theorem goto_v (h : Hart) (pc : W64) : (h.goto pc).v = h.v := rfl
@[simp] theorem goto_window (h : Hart) (pc : W64) : (h.goto pc).window = h.window := rfl
@[simp] theorem goto_m (h : Hart) (pc : W64) : (h.goto pc).m = h.m := rfl
@[simp] theorem goto_stack (h : Hart) (pc : W64) : (h.goto pc).stack = h.stack := rfl
@[simp] theorem goto_depth (h : Hart) (pc : W64) : (h.goto pc).depth = h.depth := rfl
@[simp] theorem goto_att (h : Hart) (pc : W64) : (h.goto pc).att = h.att := rfl
@[simp] theorem goto_attS (h : Hart) (pc : W64) : (h.goto pc).attS = h.attS := rfl
@[simp] theorem goto_attM (h : Hart) (pc : W64) : (h.goto pc).attM = h.attM := rfl
@[simp] theorem goto_attU (h : Hart) (pc : W64) : (h.goto pc).attU = h.attU := rfl
@[simp] theorem goto_attP (h : Hart) (pc : W64) : (h.goto pc).attP = h.attP := rfl
@[simp] theorem goto_fflags (h : Hart) (pc : W64) : (h.goto pc).fflags = h.fflags := rfl
@[simp] theorem goto_frm (h : Hart) (pc : W64) : (h.goto pc).frm = h.frm := rfl
@[simp] theorem goto_ftz (h : Hart) (pc : W64) : (h.goto pc).ftz = h.ftz := rfl
@[simp] theorem goto_uitvec (h : Hart) (pc : W64) : (h.goto pc).uitvec = h.uitvec := rfl
@[simp] theorem goto_uiepc (h : Hart) (pc : W64) : (h.goto pc).uiepc = h.uiepc := rfl
@[simp] theorem goto_ucTag (h : Hart) (pc : W64) : (h.goto pc).ucTag = h.ucTag := rfl
@[simp] theorem goto_ucPrio (h : Hart) (pc : W64) : (h.goto pc).ucPrio = h.ucPrio := rfl
@[simp] theorem goto_uie (h : Hart) (pc : W64) : (h.goto pc).uie = h.uie := rfl
@[simp] theorem goto_sbase (h : Hart) (pc : W64) : (h.goto pc).sbase = h.sbase := rfl
@[simp] theorem goto_sshift (h : Hart) (pc : W64) : (h.goto pc).sshift = h.sshift := rfl
@[simp] theorem goto_coord (h : Hart) (pc : W64) : (h.goto pc).coord = h.coord := rfl
@[simp] theorem goto_launchAddr (h : Hart) (pc : W64) : (h.goto pc).launchAddr = h.launchAddr := rfl
@[simp] theorem goto_tag (h : Hart) (pc : W64) : (h.goto pc).tag = h.tag := rfl
@[simp] theorem goto_windex (h : Hart) (pc : W64) : (h.goto pc).windex = h.windex := rfl
@[simp] theorem goto_wdepth (h : Hart) (pc : W64) : (h.goto pc).wdepth = h.wdepth := rfl
@[simp] theorem goto_oplogidx (h : Hart) (pc : W64) : (h.goto pc).oplogidx = h.oplogidx := rfl
@[simp] theorem goto_pcmsel (h : Hart) (pc : W64) : (h.goto pc).pcmsel = h.pcmsel := rfl
@[simp] theorem goto_pcmdat (h : Hart) (pc : W64) : (h.goto pc).pcmdat = h.pcmdat := rfl
@[simp] theorem goto_pcmHnd (h : Hart) (pc : W64) : (h.goto pc).pcmHnd = h.pcmHnd := rfl
@[simp] theorem goto_inShadow (h : Hart) (pc : W64) : (h.goto pc).inShadow = h.inShadow := rfl
@[simp] theorem goto_shadowX (h : Hart) (pc : W64) : (h.goto pc).shadowX = h.shadowX := rfl
@[simp] theorem goto_shadowPc (h : Hart) (pc : W64) : (h.goto pc).shadowPc = h.shadowPc := rfl
@[simp] theorem goto_csr (h : Hart) (pc : W64) : (h.goto pc).csr = h.csr := rfl
@[simp] theorem goto_tcmBase (h : Hart) (pc : W64) : (h.goto pc).tcmBase = h.tcmBase := rfl
@[simp] theorem goto_tcmSize (h : Hart) (pc : W64) : (h.goto pc).tcmSize = h.tcmSize := rfl
@[simp] theorem goto_ops (h : Hart) (pc : W64) : (h.goto pc).ops = h.ops := rfl
@[simp] theorem goto_oplog (h : Hart) (pc : W64) : (h.goto pc).oplog = h.oplog := rfl
@[simp] theorem goto_nextOrder (h : Hart) (pc : W64) : (h.goto pc).nextOrder = h.nextOrder := rfl
@[simp] theorem goto_engFlags (h : Hart) (pc : W64) : (h.goto pc).engFlags = h.engFlags := rfl
@[simp] theorem goto_reservation (h : Hart) (pc : W64) : (h.goto pc).reservation = h.reservation := rfl
@[simp] theorem goto_rel (h : Hart) (pc : W64) : (h.goto pc).rel = h.rel := rfl
@[simp] theorem goto_scReads (h : Hart) (pc : W64) : (h.goto pc).scReads = h.scReads := rfl
@[simp] theorem goto_icache (h : Hart) (pc : W64) : (h.goto pc).icache = h.icache := rfl
@[simp] theorem goto_role (h : Hart) (pc : W64) : (h.goto pc).role = h.role := rfl
@[simp] theorem goto_arrivals (h : Hart) (pc : W64) : (h.goto pc).arrivals = h.arrivals := rfl
@[simp] theorem goto_pauseEnd (h : Hart) (pc : W64) : (h.goto pc).pauseEnd = h.pauseEnd := rfl
@[simp] theorem goto_estat (h : Hart) (pc : W64) : (h.goto pc).estat = h.estat := rfl
@[simp] theorem goto_streams (h : Hart) (pc : W64) : (h.goto pc).streams = h.streams := rfl
@[simp] theorem goto_fork (h : Hart) (pc : W64) : (h.goto pc).fork = h.fork := rfl
@[simp] theorem goto_dbg (h : Hart) (pc : W64) : (h.goto pc).dbg = h.dbg := rfl
@[simp] theorem goto_lastIssue (h : Hart) (pc : W64) : (h.goto pc).lastIssue = h.lastIssue := rfl
@[simp] theorem goto_taken (h : Hart) (pc : W64) : (h.goto pc).taken = h.taken := rfl
@[simp] theorem goto_idle (h : Hart) (pc : W64) : (h.goto pc).idle = h.idle := rfl
@[simp] theorem goto_heldSeq (h : Hart) (pc : W64) : (h.goto pc).heldSeq = h.heldSeq := rfl
@[simp] theorem goto_heldFor (h : Hart) (pc : W64) : (h.goto pc).heldFor = h.heldFor := rfl
@[simp] theorem goto_wquota (h : Hart) (pc : W64) : (h.goto pc).wquota = h.wquota := rfl
@[simp] theorem goto_heldBad (h : Hart) (pc : W64) : (h.goto pc).heldBad = h.heldBad := rfl
@[simp] theorem goto_winAnswer (h : Hart) (pc : W64) : (h.goto pc).winAnswer = h.winAnswer := rfl
@[simp] theorem goto_fenceSeq (h : Hart) (pc : W64) : (h.goto pc).fenceSeq = h.fenceSeq := rfl
@[simp] theorem goto_fetchOwn (h : Hart) (pc : W64) : (h.goto pc).fetchOwn = h.fetchOwn := rfl
@[simp] theorem goto_noSpace (h : Hart) (pc : W64) : (h.goto pc).noSpace = h.noSpace := rfl
@[simp] theorem goto_queued (h : Hart) (pc : W64) : (h.goto pc).queued = h.queued := rfl
@[simp] theorem goto_pauseLen (h : Hart) (pc : W64) : (h.goto pc).pauseLen = h.pauseLen := rfl
@[simp] theorem goto_pauseS (h : Hart) (pc : W64) : (h.goto pc).pauseS = h.pauseS := rfl
@[simp] theorem goto_pauseM (h : Hart) (pc : W64) : (h.goto pc).pauseM = h.pauseM := rfl
@[simp] theorem goto_pauseU (h : Hart) (pc : W64) : (h.goto pc).pauseU = h.pauseU := rfl

@[simp] theorem advance_live (h : Hart) (n : Nat) : (h.advance n).live = h.live := rfl
@[simp] theorem advance_resident (h : Hart) (n : Nat) : (h.advance n).resident = h.resident := rfl
@[simp] theorem advance_tinker (h : Hart) (n : Nat) : (h.advance n).tinker = h.tinker := rfl
@[simp] theorem advance_reserved (h : Hart) (n : Nat) : (h.advance n).reserved = h.reserved := rfl
@[simp] theorem advance_handler (h : Hart) (n : Nat) : (h.advance n).handler = h.handler := rfl
@[simp] theorem advance_home (h : Hart) (n : Nat) : (h.advance n).home = h.home := rfl
@[simp] theorem advance_x (h : Hart) (n : Nat) : (h.advance n).x = h.x := rfl
@[simp] theorem advance_mode (h : Hart) (n : Nat) : (h.advance n).mode = h.mode := rfl
@[simp] theorem advance_v (h : Hart) (n : Nat) : (h.advance n).v = h.v := rfl
@[simp] theorem advance_window (h : Hart) (n : Nat) : (h.advance n).window = h.window := rfl
@[simp] theorem advance_m (h : Hart) (n : Nat) : (h.advance n).m = h.m := rfl
@[simp] theorem advance_stack (h : Hart) (n : Nat) : (h.advance n).stack = h.stack := rfl
@[simp] theorem advance_depth (h : Hart) (n : Nat) : (h.advance n).depth = h.depth := rfl
@[simp] theorem advance_att (h : Hart) (n : Nat) : (h.advance n).att = h.att := rfl
@[simp] theorem advance_attS (h : Hart) (n : Nat) : (h.advance n).attS = h.attS := rfl
@[simp] theorem advance_attM (h : Hart) (n : Nat) : (h.advance n).attM = h.attM := rfl
@[simp] theorem advance_attU (h : Hart) (n : Nat) : (h.advance n).attU = h.attU := rfl
@[simp] theorem advance_attP (h : Hart) (n : Nat) : (h.advance n).attP = h.attP := rfl
@[simp] theorem advance_fflags (h : Hart) (n : Nat) : (h.advance n).fflags = h.fflags := rfl
@[simp] theorem advance_frm (h : Hart) (n : Nat) : (h.advance n).frm = h.frm := rfl
@[simp] theorem advance_ftz (h : Hart) (n : Nat) : (h.advance n).ftz = h.ftz := rfl
@[simp] theorem advance_uitvec (h : Hart) (n : Nat) : (h.advance n).uitvec = h.uitvec := rfl
@[simp] theorem advance_uiepc (h : Hart) (n : Nat) : (h.advance n).uiepc = h.uiepc := rfl
@[simp] theorem advance_ucTag (h : Hart) (n : Nat) : (h.advance n).ucTag = h.ucTag := rfl
@[simp] theorem advance_ucPrio (h : Hart) (n : Nat) : (h.advance n).ucPrio = h.ucPrio := rfl
@[simp] theorem advance_uie (h : Hart) (n : Nat) : (h.advance n).uie = h.uie := rfl
@[simp] theorem advance_sbase (h : Hart) (n : Nat) : (h.advance n).sbase = h.sbase := rfl
@[simp] theorem advance_sshift (h : Hart) (n : Nat) : (h.advance n).sshift = h.sshift := rfl
@[simp] theorem advance_coord (h : Hart) (n : Nat) : (h.advance n).coord = h.coord := rfl
@[simp] theorem advance_launchAddr (h : Hart) (n : Nat) : (h.advance n).launchAddr = h.launchAddr := rfl
@[simp] theorem advance_tag (h : Hart) (n : Nat) : (h.advance n).tag = h.tag := rfl
@[simp] theorem advance_windex (h : Hart) (n : Nat) : (h.advance n).windex = h.windex := rfl
@[simp] theorem advance_wdepth (h : Hart) (n : Nat) : (h.advance n).wdepth = h.wdepth := rfl
@[simp] theorem advance_oplogidx (h : Hart) (n : Nat) : (h.advance n).oplogidx = h.oplogidx := rfl
@[simp] theorem advance_pcmsel (h : Hart) (n : Nat) : (h.advance n).pcmsel = h.pcmsel := rfl
@[simp] theorem advance_pcmdat (h : Hart) (n : Nat) : (h.advance n).pcmdat = h.pcmdat := rfl
@[simp] theorem advance_pcmHnd (h : Hart) (n : Nat) : (h.advance n).pcmHnd = h.pcmHnd := rfl
@[simp] theorem advance_inShadow (h : Hart) (n : Nat) : (h.advance n).inShadow = h.inShadow := rfl
@[simp] theorem advance_shadowX (h : Hart) (n : Nat) : (h.advance n).shadowX = h.shadowX := rfl
@[simp] theorem advance_shadowPc (h : Hart) (n : Nat) : (h.advance n).shadowPc = h.shadowPc := rfl
@[simp] theorem advance_csr (h : Hart) (n : Nat) : (h.advance n).csr = h.csr := rfl
@[simp] theorem advance_tcmBase (h : Hart) (n : Nat) : (h.advance n).tcmBase = h.tcmBase := rfl
@[simp] theorem advance_tcmSize (h : Hart) (n : Nat) : (h.advance n).tcmSize = h.tcmSize := rfl
@[simp] theorem advance_ops (h : Hart) (n : Nat) : (h.advance n).ops = h.ops := rfl
@[simp] theorem advance_oplog (h : Hart) (n : Nat) : (h.advance n).oplog = h.oplog := rfl
@[simp] theorem advance_nextOrder (h : Hart) (n : Nat) : (h.advance n).nextOrder = h.nextOrder := rfl
@[simp] theorem advance_engFlags (h : Hart) (n : Nat) : (h.advance n).engFlags = h.engFlags := rfl
@[simp] theorem advance_reservation (h : Hart) (n : Nat) : (h.advance n).reservation = h.reservation := rfl
@[simp] theorem advance_rel (h : Hart) (n : Nat) : (h.advance n).rel = h.rel := rfl
@[simp] theorem advance_scReads (h : Hart) (n : Nat) : (h.advance n).scReads = h.scReads := rfl
@[simp] theorem advance_icache (h : Hart) (n : Nat) : (h.advance n).icache = h.icache := rfl
@[simp] theorem advance_role (h : Hart) (n : Nat) : (h.advance n).role = h.role := rfl
@[simp] theorem advance_arrivals (h : Hart) (n : Nat) : (h.advance n).arrivals = h.arrivals := rfl
@[simp] theorem advance_pauseEnd (h : Hart) (n : Nat) : (h.advance n).pauseEnd = h.pauseEnd := rfl
@[simp] theorem advance_estat (h : Hart) (n : Nat) : (h.advance n).estat = h.estat := rfl
@[simp] theorem advance_streams (h : Hart) (n : Nat) : (h.advance n).streams = h.streams := rfl
@[simp] theorem advance_fork (h : Hart) (n : Nat) : (h.advance n).fork = h.fork := rfl
@[simp] theorem advance_dbg (h : Hart) (n : Nat) : (h.advance n).dbg = h.dbg := rfl
@[simp] theorem advance_lastIssue (h : Hart) (n : Nat) : (h.advance n).lastIssue = h.lastIssue := rfl
@[simp] theorem advance_taken (h : Hart) (n : Nat) : (h.advance n).taken = h.taken := rfl
@[simp] theorem advance_idle (h : Hart) (n : Nat) : (h.advance n).idle = h.idle := rfl
@[simp] theorem advance_heldSeq (h : Hart) (n : Nat) : (h.advance n).heldSeq = h.heldSeq := rfl
@[simp] theorem advance_heldFor (h : Hart) (n : Nat) : (h.advance n).heldFor = h.heldFor := rfl
@[simp] theorem advance_wquota (h : Hart) (n : Nat) : (h.advance n).wquota = h.wquota := rfl
@[simp] theorem advance_heldBad (h : Hart) (n : Nat) : (h.advance n).heldBad = h.heldBad := rfl
@[simp] theorem advance_winAnswer (h : Hart) (n : Nat) : (h.advance n).winAnswer = h.winAnswer := rfl
@[simp] theorem advance_fenceSeq (h : Hart) (n : Nat) : (h.advance n).fenceSeq = h.fenceSeq := rfl
@[simp] theorem advance_fetchOwn (h : Hart) (n : Nat) : (h.advance n).fetchOwn = h.fetchOwn := rfl
@[simp] theorem advance_noSpace (h : Hart) (n : Nat) : (h.advance n).noSpace = h.noSpace := rfl
@[simp] theorem advance_queued (h : Hart) (n : Nat) : (h.advance n).queued = h.queued := rfl
@[simp] theorem advance_pauseLen (h : Hart) (n : Nat) : (h.advance n).pauseLen = h.pauseLen := rfl
@[simp] theorem advance_pauseS (h : Hart) (n : Nat) : (h.advance n).pauseS = h.pauseS := rfl
@[simp] theorem advance_pauseM (h : Hart) (n : Nat) : (h.advance n).pauseM = h.pauseM := rfl
@[simp] theorem advance_pauseU (h : Hart) (n : Nat) : (h.advance n).pauseU = h.pauseU := rfl

@[simp] theorem block_live (h : Hart) (c : Nat) (a b : W64) : (h.block c a b).live = h.live := rfl
@[simp] theorem block_resident (h : Hart) (c : Nat) (a b : W64) : (h.block c a b).resident = h.resident := rfl
@[simp] theorem block_tinker (h : Hart) (c : Nat) (a b : W64) : (h.block c a b).tinker = h.tinker := rfl
@[simp] theorem block_reserved (h : Hart) (c : Nat) (a b : W64) : (h.block c a b).reserved = h.reserved := rfl
@[simp] theorem block_handler (h : Hart) (c : Nat) (a b : W64) : (h.block c a b).handler = h.handler := rfl
@[simp] theorem block_home (h : Hart) (c : Nat) (a b : W64) : (h.block c a b).home = h.home := rfl
@[simp] theorem block_x (h : Hart) (c : Nat) (a b : W64) : (h.block c a b).x = h.x := rfl
@[simp] theorem block_pc (h : Hart) (c : Nat) (a b : W64) : (h.block c a b).pc = h.pc := rfl
@[simp] theorem block_mode (h : Hart) (c : Nat) (a b : W64) : (h.block c a b).mode = h.mode := rfl
@[simp] theorem block_v (h : Hart) (c : Nat) (a b : W64) : (h.block c a b).v = h.v := rfl
@[simp] theorem block_window (h : Hart) (c : Nat) (a b : W64) : (h.block c a b).window = h.window := rfl
@[simp] theorem block_m (h : Hart) (c : Nat) (a b : W64) : (h.block c a b).m = h.m := rfl
@[simp] theorem block_stack (h : Hart) (c : Nat) (a b : W64) : (h.block c a b).stack = h.stack := rfl
@[simp] theorem block_depth (h : Hart) (c : Nat) (a b : W64) : (h.block c a b).depth = h.depth := rfl
@[simp] theorem block_att (h : Hart) (c : Nat) (a b : W64) : (h.block c a b).att = h.att := rfl
@[simp] theorem block_attS (h : Hart) (c : Nat) (a b : W64) : (h.block c a b).attS = h.attS := rfl
@[simp] theorem block_attM (h : Hart) (c : Nat) (a b : W64) : (h.block c a b).attM = h.attM := rfl
@[simp] theorem block_attU (h : Hart) (c : Nat) (a b : W64) : (h.block c a b).attU = h.attU := rfl
@[simp] theorem block_attP (h : Hart) (c : Nat) (a b : W64) : (h.block c a b).attP = h.attP := rfl
@[simp] theorem block_passed (h : Hart) (c : Nat) (a b : W64) : (h.block c a b).passed = h.passed := rfl
@[simp] theorem block_fflags (h : Hart) (c : Nat) (a b : W64) : (h.block c a b).fflags = h.fflags := rfl
@[simp] theorem block_frm (h : Hart) (c : Nat) (a b : W64) : (h.block c a b).frm = h.frm := rfl
@[simp] theorem block_ftz (h : Hart) (c : Nat) (a b : W64) : (h.block c a b).ftz = h.ftz := rfl
@[simp] theorem block_uitvec (h : Hart) (c : Nat) (a b : W64) : (h.block c a b).uitvec = h.uitvec := rfl
@[simp] theorem block_uiepc (h : Hart) (c : Nat) (a b : W64) : (h.block c a b).uiepc = h.uiepc := rfl
@[simp] theorem block_ucTag (h : Hart) (c : Nat) (a b : W64) : (h.block c a b).ucTag = h.ucTag := rfl
@[simp] theorem block_ucPrio (h : Hart) (c : Nat) (a b : W64) : (h.block c a b).ucPrio = h.ucPrio := rfl
@[simp] theorem block_uie (h : Hart) (c : Nat) (a b : W64) : (h.block c a b).uie = h.uie := rfl
@[simp] theorem block_sbase (h : Hart) (c : Nat) (a b : W64) : (h.block c a b).sbase = h.sbase := rfl
@[simp] theorem block_sshift (h : Hart) (c : Nat) (a b : W64) : (h.block c a b).sshift = h.sshift := rfl
@[simp] theorem block_coord (h : Hart) (c : Nat) (a b : W64) : (h.block c a b).coord = h.coord := rfl
@[simp] theorem block_launchAddr (h : Hart) (c : Nat) (a b : W64) : (h.block c a b).launchAddr = h.launchAddr := rfl
@[simp] theorem block_tag (h : Hart) (c : Nat) (a b : W64) : (h.block c a b).tag = h.tag := rfl
@[simp] theorem block_windex (h : Hart) (c : Nat) (a b : W64) : (h.block c a b).windex = h.windex := rfl
@[simp] theorem block_wdepth (h : Hart) (c : Nat) (a b : W64) : (h.block c a b).wdepth = h.wdepth := rfl
@[simp] theorem block_oplogidx (h : Hart) (c : Nat) (a b : W64) : (h.block c a b).oplogidx = h.oplogidx := rfl
@[simp] theorem block_pcmsel (h : Hart) (c : Nat) (a b : W64) : (h.block c a b).pcmsel = h.pcmsel := rfl
@[simp] theorem block_pcmdat (h : Hart) (c : Nat) (a b : W64) : (h.block c a b).pcmdat = h.pcmdat := rfl
@[simp] theorem block_pcmHnd (h : Hart) (c : Nat) (a b : W64) : (h.block c a b).pcmHnd = h.pcmHnd := rfl
@[simp] theorem block_inShadow (h : Hart) (c : Nat) (a b : W64) : (h.block c a b).inShadow = h.inShadow := rfl
@[simp] theorem block_shadowX (h : Hart) (c : Nat) (a b : W64) : (h.block c a b).shadowX = h.shadowX := rfl
@[simp] theorem block_shadowPc (h : Hart) (c : Nat) (a b : W64) : (h.block c a b).shadowPc = h.shadowPc := rfl
@[simp] theorem block_csr (h : Hart) (c : Nat) (a b : W64) : (h.block c a b).csr = h.csr := rfl
@[simp] theorem block_instret (h : Hart) (c : Nat) (a b : W64) : (h.block c a b).instret = h.instret := rfl
@[simp] theorem block_tcmBase (h : Hart) (c : Nat) (a b : W64) : (h.block c a b).tcmBase = h.tcmBase := rfl
@[simp] theorem block_tcmSize (h : Hart) (c : Nat) (a b : W64) : (h.block c a b).tcmSize = h.tcmSize := rfl
@[simp] theorem block_ops (h : Hart) (c : Nat) (a b : W64) : (h.block c a b).ops = h.ops := rfl
@[simp] theorem block_oplog (h : Hart) (c : Nat) (a b : W64) : (h.block c a b).oplog = h.oplog := rfl
@[simp] theorem block_nextOrder (h : Hart) (c : Nat) (a b : W64) : (h.block c a b).nextOrder = h.nextOrder := rfl
@[simp] theorem block_engFlags (h : Hart) (c : Nat) (a b : W64) : (h.block c a b).engFlags = h.engFlags := rfl
@[simp] theorem block_reservation (h : Hart) (c : Nat) (a b : W64) : (h.block c a b).reservation = h.reservation := rfl
@[simp] theorem block_rel (h : Hart) (c : Nat) (a b : W64) : (h.block c a b).rel = h.rel := rfl
@[simp] theorem block_scReads (h : Hart) (c : Nat) (a b : W64) : (h.block c a b).scReads = h.scReads := rfl
@[simp] theorem block_icache (h : Hart) (c : Nat) (a b : W64) : (h.block c a b).icache = h.icache := rfl
@[simp] theorem block_role (h : Hart) (c : Nat) (a b : W64) : (h.block c a b).role = h.role := rfl
@[simp] theorem block_arrivals (h : Hart) (c : Nat) (a b : W64) : (h.block c a b).arrivals = h.arrivals := rfl
@[simp] theorem block_pauseEnd (h : Hart) (c : Nat) (a b : W64) : (h.block c a b).pauseEnd = h.pauseEnd := rfl
@[simp] theorem block_estat (h : Hart) (c : Nat) (a b : W64) : (h.block c a b).estat = h.estat := rfl
@[simp] theorem block_streams (h : Hart) (c : Nat) (a b : W64) : (h.block c a b).streams = h.streams := rfl
@[simp] theorem block_fork (h : Hart) (c : Nat) (a b : W64) : (h.block c a b).fork = h.fork := rfl
@[simp] theorem block_dbg (h : Hart) (c : Nat) (a b : W64) : (h.block c a b).dbg = h.dbg := rfl
@[simp] theorem block_lastIssue (h : Hart) (c : Nat) (a b : W64) : (h.block c a b).lastIssue = h.lastIssue := rfl
@[simp] theorem block_taken (h : Hart) (c : Nat) (a b : W64) : (h.block c a b).taken = h.taken := rfl
@[simp] theorem block_idle (h : Hart) (c : Nat) (a b : W64) : (h.block c a b).idle = h.idle := rfl
@[simp] theorem block_heldSeq (h : Hart) (c : Nat) (a b : W64) : (h.block c a b).heldSeq = h.heldSeq := rfl
@[simp] theorem block_heldFor (h : Hart) (c : Nat) (a b : W64) : (h.block c a b).heldFor = h.heldFor := rfl
@[simp] theorem block_wquota (h : Hart) (c : Nat) (a b : W64) : (h.block c a b).wquota = h.wquota := rfl
@[simp] theorem block_heldBad (h : Hart) (c : Nat) (a b : W64) : (h.block c a b).heldBad = h.heldBad := rfl
@[simp] theorem block_winAnswer (h : Hart) (c : Nat) (a b : W64) : (h.block c a b).winAnswer = h.winAnswer := rfl
@[simp] theorem block_fenceSeq (h : Hart) (c : Nat) (a b : W64) : (h.block c a b).fenceSeq = h.fenceSeq := rfl
@[simp] theorem block_fetchOwn (h : Hart) (c : Nat) (a b : W64) : (h.block c a b).fetchOwn = h.fetchOwn := rfl
@[simp] theorem block_noSpace (h : Hart) (c : Nat) (a b : W64) : (h.block c a b).noSpace = h.noSpace := rfl
@[simp] theorem block_queued (h : Hart) (c : Nat) (a b : W64) : (h.block c a b).queued = h.queued := rfl
@[simp] theorem block_pauseLen (h : Hart) (c : Nat) (a b : W64) : (h.block c a b).pauseLen = h.pauseLen := rfl
@[simp] theorem block_pauseS (h : Hart) (c : Nat) (a b : W64) : (h.block c a b).pauseS = h.pauseS := rfl
@[simp] theorem block_pauseM (h : Hart) (c : Nat) (a b : W64) : (h.block c a b).pauseM = h.pauseM := rfl
@[simp] theorem block_pauseU (h : Hart) (c : Nat) (a b : W64) : (h.block c a b).pauseU = h.pauseU := rfl

@[simp] theorem orFlags_live (h : Hart) (f : BitVec 5) : (h.orFlags f).live = h.live := rfl
@[simp] theorem orFlags_resident (h : Hart) (f : BitVec 5) : (h.orFlags f).resident = h.resident := rfl
@[simp] theorem orFlags_tinker (h : Hart) (f : BitVec 5) : (h.orFlags f).tinker = h.tinker := rfl
@[simp] theorem orFlags_reserved (h : Hart) (f : BitVec 5) : (h.orFlags f).reserved = h.reserved := rfl
@[simp] theorem orFlags_handler (h : Hart) (f : BitVec 5) : (h.orFlags f).handler = h.handler := rfl
@[simp] theorem orFlags_home (h : Hart) (f : BitVec 5) : (h.orFlags f).home = h.home := rfl
@[simp] theorem orFlags_x (h : Hart) (f : BitVec 5) : (h.orFlags f).x = h.x := rfl
@[simp] theorem orFlags_pc (h : Hart) (f : BitVec 5) : (h.orFlags f).pc = h.pc := rfl
@[simp] theorem orFlags_mode (h : Hart) (f : BitVec 5) : (h.orFlags f).mode = h.mode := rfl
@[simp] theorem orFlags_v (h : Hart) (f : BitVec 5) : (h.orFlags f).v = h.v := rfl
@[simp] theorem orFlags_window (h : Hart) (f : BitVec 5) : (h.orFlags f).window = h.window := rfl
@[simp] theorem orFlags_m (h : Hart) (f : BitVec 5) : (h.orFlags f).m = h.m := rfl
@[simp] theorem orFlags_stack (h : Hart) (f : BitVec 5) : (h.orFlags f).stack = h.stack := rfl
@[simp] theorem orFlags_depth (h : Hart) (f : BitVec 5) : (h.orFlags f).depth = h.depth := rfl
@[simp] theorem orFlags_att (h : Hart) (f : BitVec 5) : (h.orFlags f).att = h.att := rfl
@[simp] theorem orFlags_attS (h : Hart) (f : BitVec 5) : (h.orFlags f).attS = h.attS := rfl
@[simp] theorem orFlags_attM (h : Hart) (f : BitVec 5) : (h.orFlags f).attM = h.attM := rfl
@[simp] theorem orFlags_attU (h : Hart) (f : BitVec 5) : (h.orFlags f).attU = h.attU := rfl
@[simp] theorem orFlags_attP (h : Hart) (f : BitVec 5) : (h.orFlags f).attP = h.attP := rfl
@[simp] theorem orFlags_passed (h : Hart) (f : BitVec 5) : (h.orFlags f).passed = h.passed := rfl
@[simp] theorem orFlags_frm (h : Hart) (f : BitVec 5) : (h.orFlags f).frm = h.frm := rfl
@[simp] theorem orFlags_ftz (h : Hart) (f : BitVec 5) : (h.orFlags f).ftz = h.ftz := rfl
@[simp] theorem orFlags_uitvec (h : Hart) (f : BitVec 5) : (h.orFlags f).uitvec = h.uitvec := rfl
@[simp] theorem orFlags_uiepc (h : Hart) (f : BitVec 5) : (h.orFlags f).uiepc = h.uiepc := rfl
@[simp] theorem orFlags_ucTag (h : Hart) (f : BitVec 5) : (h.orFlags f).ucTag = h.ucTag := rfl
@[simp] theorem orFlags_ucPrio (h : Hart) (f : BitVec 5) : (h.orFlags f).ucPrio = h.ucPrio := rfl
@[simp] theorem orFlags_uie (h : Hart) (f : BitVec 5) : (h.orFlags f).uie = h.uie := rfl
@[simp] theorem orFlags_sbase (h : Hart) (f : BitVec 5) : (h.orFlags f).sbase = h.sbase := rfl
@[simp] theorem orFlags_sshift (h : Hart) (f : BitVec 5) : (h.orFlags f).sshift = h.sshift := rfl
@[simp] theorem orFlags_coord (h : Hart) (f : BitVec 5) : (h.orFlags f).coord = h.coord := rfl
@[simp] theorem orFlags_launchAddr (h : Hart) (f : BitVec 5) : (h.orFlags f).launchAddr = h.launchAddr := rfl
@[simp] theorem orFlags_tag (h : Hart) (f : BitVec 5) : (h.orFlags f).tag = h.tag := rfl
@[simp] theorem orFlags_windex (h : Hart) (f : BitVec 5) : (h.orFlags f).windex = h.windex := rfl
@[simp] theorem orFlags_wdepth (h : Hart) (f : BitVec 5) : (h.orFlags f).wdepth = h.wdepth := rfl
@[simp] theorem orFlags_oplogidx (h : Hart) (f : BitVec 5) : (h.orFlags f).oplogidx = h.oplogidx := rfl
@[simp] theorem orFlags_pcmsel (h : Hart) (f : BitVec 5) : (h.orFlags f).pcmsel = h.pcmsel := rfl
@[simp] theorem orFlags_pcmdat (h : Hart) (f : BitVec 5) : (h.orFlags f).pcmdat = h.pcmdat := rfl
@[simp] theorem orFlags_pcmHnd (h : Hart) (f : BitVec 5) : (h.orFlags f).pcmHnd = h.pcmHnd := rfl
@[simp] theorem orFlags_inShadow (h : Hart) (f : BitVec 5) : (h.orFlags f).inShadow = h.inShadow := rfl
@[simp] theorem orFlags_shadowX (h : Hart) (f : BitVec 5) : (h.orFlags f).shadowX = h.shadowX := rfl
@[simp] theorem orFlags_shadowPc (h : Hart) (f : BitVec 5) : (h.orFlags f).shadowPc = h.shadowPc := rfl
@[simp] theorem orFlags_csr (h : Hart) (f : BitVec 5) : (h.orFlags f).csr = h.csr := rfl
@[simp] theorem orFlags_instret (h : Hart) (f : BitVec 5) : (h.orFlags f).instret = h.instret := rfl
@[simp] theorem orFlags_tcmBase (h : Hart) (f : BitVec 5) : (h.orFlags f).tcmBase = h.tcmBase := rfl
@[simp] theorem orFlags_tcmSize (h : Hart) (f : BitVec 5) : (h.orFlags f).tcmSize = h.tcmSize := rfl
@[simp] theorem orFlags_ops (h : Hart) (f : BitVec 5) : (h.orFlags f).ops = h.ops := rfl
@[simp] theorem orFlags_oplog (h : Hart) (f : BitVec 5) : (h.orFlags f).oplog = h.oplog := rfl
@[simp] theorem orFlags_nextOrder (h : Hart) (f : BitVec 5) : (h.orFlags f).nextOrder = h.nextOrder := rfl
@[simp] theorem orFlags_engFlags (h : Hart) (f : BitVec 5) : (h.orFlags f).engFlags = h.engFlags := rfl
@[simp] theorem orFlags_reservation (h : Hart) (f : BitVec 5) : (h.orFlags f).reservation = h.reservation := rfl
@[simp] theorem orFlags_rel (h : Hart) (f : BitVec 5) : (h.orFlags f).rel = h.rel := rfl
@[simp] theorem orFlags_scReads (h : Hart) (f : BitVec 5) : (h.orFlags f).scReads = h.scReads := rfl
@[simp] theorem orFlags_icache (h : Hart) (f : BitVec 5) : (h.orFlags f).icache = h.icache := rfl
@[simp] theorem orFlags_role (h : Hart) (f : BitVec 5) : (h.orFlags f).role = h.role := rfl
@[simp] theorem orFlags_wait (h : Hart) (f : BitVec 5) : (h.orFlags f).wait = h.wait := rfl
@[simp] theorem orFlags_arrivals (h : Hart) (f : BitVec 5) : (h.orFlags f).arrivals = h.arrivals := rfl
@[simp] theorem orFlags_pauseEnd (h : Hart) (f : BitVec 5) : (h.orFlags f).pauseEnd = h.pauseEnd := rfl
@[simp] theorem orFlags_estat (h : Hart) (f : BitVec 5) : (h.orFlags f).estat = h.estat := rfl
@[simp] theorem orFlags_streams (h : Hart) (f : BitVec 5) : (h.orFlags f).streams = h.streams := rfl
@[simp] theorem orFlags_fork (h : Hart) (f : BitVec 5) : (h.orFlags f).fork = h.fork := rfl
@[simp] theorem orFlags_dbg (h : Hart) (f : BitVec 5) : (h.orFlags f).dbg = h.dbg := rfl
@[simp] theorem orFlags_lastIssue (h : Hart) (f : BitVec 5) : (h.orFlags f).lastIssue = h.lastIssue := rfl
@[simp] theorem orFlags_taken (h : Hart) (f : BitVec 5) : (h.orFlags f).taken = h.taken := rfl
@[simp] theorem orFlags_idle (h : Hart) (f : BitVec 5) : (h.orFlags f).idle = h.idle := rfl
@[simp] theorem orFlags_heldSeq (h : Hart) (f : BitVec 5) : (h.orFlags f).heldSeq = h.heldSeq := rfl
@[simp] theorem orFlags_heldFor (h : Hart) (f : BitVec 5) : (h.orFlags f).heldFor = h.heldFor := rfl
@[simp] theorem orFlags_wquota (h : Hart) (f : BitVec 5) : (h.orFlags f).wquota = h.wquota := rfl
@[simp] theorem orFlags_heldBad (h : Hart) (f : BitVec 5) : (h.orFlags f).heldBad = h.heldBad := rfl
@[simp] theorem orFlags_winAnswer (h : Hart) (f : BitVec 5) : (h.orFlags f).winAnswer = h.winAnswer := rfl
@[simp] theorem orFlags_fenceSeq (h : Hart) (f : BitVec 5) : (h.orFlags f).fenceSeq = h.fenceSeq := rfl
@[simp] theorem orFlags_fetchOwn (h : Hart) (f : BitVec 5) : (h.orFlags f).fetchOwn = h.fetchOwn := rfl
@[simp] theorem orFlags_noSpace (h : Hart) (f : BitVec 5) : (h.orFlags f).noSpace = h.noSpace := rfl
@[simp] theorem orFlags_queued (h : Hart) (f : BitVec 5) : (h.orFlags f).queued = h.queued := rfl
@[simp] theorem orFlags_pauseLen (h : Hart) (f : BitVec 5) : (h.orFlags f).pauseLen = h.pauseLen := rfl
@[simp] theorem orFlags_pauseS (h : Hart) (f : BitVec 5) : (h.orFlags f).pauseS = h.pauseS := rfl
@[simp] theorem orFlags_pauseM (h : Hart) (f : BitVec 5) : (h.orFlags f).pauseM = h.pauseM := rfl
@[simp] theorem orFlags_pauseU (h : Hart) (f : BitVec 5) : (h.orFlags f).pauseU = h.pauseU := rfl

end Hart

end Sys2Proof.Machine
end

