-- ==== Sys2Proof/Laws/Ops.lean ====
section
/-! SUPPORT. What each shared operation can do, said once: the guard, lanes and masks written, exceptions taken, and the frame
of an instruction that touches only its own hart's registers. -/

namespace Sys2Proof.Machine

/-! ### The guard -/

theorem guarded_pos {i : Instr} {s : State} (k : Out) (h : guard i s.me = true) : guarded i s k = k := by
  unfold guarded; rw [if_pos h]

theorem guarded_neg {i : Instr} {s : State} (k : Out) (h : guard i s.me = false) : guarded i s k = illegal i s := by
  unfold guarded; simp [h]

theorem hartOp_pos {i : Instr} {o : Args} {f : Hart → Hart} {s : State} (h : guard i s.me = true) :
    hartOp i o f s = .next (s.setMe ((f s.me).advance o.words)) := guarded_pos _ h

/-! ### Active lanes -/

theorem mem_lanesOf {m : W32} {l : Nat} : l ∈ lanesOf m ↔ l < 32 ∧ m.getLsbD l = true := by
  simp [lanesOf]

theorem mem_active {h : Hart} {o : Args} {l : Nat} : l ∈ active h o ↔ l < 32 ∧ (activeMask h o).getLsbD l = true := mem_lanesOf

theorem active_lt {h : Hart} {o : Args} {l : Nat} (hl : l ∈ active h o) : l < 32 := (mem_active.1 hl).1

/-! ### Lanes written -/

theorem writeLanes_nil (h : Hart) (r : Nat) (f : Nat → W32) : writeLanes h r [] f = h := rfl

theorem writeLanes_cons (h : Hart) (r l : Nat) (ls : List Nat) (f : Nat → W32) :
    writeLanes h r (l :: ls) f = writeLanes (h.setV r l (f l)) r ls f := rfl

/-- Writing lanes changes lane registers and nothing else of the hart. -/
theorem writeLanes_eq (h : Hart) (r : Nat) (ls : List Nat) (f : Nat → W32) :
    writeLanes h r ls f = { h with v := (writeLanes h r ls f).v } := by
  induction ls generalizing h with
  | nil => rfl
  | cons l ls ih => rw [writeLanes_cons, ih]; rfl

@[simp] theorem X_writeLanes (h : Hart) (r : Nat) (ls : List Nat) (f : Nat → W32) (n : Nat) :
    (writeLanes h r ls f).X n = h.X n := by rw [writeLanes_eq]; rfl

@[simp] theorem M_writeLanes (h : Hart) (r : Nat) (ls : List Nat) (f : Nat → W32) (n : Nat) :
    (writeLanes h r ls f).M n = h.M n := by rw [writeLanes_eq]; rfl

@[simp] theorem fflags_writeLanes (h : Hart) (r : Nat) (ls : List Nat) (f : Nat → W32) :
    (writeLanes h r ls f).fflags = h.fflags := by rw [writeLanes_eq]

theorem toLanesF_eq (o : Args) (f : Hart → Nat → LaneRes) (h : Hart) :
    toLanesF o f h = (writeLanes h o.d.toNat (active h o) (fun l => (f h l).word)).orFlags
      (flagsOf (active h o) (fun l => (f h l).flags)) := rfl

/-- A cell after lanes are written. -/
theorem V_writeLanes (h : Hart) (r : Nat) (ls : List Nat) (f : Nat → W32) (hls : ∀ l ∈ ls, l < 32) (q m : Nat) (hm : m < 32) :
    (writeLanes h r ls f).V q m = if q = r ∧ m ∈ ls then f m else h.V q m := by
  induction ls generalizing h with
  | nil => simp [writeLanes_nil]
  | cons l ls ih =>
    rw [writeLanes_cons, ih _ (fun k hk => hls k (List.mem_cons_of_mem _ hk)), Hart.V_setV _ _ (hls l List.mem_cons_self) hm]
    by_cases hq : q = r
    · by_cases hml : m = l
      · subst hml; simp [hq]
      · simp [hq, hml]
    · simp [hq]

theorem writeLanes64_cons (h : Hart) (r l : Nat) (ls : List Nat) (f : Nat → W64) :
    writeLanes64 h r (l :: ls) f = writeLanes64 (h.setV64 r l (f l)) r ls f := rfl

/-- Writing lanes of a pair changes lane registers and nothing else of the hart. -/
theorem writeLanes64_eq (h : Hart) (r : Nat) (ls : List Nat) (f : Nat → W64) :
    writeLanes64 h r ls f = { h with v := (writeLanes64 h r ls f).v } := by
  induction ls generalizing h with
  | nil => rfl
  | cons l ls ih => rw [writeLanes64_cons, ih]; rfl

/-- A cell after lanes of a pair are written. -/
theorem V_writeLanes64 (h : Hart) (r : Nat) (ls : List Nat) (f : Nat → W64) (hls : ∀ l ∈ ls, l < 32) (q m : Nat) (hm : m < 32) :
    (writeLanes64 h r ls f).V q m =
      if q = r ∧ m ∈ ls then (f m).extractLsb' 0 32 else if q = r + 1 ∧ m ∈ ls then (f m).extractLsb' 32 32 else h.V q m := by
  induction ls generalizing h with
  | nil => simp [writeLanes64]
  | cons l ls ih =>
    have hl := hls l List.mem_cons_self
    rw [writeLanes64_cons, ih _ (fun k hk => hls k (List.mem_cons_of_mem _ hk))]
    unfold Hart.setV64
    rw [Hart.V_setV _ _ hl hm, Hart.V_setV _ _ hl hm]
    by_cases hml : m = l
    · subst hml
      by_cases h1 : q = r
      · subst h1; simp
      · by_cases h2 : q = r + 1
        · subst h2; simp
        · simp [h1, h2]
    · simp [hml]

/-! ### Masks built from lanes -/

theorem getLsbD_maskStep (acc : W32) (l m : Nat) (hl : l < 32) :
    (acc ||| (1#32 <<< l)).getLsbD m = (acc.getLsbD m || decide (m = l)) := by
  rw [BitVec.getLsbD_or, BitVec.getLsbD_shiftLeft]
  by_cases h : m = l
  · subst h; simp [hl]
  · by_cases h2 : m < l
    · simp [h, h2]
    · have : m - l ≠ 0 := by omega
      simp [h, h2, BitVec.getLsbD_one, this]

theorem getLsbD_maskFold (ls : List Nat) (p : Nat → Bool) (hls : ∀ l ∈ ls, l < 32) (acc : W32) (m : Nat) :
    (ls.foldl (fun acc l => if p l then acc ||| (1#32 <<< l) else acc) acc).getLsbD m
      = (acc.getLsbD m || (decide (m ∈ ls) && p m)) := by
  induction ls generalizing acc with
  | nil => simp
  | cons l ls ih =>
    have hl := hls l List.mem_cons_self
    rw [List.foldl_cons, ih (fun k hk => hls k (List.mem_cons_of_mem _ hk))]
    by_cases hp : p l
    · rw [if_pos hp, getLsbD_maskStep _ _ _ hl]
      by_cases h : m = l
      · subst h; simp [hp]
      · simp [h]
    · rw [if_neg hp]
      by_cases h : m = l
      · subst h; simp [hp]
      · simp [h]

/-- A bit of a mask of the lanes that satisfy a test. -/
theorem getLsbD_maskOf (ls : List Nat) (p : Nat → Bool) (hls : ∀ l ∈ ls, l < 32) (m : Nat) :
    (maskOf ls p).getLsbD m = (decide (m ∈ ls) && p m) := by
  unfold maskOf
  rw [getLsbD_maskFold ls p hls]
  simp

/-! ### What a hart reads after another hart, or the hart itself, has changed -/

/-- Bytes read the same after a hart has changed in anything but what it has outstanding. -/
theorem readByte_setHart {s : State} {h : Nat} {x : Hart} (hx : x.ops = (s.hart h).ops) (k tag : Nat) (loc : Loc) :
    (s.setHart h x).readByte k tag loc = s.readByte k tag loc := by
  have e : (s.setHart h x).ownPending k loc = s.ownPending k loc := by
    unfold State.ownPending
    rw [State.hart_setHart]
    split
    · rename_i hk; rw [hx, hk]
    · rfl
  unfold State.readByte
  rw [e]
  rfl

/-- A hart that changes in its registers alone. -/
structure SameButRegisters (x y : Hart) : Prop where
  rest : y = { x with x := y.x, v := y.v, m := y.m, fflags := y.fflags }

/-- The frame of an instruction whose effect on its hart is `f`, a change of registers. -/
theorem registerFrame_of {s : State} {y : Hart} {n : Nat} (h : SameButRegisters s.me y) :
    RegisterFrame n s (s.setMe (y.advance n)) := by
  have hr := h.rest
  have hops : (y.advance n).ops = s.me.ops := by rw [hr]; rfl
  refine ⟨⟨rfl, fun k hk => State.hart_setMe_other s _ hk⟩, fun k tag loc => readByte_setHart hops k tag loc, ?_, ?_⟩
  · unfold FallsThrough
    rw [State.me_setMe]
    refine ⟨?_, ?_, rfl, rfl⟩
    · show y.pc + _ = _
      rw [hr]
    · show y.instret + 1 = _
      rw [hr]
  · unfold KeepsRest
    rw [State.me_setMe]
    conv_lhs => rw [show y.advance n = { y with pc := y.nextPc n, instret := y.instret + 1, wait := {}, passed := false } from rfl]
    rw [hr]
    rfl

theorem sameButRegisters_refl (x : Hart) : SameButRegisters x x := ⟨rfl⟩

theorem sameButRegisters_setX (x : Hart) (n : Nat) (w : W64) : SameButRegisters x (x.setX n w) := by
  constructor; unfold Hart.setX; split <;> rfl

theorem sameButRegisters_setM (x : Hart) (n : Nat) (w : W32) : SameButRegisters x (x.setM n w) := by
  constructor; unfold Hart.setM; split <;> rfl

theorem sameButRegisters_writeLanes (x : Hart) (r : Nat) (ls : List Nat) (f : Nat → W32) :
    SameButRegisters x (writeLanes x r ls f) := by
  constructor; rw [writeLanes_eq]

theorem sameButRegisters_writeLanes64 (x : Hart) (r : Nat) (ls : List Nat) (f : Nat → W64) :
    SameButRegisters x (writeLanes64 x r ls f) := by
  constructor; rw [writeLanes64_eq]

theorem sameButRegisters_orFlags {x y : Hart} (h : SameButRegisters x y) (g : BitVec 5) : SameButRegisters x (y.orFlags g) := by
  constructor
  have := h.rest
  show ({ y with fflags := y.fflags ||| g } : Hart) = _
  conv_lhs => rw [this]
  rfl

/-! ### Instructions of one shape -/

/-- A lane of a register that an instruction writes, and every other cell. -/
theorem keepsV_toLanes (o : Args) (f : Hart → Nat → W32) (h : Hart) (r l : Nat) (hl : l < 32) :
    (toLanes o f h).V r l = if r = o.d.toNat ∧ l ∈ active h o then f h l else h.V r l :=
  V_writeLanes h _ _ _ (fun _ => active_lt) r l hl

/-- An instruction whose meaning writes its active lanes. -/
theorem laneOp_of {c : Args → Instr} {f : Args → Hart → Nat → W32} {P : Args → Hart → Nat → W32 → Prop}
    (he : ∀ o s, guard (c o) s.me = true → exec (c o) s = hartOp (c o) o (toLanes o (f o)) s)
    (hp : ∀ o h l, guard (c o) h = true → l ∈ active h o → P o h l (f o h l)) : LaneOp c P := by
  intro o s hg
  refine ⟨_, (he o s hg).trans (hartOp_pos hg), ⟨registerFrame_of (sameButRegisters_writeLanes _ _ _ _), ?_, ?_, ?_, ?_⟩, ?_⟩
  · intro n _
    rw [State.me_setMe, Hart.X_advance]
    unfold toLanes; rw [writeLanes_eq]; rfl
  · intro n _
    rw [State.me_setMe, Hart.M_advance]
    unfold toLanes; rw [writeLanes_eq]; rfl
  · intro r l hl hn
    rw [State.me_setMe, Hart.V_advance, keepsV_toLanes _ _ _ _ _ hl, if_neg hn]
  · simp only [Bool.false_eq_true, if_false, State.me_setMe, Hart.advance_fflags]
    unfold toLanes; rw [writeLanes_eq]
  · intro l hl
    rw [State.me_setMe, Hart.V_advance, keepsV_toLanes _ _ _ _ _ (active_lt hl), if_pos ⟨rfl, hl⟩]
    exact hp o _ l hg hl

/-- FP flags are sticky. -/
theorem and_or_self_flags (a b : BitVec 5) : a &&& (a ||| b) = a := by
  ext i hi; simp; intro h; simp [h]

/-- The frame of an instruction that writes its active lanes and raises flags. -/
theorem laneFrame_toLanesF {o : Args} {f : Hart → Nat → LaneRes} {s : State} :
    LaneFrame true o s (s.setMe ((toLanesF o f s.me).advance o.words)) := by
  refine ⟨registerFrame_of (sameButRegisters_orFlags (sameButRegisters_writeLanes _ _ _ _) _), ?_, ?_, ?_, ?_⟩
  · intro n _
    rw [State.me_setMe, Hart.X_advance]
    rw [toLanesF_eq]; simp
  · intro n _
    rw [State.me_setMe, Hart.M_advance]
    rw [toLanesF_eq]; simp
  · intro r l hl hn
    rw [State.me_setMe, Hart.V_advance]
    unfold toLanesF
    rw [Hart.V_orFlags, V_writeLanes _ _ _ _ (fun _ => active_lt) _ _ hl, if_neg hn]
  · simp only [if_true, State.me_setMe, Hart.advance_fflags]
    rw [toLanesF_eq, Hart.orFlags_fflags, fflags_writeLanes]
    exact and_or_self_flags _ _

/-- What a float instruction puts into an active lane. -/
theorem V_toLanesF {o : Args} {f : Hart → Nat → LaneRes} {h : Hart} {l : Nat} (hl : l ∈ active h o) :
    (toLanesF o f h).V o.d.toNat l = (f h l).word := by
  unfold toLanesF
  rw [Hart.V_orFlags, V_writeLanes _ _ _ _ (fun _ => active_lt) _ _ (active_lt hl), if_pos ⟨rfl, hl⟩]

/-- The flags after a float instruction. -/
theorem fflags_toLanesF {o : Args} {f : Hart → Nat → LaneRes} {h : Hart} :
    (toLanesF o f h).fflags = h.fflags ||| flagsOf (active h o) (fun l => (f h l).flags) := by
  rw [toLanesF_eq, Hart.orFlags_fflags, fflags_writeLanes]

/-- An instruction whose meaning writes one scalar register. -/
theorem scalarOp_of {c : Args → Instr} {f : Args → Hart → W64} {g : Args → Hart → BitVec 5} {P : Args → Hart → W64 → Prop}
    (he : ∀ o s, guard (c o) s.me = true →
      exec (c o) s = hartOp (c o) o (fun h => (h.setX o.d.toNat (f o h)).orFlags (g o h)) s)
    (hp : ∀ o h, guard (c o) h = true → P o h (f o h)) : ScalarOp true c P := by
  intro o s hg
  refine ⟨_, (he o s hg).trans (hartOp_pos hg),
    ⟨registerFrame_of (sameButRegisters_orFlags (sameButRegisters_setX _ _ _) _), ?_, ?_, ?_, ?_⟩, ?_, ?_⟩
  · intro n hn
    rw [State.me_setMe, Hart.X_advance, Hart.X_orFlags, Hart.X_setX, if_neg (by simp at hn; tauto)]
  · intro n _
    simp
  · intro r l _ _
    simp
  · simp only [if_true, State.me_setMe, Hart.advance_fflags, Hart.orFlags_fflags, Hart.setX_fflags]
    exact and_or_self_flags _ _
  · intro _; simp
  · intro hd
    have hd' : o.d.toNat ≠ 0 := by
      intro h0; exact hd (BitVec.eq_of_toNat_eq (by simpa using h0))
    rw [State.me_setMe, Hart.X_advance, Hart.X_orFlags, Hart.X_setX, if_pos ⟨rfl, hd'⟩]
    exact hp o _ hg

/-- The same for an instruction that raises no flag. -/
theorem scalarOp_of' {c : Args → Instr} {f : Args → Hart → W64} {P : Args → Hart → W64 → Prop}
    (he : ∀ o s, guard (c o) s.me = true → exec (c o) s = hartOp (c o) o (fun h => h.setX o.d.toNat (f o h)) s)
    (hp : ∀ o h, guard (c o) h = true → P o h (f o h)) : ScalarOp false c P := by
  intro o s hg
  refine ⟨_, (he o s hg).trans (hartOp_pos hg), ⟨registerFrame_of (sameButRegisters_setX _ _ _), ?_, ?_, ?_, ?_⟩, ?_, ?_⟩
  · intro n hn
    rw [State.me_setMe, Hart.X_advance, Hart.X_setX, if_neg (by simp at hn; tauto)]
  · intro n _
    simp
  · intro r l _ _
    simp
  · simp
  · intro _; simp
  · intro hd
    have hd' : o.d.toNat ≠ 0 := by
      intro h0; exact hd (BitVec.eq_of_toNat_eq (by simpa using h0))
    rw [State.me_setMe, Hart.X_advance, Hart.X_setX, if_pos ⟨rfl, hd'⟩]
    exact hp o _ hg

/-! ### Packed elements (R57) -/

theorem packFrom_lt (w : Nat) (f : Nat → Nat) (n k : Nat) : packFrom w f n k < 2 ^ (w * (k + n)) := by
  induction n generalizing k with
  | zero => exact Nat.two_pow_pos _
  | succ n ih =>
    have h1 : f k % 2 ^ w < 2 ^ w := Nat.mod_lt _ (Nat.two_pow_pos _)
    have h2 := ih (k + 1)
    -- every summand is a multiple of 2^(w*(k+1)) except the first
    have h3 : 2 ^ (w * (k + 1)) ∣ packFrom w f n (k + 1) := by
      clear h2 ih
      induction n generalizing k with
      | zero => exact ⟨0, rfl⟩
      | succ n ihn =>
        refine Nat.dvd_add ⟨f (k + 1) % 2 ^ w, by rw [Nat.mul_comm]⟩ (dvd_trans ?_ (ihn (k + 1) (Nat.mod_lt _ (Nat.two_pow_pos _))))
        exact pow_dvd_pow 2 (Nat.mul_le_mul_left w (by omega))
    obtain ⟨c, hc⟩ := h3
    rw [packFrom, hc]
    rw [hc] at h2
    have e1 : 2 ^ (w * (k + 1 + n)) = 2 ^ (w * (k + 1)) * 2 ^ (w * n) := by rw [← pow_add]; ring_nf
    have e2 : 2 ^ (w * (k + 1)) = 2 ^ w * 2 ^ (w * k) := by rw [← pow_add]; ring_nf
    rw [e1] at h2
    have hc2 : c < 2 ^ (w * n) := Nat.lt_of_mul_lt_mul_left h2
    have e3 : 2 ^ (w * (k + (n + 1))) = 2 ^ (w * (k + 1)) * 2 ^ (w * n) := by rw [← pow_add]; ring_nf
    rw [e3]
    have h4 : f k % 2 ^ w * 2 ^ (w * k) < 2 ^ (w * (k + 1)) := by
      rw [e2]; exact Nat.mul_lt_mul_of_pos_right h1 (Nat.two_pow_pos _)
    calc f k % 2 ^ w * 2 ^ (w * k) + 2 ^ (w * (k + 1)) * c
        < 2 ^ (w * (k + 1)) + 2 ^ (w * (k + 1)) * c := by omega
      _ = 2 ^ (w * (k + 1)) * (c + 1) := by ring
      _ ≤ 2 ^ (w * (k + 1)) * 2 ^ (w * n) := Nat.mul_le_mul_left _ hc2

theorem packFrom_dvd (w : Nat) (f : Nat → Nat) (n k : Nat) : 2 ^ (w * k) ∣ packFrom w f n k := by
  induction n generalizing k with
  | zero => exact ⟨0, rfl⟩
  | succ n ih =>
    exact Nat.dvd_add ⟨f k % 2 ^ w, by rw [Nat.mul_comm]⟩
      (dvd_trans (pow_dvd_pow 2 (Nat.mul_le_mul_left w (by omega))) (ih (k + 1)))

theorem packFrom_elem (w : Nat) (f : Nat → Nat) (n k j : Nat) (h : j < n) :
    packFrom w f n k / 2 ^ (w * (k + j)) % 2 ^ w = f (k + j) % 2 ^ w := by
  induction n generalizing k j with
  | zero => omega
  | succ n ih =>
    have e2 : 2 ^ (w * (k + 1)) = 2 ^ (w * k) * 2 ^ w := by rw [← pow_add]; ring_nf
    obtain ⟨c, hc⟩ := packFrom_dvd w f n (k + 1)
    cases j with
    | zero =>
      rw [packFrom, show k + 0 = k from rfl, hc, e2, Nat.mul_assoc, Nat.mul_comm (f k % 2 ^ w), ← Nat.mul_add,
        Nat.mul_div_cancel_left _ (Nat.two_pow_pos _), Nat.add_mul_mod_self_left, Nat.mod_mod]
    | succ j =>
      have h4 : f k % 2 ^ w * 2 ^ (w * k) < 2 ^ (w * (k + 1)) := by
        rw [e2, Nat.mul_comm]; exact Nat.mul_lt_mul_of_pos_left (Nat.mod_lt _ (Nat.two_pow_pos _)) (Nat.two_pow_pos _)
      have e4 : 2 ^ (w * (k + (j + 1))) = 2 ^ (w * (k + 1)) * 2 ^ (w * j) := by rw [← pow_add]; ring_nf
      have := ih (k + 1) j (by omega)
      rw [show k + 1 + j = k + (j + 1) by omega, e4, ← Nat.div_div_eq_div_mul] at this
      rw [packFrom, e4, ← Nat.div_div_eq_div_mul, ← this, hc, Nat.add_comm, Nat.mul_add_div (Nat.two_pow_pos _),
        Nat.div_eq_of_lt h4, Nat.add_zero, Nat.mul_div_cancel_left _ (Nat.two_pow_pos _)]

/-- Element k of a lane made of elements, for a width that divides the lane. -/
theorem elem_pack {w : Nat} (hw : w * (32 / w) = 32) (f : Nat → Nat) {k : Nat} (h : k < 32 / w) :
    elem w k (pack w f) = f k % 2 ^ w := by
  unfold elem pack
  have hl : packFrom w f (32 / w) 0 < 2 ^ 32 := by
    have := packFrom_lt w f (32 / w) 0
    rwa [Nat.zero_add, hw] at this
  rw [BitVec.toNat_ofNat, Nat.mod_eq_of_lt hl, Nat.shiftRight_eq_div_pow]
  simpa using packFrom_elem w f (32 / w) 0 k h

/-! ### What comes before a job -/

/-- A job that need perform nothing first, that meets no tile of a matrix command in progress and no logged access to host memory, goes
on from the state as it is. -/
theorem clearWay_of_not_mustDrain {s : State} {h n : Nat} {job : MemJob} {ls : List Loc} (hd : (s.hart h).mustDrain job ls = false)
    (hp : ls.any s.tilePartial = false) (hh : ls.any (fun l => l.place == .host) = true → s.hostLogged h n = false) :
    s.clearWay h n job ls = (true, s) := by
  unfold State.clearWay
  rw [hp, hd]
  cases hb : ls.any (fun l => l.place == .host) <;> simp_all

/-- A job whose way is clear goes on from the state that the hart's earlier operations leave, or from the state as it is. -/
theorem clearWay_true {s : State} {h n : Nat} {job : MemJob} {ls : List Loc} (ht : (s.clearWay h n job ls).1 = true) :
    (s.clearWay h n job ls).2 = s ∨ (s.clearWay h n job ls).2 = s.drainOwn h
      ∧ ((s.drainOwn h).hart h).ops.any PendOp.waits = false := by
  unfold State.clearWay at ht ⊢
  split at ht
  · cases ht
  · rename_i hc
    rw [if_neg hc]
    by_cases hd : (s.hart h).mustDrain job ls = true
    · simp only [hd, Bool.not_true, Bool.false_eq_true, if_false] at ht ⊢
      by_cases hw : ((s.drainOwn h).hart h).ops.any PendOp.waits = true
      · simp [hw] at ht
      · rw [if_neg hw] at ht ⊢
        split_ifs at ht ⊢ <;> exact .inr ⟨rfl, by simpa using hw⟩
    · exact .inl (by simp [hd])

end Sys2Proof.Machine
end

