-- ==== Sys2Proof/Laws/PerInstr.lean ====
section
/-! SUPPORT. How many words an instruction has (R75), constructor by constructor. -/

namespace Sys2Proof.Laws.Word
open Sys2Proof

/-- R75: no instruction has more than five words, and a well-formed one has at least one. -/
def Statement (i : Instr) : Prop := i.size ≤ 5 ∧ (i.wf = true → i.size ≠ 0)

/-- An Osier instruction has the one, three or five words of its form. -/
theorem of_osier {i : Instr} {r : Row} {o : Args} (h : i.osier = some (r, o)) : Statement i := by
  unfold Statement Instr.size encode
  rw [h]
  cases hf : o.form <;> simp [osierWords, hf]

/-- An instruction of one word. -/
theorem of_one {i : Instr} {w : W32} (h : encode i = [w]) : Statement i := by simp [Statement, Instr.size, h]

/-- A step of the device has no word, and is not a well-formed instruction. -/
theorem of_event {i : Instr} (h : encode i = []) (hw : i.wf = false) : Statement i := by simp [Statement, Instr.size, h, hw]

theorem of_access (op : MemOp) (r rs1 : BitVec 5) (imm : BitVec 12) : Statement (.standardAccess op r rs1 imm) := by
  cases op <;> exact of_one rfl

theorem fence : ∀ x0, Statement (.fence x0) := fun _ => of_one rfl
theorem fenceI : ∀ x0, Statement (.fenceI x0) := fun _ => of_one rfl
theorem lr : ∀ x0, Statement (.lr x0) := fun _ => of_one rfl
theorem sc : ∀ x0, Statement (.sc x0) := fun _ => of_one rfl
theorem amo : ∀ x0 x1, Statement (.amo x0 x1) := fun _ _ => of_one rfl
theorem standardAccess : ∀ x0 x1 x2 x3, Statement (.standardAccess x0 x1 x2 x3) := by intro x0 x1 x2 x3; exact of_access x0 x1 x2 x3
theorem csrWrite : ∀ x0, Statement (.csrWrite x0) := fun _ => of_one rfl
theorem lfcsrAccess : ∀ x0, Statement (.lfcsrAccess x0) := fun _ => of_one rfl
theorem dflagsDrain : ∀ x0, Statement (.dflagsDrain x0) := fun _ => of_one rfl
theorem msdepthWrite : ∀ x0, Statement (.msdepthWrite x0) := fun _ => of_one rfl
theorem regwinWrite : ∀ x0, Statement (.regwinWrite x0) := fun _ => of_one rfl
theorem clh : ∀ x0 x1 x2, Statement (.clh x0 x1 x2) := fun _ _ _ => of_one rfl
theorem vadd : ∀ x0, Statement (.vadd x0) := fun _ => of_osier rfl
theorem vsub : ∀ x0, Statement (.vsub x0) := fun _ => of_osier rfl
theorem vmul : ∀ x0, Statement (.vmul x0) := fun _ => of_osier rfl
theorem vmulh : ∀ x0, Statement (.vmulh x0) := fun _ => of_osier rfl
theorem vmulhsu : ∀ x0, Statement (.vmulhsu x0) := fun _ => of_osier rfl
theorem vdiv : ∀ x0, Statement (.vdiv x0) := fun _ => of_osier rfl
theorem vrem : ∀ x0, Statement (.vrem x0) := fun _ => of_osier rfl
theorem vmin : ∀ x0, Statement (.vmin x0) := fun _ => of_osier rfl
theorem vmax : ∀ x0, Statement (.vmax x0) := fun _ => of_osier rfl
theorem vand : ∀ x0, Statement (.vand x0) := fun _ => of_osier rfl
theorem vandn : ∀ x0, Statement (.vandn x0) := fun _ => of_osier rfl
theorem vor : ∀ x0, Statement (.vor x0) := fun _ => of_osier rfl
theorem vorn : ∀ x0, Statement (.vorn x0) := fun _ => of_osier rfl
theorem vxor : ∀ x0, Statement (.vxor x0) := fun _ => of_osier rfl
theorem vxnor : ∀ x0, Statement (.vxnor x0) := fun _ => of_osier rfl
theorem vsll : ∀ x0, Statement (.vsll x0) := fun _ => of_osier rfl
theorem vsrl : ∀ x0, Statement (.vsrl x0) := fun _ => of_osier rfl
theorem vsra : ∀ x0, Statement (.vsra x0) := fun _ => of_osier rfl
theorem vfadd : ∀ x0, Statement (.vfadd x0) := fun _ => of_osier rfl
theorem vfsub : ∀ x0, Statement (.vfsub x0) := fun _ => of_osier rfl
theorem vfmul : ∀ x0, Statement (.vfmul x0) := fun _ => of_osier rfl
theorem vfma : ∀ x0, Statement (.vfma x0) := fun _ => of_osier rfl
theorem vfma4 : ∀ x0, Statement (.vfma4 x0) := fun _ => of_osier rfl
theorem vfms : ∀ x0, Statement (.vfms x0) := fun _ => of_osier rfl
theorem vfnma : ∀ x0, Statement (.vfnma x0) := fun _ => of_osier rfl
theorem vfdiv : ∀ x0, Statement (.vfdiv x0) := fun _ => of_osier rfl
theorem vfsqrt : ∀ x0, Statement (.vfsqrt x0) := fun _ => of_osier rfl
theorem vfrcp : ∀ x0, Statement (.vfrcp x0) := fun _ => of_osier rfl
theorem vfrsqrt : ∀ x0, Statement (.vfrsqrt x0) := fun _ => of_osier rfl
theorem vfexp2 : ∀ x0, Statement (.vfexp2 x0) := fun _ => of_osier rfl
theorem vflog2 : ∀ x0, Statement (.vflog2 x0) := fun _ => of_osier rfl
theorem vfabs : ∀ x0, Statement (.vfabs x0) := fun _ => of_osier rfl
theorem vfneg : ∀ x0, Statement (.vfneg x0) := fun _ => of_osier rfl
theorem vfclass : ∀ x0, Statement (.vfclass x0) := fun _ => of_osier rfl
theorem vfrint : ∀ x0, Statement (.vfrint x0) := fun _ => of_osier rfl
theorem vceq : ∀ x0, Statement (.vceq x0) := fun _ => of_osier rfl
theorem vcne : ∀ x0, Statement (.vcne x0) := fun _ => of_osier rfl
theorem vclt : ∀ x0, Statement (.vclt x0) := fun _ => of_osier rfl
theorem vcle : ∀ x0, Statement (.vcle x0) := fun _ => of_osier rfl
theorem vcgt : ∀ x0, Statement (.vcgt x0) := fun _ => of_osier rfl
theorem vcge : ∀ x0, Statement (.vcge x0) := fun _ => of_osier rfl
theorem vcun : ∀ x0, Statement (.vcun x0) := fun _ => of_osier rfl
theorem vcor : ∀ x0, Statement (.vcor x0) := fun _ => of_osier rfl
theorem vsel : ∀ x0, Statement (.vsel x0) := fun _ => of_osier rfl
theorem vcvt : ∀ x0, Statement (.vcvt x0) := fun _ => of_osier rfl
theorem vsclenc : ∀ x0, Statement (.vsclenc x0) := fun _ => of_osier rfl
theorem vscldec : ∀ x0, Statement (.vscldec x0) := fun _ => of_osier rfl
theorem vunpk : ∀ x0, Statement (.vunpk x0) := fun _ => of_osier rfl
theorem vshfl : ∀ x0, Statement (.vshfl x0) := fun _ => of_osier rfl
theorem vrotl : ∀ x0, Statement (.vrotl x0) := fun _ => of_osier rfl
theorem vslup : ∀ x0, Statement (.vslup x0) := fun _ => of_osier rfl
theorem vsldn : ∀ x0, Statement (.vsldn x0) := fun _ => of_osier rfl
theorem vbfly : ∀ x0, Statement (.vbfly x0) := fun _ => of_osier rfl
theorem vballot : ∀ x0, Statement (.vballot x0) := fun _ => of_osier rfl
theorem vany : ∀ x0, Statement (.vany x0) := fun _ => of_osier rfl
theorem vall : ∀ x0, Statement (.vall x0) := fun _ => of_osier rfl
theorem vcnt : ∀ x0, Statement (.vcnt x0) := fun _ => of_osier rfl
theorem vmatch : ∀ x0, Statement (.vmatch x0) := fun _ => of_osier rfl
theorem vredadd : ∀ x0, Statement (.vredadd x0) := fun _ => of_osier rfl
theorem vredmin : ∀ x0, Statement (.vredmin x0) := fun _ => of_osier rfl
theorem vredmax : ∀ x0, Statement (.vredmax x0) := fun _ => of_osier rfl
theorem vredand : ∀ x0, Statement (.vredand x0) := fun _ => of_osier rfl
theorem vredor : ∀ x0, Statement (.vredor x0) := fun _ => of_osier rfl
theorem vredxor : ∀ x0, Statement (.vredxor x0) := fun _ => of_osier rfl
theorem vpfxadd : ∀ x0, Statement (.vpfxadd x0) := fun _ => of_osier rfl
theorem vpfxop : ∀ x0, Statement (.vpfxop x0) := fun _ => of_osier rfl
theorem vepfxop : ∀ x0, Statement (.vepfxop x0) := fun _ => of_osier rfl
theorem vmov : ∀ x0, Statement (.vmov x0) := fun _ => of_osier rfl
theorem vbcst : ∀ x0, Statement (.vbcst x0) := fun _ => of_osier rfl
theorem vbcst64 : ∀ x0, Statement (.vbcst64 x0) := fun _ => of_osier rfl
theorem vext : ∀ x0, Statement (.vext x0) := fun _ => of_osier rfl
theorem vextx : ∀ x0, Statement (.vextx x0) := fun _ => of_osier rfl
theorem vext64 : ∀ x0, Statement (.vext64 x0) := fun _ => of_osier rfl
theorem vins : ∀ x0, Statement (.vins x0) := fun _ => of_osier rfl
theorem vlid : ∀ x0, Statement (.vlid x0) := fun _ => of_osier rfl
theorem vpopc : ∀ x0, Statement (.vpopc x0) := fun _ => of_osier rfl
theorem vclz : ∀ x0, Statement (.vclz x0) := fun _ => of_osier rfl
theorem vctz : ∀ x0, Statement (.vctz x0) := fun _ => of_osier rfl
theorem vbrev : ∀ x0, Statement (.vbrev x0) := fun _ => of_osier rfl
theorem vrev8 : ∀ x0, Statement (.vrev8 x0) := fun _ => of_osier rfl
theorem vnot : ∀ x0, Statement (.vnot x0) := fun _ => of_osier rfl
theorem vabs : ∀ x0, Statement (.vabs x0) := fun _ => of_osier rfl
theorem vmbit : ∀ x0, Statement (.vmbit x0) := fun _ => of_osier rfl
theorem mand : ∀ x0, Statement (.mand x0) := fun _ => of_osier rfl
theorem mor : ∀ x0, Statement (.mor x0) := fun _ => of_osier rfl
theorem mxor : ∀ x0, Statement (.mxor x0) := fun _ => of_osier rfl
theorem mandn : ∀ x0, Statement (.mandn x0) := fun _ => of_osier rfl
theorem morn : ∀ x0, Statement (.morn x0) := fun _ => of_osier rfl
theorem mxnor : ∀ x0, Statement (.mxnor x0) := fun _ => of_osier rfl
theorem mmov : ∀ x0, Statement (.mmov x0) := fun _ => of_osier rfl
theorem mset : ∀ x0, Statement (.mset x0) := fun _ => of_osier rfl
theorem mfx : ∀ x0, Statement (.mfx x0) := fun _ => of_osier rfl
theorem mtx : ∀ x0, Statement (.mtx x0) := fun _ => of_osier rfl
theorem mpopc : ∀ x0, Statement (.mpopc x0) := fun _ => of_osier rfl
theorem mffs : ∀ x0, Statement (.mffs x0) := fun _ => of_osier rfl
theorem lif : ∀ x0, Statement (.lif x0) := fun _ => of_osier rfl
theorem lifn : ∀ x0, Statement (.lifn x0) := fun _ => of_osier rfl
theorem lelse : ∀ x0, Statement (.lelse x0) := fun _ => of_osier rfl
theorem ljoin : ∀ x0, Statement (.ljoin x0) := fun _ => of_osier rfl
theorem lloop : ∀ x0, Statement (.lloop x0) := fun _ => of_osier rfl
theorem lbrk : ∀ x0, Statement (.lbrk x0) := fun _ => of_osier rfl
theorem lcont : ∀ x0, Statement (.lcont x0) := fun _ => of_osier rfl
theorem msPush : ∀ x0, Statement (.msPush x0) := fun _ => of_osier rfl
theorem msPop : ∀ x0, Statement (.msPop x0) := fun _ => of_osier rfl
theorem msDepth : ∀ x0, Statement (.msDepth x0) := fun _ => of_osier rfl
theorem msRdm : ∀ x0, Statement (.msRdm x0) := fun _ => of_osier rfl
theorem msRdr : ∀ x0, Statement (.msRdr x0) := fun _ => of_osier rfl
theorem msRdp : ∀ x0, Statement (.msRdp x0) := fun _ => of_osier rfl
theorem msWrm : ∀ x0, Statement (.msWrm x0) := fun _ => of_osier rfl
theorem msWrr : ∀ x0, Statement (.msWrr x0) := fun _ => of_osier rfl
theorem msWrp : ∀ x0, Statement (.msWrp x0) := fun _ => of_osier rfl
theorem mbz : ∀ x0, Statement (.mbz x0) := fun _ => of_osier rfl
theorem mbnz : ∀ x0, Statement (.mbnz x0) := fun _ => of_osier rfl
theorem mball : ∀ x0, Statement (.mball x0) := fun _ => of_osier rfl
theorem mbnall : ∀ x0, Statement (.mbnall x0) := fun _ => of_osier rfl
theorem pause : ∀ x0, Statement (.pause x0) := fun _ => of_osier rfl
theorem yield : ∀ x0, Statement (.yield x0) := fun _ => of_osier rfl
theorem dfwait : ∀ x0, Statement (.dfwait x0) := fun _ => of_osier rfl
theorem vld : ∀ x0, Statement (.vld x0) := fun _ => of_osier rfl
theorem vldPair : ∀ x0, Statement (.vldPair x0) := fun _ => of_osier rfl
theorem vld64 : ∀ x0, Statement (.vld64 x0) := fun _ => of_osier rfl
theorem vst : ∀ x0, Statement (.vst x0) := fun _ => of_osier rfl
theorem vst64 : ∀ x0, Statement (.vst64 x0) := fun _ => of_osier rfl
theorem vlds : ∀ x0, Statement (.vlds x0) := fun _ => of_osier rfl
theorem vsts : ∀ x0, Statement (.vsts x0) := fun _ => of_osier rfl
theorem uld : ∀ x0, Statement (.uld x0) := fun _ => of_osier rfl
theorem ust : ∀ x0, Statement (.ust x0) := fun _ => of_osier rfl
theorem vldRc : ∀ x0, Statement (.vldRc x0) := fun _ => of_osier rfl
theorem vamo : ∀ x0, Statement (.vamo x0) := fun _ => of_osier rfl
theorem vamoCas : ∀ x0, Statement (.vamoCas x0) := fun _ => of_osier rfl
theorem vamoNr : ∀ x0, Statement (.vamoNr x0) := fun _ => of_osier rfl
theorem uamo : ∀ x0, Statement (.uamo x0) := fun _ => of_osier rfl
theorem fenceAcq : ∀ x0, Statement (.fenceAcq x0) := fun _ => of_osier rfl
theorem fenceRel : ∀ x0, Statement (.fenceRel x0) := fun _ => of_osier rfl
theorem fenceAr : ∀ x0, Statement (.fenceAr x0) := fun _ => of_osier rfl
theorem fenceSc : ∀ x0, Statement (.fenceSc x0) := fun _ => of_osier rfl
theorem cctlPf1 : ∀ x0, Statement (.cctlPf1 x0) := fun _ => of_osier rfl
theorem cctlPf2 : ∀ x0, Statement (.cctlPf2 x0) := fun _ => of_osier rfl
theorem cctlInv : ∀ x0, Statement (.cctlInv x0) := fun _ => of_osier rfl
theorem cctlMaf : ∀ x0, Statement (.cctlMaf x0) := fun _ => of_osier rfl
theorem cctlMafclr : ∀ x0, Statement (.cctlMafclr x0) := fun _ => of_osier rfl
theorem barSync : ∀ x0, Statement (.barSync x0) := fun _ => of_osier rfl
theorem barArrive : ∀ x0, Statement (.barArrive x0) := fun _ => of_osier rfl
theorem barWait : ∀ x0, Statement (.barWait x0) := fun _ => of_osier rfl
theorem barTest : ∀ x0, Statement (.barTest x0) := fun _ => of_osier rfl
theorem barInit : ∀ x0, Statement (.barInit x0) := fun _ => of_osier rfl
theorem barBytes : ∀ x0, Statement (.barBytes x0) := fun _ => of_osier rfl
theorem barDrop : ∀ x0, Statement (.barDrop x0) := fun _ => of_osier rfl
theorem qPush : ∀ x0, Statement (.qPush x0) := fun _ => of_osier rfl
theorem qPop : ∀ x0, Statement (.qPop x0) := fun _ => of_osier rfl
theorem qVpush : ∀ x0, Statement (.qVpush x0) := fun _ => of_osier rfl
theorem qVpop : ∀ x0, Statement (.qVpop x0) := fun _ => of_osier rfl
theorem qCount : ∀ x0, Statement (.qCount x0) := fun _ => of_osier rfl
theorem msgSend : ∀ x0, Statement (.msgSend x0) := fun _ => of_osier rfl
theorem msgSendx : ∀ x0, Statement (.msgSendx x0) := fun _ => of_osier rfl
theorem msgSendw : ∀ x0, Statement (.msgSendw x0) := fun _ => of_osier rfl
theorem msgRecv : ∀ x0, Statement (.msgRecv x0) := fun _ => of_osier rfl
theorem msgTset : ∀ x0, Statement (.msgTset x0) := fun _ => of_osier rfl
theorem msgTget : ∀ x0, Statement (.msgTget x0) := fun _ => of_osier rfl
theorem taskDec : ∀ x0, Statement (.taskDec x0) := fun _ => of_osier rfl
theorem taskTake : ∀ x0, Statement (.taskTake x0) := fun _ => of_osier rfl
theorem strmPut : ∀ x0, Statement (.strmPut x0) := fun _ => of_osier rfl
theorem strmOpen : ∀ x0, Statement (.strmOpen x0) := fun _ => of_osier rfl
theorem strmClose : ∀ x0, Statement (.strmClose x0) := fun _ => of_osier rfl
theorem claim : ∀ x0, Statement (.claim x0) := fun _ => of_osier rfl
theorem give : ∀ x0, Statement (.give x0) := fun _ => of_osier rfl
theorem tryclaim : ∀ x0, Statement (.tryclaim x0) := fun _ => of_osier rfl
theorem role : ∀ x0, Statement (.role x0) := fun _ => of_osier rfl
theorem eCopy : ∀ x0, Statement (.eCopy x0) := fun _ => of_osier rfl
theorem eMcast : ∀ x0, Statement (.eMcast x0) := fun _ => of_osier rfl
theorem eCadd : ∀ x0, Statement (.eCadd x0) := fun _ => of_osier rfl
theorem eGath : ∀ x0, Statement (.eGath x0) := fun _ => of_osier rfl
theorem eScat : ∀ x0, Statement (.eScat x0) := fun _ => of_osier rfl
theorem eMma : ∀ x0, Statement (.eMma x0) := fun _ => of_osier rfl
theorem eCmma : ∀ x0, Statement (.eCmma x0) := fun _ => of_osier rfl
theorem eScale : ∀ x0, Statement (.eScale x0) := fun _ => of_osier rfl
theorem eSleep : ∀ x0, Statement (.eSleep x0) := fun _ => of_osier rfl
theorem ePoll : ∀ x0, Statement (.ePoll x0) := fun _ => of_osier rfl
theorem eStat : ∀ x0, Statement (.eStat x0) := fun _ => of_osier rfl
theorem eStatclr : ∀ x0, Statement (.eStatclr x0) := fun _ => of_osier rfl
theorem accZero : ∀ x0, Statement (.accZero x0) := fun _ => of_osier rfl
theorem accRd : ∀ x0, Statement (.accRd x0) := fun _ => of_osier rfl
theorem accWr : ∀ x0, Statement (.accWr x0) := fun _ => of_osier rfl
theorem wFork : ∀ x0, Statement (.wFork x0) := fun _ => of_osier rfl
theorem wJoin : ∀ x0, Statement (.wJoin x0) := fun _ => of_osier rfl
theorem wChoose : ∀ x0, Statement (.wChoose x0) := fun _ => of_osier rfl
theorem wAbandon : ∀ x0, Statement (.wAbandon x0) := fun _ => of_osier rfl
theorem wQuery : ∀ x0, Statement (.wQuery x0) := fun _ => of_osier rfl
theorem replay : ∀ x0, Statement (.replay x0) := fun _ => of_osier rfl
theorem oplogDrop : ∀ x0, Statement (.oplogDrop x0) := fun _ => of_osier rfl
theorem oplogPc : ∀ x0, Statement (.oplogPc x0) := fun _ => of_osier rfl
theorem bbhint : ∀ x0, Statement (.bbhint x0) := fun _ => of_osier rfl
theorem pcmRet : ∀ x0, Statement (.pcmRet x0) := fun _ => of_osier rfl
theorem pcmHnd : ∀ x0, Statement (.pcmHnd x0) := fun _ => of_osier rfl
theorem gateWr : ∀ x0, Statement (.gateWr x0) := fun _ => of_osier rfl
theorem gateRd : ∀ x0, Statement (.gateRd x0) := fun _ => of_osier rfl
theorem ctxSave : ∀ x0, Statement (.ctxSave x0) := fun _ => of_osier rfl
theorem ctxLoad : ∀ x0, Statement (.ctxLoad x0) := fun _ => of_osier rfl
theorem ctxKill : ∀ x0, Statement (.ctxKill x0) := fun _ => of_osier rfl
theorem ctxBind : ∀ x0, Statement (.ctxBind x0) := fun _ => of_osier rfl
theorem ctxUpd : ∀ x0, Statement (.ctxUpd x0) := fun _ => of_osier rfl
theorem gArm : ∀ x0, Statement (.gArm x0) := fun _ => of_osier rfl
theorem gSweep : ∀ x0, Statement (.gSweep x0) := fun _ => of_osier rfl
theorem gResume : ∀ x0, Statement (.gResume x0) := fun _ => of_osier rfl
theorem standardInstruction : ∀ x0, Statement (.standardInstruction x0) := fun _ => of_one rfl
theorem sretMret : ∀ x0, Statement (.sretMret x0) := by intro x0; cases x0 <;> exact of_one rfl
theorem launch : ∀ x0, Statement (.launch x0) := fun _ => of_event rfl rfl
theorem drain : ∀ x0, Statement (.drain x0) := fun _ => of_event rfl rfl
theorem nop : ∀ x0, Statement (.nop x0) := fun _ => of_event rfl rfl
theorem ctxnew : ∀ x0, Statement (.ctxnew x0) := fun _ => of_event rfl rfl
theorem ctxdel : ∀ x0, Statement (.ctxdel x0) := fun _ => of_event rfl rfl
theorem qbind : ∀ x0, Statement (.qbind x0) := fun _ => of_event rfl rfl
theorem qunbind : ∀ x0, Statement (.qunbind x0) := fun _ => of_event rfl rfl
theorem qmod : ∀ x0, Statement (.qmod x0) := fun _ => of_event rfl rfl
theorem domset : ∀ x0, Statement (.domset x0) := fun _ => of_event rfl rfl
theorem gangbind : ∀ x0, Statement (.gangbind x0) := fun _ => of_event rfl rfl
theorem spdm : ∀ x0, Statement (.spdm x0) := fun _ => of_event rfl rfl
theorem notify : ∀ x0 x1 x2 x3, Statement (.notify x0 x1 x2 x3) := fun _ _ _ _ => of_event rfl rfl
theorem hdmWrite : ∀ x0 x1, Statement (.hdmWrite x0 x1) := fun _ _ => of_event rfl rfl
theorem atsCompletion : ∀ x0, Statement (.atsCompletion x0) := fun _ => of_event rfl rfl
theorem atsInvalidate : ∀ x0 x1 x2 x3, Statement (.atsInvalidate x0 x1 x2 x3) := fun _ _ _ _ => of_event rfl rfl
theorem moduleReset : ∀ x0, Statement (.moduleReset x0) := fun _ => of_event rfl rfl
theorem msgArrive : ∀ x0, Statement (.msgArrive x0) := fun _ => of_event rfl rfl
theorem windowAnswer : ∀ x0, Statement (.windowAnswer x0) := fun _ => of_event rfl rfl
theorem windowRequest : ∀ x0, Statement (.windowRequest x0) := fun _ => of_event rfl rfl
theorem latePacket : ∀ x0, Statement (.latePacket x0) := fun _ => of_event rfl rfl
theorem eccUncorrectable : ∀ x0, Statement (.eccUncorrectable x0) := fun _ => of_event rfl rfl
theorem thermalThrottle : ∀ x0, Statement (.thermalThrottle x0) := fun _ => of_event rfl rfl
theorem thermalRecover : ∀ x0, Statement (.thermalRecover x0) := fun _ => of_event rfl rfl
theorem thermalTrip : ∀ x0, Statement (.thermalTrip x0) := fun _ => of_event rfl rfl
theorem accessRegister : ∀ x0, Statement (.accessRegister x0) := fun _ => of_event rfl rfl
theorem illegalInstruction : ∀ x0, Statement (.illegalInstruction x0) := fun _ => of_one rfl
theorem ecallRetire : Statement (.ecallRetire) := of_one rfl
theorem ecall : Statement (.ecall) := of_one rfl
theorem tinkerHandlerEnd : Statement (.tinkerHandlerEnd) := of_one rfl
theorem ebreak : Statement (.ebreak) := of_one rfl
theorem wfi : Statement (.wfi) := of_one rfl
theorem uiret : Statement (.uiret) := of_osier rfl
theorem pcMatch : Statement (.pcMatch) := of_event rfl rfl
theorem ctxRequestComplete : Statement (.ctxRequestComplete) := of_event rfl rfl
theorem featuresOk : Statement (.featuresOk) := of_event rfl rfl
theorem schedWrite : Statement (.schedWrite) := of_event rfl rfl
theorem msixFire : Statement (.msixFire) := of_event rfl rfl
theorem msixUnmask : Statement (.msixUnmask) := of_event rfl rfl
theorem eventWrite : Statement (.eventWrite) := of_event rfl rfl
theorem hdmRead : Statement (.hdmRead) := of_event rfl rfl
theorem pageRequestResponse : Statement (.pageRequestResponse) := of_event rfl rfl
theorem ideFailure : Statement (.ideFailure) := of_event rfl rfl
theorem arbiterGrant : Statement (.arbiterGrant) := of_event rfl rfl
theorem cohortResident : Statement (.cohortResident) := of_event rfl rfl
theorem quantumEnd : Statement (.quantumEnd) := of_event rfl rfl
theorem clientAged : Statement (.clientAged) := of_event rfl rfl
theorem swapComplete : Statement (.swapComplete) := of_event rfl rfl
theorem cohortReturn : Statement (.cohortReturn) := of_event rfl rfl
theorem launchComplete : Statement (.launchComplete) := of_event rfl rfl
theorem tagFree : Statement (.tagFree) := of_event rfl rfl
theorem handlerStart : Statement (.handlerStart) := of_event rfl rfl
theorem uintDeliver : Statement (.uintDeliver) := of_event rfl rfl
theorem taskDecArrive : Statement (.taskDecArrive) := of_event rfl rfl
theorem shootdown : Statement (.shootdown) := of_event rfl rfl
theorem verdict : Statement (.verdict) := of_event rfl rfl
theorem walkDone : Statement (.walkDone) := of_event rfl rfl
theorem deferredTrap : Statement (.deferredTrap) := of_event rfl rfl
theorem loadReturn : Statement (.loadReturn) := of_event rfl rfl
theorem releaseComplete : Statement (.releaseComplete) := of_event rfl rfl
theorem homeOrder : Statement (.homeOrder) := of_event rfl rfl
theorem homeRead : Statement (.homeRead) := of_event rfl rfl
theorem homeAtomic : Statement (.homeAtomic) := of_event rfl rfl
theorem evictionNotice : Statement (.evictionNotice) := of_event rfl rfl
theorem invalidationAck : Statement (.invalidationAck) := of_event rfl rfl
theorem invalidationArrive : Statement (.invalidationArrive) := of_event rfl rfl
theorem recallLine : Statement (.recallLine) := of_event rfl rfl
theorem movedReply : Statement (.movedReply) := of_event rfl rfl
theorem l1EvictPending : Statement (.l1EvictPending) := of_event rfl rfl
theorem copyStart : Statement (.copyStart) := of_event rfl rfl
theorem engineComplete : Statement (.engineComplete) := of_event rfl rfl
theorem matrixTake : Statement (.matrixTake) := of_event rfl rfl
theorem cmmaFollowon : Statement (.cmmaFollowon) := of_event rfl rfl
theorem engineEntryGrant : Statement (.engineEntryGrant) := of_event rfl rfl
theorem promiseRecompute : Statement (.promiseRecompute) := of_event rfl rfl
theorem promiseMissed : Statement (.promiseMissed) := of_event rfl rfl
theorem barrierWake : Statement (.barrierWake) := of_event rfl rfl
theorem queueWake : Statement (.queueWake) := of_event rfl rfl
theorem claimGrant : Statement (.claimGrant) := of_event rfl rfl
theorem pauseExpire : Statement (.pauseExpire) := of_event rfl rfl
theorem tickClose : Statement (.tickClose) := of_event rfl rfl
theorem heartbeatFlit : Statement (.heartbeatFlit) := of_event rfl rfl
theorem heartbeatLost : Statement (.heartbeatLost) := of_event rfl rfl
theorem gangSwitch : Statement (.gangSwitch) := of_event rfl rfl
theorem closingWaveDone : Statement (.closingWaveDone) := of_event rfl rfl
theorem saveWindowClose : Statement (.saveWindowClose) := of_event rfl rfl
theorem sweepArmFlit : Statement (.sweepArmFlit) := of_event rfl rfl
theorem switchDivert : Statement (.switchDivert) := of_event rfl rfl
theorem haltreq : Statement (.haltreq) := of_event rfl rfl
theorem resumereq : Statement (.resumereq) := of_event rfl rfl
theorem triggerMatch : Statement (.triggerMatch) := of_event rfl rfl
theorem interruptTaken : Statement (.interruptTaken) := of_event rfl rfl
theorem yieldExpire : Statement (.yieldExpire) := of_event rfl rfl
theorem storePerformed : Statement (.storePerformed) := of_event rfl rfl
theorem strmPutAck : Statement (.strmPutAck) := of_event rfl rfl
theorem tickCloseReport : Statement (.tickCloseReport) := of_event rfl rfl
theorem heartbeatSend : Statement (.heartbeatSend) := of_event rfl rfl
theorem pageRequestRestart : Statement (.pageRequestRestart) := of_event rfl rfl
theorem pageMigrating : Statement (.pageMigrating) := of_event rfl rfl
theorem backInvalidationResponse : Statement (.backInvalidationResponse) := of_event rfl rfl
theorem eccCorrected : Statement (.eccCorrected) := of_event rfl rfl

end Sys2Proof.Laws.Word
end

