-- ==== Sys2Proof/Tests/Slice0.lean ====
section
/-! SUPPORT. Tests: ill-formed terms, words of the spec decoded, single steps on small states, and for each clause of a
statement a state and operands that meet its hypotheses. -/

namespace Sys2Proof.Tests
-- one theorem at a time: each waits on the kernel, and a thread of its own for every one of them does not fit in memory
set_option Elab.async false
open Sys2Proof Sys2Proof.Machine

/-! ### Small states -/

/-- A hart of context 1 on core 0: hart 0 of block 0, with 4 KiB of TCM, and x10 = 5, x11 = 3, x12 = 64, x13 = an address in its
TCM; lanes 0 to 3 of v1 and v2 hold some numbers, and m1 names lanes 0 and 2. -/
def h0 : Hart :=
  { csr := Csrs.start, live := true, resident := true, window := 64, tcmSize := 4096, home := some ⟨0, 0, 0, 0⟩
    x := [(10, 5), (11, 3), (12, 64), (13, 0xFF00000000000100)]
    v := [(32, 7), (33, 0xFFFFFFFF), (34, 7), (35, 100), (64, 2), (65, 0x80000000), (66, 9)]
    m := [(1, 5)], pc := 0x10000 }

/-- A state whose hart 0 is `x`, and whose step concerns it; its context 1 holds core 0. -/
def st (x : Hart) : State :=
  { State.reset with harts := [(0, x)], cores := [(0, { holder := some 1 })], ctxs := [(1, { made := true, bound := true, cap := 1 })] }

/-- The same, with a launch whose cohort 0 has one block of two harts of core 0 in cluster 0, with 4 KiB of scratchpad. -/
def stB (x : Hart) : State :=
  { st x with
    harts := [(0, x), (1, { x with home := some ⟨0, 0, 0, 1⟩ })]
    launches := [(0, { record := { cohorts := 1, entry := 0x10000, blocks := 1, harts := 2, prio := 0, world := 1, tickets := 1, stages := 0
                                   windows := [1], scratch := 4096, tcm := 0, args := 0, done := 0, seq := 0 }
                       addr := 0, pasid := 1, queue := some 2
                       cohorts := [(0, { blocks := [{ harts := [0, 1], cluster := 0, scratchBase := 0 }], phase := .resident })] })] }

/-- A tinker in S mode, in its handler, with x10 and x11 small numbers. -/
def tink : Hart :=
  { csr := Csrs.start, live := true, resident := true, tinker := true, mode := .s, window := 0, pc := 0x20000
    x := [(10, 1), (11, 0x41)] }

/-- A state whose step concerns tinker 0. -/
def stT (x : Hart) : State :=
  { State.reset with cur := Config.harts, harts := [(Config.harts, x)], ctxs := [(1, { made := true, cap := 1 })] }

/-- A test of the state that an outcome goes on with; false where it stops. -/
def after (r : Out) (p : State → Bool) : Bool :=
  match r with
  | .next t => p t
  | _ => false

/-- A hart with one entry on its mask stack. -/
def hStack (e : MaskEntry) : Hart := { h0 with depth := 1, stack := [e] }

/-! ### Ill-formed terms: one for each check -/

theorem test_wf_one_word_fields : (Instr.vadd { d := 64 }).wf = false ∧ (Instr.vadd { ty := 5 }).wf = false
    ∧ (Instr.vadd { pm := 2 }).wf = false ∧ (Instr.vadd { w2 := 1 }).wf = false ∧ (Instr.vadd { lit := 1 }).wf = false := by decide
theorem test_wf_literal_form : (Instr.vbcst { form := .lit, xop := 0 }).wf = false
    ∧ (Instr.vbcst { form := .lit, xop := 1, ty := 5 }).wf = false := by decide
theorem test_wf_no_literal_in_ext : (Instr.vadd { form := .ext, lit := 1 }).wf = false := by decide
theorem test_wf_form : (Instr.vadd { form := .lit, xop := 1 }).wf = false ∧ (Instr.vadd { form := .extLit }).wf = false
    ∧ (Instr.vfma4 { form := .one, xop := 2 }).wf = false := by decide
theorem test_wf_xop : (Instr.vsel { form := .ext, xop := 1 }).wf = false ∧ (Instr.vamo { form := .ext, xop := 13 }).wf = false := by decide
theorem test_wf_zero_field : (Instr.vlid { a := 1 }).wf = false := by decide
theorem test_wf_fixed_field : (Instr.ljoin { b := 1 }).wf = false := by decide
theorem test_wf_even_lane_register : (Instr.accRd { form := .ext, xop := 1, d := 3 }).wf = false := by decide
theorem test_wf_scalar_register : (Instr.uld { d := 32 }).wf = false := by decide
theorem test_wf_descriptor_pair : (Instr.msgSend { a := 11 }).wf = false := by decide
theorem test_wf_mask_register : (Instr.mand { d := 1, a := 8 }).wf = false := by decide
theorem test_wf_mask_destination : (Instr.mand { d := 0, a := 1, b := 2 }).wf = false := by decide
theorem test_wf_tile : (Instr.accZero { a := 8 }).wf = false := by decide
theorem test_wf_bits : (Instr.pause { form := .ext, d := 64 }).wf = false := by decide
theorem test_wf_immediate_field : (Instr.mbz { form := .ext, b := 1 }).wf = false := by decide
theorem test_wf_word2_zero : (Instr.vfadd { form := .ext, ty := 7, w2 := 1 }).wf = false := by decide
theorem test_wf_word2_register : (Instr.vfma4 { form := .ext, ty := 7, xop := 2, w2 := 256 }).wf = false := by decide
theorem test_wf_type : (Instr.vfadd { form := .ext, ty := 5 }).wf = false ∧ (Instr.vadd { form := .ext, ty := 7 }).wf = false := by decide
theorem test_wf_rsc : (Instr.vfadd { form := .ext, ty := 7, rsc := 5 }).wf = false ∧ (Instr.fenceSc { form := .ext, rsc := 2 }).wf = false := by decide
theorem test_wf_saturation : (Instr.vand { form := .ext, sat := true }).wf = false := by decide
theorem test_wf_ordering : (Instr.vld { form := .ext, ord := 2 }).wf = false ∧ (Instr.vst { form := .ext, ord := 1 }).wf = false := by decide
theorem test_wf_predicate : (Instr.vadd { form := .ext, pinv := true }).wf = false ∧ (Instr.mand { form := .ext, d := 1, pm := 1 }).wf = false := by decide
theorem test_wf_shift_amount : (Instr.standardInstruction (.sh .slliw 1 2 32)).wf = false := by decide
theorem test_wf_load_reserved : (Instr.lr { dbl := true, aq := false, rl := false, rd := 1, rs1 := 2, rs2 := 3 }).wf = false := by decide
theorem test_wf_csr_rows : (Instr.lfcsrAccess { op := .rw, useImm := false, rd := 0, src := 0, csr := 0x801 }).wf = false
    ∧ (Instr.csrWrite { op := .rw, useImm := false, rd := 0, src := 0, csr := 0x800 }).wf = false := by decide
theorem test_wf_header_flags : (Instr.clh 0 12 15).wf = false ∧ (Instr.clh 0 15 14).wf = false := by decide
theorem test_wf_step_has_no_word : (Instr.tickClose).wf = false ∧ (Instr.ecallRetire).wf = false := by decide

/-! ### Words of the spec -/

theorem test_decode_vadd : decodeWords [0x00A18E0B] = (.ok (.vadd { d := 7, a := 3, b := 5 }), []) := by decide
theorem test_decode_vadd_ext : decodeWords [0x00A18D0B, 0x0002A141, 0]
    = (.ok (.vadd { form := .ext, d := 70, a := 3, b := 5, ty := 5, sat := true, pm := 2, pinv := true }), []) := by decide
theorem test_decode_vfma4 : decodeWords [0x8840910B, 0x002005C0, 9]
    = (.ok (.vfma4 { form := .ext, d := 8, a := 1, b := 2, ty := 7, rsc := 1, xop := 2, w2 := 9 }), []) := by decide
theorem test_decode_vbcst_lit : decodeWords [0xF000088B, 0x3F800000, 0]
    = (.ok (.vbcst { form := .lit, d := 4, xop := 1, lit := 0x3F800000 }), []) := by decide
theorem test_decode_vlid : decodeWords [0xF800020B] = (.ok (.vlid { d := 1 }), []) := by decide
theorem test_decode_vsll_imm : decodeWords [0x5800830B, 0x00100000, 2] = (.ok (.vsll { form := .ext, d := 1, a := 1, xop := 1, w2 := 2 }), []) := by decide
theorem test_decode_vsrl_imm : decodeWords [0x6005170B, 0x00100000, 0x10] = (.ok (.vsrl { form := .ext, d := 11, a := 10, xop := 1, w2 := 16 }), []) := by decide
theorem test_decode_vcvt : decodeWords [0xB008250B, 0x00701E00, 0]
    = (.ok (.vcvt { form := .ext, d := 18, a := 16, ty := 8, rsc := 7, xop := 7 }), []) := by decide
theorem test_decode_header : decodeWords [0x8049A05B] = (.ok (.clh 9 3 4), []) := by decide
theorem test_decode_mand : decodeWords [0x0020045B] = (.ok (.mand { d := 2, a := 0, b := 1 }), []) := by decide
theorem test_decode_ljoin_lelse : decodeWords [0x1000005B] = (.ok (.ljoin {}), []) ∧ decodeWords [0x1020005B] = (.ok (.lelse { b := 1 }), []) := by decide
theorem test_decode_lif_lifn : decodeWords [0x1000815B, 0x00100000, 0x00050004] = (.ok (.lif { form := .ext, a := 1, xop := 1, w2 := 0x00050004 }), [])
    ∧ decodeWords [0x1000815B, 0x00200000, 0x00050004] = (.ok (.lifn { form := .ext, a := 1, xop := 2, w2 := 0x00050004 }), []) := by decide
theorem test_decode_lbrk_lcont : decodeWords [0x1800005B] = (.ok (.lbrk {}), []) ∧ decodeWords [0x1820005B] = (.ok (.lcont { b := 1 }), []) := by decide
theorem test_decode_mbnz : decodeWords [0x28A0825B] = (.ok (.mbnz { d := 1, a := 1, b := 5 }), []) := by decide
theorem test_decode_pause : decodeWords [0x3000025B] = (.ok (.pause { d := 1 }), []) ∧ decodeWords [0x3008005B] = (.ok (.pause { a := 16 }), []) := by decide
theorem test_decode_dfwait : decodeWords [0x3040845B] = (.ok (.dfwait { d := 2, a := 1, b := 2 }), []) := by decide
theorem test_decode_bar_sync : decodeWords [0x3805005B] = (.ok (.barSync { a := 10 }), []) := by decide
theorem test_decode_bar_arrive : decodeWords [0x38050D5B, 0x00100800, 0] = (.ok (.barArrive { form := .ext, d := 6, a := 10, rsc := 2, xop := 1 }), []) := by decide
theorem test_decode_q_push : decodeWords [0x40058A5B] = (.ok (.qPush { d := 5, a := 11 }), []) := by decide
theorem test_decode_q_pop : decodeWords [0x400C8B5B, 0x00100000, 0] = (.ok (.qPop { form := .ext, d := 5, a := 25, xop := 1 }), []) := by decide
theorem test_decode_q_vpush : decodeWords [0x400DA55B, 0x00200000, 0] = (.ok (.qVpush { form := .ext, d := 18, a := 27, xop := 2 }), []) := by decide
theorem test_decode_q_vpop : decodeWords [0x400D955B, 0x00300000, 0] = (.ok (.qVpop { form := .ext, d := 10, a := 27, xop := 3 }), []) := by decide
theorem test_decode_msg_send : decodeWords [0x4906005B] = (.ok (.msgSend { a := 12, b := 8 }), []) := by decide
theorem test_decode_task_dec : decodeWords [0x5165005B] = (.ok (.taskDec { a := 10, b := 11 }), []) := by decide
theorem test_decode_claim_give : decodeWords [0x6100005B] = (.ok (.claim { b := 8 }), [])
    ∧ decodeWords [0x6000015B, 0x00100000, 1] = (.ok (.give { form := .ext, xop := 1, w2 := 1 }), []) := by decide
theorem test_decode_uiret : decodeWords [0x7820005B] = (.ok .uiret, []) := by decide
theorem test_decode_vld : decodeWords [0x0029042B] = (.ok (.vld { d := 2, a := 18, b := 1 }), []) := by decide
theorem test_decode_vsts : decodeWords [0x182E842B] = (.ok (.vsts { d := 2, a := 29, b := 1 }), []) := by decide
theorem test_decode_vst : decodeWords [0x092A152B, 0x00000200, 0] = (.ok (.vst { form := .ext, d := 10, a := 20, b := 9, ty := 8 }), []) := by decide
theorem test_decode_uld : decodeWords [0x200C8D2B, 0x00040400, 0x60] = (.ok (.uld { form := .ext, d := 6, a := 25, rsc := 1, ord := 1, w2 := 0x60 }), []) := by decide
theorem test_decode_ust : decodeWords [0x280C8B2B, 0x00080400, 0x60] = (.ok (.ust { form := .ext, d := 5, a := 25, rsc := 1, ord := 2, w2 := 0x60 }), []) := by decide
theorem test_decode_e_copy : decodeWords [0x00050A7B] = (.ok (.eCopy { d := 5, a := 10 }), []) := by decide
theorem test_decode_e_cmma : decodeWords [0x31650C7B] = (.ok (.eCmma { d := 6, a := 10, b := 11 }), []) := by decide
theorem test_decode_e_cadd : decodeWords [0x10050B7B, 0x00002D40, 0] = (.ok (.eCadd { form := .ext, d := 5, a := 10, ty := 5, rsc := 3, sat := true }), []) := by decide
theorem test_decode_e_scale : decodeWords [0x3BE9BC7B] = (.ok (.eScale { d := 30, a := 19, b := 31 }), []) := by decide
theorem test_decode_e_sleep_poll : decodeWords [0x4002807B] = (.ok (.eSleep { a := 5 }), [])
    ∧ decodeWords [0x40028D7B, 0x00100000, 0] = (.ok (.ePoll { form := .ext, d := 6, a := 5, xop := 1 }), []) := by decide
theorem test_decode_acc : decodeWords [0x4801807B] = (.ok (.accZero { a := 3 }), [])
    ∧ decodeWords [0x48A1117B, 0x00100000, 0] = (.ok (.accRd { form := .ext, d := 8, a := 2, b := 5, xop := 1 }), []) := by decide
theorem test_decode_standard : decodeWords [0x00000073] = (.ok .ecall, []) ∧ decodeWords [0x00B50533] = (.ok (.standardInstruction (.reg .add 10 10 11)), [])
    ∧ decodeWords [0xFF010113] = (.ok (.standardInstruction (.imm .addi 2 2 0xFF0)), []) := by decide
theorem test_reject_by_name : decodeWords [0xFFFFFFFF] = (.reject .major, []) ∧ decodeWords [0x8010605B] = (.reject .header, [])
    ∧ decodeWords [0x00A18E8B, 0, 0] = (.reject .field, []) ∧ decodeWords [0x00A18D0B, 0] = (.reject .truncated, [0x00A18D0B, 0])
    ∧ decodeWords [0x00000033 ||| 0x7E000000] = (.reject .standard, []) := by decide
theorem test_decode_bytes : decode [0x5B, 0x00, 0x20, 0x78, 0xAA] = (.ok .uiret, [0xAA]) := by decide

/-! ### Lane instructions -/

/-- Lanes with floats: 1.0, +∞, the least subnormal, a signalling NaN in v1; 2.0, −∞, 1.0, 0 in v2. -/
def hF : Hart :=
  { h0 with v := [(32, 0x3F800000), (33, 0x7F800000), (34, 1), (35, 0x7F800001), (64, 0x40000000), (65, 0xFF800000), (66, 0x3F800000)] }

/-- R113's example: 5, 3, 5, 5, 9, 3, 5, 7 in lanes 0 to 7 of v1, which alone are in m0. -/
def hM : Hart :=
  { h0 with v := [(32, 5), (33, 3), (34, 5), (35, 5), (36, 9), (37, 3), (38, 5), (39, 7), (64, 1), (65, 1)], depth := 1
            stack := [{ mask := 0xFF, kind := 1, rpc := 0, ppc := 0 }] }

theorem test_vadd_wraps : after (exec (.vadd { d := 3, a := 1, b := 2 }) (st h0)) (fun t =>
    t.me.V 3 0 == 9 && t.me.V 3 1 == 0x7FFFFFFF && t.me.pc == 0x10004 && t.me.instret == 1) = true := by decide +kernel
theorem test_vadd_saturates : after (exec (.vadd { form := .ext, d := 1, a := 1, b := 2, ty := 5, sat := true }) (st h0)) (fun t =>
    t.me.V 1 1 == 0x80000000 && t.me.pc == 0x1000C) = true := by decide +kernel
theorem test_vsub : after (exec (.vsub { d := 3, a := 1, b := 2 }) (st h0)) (fun t => t.me.V 3 0 == 5 && t.me.V 3 2 == 0xFFFFFFFE) = true := by
  decide +kernel
theorem test_vmul_i8_elements : after (exec (.vmul { form := .ext, d := 3, a := 1, b := 1, ty := 1 }) (st h0)) (fun t =>
    t.me.V 3 1 == 0x01010101 && t.me.V 3 3 == 0x10) = true := by decide +kernel
theorem test_vmulh_signs : after (exec (.vmulh { d := 3, a := 1, b := 2 }) (st h0)) (fun t => t.me.V 3 1 == 0) = true
    ∧ after (exec (.vmulh { form := .ext, d := 3, a := 1, b := 2, ty := 6 }) (st h0)) (fun t => t.me.V 3 1 == 0x7FFFFFFF) = true
    ∧ after (exec (.vmulhsu { form := .ext, d := 3, a := 1, b := 2, xop := 2 }) (st h0)) (fun t => t.me.V 3 1 == 0xFFFFFFFF) = true := by
  decide +kernel
theorem test_vdiv_vrem : after (exec (.vdiv { d := 3, a := 1, b := 2 }) (st h0)) (fun t =>
      t.me.V 3 0 == 3 && t.me.V 3 3 == 0xFFFFFFFF) = true
    ∧ after (exec (.vrem { d := 3, a := 1, b := 2 }) (st h0)) (fun t => t.me.V 3 0 == 1 && t.me.V 3 3 == 100) = true := by decide +kernel
theorem test_vdiv_overflow : after (exec (.vdiv { d := 3, a := 2, b := 1 }) (st h0)) (fun t => t.me.V 3 1 == 0x80000000) = true
    ∧ after (exec (.vrem { d := 3, a := 2, b := 1 }) (st h0)) (fun t => t.me.V 3 1 == 0) = true := by decide +kernel
theorem test_vmin_vmax : after (exec (.vmin { d := 3, a := 1, b := 2 }) (st h0)) (fun t => t.me.V 3 0 == 2 && t.me.V 3 1 == 0x80000000) = true
    ∧ after (exec (.vmax { form := .ext, d := 3, a := 1, b := 2, ty := 6 }) (st h0)) (fun t => t.me.V 3 1 == 0xFFFFFFFF) = true
    ∧ after (exec (.vmax { form := .ext, d := 3, a := 1, b := 2, ty := 7 }) (st hF)) (fun t =>
      t.me.V 3 0 == 0x40000000 && t.me.V 3 3 == 0 && t.me.fflags == 16) = true := by decide +kernel
theorem test_vsll_i8_by_9 : after (exec (.vsll { form := .ext, d := 3, a := 1, ty := 1, xop := 1, w2 := 9 }) (st h0)) (fun t =>
    t.me.V 3 0 == 0x0E && t.me.V 3 1 == 0xFEFEFEFE) = true := by decide +kernel
theorem test_vsrl_vsra : after (exec (.vsrl { form := .ext, d := 3, a := 1, xop := 1, w2 := 4 }) (st h0)) (fun t => t.me.V 3 1 == 0x0FFFFFFF) = true
    ∧ after (exec (.vsra { form := .ext, d := 3, a := 2, xop := 1, w2 := 31 }) (st h0)) (fun t => t.me.V 3 1 == 0xFFFFFFFF) = true := by
  decide +kernel
theorem test_vandn_vsel : after (exec (.vandn { form := .ext, d := 3, a := 1, b := 2, xop := 2 }) (st h0)) (fun t =>
      t.me.V 3 1 == 0x7FFFFFFF && t.me.V 3 0 == 5) = true
    ∧ after (exec (.vsel { d := 3, a := 1, b := 2 }) (st h0)) (fun t => t.me.V 3 0 == 7 && t.me.V 3 1 == 0x80000000) = true := by decide +kernel
theorem test_predicate : after (exec (.vmov { form := .ext, d := 2, a := 1, pm := 1, pinv := true }) (st h0)) (fun t =>
    t.me.V 2 0 == 2 && t.me.V 2 1 == 0xFFFFFFFF && t.me.V 2 2 == 9 && t.me.V 2 3 == 100) = true := by decide +kernel
theorem test_vfadd : after (exec (.vfadd { d := 3, a := 1, b := 2 }) (st hF)) (fun t =>
    t.me.V 3 0 == 0x40400000 && t.me.V 3 1 == 0x7FC00000 && t.me.V 3 3 == 0x7FC00000 && t.me.fflags == 0x11) = true := by decide +kernel
theorem test_vfma : after (exec (.vfma { d := 2, a := 1, b := 2 }) (st hF)) (fun t => t.me.V 2 0 == 0x40800000) = true
    ∧ after (exec (.vfms { form := .ext, d := 2, a := 1, b := 2, xop := 3 }) (st hF)) (fun t => t.me.V 2 0 == 0) = true
    ∧ after (exec (.vfnma { form := .ext, d := 2, a := 1, b := 1, xop := 4 }) (st hF)) (fun t => t.me.V 2 0 == 0x3F800000) = true := by
  decide +kernel
theorem test_vfdiv_vfrcp : after (exec (.vfdiv { d := 3, a := 1, b := 2 }) (st hF)) (fun t => t.me.V 3 0 == 0x3F000000) = true
    ∧ after (exec (.vfrcp { d := 3, a := 2, b := 1 }) (st hF)) (fun t => t.me.V 3 1 == 0x80000000 && t.me.V 3 3 == 0x7F800000 && t.me.fflags == 8) = true := by
  decide +kernel
theorem test_vfclass : after (exec (.vfclass { d := 3, a := 1, b := 7 }) (st hF)) (fun t =>
    t.me.V 3 0 == 64 && t.me.V 3 1 == 128 && t.me.V 3 2 == 32 && t.me.V 3 3 == 256 && t.me.V 3 4 == 16) = true := by decide +kernel
theorem test_vfneg_vfabs : after (exec (.vfneg { d := 3, a := 2, b := 6 }) (st hF)) (fun t => t.me.V 3 1 == 0x7F800000 && t.me.V 3 3 == 0x80000000) = true
    ∧ after (exec (.vfabs { d := 3, a := 1, b := 5 }) (st hF)) (fun t => t.me.V 3 3 == 0x7FC00000 && t.me.fflags == 0) = true := by decide +kernel
theorem test_vfexp2_vflog2_vfsqrt : after (exec (.vfexp2 { d := 3, a := 2, b := 3 }) (st hF)) (fun t => t.me.V 3 0 == 0x40800000 && t.me.V 3 1 == 0) = true
    ∧ after (exec (.vflog2 { d := 3, a := 2, b := 4 }) (st hF)) (fun t => t.me.V 3 0 == 0x3F800000 && t.me.V 3 2 == 0) = true
    ∧ after (exec (.vfsqrt { d := 3, a := 2 }) (st hF)) (fun t => t.me.V 3 0 == 0x3FB504F3 && t.me.V 3 1 == 0x7FC00000) = true := by decide +kernel
theorem test_vcvt : after (exec (.vcvt { d := 3, a := 1 }) (st h0)) (fun t => t.me.V 3 0 == 0x40E00000 && t.me.V 3 1 == 0xBF800000) = true
    ∧ after (exec (.vcvt { form := .ext, d := 3, a := 1, ty := 8, xop := 7, w2 := 1 }) (st hF)) (fun t => t.me.V 3 0 == 0x3F800000) = true := by
  decide +kernel
/-- R63: a conversion that never rounds is exact with `ftz` set too: 2^-16 of E5M2 is the FP16 pattern 0x0100. -/
theorem test_vcvt_exact_with_ftz : after (exec (.vcvt { form := .ext, d := 3, a := 1, ty := 9, xop := 11 })
    (st { hF with v := [(32, 0x01), (33, 0x81)], ftz := true })) (fun t => t.me.V 3 0 == 0x0100 && t.me.V 3 1 == 0x8100 && t.me.fflags == 0) = true := by
  decide +kernel
theorem test_vceq_vclt : after (exec (.vceq { d := 2, a := 1, b := 2 }) (st h0)) (fun t => t.me.M 2 == 0xFFFFFFF0) = true
    ∧ after (exec (.vclt { form := .ext, d := 2, a := 2, b := 1, xop := 2 }) (st h0)) (fun t => t.me.M 2 == 0xB) = true
    ∧ after (exec (.vclt { form := .ext, d := 2, a := 2, b := 1, ty := 6, xop := 2 }) (st h0)) (fun t => t.me.M 2 == 0xB) = true := by decide +kernel
theorem test_vmatch_of_R113 : after (exec (.vmatch { d := 3, a := 1 }) (st hM)) (fun t =>
    (List.range 8).map (fun l => t.me.V 3 l) == [0x4D, 0x22, 0x4D, 0x4D, 0x10, 0x22, 0x4D, 0x80] && t.me.V 3 8 == 0) = true := by decide +kernel
theorem test_shuffles : after (exec (.vshfl { d := 3, a := 1, b := 2 }) (st h0)) (fun t => t.me.V 3 0 == 7 && t.me.V 3 1 == 7) = true
    ∧ after (exec (.vrotl { form := .ext, d := 3, a := 1, xop := 1, w2 := 31 }) (st h0)) (fun t => t.me.V 3 1 == 7 && t.me.V 3 4 == 100) = true
    ∧ after (exec (.vbfly { d := 3, a := 1, b := 1 }) (st h0)) (fun t => t.me.V 3 2 == 100 && t.me.V 3 1 == 7) = true := by decide +kernel
theorem test_vslup_vsldn : after (exec (.vslup { form := .ext, d := 3, a := 1, xop := 2, w2 := 1 }) (st h0)) (fun t =>
      t.me.V 3 0 == 7 && t.me.V 3 1 == 7 && t.me.V 3 2 == 0xFFFFFFFF) = true
    ∧ after (exec (.vsldn { form := .ext, d := 3, a := 1, xop := 3, w2 := 3 }) (st h0)) (fun t => t.me.V 3 0 == 100 && t.me.V 3 31 == 0) = true := by
  decide +kernel
theorem test_votes : after (exec (.vballot { d := 14, a := 1 }) (st h0)) (fun t => t.me.X 14 == 15) = true
    ∧ after (exec (.vcnt { form := .ext, d := 14, a := 1, xop := 3, pm := 1 }) (st h0)) (fun t => t.me.X 14 == 2) = true
    ∧ after (exec (.vall { form := .ext, d := 14, a := 1, xop := 2 }) (st hM)) (fun t => t.me.X 14 == 1) = true := by decide +kernel
theorem test_vredadd : after (exec (.vredadd { d := 14, a := 1 }) (st h0)) (fun t => t.me.X 14 == 113) = true
    ∧ after (exec (.vredmin { form := .ext, d := 14, a := 1, xop := 1 }) (st h0)) (fun t => t.me.X 14 == 0xFFFFFFFFFFFFFFFF) = true
    ∧ after (exec (.vredxor { form := .ext, d := 14, a := 1, xop := 5 }) (st hM)) (fun t => t.me.X 14 == 14) = true := by decide +kernel
/-- R114 takes a lone active lane as it is, R52 and R59 read a signalling NaN as the canonical one with NV, and R60 flushes a subnormal. -/
theorem test_lone_lane : after (exec (.vredadd { form := .ext, d := 14, a := 1, ty := 7, pm := 1 }) (st { hF with m := [(1, 8)] })) (fun t =>
      t.me.X 14 == 0x7FC00000 && t.me.fflags == 16) = true
    ∧ after (exec (.vredmax { form := .ext, d := 14, a := 1, ty := 7, xop := 2, pm := 1 }) (st { hF with m := [(1, 4)], ftz := true })) (fun t =>
      t.me.X 14 == 0) = true := by decide +kernel
theorem test_scans : after (exec (.vpfxadd { d := 3, a := 1 }) (st h0)) (fun t => t.me.V 3 1 == 6 && t.me.V 3 3 == 113 && t.me.V 3 31 == 113) = true
    ∧ after (exec (.vepfxop { form := .ext, d := 3, a := 1, xop := 8 }) (st h0)) (fun t => t.me.V 3 0 == 0 && t.me.V 3 3 == 13) = true := by decide +kernel
theorem test_moves : after (exec (.vext { form := .ext, d := 14, a := 1, xop := 3, w2 := 1 }) (st h0)) (fun t => t.me.X 14 == 0xFFFFFFFFFFFFFFFF) = true
    ∧ after (exec (.vins { form := .ext, d := 3, b := 10, xop := 6, w2 := 31 }) (st h0)) (fun t => t.me.V 3 31 == 5 && t.me.V 3 30 == 0) = true
    ∧ after (exec (.vbcst { form := .lit, d := 4, xop := 1, lit := 0x3F800000 }) (st h0)) (fun t => t.me.V 4 31 == 0x3F800000 && t.me.pc == 0x1000C) = true := by
  decide +kernel
theorem test_bit_functions : after (exec (.vctz { d := 3, a := 2, b := 3 }) (st h0)) (fun t => t.me.V 3 1 == 31 && t.me.V 3 3 == 32) = true
    ∧ after (exec (.vpopc { d := 3, a := 1, b := 1 }) (st h0)) (fun t => t.me.V 3 1 == 32 && t.me.V 3 0 == 3) = true
    ∧ after (exec (.vrev8 { d := 3, a := 1, b := 5 }) (st h0)) (fun t => t.me.V 3 0 == 0x07000000) = true
    ∧ after (exec (.vabs { form := .ext, d := 3, a := 2, b := 7, sat := true }) (st h0)) (fun t => t.me.V 3 1 == 0x7FFFFFFF) = true := by decide +kernel
theorem test_window : after (exec (.vadd { form := .ext, d := 64, a := 1, b := 2 }) (st h0)) (fun t =>
    t.trapped && t.me.csr.scause == 2 && t.me.mode == .s && t.me.csr.stval == 0x0040810B) = true := by decide +kernel

theorem witness_LaneIntegerArithmetic : ([.vadd { d := 3, a := 1, b := 2 }, .vsub { d := 3, a := 1, b := 2 }, .vmul { d := 3, a := 1, b := 2 },
      .vmulh { d := 3, a := 1, b := 2 }, .vmulhsu { form := .ext, d := 3, a := 1, b := 2, xop := 2 },
      .vdiv { d := 3, a := 1, b := 2 }, .vrem { d := 3, a := 1, b := 2 }] : List Instr).all
    (fun i => Machine.guard i h0) = true := by decide +kernel
theorem witness_LaneLogicAndBitFunctions : ([.vand { d := 3, a := 1, b := 2 }, .vandn { form := .ext, d := 3, a := 1, b := 2, xop := 2 },
      .vor { d := 3, a := 1, b := 2 }, .vorn { form := .ext, d := 3, a := 1, b := 2, xop := 2 },
      .vxor { d := 3, a := 1, b := 2 }, .vxnor { form := .ext, d := 3, a := 1, b := 2, xop := 2 },
      .vsll { d := 3, a := 1, b := 2 }, .vsrl { d := 3, a := 1, b := 2 }, .vsra { d := 3, a := 1, b := 2 },
      .vsel { d := 3, a := 1, b := 2 }, .vmov { d := 3, a := 1 }, .vlid { d := 3 }, .vpopc { d := 3, a := 1, b := 1 },
      .vclz { d := 3, a := 1, b := 2 }, .vctz { d := 3, a := 1, b := 3 }, .vbrev { d := 3, a := 1, b := 4 },
      .vrev8 { d := 3, a := 1, b := 5 }, .vnot { d := 3, a := 1, b := 6 }, .vabs { d := 3, a := 1, b := 7 },
      .vmbit { d := 3, a := 1, b := 8 }] : List Instr).all
    (fun i => Machine.guard i h0) = true := by decide +kernel
theorem witness_LaneShuffles : ([.vshfl { d := 3, a := 1, b := 2 }, .vrotl { form := .ext, d := 3, a := 1, xop := 1 },
      .vslup { form := .ext, d := 3, a := 1, xop := 2 }, .vsldn { form := .ext, d := 3, a := 1, xop := 3 },
      .vbfly { d := 3, a := 1, b := 1 }, .vmatch { d := 3, a := 1 }] : List Instr).all
    (fun i => Machine.guard i h0) = true := by decide +kernel
theorem witness_LanesAndScalars : ([.vballot { d := 14, a := 1 }, .vany { form := .ext, d := 14, a := 1, xop := 1 },
      .vall { form := .ext, d := 14, a := 1, xop := 2 }, .vcnt { form := .ext, d := 14, a := 1, xop := 3 },
      .vbcst { form := .ext, d := 3, b := 11, xop := 1 }, .vbcst64 { form := .ext, d := 4, b := 11, xop := 2 },
      .vext { form := .ext, d := 14, a := 1, xop := 3 }, .vextx { form := .ext, d := 14, a := 1, b := 11, xop := 4 },
      .vext64 { form := .ext, d := 14, a := 6, xop := 5 }, .vins { form := .ext, d := 3, b := 11, xop := 6 }] : List Instr).all
    (fun i => Machine.guard i h0) = true := by decide +kernel
theorem witness_LaneFloatFunctions : ([.vfadd { d := 3, a := 1, b := 2 }, .vfsub { d := 3, a := 1, b := 2 }, .vfmul { d := 3, a := 1, b := 2 },
      .vfma { d := 3, a := 1, b := 2 }, .vfma4 { form := .ext, d := 3, a := 1, b := 2, xop := 2 },
      .vfms { form := .ext, d := 3, a := 1, b := 2, xop := 3 }, .vfnma { form := .ext, d := 3, a := 1, b := 2, xop := 4 },
      .vfdiv { d := 3, a := 1, b := 2 }, .vfsqrt { d := 3, a := 1 }, .vfrcp { d := 3, a := 1, b := 1 },
      .vfrsqrt { d := 3, a := 1, b := 2 }, .vfexp2 { d := 3, a := 1, b := 3 }, .vflog2 { d := 3, a := 1, b := 4 },
      .vfabs { d := 3, a := 1, b := 5 }, .vfneg { d := 3, a := 1, b := 6 }, .vfclass { d := 3, a := 1, b := 7 },
      .vfrint { d := 3, a := 1, b := 8 }] : List Instr).all
    (fun i => Machine.guard i h0) = true := by decide +kernel
theorem witness_LaneMinMax : ([.vmin { d := 3, a := 1, b := 2 }, .vmax { d := 3, a := 1, b := 2 }] : List Instr).all
    (fun i => Machine.guard i h0) = true := by decide +kernel
theorem witness_LaneConversions : ([.vcvt { form := .ext, d := 3, a := 1 }, .vsclenc { form := .ext, d := 3, a := 1, xop := 16 },
      .vscldec { form := .ext, d := 3, a := 1, xop := 17 }, .vunpk { d := 3, a := 1, b := 2 }] : List Instr).all
    (fun i => Machine.guard i h0) = true := by decide +kernel
theorem witness_LaneCompares : ([.vceq { d := 1, a := 1, b := 2 }, .vcne { form := .ext, d := 1, a := 1, xop := 1 },
      .vclt { form := .ext, d := 1, a := 1, xop := 2 }, .vcle { form := .ext, d := 1, a := 1, xop := 3 },
      .vcgt { form := .ext, d := 1, a := 1, xop := 4 }, .vcge { form := .ext, d := 1, a := 1, xop := 5 },
      .vcun { form := .ext, d := 1, a := 1, ty := 7, xop := 6 }, .vcor { form := .ext, d := 1, a := 1, ty := 7, xop := 7 }] : List Instr).all
    (fun i => Machine.guard i h0) = true := by decide +kernel
theorem witness_LaneReductionsAndScans : ([.vredadd { d := 14, a := 1 }, .vredmin { form := .ext, d := 14, a := 1, xop := 1 },
      .vredmax { form := .ext, d := 14, a := 1, xop := 2 }, .vredand { form := .ext, d := 14, a := 1, xop := 3 },
      .vredor { form := .ext, d := 14, a := 1, xop := 4 }, .vredxor { form := .ext, d := 14, a := 1, xop := 5 },
      .vpfxadd { d := 3, a := 1 }, .vpfxop { form := .ext, d := 3, a := 1, xop := 1 },
      .vepfxop { form := .ext, d := 3, a := 1, xop := 8 }] : List Instr).all
    (fun i => Machine.guard i h0) = true
    ∧ active h0 { form := .ext, d := 14, a := 1, xop := 1, pm := 2 } = [] ∧ guard (.vredmin { form := .ext, d := 14, a := 1, xop := 1, pm := 2 }) h0 = true
    ∧ active h0 { form := .ext, d := 14, a := 1, xop := 1 } ≠ [] := by decide +kernel
/-! ### Masks, divergent regions and waits -/

theorem test_mask_logic : after (exec (.mxnor { form := .ext, d := 2, a := 1, b := 0, xop := 5 }) (st h0)) (fun t => t.me.M 2 == 5) = true
    ∧ after (exec (.mset { form := .ext, d := 7, xop := 1, w2 := 0x80000001 }) (st h0)) (fun t => t.me.M 7 == 0x80000001 && t.me.pc == 0x1000C) = true
    ∧ after (exec (.mffs { form := .ext, d := 14, a := 2, xop := 5 }) (st h0)) (fun t => t.me.X 14 == 32) = true := by decide +kernel
theorem test_branch_on_mask : after (exec (.mbnz { d := 1, a := 1, b := 5 }) (st h0)) (fun t => t.me.pc == 0x10014) = true
    ∧ after (exec (.mbz { a := 1, b := 63 }) (st h0)) (fun t => t.me.pc == 0x10004) = true
    ∧ after (exec (.mbnall { d := 3, a := 1, b := 63 }) (st h0)) (fun t => t.me.pc == 0xFFFC) = true := by decide +kernel
theorem test_lif_first_path : after (exec (.lif { form := .ext, a := 1, xop := 1, w2 := 0x00050004 }) (st h0)) (fun t =>
    t.stackOf == [{ mask := 5, kind := 1, rpc := 0x10014, ppc := 0x10010 }] && t.me.pc == 0x1000C && t.me.m0 == 5) = true := by decide +kernel
theorem test_ljoin_starts_other_path : after (exec (.ljoin {}) (st (hStack { mask := 5, kind := 1, rpc := 0x10014, ppc := 0x10010 }))) (fun t =>
    t.stackOf == [{ mask := 0xFFFFFFFA, kind := 2, rpc := 0x10014, ppc := 0 }] && t.me.pc == 0x10010) = true
    ∧ after (exec (.ljoin {}) (st (hStack { mask := 0xFFFFFFFA, kind := 2, rpc := 0x10014, ppc := 0 }))) (fun t =>
    t.stackOf == [] && t.me.pc == 0x10004) = true := by decide +kernel
theorem test_lcont_lbrk : after (exec (.lcont { a := 1, b := 1 }) (st (hStack { mask := 0xFFFFFFFF, kind := 3, rpc := 0x10020, ppc := 0x1000C }))) (fun t =>
    t.stackOf == [{ mask := 5, kind := 3, rpc := 0x10020, ppc := 0x1000C }] && t.me.pc == 0x1000C) = true
    ∧ after (exec (.lbrk {}) (st (hStack { mask := 1, kind := 3, rpc := 0x10020, ppc := 0x1000C }))) (fun t =>
    t.stackOf == [] && t.me.pc == 0x10020) = true := by decide +kernel
theorem test_mask_stack_traps : after (exec (.msPop { b := 1 }) (st h0)) (fun t => t.trapped && t.me.csr.scause == 27 && t.me.csr.stval == 2) = true := by
  decide +kernel
theorem test_header_waits : after (exec (.clh 1 2 15) (st { h0 with engFlags := [⟨7, 0, false⟩] })) (fun t =>
    t.me.wait.code == 1 && t.me.pc == 0x10000) = true
    ∧ after (exec (.clh 2 2 15) (st { h0 with engFlags := [⟨7, 0, false⟩] })) (fun t => t.me.att == ⟨2, 15⟩ && t.me.pc == 0x10004) = true := by
  decide +kernel

theorem test_yield_and_pause : after (exec (.yield { b := 1 }) { st h0 with cycle := 9 }) (fun t =>
      t.me.wait.code == 11 && t.me.pc == 0x10000 && after (exec (.yield { b := 1 }) t) (fun u => u.me.pc == 0x10004)) = true
    ∧ after (exec (.pause { d := 1, a := 2 }) { st h0 with cycle := 9 }) (fun t => t.me.pauseEnd == 75 && t.me.pc == 0x10004) = true := by decide +kernel

theorem witness_MaskMovesAndBranches : ([.mand { d := 1, a := 1, b := 2 }, .mor { form := .ext, d := 1, a := 1, b := 2, xop := 1 },
      .mxor { form := .ext, d := 1, a := 1, b := 2, xop := 2 }, .mandn { form := .ext, d := 1, a := 1, b := 2, xop := 3 },
      .morn { form := .ext, d := 1, a := 1, b := 2, xop := 4 }, .mxnor { form := .ext, d := 1, a := 1, b := 2, xop := 5 },
      .mmov { d := 1, a := 1 }, .mset { form := .ext, d := 1, xop := 1 }, .mfx { form := .ext, d := 1, a := 10, xop := 2 },
      .mtx { form := .ext, d := 14, a := 1, xop := 3 }, .mpopc { form := .ext, d := 14, a := 1, xop := 4 },
      .mffs { form := .ext, d := 14, a := 1, xop := 5 }, .mbz { a := 1, b := 1 }, .mbnz { d := 1, a := 1, b := 1 },
      .mball { d := 2, a := 1, b := 1 }, .mbnall { d := 3, a := 1, b := 1 }] : List Instr).all
    (fun i => Machine.guard i h0) = true ∧ h0.M 2 = 0 ∧ h0.M 1 ≠ 0 := by decide +kernel

theorem witness_BranchRegions :
    (guard (.lif { form := .ext, a := 1, xop := 1, w2 := 0x00050004 }) h0 = true ∧ guard (.lifn { form := .ext, a := 1, xop := 2, w2 := 0x00050004 }) h0 = true
      ∧ (st h0).stackOf.length < 80)
    ∧ (∀ e ∈ ([{ mask := 5, kind := 1, rpc := 8, ppc := 4 }, { mask := 5, kind := 2, rpc := 8, ppc := 0 }] : List MaskEntry),
        (e.kind = 1 ∨ e.kind = 2) ∧ (st (hStack e)).stackOf = e :: [] ∧ guard (.lelse { b := 1 }) (hStack e) = true
          ∧ guard (.ljoin {}) (hStack e) = true) := by decide +kernel

theorem witness_LoopRegions :
    (guard (.lloop { form := .ext, xop := 1, w2 := 8 }) h0 = true ∧ (st h0).stackOf.length < 80)
    ∧ (∀ e ∈ ([{ mask := 5, kind := 3, rpc := 8, ppc := 4 }] : List MaskEntry), (st (hStack e)).stackOf = e :: []
        ∧ guard (.lbrk { a := 1 }) (hStack e) = true ∧ guard (.lcont { a := 1, b := 1 }) (hStack e) = true) := by decide +kernel

/-- A hart whose stack holds 80 entries; all lie in hardware here. -/
def hDeep : Hart := { h0 with depth := 80, stack := List.replicate 80 { mask := 1, kind := 4, rpc := 0, ppc := 0 } }

theorem witness_MaskStackFunctions :
    (let e : MaskEntry := { mask := 5, kind := 4, rpc := 8, ppc := 4 }
     let s := st { hStack e with x := [(11, 0)] }
     let s' := st { hStack e with x := [(14, 0x400000001)] }
     s.stackOf.length < 80 ∧ s.stackOf ≠ [] ∧ s.stackOf[(s.me.X 10).toNat]? = some e ∧ s'.stackOf[(s'.me.X 10).toNat]? = some e
      ∧ 1 ≤ (s'.me.X 14).toNat / 2 ^ 32 ∧ (s'.me.X 14).toNat / 2 ^ 32 ≤ 4 ∧ (s.me.X 14).toNat / 2 ^ 32 < 1
      ∧ ([.lif { form := .ext, a := 1, xop := 1, w2 := 0x00050004 },
      .lifn { form := .ext, a := 1, xop := 2, w2 := 0x00050004 }, .lelse { b := 1 }, .ljoin {}, .lbrk { a := 1 },
      .lcont { a := 1, b := 1 }, .msPush { a := 1 }, .msPop { b := 1 }, .msDepth { d := 14, b := 2 },
      .msRdm { d := 14, a := 10, b := 3 }, .msRdr { d := 14, a := 10, b := 4 }, .msRdp { d := 14, a := 10, b := 5 },
      .msWrm { d := 14, a := 10, b := 6 }, .msWrr { d := 14, a := 10, b := 7 }, .msWrp { d := 14, a := 10, b := 8 }] : List Instr).all (fun i => Machine.guard i s.me) = true)
    ∧ (80 ≤ (st hDeep).stackOf.length ∧ guard (.lif { form := .ext, a := 1, xop := 1, w2 := 0x00050004 }) hDeep = true
      ∧ guard (.lifn { form := .ext, a := 1, xop := 2, w2 := 0x00050004 }) hDeep = true ∧ guard (.msPush { a := 1 }) hDeep = true)
    ∧ ((st h0).stackOf = [] ∧ (st h0).stackOf.length ≤ ((st h0).me.X 10).toNat
      ∧ ([.lif { form := .ext, a := 1, xop := 1, w2 := 0x00050004 },
      .lifn { form := .ext, a := 1, xop := 2, w2 := 0x00050004 }, .lelse { b := 1 }, .ljoin {}, .lbrk { a := 1 },
      .lcont { a := 1, b := 1 }, .msPush { a := 1 }, .msPop { b := 1 }, .msDepth { d := 14, b := 2 },
      .msRdm { d := 14, a := 10, b := 3 }, .msRdr { d := 14, a := 10, b := 4 }, .msRdp { d := 14, a := 10, b := 5 },
      .msWrm { d := 14, a := 10, b := 6 }, .msWrr { d := 14, a := 10, b := 7 }, .msWrp { d := 14, a := 10, b := 8 }] : List Instr).all (fun i => Machine.guard i h0) = true) := by decide +kernel

theorem witness_WaitsAndHeaders :
    guard (.pause { d := 1, a := 1 }) h0 = true ∧ guard (.yield { b := 1 }) h0 = true ∧ guard (.dfwait { d := 1, a := 1, b := 2 }) h0 = true
    ∧ (h0.inLine 11 = false ∧ ({ h0 with wait := { code := 11 } } : Hart).inLine 11 = true)
    ∧ (∀ n, n < 12 → h0.doneFlag n = false)
    ∧ ((0xFFF : BitVec 12).getLsbD 11 = true ∧ ({ h0 with engFlags := [⟨7, 11, false⟩] } : Hart).doneFlag 11 = true) := by decide +kernel


/-- What an instruction that has no such operand is: extended, with every field at its greatest value. -/
def argsBad : Args := { form := .ext, d := 255, a := 255, b := 255, ty := 15, xop := 0xFFF, w2 := 0xFFFFFFFF }
theorem witness_IllegalElse :
    ∀ c ∈ ([Instr.vadd, Instr.vsub, Instr.vmul, Instr.vmulh, Instr.vmulhsu, Instr.vdiv, Instr.vrem, Instr.vand, Instr.vor, Instr.vxor,
      Instr.vandn, Instr.vorn, Instr.vxnor, Instr.vnot, Instr.vsll, Instr.vsrl, Instr.vsra, Instr.vsel, Instr.vmov,
      Instr.vmbit, Instr.vlid, Instr.vpopc, Instr.vclz, Instr.vctz, Instr.vbrev, Instr.vrev8, Instr.vabs, Instr.vshfl,
      Instr.vrotl, Instr.vslup, Instr.vsldn, Instr.vbfly, Instr.vmatch, Instr.vballot, Instr.vany, Instr.vall, Instr.vcnt,
      Instr.vext, Instr.vextx, Instr.vext64, Instr.vbcst, Instr.vbcst64, Instr.vins, Instr.mand, Instr.mor, Instr.mxor,
      Instr.mandn, Instr.morn, Instr.mxnor, Instr.mmov, Instr.mset, Instr.mfx, Instr.mtx, Instr.mpopc, Instr.mffs, Instr.mbz,
      Instr.mbnz, Instr.mball, Instr.mbnall] : List (Args → Instr)), Machine.guard (c argsBad) (st h0).me = false := by
  decide +kernel
/-! ### Standard instructions, traps and returns -/

theorem test_standard_computing : after (exec (.standardInstruction (.imm .addi 2 10 0xFFF)) (st h0)) (fun t => t.me.X 2 == 4 && t.me.pc == 0x10004) = true
    ∧ after (exec (.standardInstruction (.lui 0 1)) (st h0)) (fun t => t.me.X 0 == 0) = true
    ∧ after (exec (.standardInstruction (.reg .mulhu 2 13 13)) (st h0)) (fun t => t.me.X 2 == 0xFE01000000000000 + 0x1FE) = true
    ∧ after (exec (.standardInstruction (.reg .div 2 10 0)) (st h0)) (fun t => t.me.X 2 == 0xFFFFFFFFFFFFFFFF) = true := by decide +kernel
theorem test_jalr : after (exec (.standardInstruction (.jalr 1 12 5)) (st h0)) (fun t => t.me.pc == 0x44 && t.me.X 1 == 0x10004) = true
    ∧ after (exec (.standardInstruction (.jalr 1 12 2)) (st h0)) (fun t => t.trapped && t.me.csr.mcause == 0 && t.me.csr.stval == 0x42 && t.me.X 1 == 0) = true := by
  decide +kernel
theorem test_store_then_load : after (exec (.standardAccess .sd 10 13 0) (st h0)) (fun t =>
    after (exec (.standardAccess .lb 2 13 0) t) (fun u => u.me.X 2 == 5)) = true := by decide +kernel
theorem test_misaligned_load : after (exec (.standardAccess .lw 2 13 1) (st h0)) (fun t =>
    t.me.csr.scause == 4 && t.me.csr.stval == 0xFF00000000000101 && t.me.csr.sepc == 0x10000 && t.me.mode == .s) = true := by decide +kernel
theorem test_csr_lfcsr : after (exec (.lfcsrAccess { op := .rw, useImm := true, csr := 0x800, src := 31, rd := 2 }) (st { h0 with fflags := 1 })) (fun t =>
    t.me.lfcsr == 31 && t.me.X 2 == 1) = true := by decide +kernel
theorem test_csr_too_high : after (exec (.csrWrite { op := .rs, useImm := false, csr := 0x300, src := 0, rd := 2 }) (st h0)) (fun t =>
    t.me.csr.scause == 2 && t.me.csr.stval == 0x30002173) = true := by decide +kernel
theorem test_ecall_to_shim : after (exec .ecall (st { h0 with x := [(17, 1)], csr := { Csrs.start with stvec := 0x4000 }, att := ⟨3, 15⟩ })) (fun t =>
    t.me.csr.scause == 8 && t.me.csr.sepc == 0x10000 && t.me.pc == 0x4000 && t.me.mode == .s && t.me.attS == ⟨3, 15⟩ && t.me.att == {}) = true := by
  decide +kernel
theorem test_sret : after (exec (.sretMret false) (st { h0 with mode := .s, csr := { Csrs.start with sepc := 0x10004 }, attS := ⟨3, 15⟩ })) (fun t =>
    t.me.pc == 0x10004 && t.me.mode == .u && t.me.att == ⟨3, 15⟩) = true := by decide +kernel
theorem test_retirement : after (exec .ecall (st { h0 with x := [], home := none, handler := true })) (fun t => !(t.hart 0).live) = true := by decide +kernel
theorem test_uiret : after (exec .uiret (st { h0 with uiepc := 0x10040, uie := false, attU := ⟨1, 2⟩ })) (fun t =>
    t.me.pc == 0x10040 && t.me.uie && t.me.att == ⟨1, 2⟩) = true := by decide +kernel

theorem witness_JumpsAndBranches :
    (((0x10000 : W64) + ((4 : BitVec 20) ++ (0 : BitVec 1)).signExtend 64).toNat % 4 = 0 ∧ ((0x10000 : W64) + ((3 : BitVec 20) ++ (0 : BitVec 1)).signExtend 64).toNat % 4 ≠ 0)
    ∧ ((st { h0 with mode := .s }).me.csr.mstatus.getLsbD 20 = false) := by decide +kernel

theorem witness_StandardLoadsAndStores :
    (Placed (st h0) (stdJob .ld 14 13 0 h0) ∧ Placed (st h0) (stdJob .sd 10 13 0 h0)
      ∧ (st h0).reach 0 (h0.X 13) 8 .load = .here ⟨.tcm 0, 0x100⟩ ∧ (st h0).reach 0 (h0.X 13) 8 .store = .here ⟨.tcm 0, 0x100⟩
      ∧ inDomain (h0.X 13) = false ∧ (⟨.tcm 0, 0x100⟩ : Loc).isDmi = false ∧ h0.ops = [] ∧ h0.tag = 0
      ∧ NothingFirst (st h0) (stdJob .ld 14 13 0 h0) [⟨.tcm 0, 0x100⟩] ∧ NothingFirst (st h0) (stdJob .sd 10 13 0 h0) [⟨.tcm 0, 0x100⟩])
    ∧ (h0.ordered = false ∧ h0.conflicts (stdJob .lw 14 13 1 h0) = false ∧ (h0.X 13 + 1).toNat % 4 ≠ 0) := by
  unfold Placed NothingFirst; decide +kernel

theorem witness_ReservationsAndAmos :
    (let o : AmoArgs := { dbl := true, aq := false, rl := false, rd := 14, rs1 := 13, rs2 := 10 }
     let r : Reservation := ⟨⟨.tcm 0, 0x100⟩, 8⟩
     o.aq = false ∧ h0.ordered = false ∧ h0.ops = [] ∧ inLocal (h0.X 13) = true ∧ (h0.X 13).toNat % 8 = 0
      ∧ (st h0).localAt 0 (h0.X 13) 8 false true = some ⟨.tcm 0, 0x100⟩ ∧ (st h0).localAt 0 (h0.X 13) 8 false false = some ⟨.tcm 0, 0x100⟩
      ∧ h0.reservation = none ∧ r.covers ⟨.tcm 0, 0x100⟩ = true ∧ r.covers ⟨.tcm 0, 0x180⟩ = false) := by decide +kernel

theorem witness_CsrAccess :
    (csrAllowed { op := .rs, useImm := false, csr := 0xC00, src := 0, rd := 2 } h0 = true ∧ (csrValue (st h0) 0xC00).isSome = true
      ∧ csrWrites { op := .rs, useImm := false, csr := 0xC00, src := 0, rd := 2 } = false)
    ∧ (∀ n ∈ [0x804, 0x805, 0x105, 0x140, 0x141, 0x142, 0x143, 0x305, 0x340, 0x341, 0x342, 0x343, 0x302],
        (stT { tink with mode := .m }).me.tinker = true ∧ csrAllowed { op := .rw, useImm := false, csr := BitVec.ofNat 12 n, src := 10, rd := 2 } { tink with mode := .m } = true
        ∧ (csrValue (stT { tink with mode := .m }) n).isSome = true)
    ∧ (h0.mode.code < bitsOf 0x300 9 8 ∧ csrValue (st h0) 0x8FF = none)
    ∧ (h0.tinker = false ∧ h0.ops = [] ∧ h0.oplog = [] ∧ csrWrites { op := .rw, useImm := false, csr := 0x800, src := 0, rd := 2 } = true)
    ∧ (h0.doneFlags = 0 ∧ ({ h0 with engFlags := [⟨7, 0, false⟩] } : Hart).doneFlags ≠ 0
      ∧ (csrNew { op := .rw, useImm := false, csr := 0x801, src := 10, rd := 2 } { h0 with x := [(10, 0x1000)] } 0).getLsbD 12 = true)
    ∧ (bitsOf (csrNew { op := .rw, useImm := true, csr := 0x802, src := 1, rd := 2 } (hStack { mask := 1, kind := 4, rpc := 0, ppc := 0 })
        (BitVec.ofNat 64 1)).toNat 6 0 ≤ (st (hStack { mask := 1, kind := 4, rpc := 0, ppc := 0 })).stackOf.length)
    ∧ (bitsOf (csrNew { op := .rw, useImm := true, csr := 0x803, src := 4, rd := 2 } h0 (BitVec.ofNat 64 4)).toNat 4 0 = 4 ∧ 16 * 4 ≤ h0.window
      ∧ bitsOf (csrNew { op := .rw, useImm := true, csr := 0x803, src := 1, rd := 2 } h0 (BitVec.ofNat 64 4)).toNat 4 0 = 1) := by decide +kernel

theorem witness_TrapIntoSupervisor : h0.mode ≠ .m ∧ h0.inShadow = false ∧ h0.csr.medeleg.getLsbD 31 = true ∧ h0.csr.medeleg.getLsbD 2 = true := by
  decide +kernel
theorem witness_TrapIntoMachine : h0.csr.medeleg.getLsbD 9 = false ∧ ({ h0 with mode := .m } : Hart).mode = .m
    ∧ ({ h0 with inShadow := true } : Hart).inShadow = true ∧ h0.tinker = false ∧ ((st h0).core (st h0).myCore).holder = some 1 := by decide +kernel
theorem witness_TrapReturns : (Csrs.start.mstatus.getLsbD 22 = false) ∧ ({ h0 with mode := .s } : Hart).mode = .s ∧ ({ h0 with mode := .m } : Hart).mode = .m
    ∧ h0.mode ≠ .m ∧ h0.mode = .u := by decide +kernel
theorem witness_CallsAndBreakpoints : (h0.mode = .u ∧ ({ h0 with x := [(17, 1)] } : Hart).X 17 ≠ 0) ∧ (({ h0 with mode := .s } : Hart).tinker = false)
    ∧ (h0.dbg.running = none ∧ h0.breakHalts = false)
    ∧ (({ h0 with dbg := { dcsr := 0x1000 } } : Hart).dbg.dcsr.getLsbD 12 = true ∧ ({ h0 with dbg := { dcsr := 0x2000 } } : Hart).dbg.dcsr.getLsbD 13 = true
      ∧ ({ h0 with dbg := { dcsr := 0x8000 } } : Hart).dbg.dcsr.getLsbD 15 = true) := by decide +kernel
theorem witness_Retirement :
    (let s := st { h0 with x := [] }
     s.me.mode = .u ∧ s.me.X 17 = 0 ∧ s.me.tinker = false ∧ s.releaseDone 0 5 = true ∧ s.commandsDone 0 = true ∧ s.me.streams = [] ∧ s.me.fork = none)
    ∧ (let s := stT tink
       s.me.mode = .s ∧ s.me.X 17 = 0 ∧ s.me.tinker = true ∧ s.releaseDone s.cur 5 = true ∧ s.me.ops = [] ∧ s.me.oplog = [] ∧ s.me.taken = none) := by
  decide +kernel
theorem witness_InterruptReturnAndWait :
    (guard .uiret h0 = true ∧ h0.taken = none) ∧ ({ h0 with mode := .s } : Hart).mode ≠ .u
    ∧ (Csrs.start.mstatus.getLsbD 21 = false ∧ Csrs.start.mip &&& Csrs.start.mie = 0
      ∧ ({ Csrs.start with mip := 2, mie := 2 } : Csrs).mip &&& ({ Csrs.start with mip := 2, mie := 2 } : Csrs).mie ≠ 0) := by decide +kernel
theorem witness_IllegalWhereNotAdmitted : (Instr.vadd { d := 3 }).osier ≠ none ∧ guard (.vadd { d := 3 }) tink = false
    ∧ guard (.gateRd { form := .ext, d := 14, a := 10, xop := 1 }) h0 = false ∧ guard (.vadd { form := .ext, d := 64 }) h0 = false
    ∧ guard (.gArm { d := 14, a := 10 }) { tink with mode := .u } = false := by decide +kernel

/-! ### Memory -/

/-- A hart whose lane 0 alone is active, with a TCM address in the lane pair of v6, and small numbers elsewhere. -/
def hL : Hart :=
  { h0 with depth := 1, stack := [{ mask := 1, kind := 1, rpc := 0, ppc := 0 }]
            v := [(96, 0x11223344), (128, 0x55667788), (160, 0x99AABBCC), (192, 0x200), (224, 0xFF000000)] }

/-- Harts that have a plain store, a load's value, and a no-return atomic outstanding. -/
def jobL : MemJob := { kind := .load, size := 4, lanes := [⟨0, 0xFF00000000000100, 0, 0⟩], dest := .v 3, pc := 0x10000, words := [], tag := 0 }
def jobS : MemJob := { jobL with kind := .store, dest := .none, lanes := [⟨0, 0xFF00000000000100, 7, 0⟩] }
def jobA : MemJob := { jobS with kind := .amoNr }
def hLoad : Hart := { h0 with ops := [{ job := jobL, vw := [(96, 9)] }, { job := { jobL with dest := .x 14 }, xw := [(14, 9)] }] }
def hStore : Hart := { h0 with ops := [{ job := jobS, writes := [(⟨.tcm 0, 0x100⟩, 7), (⟨.tcm 0, 0x101⟩, 0)], locs := [⟨.tcm 0, 0x100⟩] }] }
def hAtomic : Hart := { h0 with ops := [{ job := jobA, locs := [⟨.tcm 0, 0x100⟩] }] }

/-- A byte that hart 0 has performed on device memory and not published; a release of it at device scope is under way. -/
def stU : State :=
  let s := st { h0 with rel := some 3 }
  { s with cores := [(0, { holder := some 1, unpub := [{ hart := 0, tag := 0, loc := ⟨.hbm, 0x80⟩, byte := 7 }] })] }

theorem test_vld_value_returns_later : after (exec (.vld { d := 3, a := 13, b := 1 }) ((st hL).onCore 0 (fun c => { c with tcm := [(0x101, 2)] }))) (fun t =>
    t.me.V 3 0 == 0x11223344 && t.me.pc == 0x10004 && after (exec .loadReturn t) (fun u => u.me.V 3 0 == 0x200 && u.me.ops == [])) = true := by
  decide +kernel
theorem test_vst_forwards_to_own_hart : after (exec (.vst { d := 3, a := 13, b := 1 }) (stB hL)) (fun t =>
    t.readByte 0 0 ⟨.tcm 0, 0x101⟩ == 0x33 && t.readByte 1 0 ⟨.tcm 0, 0x101⟩ == 0
      && after (exec .storePerformed t) (fun u => u.readByte 1 0 ⟨.tcm 0, 0x101⟩ == 0x33 && u.me.ops == [])) = true := by decide +kernel
theorem test_vamo_lanes_in_order : after (exec (.vamo { d := 1, a := 13, b := 4 }) (st { h0 with depth := 1, stack := [{ mask := 7, kind := 1, rpc := 0, ppc := 0 }] }))
    (fun t => leNat ((t.core 0).tcm.readBytes 0x100 4) == 13 && (t.me.ops.map PendOp.vw) == [[(32, 0), (33, 7), (34, 6)]]) = true := by decide +kernel
theorem test_misaligned_lane : after (exec (.vld { d := 3, a := 13, b := 2 }) (st h0)) (fun t =>
    t.me.csr.scause == 4 && t.me.csr.stval == 0xFF00000000000102 && t.me.pc == 0) = true := by decide +kernel
theorem test_fence_rel_waits : after (exec (.fenceRel { form := .ext, rsc := 3, ord := 2 }) stU) (fun t => t.me.pc == 0x10000 && t.me.wait.code == 8) = true := by
  decide +kernel
theorem test_home_order_publishes : after (exec .homeOrder stU) (fun t => t.hbm == [(0x80, 7)] && (t.core 0).unpub == []) = true := by decide +kernel
theorem test_tcm_bound : after (exec (.uld { d := 14, a := 13, b := 0 }) (st { h0 with tcmSize := 0x104 })) (fun t => t.me.csr.scause == 5) = true := by
  decide +kernel

theorem witness_Loads :
    (let o : Args := { d := 3, a := 13, b := 1 }
     let a := laneAddr false (dispOf o) o
     guard (.vld o) hL = true ∧ Ready (st hL) (loadJob (.vld o) o false 0 a hL)
      ∧ (∀ l ∈ active hL o, (st hL).reach 0 (a hL l) 4 .load = .here ⟨.tcm 0, 0x100⟩) ∧ hL.atomicPending [⟨.tcm 0, 0x100⟩] 4 = false
      ∧ (⟨.tcm 0, 0x100⟩ : Loc).isDmi = false)
    ∧ (let o : Args := { form := .ext, d := 3, b := 6, xop := 1 }
       let a := laneAddr true (dispOf o) o
       guard (.vldPair o) hL = true ∧ Ready (st hL) (loadJob (.vldPair o) o false 0 a hL)
        ∧ ∀ l ∈ active hL o, (st hL).reach 0 (a hL l) 4 .load = .here ⟨.tcm 0, 0x200⟩)
    ∧ (let o : Args := { form := .ext, d := 4, b := 6, xop := 3 }
       let a := laneAddr true (dispOf o) o
       guard (.vld64 o) hL = true ∧ Ready (st hL) (loadJob (.vld64 o) o true 0 a hL)
        ∧ ∀ l ∈ active hL o, (st hL).reach 0 (a hL l) 8 .load = .here ⟨.tcm 0, 0x200⟩)
    ∧ (let o : Args := { d := 3, a := 12, b := 1 }
       guard (.vlds o) hL = true ∧ Ready (stB hL) (loadJob (.vlds o) o false 0 (scratchAddr o) hL)
        ∧ ∀ l ∈ active hL o, (stB hL).reach 0 (scratchAddr o hL l) 4 .load = .here ⟨.scratch 0, 64⟩)
    ∧ (let o : Args := { form := .ext, d := 3, a := 13, b := 1, xop := 1 }
       let a := laneAddr false (dispOf o) o
       guard (.vldRc o) hL = true ∧ Ready (st hL) (loadJob (.vldRc o) o false 1 a hL)
        ∧ ∀ l ∈ active hL o, (st hL).reach 0 (a hL l) 4 .load = .here ⟨.tcm 0, 0x100⟩)
    ∧ (let o : Args := { d := 14, a := 13, b := 0 }
       guard (.uld o) hL = true ∧ Ready (st hL) (uldJob o hL) ∧ (st hL).reach 0 (hL.X 13 + o.imm.signExtend 64) (uldJob o hL).size .load = .here ⟨.tcm 0, 0x100⟩
        ∧ hL.atomicPending [⟨.tcm 0, 0x100⟩] (uldJob o hL).size = false)
    ∧ (let o : Args := { d := 14, a := 13, b := 0 }
       ((st hL).clearWay 0 hL.nextOrder (uldJob o hL) [⟨.tcm 0, 0x100⟩]).1 = true ∧ hL.mustDrain (uldJob o hL) [⟨.tcm 0, 0x100⟩] = false
        ∧ ((st hAtomic).clearWay 0 hAtomic.nextOrder (uldJob o hAtomic) [⟨.tcm 0, 0x100⟩]).1 = true ∧ hAtomic.mustDrain (uldJob o hAtomic) [⟨.tcm 0, 0x100⟩] = true) := by
  refine ⟨?_, ?_, ?_, ?_, ?_, ?_, ?_⟩ <;> (try unfold Ready Placed) <;> decide +kernel

theorem witness_Stores :
    (let o : Args := { d := 3, a := 13, b := 1 }
     let a := laneAddr false (dispOf o) o
     guard (.vst o) hL = true ∧ Ready (st hL) (storeJob (.vst o) o false a hL) ∧ hL.tag = 0
      ∧ NothingFirst (st hL) (storeJob (.vst o) o false a hL) ((active hL o).map (fun _ => ⟨.tcm 0, 0x100⟩))
      ∧ ∀ l ∈ active hL o, (st hL).reach 0 (a hL l) 4 .store = .here ⟨.tcm 0, 0x100⟩)
    ∧ (let o : Args := { form := .ext, d := 4, b := 6, xop := 3 }
       let a := laneAddr true (dispOf o) o
       guard (.vst64 o) hL = true ∧ Ready (st hL) (storeJob (.vst64 o) o true a hL)
        ∧ NothingFirst (st hL) (storeJob (.vst64 o) o true a hL) ((active hL o).map (fun _ => ⟨.tcm 0, 0x200⟩))
        ∧ ∀ l ∈ active hL o, (st hL).reach 0 (a hL l) 8 .store = .here ⟨.tcm 0, 0x200⟩)
    ∧ (let o : Args := { d := 3, a := 12, b := 1 }
       guard (.vsts o) hL = true ∧ Ready (stB hL) (storeJob (.vsts o) o false (scratchAddr o) hL)
        ∧ NothingFirst (stB hL) (storeJob (.vsts o) o false (scratchAddr o) hL) ((active hL o).map (fun _ => ⟨.scratch 0, 64⟩))
        ∧ ∀ l ∈ active hL o, (stB hL).reach 0 (scratchAddr o hL l) 4 .store = .here ⟨.scratch 0, 64⟩)
    ∧ (let o : Args := { d := 14, a := 13, b := 0 }
       guard (.ust o) hL = true ∧ Ready (st hL) (ustJob o hL) ∧ NothingFirst (st hL) (ustJob o hL) [⟨.tcm 0, 0x100⟩]
        ∧ (st hL).reach 0 (hL.X 13 + o.imm.signExtend 64) (ustJob o hL).size .store = .here ⟨.tcm 0, 0x100⟩) := by
  refine ⟨?_, ?_, ?_, ?_⟩ <;> unfold Ready Placed NothingFirst <;> decide +kernel

theorem witness_MisalignedAccesses :
    ([.vld { d := 3, a := 10, b := 2 }, .vldPair { form := .ext, d := 3, b := 6, xop := 1 },
      .vld64 { form := .ext, d := 4, a := 10, b := 2, xop := 2 }, .vst { d := 3, a := 10, b := 2 },
      .vst64 { form := .ext, d := 4, a := 10, b := 2, xop := 2 }, .vlds { d := 3, a := 10, b := 2 },
      .vsts { d := 3, a := 10, b := 2 }, .uld { d := 14, a := 10, b := 1 }, .ust { d := 14, a := 10, b := 1 },
      .vldRc { form := .ext, d := 3, a := 10, b := 2, xop := 1 }, .vamo { d := 3, a := 10, b := 2 },
      .vamoCas { form := .ext, d := 3, a := 10, b := 2, xop := 9 }, .vamoNr { d := 3, a := 10, b := 2 }] : List Instr).all (fun i => guard i hL) = true
    ∧ hL.ordered = false ∧ active hL { d := 3, a := 10, b := 1 } = [0] ∧ (laneAddr false 0 { d := 3, a := 10, b := 1 } hL 0).toNat % 4 ≠ 0
    ∧ (hL.X 10 + 1).toNat % 8 ≠ 0 := by decide +kernel

theorem witness_Atomics :
    (let o : Args := { d := 3, a := 13, b := 1 }
     let j := atomicJob (.vamo o) o true hL
     guard (.vamo o) hL = true ∧ j.kind = .amo ∧ Ready (st hL) j ∧ hL.tag = 0 ∧ hL.ops.any PendOp.waits = false ∧ j.lanes ≠ []
      ∧ ∀ l ∈ j.lanes, (st hL).placeOf 0 j l ≠ none)
    ∧ (let o : Args := { form := .ext, d := 3, a := 13, b := 1, xop := 9 }
       let j := atomicJob (.vamoCas o) o true hL
       guard (.vamoCas o) hL = true ∧ j.kind = .amo ∧ Ready (st hL) j ∧ j.lanes ≠ [] ∧ ∀ l ∈ j.lanes, (st hL).placeOf 0 j l ≠ none)
    ∧ (∀ d ∈ [14, 0], let o : Args := { d, a := 13, b := 10 }
       let j := uamoJob o hL
       guard (.uamo o) hL = true ∧ (j.kind = if d = 0 then .amoNr else .amo) ∧ Ready (st hL) j ∧ j.lanes ≠ [] ∧ ∀ l ∈ j.lanes, (st hL).placeOf 0 j l ≠ none)
    ∧ (let o : Args := { d := 3, a := 13, b := 1 }
       let j := atomicJob (.vamoNr o) o false hL
       guard (.vamoNr o) hL = true ∧ j.kind = .amoNr ∧ Ready (st hL) j ∧ (∀ l ∈ j.lanes, (st hL).placeOf 0 j l ≠ none)
        ∧ ((st hL).clearWay 0 hL.nextOrder j [⟨.tcm 0, 0x100⟩]).1 = true
        ∧ ((st hL).clearWay 0 hL.nextOrder { j with acq := true } [⟨.tcm 0, 0x100⟩]).1 = true
        ∧ ((st hL).clearWay 0 hL.nextOrder { j with kind := .amo } [⟨.tcm 0, 0x100⟩]).1 = true)
    ∧ (jobA.tag = 0 ∧ jobA.size = 4 ∧ ∀ u ∈ ((st hL).core 0).unpub, ∀ k, k < 4 → u.loc ≠ (⟨.hbm, 0⟩ : Loc).plus k) := by
  refine ⟨?_, ?_, ?_, ?_, ?_⟩ <;> (try unfold Ready Placed) <;> decide +kernel

theorem witness_Fences :
    (guard (.fenceAcq { form := .ext, rsc := 3, ord := 1 }) h0 = true ∧ guard (.fenceRel { form := .ext, rsc := 3, ord := 2 }) h0 = true
      ∧ guard (.fenceAr { form := .ext, rsc := 3, ord := 3 }) h0 = true ∧ guard (.fenceSc { form := .ext, rsc := 3 }) h0 = true ∧ h0.bound = true
      ∧ guard (.fenceSc { form := .ext, rsc := 4 }) h0 = true)
    ∧ ((st h0).releaseDone 0 3 = true ∧ stU.releaseDone 0 3 = false ∧ (st h0).releaseDone 0 0 = true)
    ∧ (let w : Wait := { code := 8, a := 1, b := 0 }
       w.code = 8 ∧ w.a = 1 ∧ w.b.toNat ≤ (st h0).cycle ∧ (h0.wait.code ≠ 8 ∨ h0.wait.a ≠ 1))
    ∧ (∀ u ∈ ((st h0).core 0).unpub, (u.hart, u.loc) ∉ h0.scReads) ∧ (∀ tr ∈ (st h0).trackers, 0 ∉ tr.2.readers)
    ∧ (st h0).allPerformed 0 = true ∧ h0.ordered = false ∧ (st h0).domain.size = 0 := by decide +kernel

/-- A hart in M mode, whose accesses are not translated. -/
def hMm : Hart := { h0 with mode := .m, x := [(10, 0x1000)] }

theorem witness_CacheControl :
    ((st hMm).cctlAt { a := 10 } = some (0x1000, 0x1000) ∧ (st h0).cctlAt { a := 13 } = none ∧ hMm.ordered = false)
    ∧ ([.cctlPf1 { a := 10 }, .cctlPf2 { a := 10, b := 1 }, .cctlInv { a := 10, b := 2 }, .cctlMaf { d := 14, b := 3 }, .cctlMafclr { a := 10, b := 4 }]
        : List Instr).all (fun i => guard i hMm && guard i h0) = true
    ∧ (h0.atomicsDone = true ∧ h0.caddDone = true ∧ h0.tinker = false ∧ hAtomic.atomicsDone = false)
    ∧ (guard (.cctlMaf { d := 14, b := 3 }) tink = true ∧ guard (.cctlMafclr { a := 10, b := 4 }) tink = true ∧ tink.ordered = false ∧ tink.tinker = true)
    ∧ ((st hMm).core 0).canFill 32 = true ∧ (st hMm).migrating.contains (0x1000 / 4096) = false
    ∧ (∀ u ∈ ((st hMm).core 0).unpub, u.loc.place = .hbm → lineOf u.loc.off ≠ lineOf 0x1000) := by decide +kernel

theorem witness_PerformingAndPublishing :
    (∃ p, (st hLoad).me.ops[0]? = some p ∧ p.waits = false ∧ p.acks = [] ∧ p.vw.reverse.find? (fun c => c.1 == 32 * 3 + 0) = some (96, 9)) ∧
    (∃ p, (st hLoad).me.ops[1]? = some p ∧ p.waits = false ∧ p.acks = [] ∧ p.xw = [(14, 9)]) ∧
    (∃ p, (st hStore).me.ops.find? PendOp.waits = some p ∧ p.job.kind = .store ∧ p.job.tag = 0 ∧ p.job.rel = false
      ∧ (∀ w ∈ p.writes, w.1.isDmi = false ∧ w.1.place = .tcm 0) ∧ (∀ l ∈ p.locs, l.isDmi = false)
      ∧ ∀ q ∈ (st hStore).me.ops, q.waits = false → q.writes = []) ∧
    (∃ p, (st hAtomic).me.ops.find? PendOp.waits = some p ∧ p.job.kind = .amoNr ∧ (∀ w ∈ p.writes, w.1.isDmi = false)
      ∧ (∀ l ∈ p.locs, l.isDmi = false) ∧ (∀ w ∈ p.writes, (st hAtomic).tileBusy w.1 = false)
      ∧ (st hAtomic).canOrderAll p.homeLines (some 0) = true) ∧
    (∃ u, stU.me.rel = some 3 ∧ stU.allPerformed 0 = true ∧ stU.nextToOrder = some u ∧ u.loc.place = .hbm ∧ u.tag = 0 ∧ stU.focus.unit ≠ 1
      ∧ stU.canOrderAll [(0, lineOf u.loc.off)] (some 0) = true) ∧
    ((st { h0 with rel := some 3 }).me.rel = some 3 ∧ (st { h0 with rel := some 3 }).releaseDone 0 3 = true) :=
  ⟨⟨_, rfl, by decide +kernel⟩, ⟨_, rfl, by decide +kernel⟩, ⟨_, rfl, by decide +kernel⟩, ⟨_, rfl, by decide +kernel⟩,
    ⟨_, by decide +kernel, by decide +kernel, rfl, by decide +kernel⟩, by decide +kernel⟩

/-- A line that core 0 holds, clean in a state with a tracker on its way to cluster 0, and one that core 0 holds with a store not
yet published. -/
def stC : State :=
  { st h0 with
    cores := [(0, { holder := some 1, l1 := [{ line := 3 }, { line := 2 ^ 40 + 4 }]
                    unpub := [{ hart := 0, tag := 1, loc := ⟨.hbm, 512⟩, byte := 7 }] })]
    trackers := [(5, { slice := 0, line := 3, tag := 0, harts := [], sent := [0], unacked := [0] }),
                 (6, { slice := 0, line := 9, tag := 0, harts := [], sent := [], unacked := [0] })]
    dir := [(3, { st := 2, ptrs := [0] })], migrating := [7] }

theorem witness_CoherenceSteps :
    (∃ tr, stC.trackers.look 5 = some tr ∧ 0 ∈ tr.sent ∧ (stC.core (0 * 4 + 0)).holds (lineKey tr.tag tr.line) = true ∧ (stC.core 0).defer.length < 63
      ∧ ∀ e ∈ stC.trackers, e.2.slice = tr.slice → 0 ∈ e.2.sent → tr.order ≤ e.2.order) ∧
    (∃ tr, stC.trackers.look 6 = some tr ∧ 0 ∈ tr.unacked ∧ 0 ∉ tr.sent ∧ tr.unacked = [0]
      ∧ ∀ e ∈ stC.trackers, e.2.slice = tr.slice → 0 ∈ e.2.unacked → tr.order ≤ e.2.order) ∧
    ((0 : Nat) < Config.cores + Config.tinkers ∧ 8 * 128 < Config.hbmBytes ∧ stC.migrating.contains (8 * 128 / 4096) = false ∧ (stC.core 0).canFill 8 = true) ∧
    ((stC.core 0).holds 3 = true ∧ (stC.core 0).dirty 3 = false) ∧ (stC.dirEntry 3).st = 2 ∧ (stT tink).me.tinker = true ∧ 7 ∈ stC.migrating ∧
    ((stC.core 0).dirty (2 ^ 40 + 4) = true ∧ (2 ^ 40 + 4) / 2 ^ 40 ≠ 0) ∧
    ((stC.dirEntry 9).st ≠ 2 ∧ 7 < 2 ^ 35 ∧ 9 * 4096 + 4096 ≤ Config.hbmBytes ∧ stC.moves.look 7 = none
      ∧ ({ stC with moves := [(7, 9)] } : State).moves.look 7 = some 9
      ∧ ∀ k ∈ ((({ stC with moves := [(7, 9)] } : State).refusePage 0 7).core 0).held, k.page ≠ 7) ∧
    ((stU.core 0).dirty 1 = true ∧ (stU.ctx 0).pages.contains (1 / 32) = false ∧ stU.rootSpent (ctxOf stU 0) 1 = true
      ∧ (({ stU with ctxs := [(1, { made := true, pages := [0] })] } : State).ctx 0).pages.contains (1 / 32) = true) :=
  ⟨⟨_, rfl, by decide +kernel⟩, ⟨_, rfl, by decide +kernel⟩, by decide +kernel⟩

/-- A hart with a logged load of its TCM, a held store and an entry that waits for a verdict. -/
def entryOf (j : MemJob) (st : LogState) (n seq : Nat) : LogEntry := { job := j, active := 1, att := {}, state := st, npage := 1, seq, order := n }
def hLog : Hart :=
  { h0 with oplog := [(0, { entryOf jobL .walking 1 1 with job := { jobL with mstatus := Csrs.start.mstatus } }), (1, { entryOf jobS .held 0 2 with cause := 24 }),
                      (2, entryOf jobS .verdict 2 3)] }
def verdictMsg : Msg := { core := 0, tag := 254, source := 2304, payload := leBytes 8 (2 * 256 + 3 * 65536) }
def shootMsg : Msg := { core := 0, tag := 253, source := 2304, payload := leBytes 8 (16 * 4096 + 9) }

theorem witness_OperandLogSteps :
    (∃ e, (st hLog).me.oplog.look 0 = some e ∧ e.state = .walking ∧ e.engine = none ∧ e.job.kind = .load ∧ e.job.acq = false ∧ e.job.mode = hLog.mode
      ∧ e.job.mstatus = hLog.csr.mstatus ∧ hLog.ops = [] ∧ e.job.lanes ≠ []
      ∧ (st hLog).worldFault 0 e.job ((st hLog).placeOf 0 e.job) = none ∧ (st hLog).movedPages ((st hLog).located 0 e.job) = []
      ∧ (∀ l ∈ e.job.lanes, (st hLog).heldAt 0 l.addr = false)
      ∧ ∀ l ∈ e.job.lanes, inDomain l.addr = false ∧ (st hLog).reach 0 l.addr e.job.size .load = .here ⟨.tcm 0, 0x100⟩
          ∧ (st hLog).tilePartial ⟨.tcm 0, 0x100⟩ = false) ∧
    (∃ p, hLog.dueEntry = some p ∧ hLog.mayDefer = true) ∧
    (let s := { st hLog with net := [verdictMsg, shootMsg] }
     (∃ m e, s.net[0]? = some m ∧ m.tag = 254 ∧ m.special = true ∧ m.dec = none ∧ m.reply = 0 ∧ hartAt m.core (bitsOf (leNat m.payload) 13 11) = 0
       ∧ (s.hart 0).heldSeq = none ∧ (s.hart 0).oplog.look (bitsOf (leNat m.payload) 10 8) = some e ∧ e.state = .verdict
       ∧ e.seq % 2 ^ 48 = bitsOf (leNat m.payload) 63 16) ∧
     (∃ m, s.net[1]? = some m ∧ m.tag = 253 ∧ m.special = true ∧ m.dec = none ∧ m.reply = 0)) :=
  ⟨⟨_, rfl, by decide +kernel⟩, ⟨_, rfl, by decide +kernel⟩, ⟨_, _, rfl, by decide +kernel, by decide +kernel, by decide +kernel, by decide +kernel,
    by decide +kernel, by decide +kernel, rfl, by decide +kernel⟩, ⟨_, rfl, by decide +kernel⟩⟩

/-! ### Synchronisation, messages, tasks and streams -/

/-- A barrier of harts 0 and 1, nobody there yet, and a queue with a ring of eight entries of 8 bytes at 0x200. -/
def bar0 : Bar := { members := 3, here := 0, lead := 0, phase := 7, expect := 2, arrived := 0, zeros := 0, bexpect := 0, brecv := 0 }
def que (count : Nat) : Queue := { base := 0x200, esize := 8, cap := 8, stages := 0x11, head := 1, count, allow := 4, pushes := count }
def Qbytes (q : Queue) : List Byte :=
  leBytes 4 q.base ++ leBytes 2 q.esize ++ leBytes 1 q.cap ++ leBytes 1 q.stages ++ leBytes 1 q.head ++ leBytes 1 q.count ++ leBytes 2 0
    ++ leBytes 4 q.allow ++ leBytes 8 q.pushes ++ leBytes 8 0

/-- Hart 0 of the block with a barrier at 0x100 of its scratchpad and a queue at 0x140; x13 and x12 name them. -/
def hB : Hart := { h0 with x := [(10, 3), (11, 6), (12, 0xFF00000001000140), (13, 0xFF00000001000100)] }
def stSync (x : Hart) (b : Bar) (n : Nat) : State :=
  let s := stB x
  { s with clusters := [(0, { scratch := ((Memory.writeBytes [] 0x100 b.bytes).writeBytes 0x140 (Qbytes (que n))).writeBytes 0x208 (leBytes 8 0x1122) })] }

theorem test_bar_arrive_and_sync : after (exec (.barArrive { form := .ext, d := 14, a := 13, xop := 1 }) (stSync hB bar0 0)) (fun t =>
    t.me.X 14 == 7 && t.me.pc == 0x1000C && (Bar.ofNat (t.latest 0 ⟨.scratch 0, 0x100⟩ 32)).here == 1) = true
    ∧ after (exec (.barArrive { form := .ext, d := 14, a := 13, xop := 1 }) (stSync hB { bar0 with here := 2, arrived := 1 } 0)) (fun t =>
    t.me.X 14 == 7 && Bar.ofNat (t.latest 0 ⟨.scratch 0, 0x100⟩ 32) == { bar0 with phase := 8 }) = true := by decide +kernel
theorem test_bar_wait_blocks : after (exec (.barWait { form := .ext, a := 13, b := 11, xop := 2 }) (stSync { hB with x := Tab.set hB.x 0 11 7 } bar0 0)) (fun t =>
    t.me.wait.code == 3 && t.me.pc == 0x10000) = true
    ∧ after (exec (.barWait { form := .ext, a := 13, b := 11, xop := 2 }) (stSync hB bar0 0)) (fun t => t.me.pc == 0x1000C) = true := by decide +kernel
theorem test_bar_misaligned : after (exec (.barSync { a := 10 }) (stSync hB bar0 0)) (fun t => t.me.csr.scause == 28 && t.me.csr.stval == 3) = true := by
  decide +kernel
theorem test_queue_pop_push : after (exec (.qPop { form := .ext, d := 14, a := 12, xop := 1 }) (stSync hB bar0 1)) (fun t =>
    t.me.X 14 == 0x1122 && (Queue.ofNat (t.latest 0 ⟨.scratch 0, 0x140⟩ 32)) == { que 0 with head := 2, pushes := 1 }) = true
    ∧ after (exec (.qPush { d := 10, a := 12 }) (stSync hB bar0 1)) (fun t =>
    t.latest 0 ⟨.scratch 0, 0x210⟩ 8 == 3 && (Queue.ofNat (t.latest 0 ⟨.scratch 0, 0x140⟩ 32)) == que 2) = true := by decide +kernel
/-- Hart 1 waits at the queue longer than hart 0. -/
def stLine (n : Nat) (push : Bool) : State :=
  let s := stSync hB bar0 n
  { s with harts := [(0, s.me), (1, { s.hart 1 with wait := { code := 4, a := 0xFF00000001000140 } })]
           cores := [(0, { holder := some 1, queueWait := [(1, ⟨.scratch 0, 0x140⟩, push)] })] }

theorem test_queue_faults : after (exec (.qVpush { form := .ext, d := 200, a := 12, xop := 2 }) (stSync hB bar0 1)) (fun t =>
    t.me.csr.scause == 2) = true
    ∧ after (exec (.qPush { d := 10, a := 12 }) (stSync { hB with x := Tab.set hB.x 0 12 0xFF00000001F00000 } bar0 1)) (fun t =>
    t.me.csr.scause == 7) = true := by decide +kernel
theorem test_queue_line : after (exec (.qPush { d := 10, a := 12 }) (stLine 1 true)) (fun t =>
    t.me.wait.code == 4 && t.me.pc == 0x10000 && (t.core 0).queueWait.map (fun e => e.1) == [1, 0]) = true
    ∧ after (exec (.qPush { d := 10, a := 12 }) (stLine 1 false)) (fun t => t.me.pc != 0x10000) = true := by decide +kernel
theorem test_claim_and_give : after (exec (.claim { b := 5 }) (st h0)) (fun t => t.me.window == 80) = true
    ∧ after (exec (.give { form := .ext, xop := 1, w2 := 1 }) (st h0)) (fun t => t.me.window == 16 && t.me.V 2 0 == 2) = true := by decide +kernel

theorem witness_Barriers :
    (bar0.consistent = true ∧ bitOf bar0.members 0 = true ∧ bitOf bar0.here 0 = false ∧ bar0.bexpect = 0 ∧ bar0.arrived + 1 < bar0.expect)
    ∧ (let b := { bar0 with here := 2, arrived := 1, phase := 65535 }
       b.consistent = true ∧ bitOf b.members 0 = true ∧ bitOf b.here 0 = false ∧ b.bexpect = 0 ∧ b.lead = 0 ∧ b.arrived + 1 = b.expect)
    ∧ (let b := { bar0 with here := 1, arrived := 1, lead := 3 }
       bitOf b.here 0 = true ∧ b.leadOf 0 = 3)
    ∧ (bar0.phase < 65536 ∧ bar0.phase = (6 + 1) % 65536 ∧ bar0.phase = (32775 + 32768) % 65536) := by decide +kernel

theorem witness_Barriers_instructions :
    (let s := stSync hB bar0 0
     let l : Loc := ⟨.scratch 0, 0x100⟩
     let b := Bar.ofNat (s.latest s.me.tag l 32)
     s.barPlace 0 (s.me.X 13) = .inl l ∧ s.me.ordered = false ∧ b = bar0 ∧ b.consistent = true ∧ s.releaseDone 0 2 = true ∧ s.me.hib < 32
      ∧ bitOf b.members s.me.hib = true ∧ (b.arrive s.me.hib).isSome = true ∧ b.done (bitsOf (s.me.X 11).toNat 15 0) = true
      ∧ b.done (bitsOf (s.me.X 10).toNat 15 0) = true ∧ b.done 7 = false ∧ b.leadOf s.me.hib = 0
      ∧ (s.me.X 10).toNat < 2 ^ 32 ∧ (s.me.X 10 ≠ 0 ∨ s.me.X 11 ≠ 0))
    ∧ ([.barSync { a := 13 }, .barArrive { form := .ext, d := 14, a := 13, xop := 1 }, .barWait { form := .ext, a := 13, b := 11, xop := 2 },
        .barTest { form := .ext, d := 14, a := 13, b := 11, xop := 3 }, .barInit { form := .ext, d := 10, a := 13, b := 11, xop := 4 },
        .barBytes { form := .ext, a := 13, b := 11, xop := 5 }, .barDrop { form := .ext, a := 13, xop := 6 }] : List Instr).all (fun i => guard i hB) = true
    ∧ (let x : Hart := { hB with arrivals := [(0x10000, 0xFF00000001000100, 6)] }
       x.arrivals.find? (fun a => a.1 == x.pc && a.2.1 == x.X 13) = some (x.pc, x.X 13, 6))
    ∧ ((hB.X 10).toNat % 32 ≠ 0 ∧ inLocal 0x1000 = false)
    ∧ (let x : Hart := { hB with wait := { code := 3, a := 0xFF00000001000100, b := 65542 } }
       x.wait.code = 3 ∧ x.wait.b ≠ 0 ∧ (stSync x bar0 0).barPlace 0 x.wait.a = .inl ⟨.scratch 0, 0x100⟩ ∧ bar0.done (x.wait.b.toNat - 65536) = true) := by
  decide +kernel

theorem witness_Barriers_waits :
    (let x : Hart := { hB with ops := [{ job := jobS, writes := [(⟨.scratch 0, 0⟩, 7)] }] }
     (stSync x bar0 0).releaseDone 0 2 = false)
    ∧ (let b := { bar0 with here := 1, arrived := 1, lead := 3 }
       b.consistent = true ∧ b.arrive 0 = none ∧ (stSync hB b 0).barPlace 0 (hB.X 13) = .inl ⟨.scratch 0, 0x100⟩)
    ∧ ({ bar0 with expect := 1 } : Bar).consistent = false
    ∧ (bitOf ({ bar0 with members := 2, expect := 1 } : Bar).members 0 = false ∧ ({ bar0 with members := 2, expect := 1 } : Bar).consistent = true)
    ∧ (let b' := { bar0 with here := 1, arrived := 1 }
       bar0.arrive 0 = some (7, b') ∧ b'.consistent = true ∧ Bar.ofNat (leNat b'.bytes) = b' ∧ b'.done 7 = false)
    ∧ (let b := { bar0 with here := 2, arrived := 1 }
       b.arrive 0 = some (7, { bar0 with phase := 8 }) ∧ ({ bar0 with phase := 8 } : Bar).done 7 = true) := by decide +kernel

theorem witness_Barriers_quiet : Quiet (stSync hB bar0 0) ⟨.scratch 0, 0x100⟩ 32 ∧ Quiet (stSync hB bar0 0) ⟨.scratch 0, 0x140⟩ 32
    ∧ Quiet (stSync hB bar0 1) ⟨.scratch 0, 0x208⟩ 8 :=
  ⟨⟨by decide +kernel, by decide +kernel, .inl ⟨0, rfl⟩, by decide +kernel⟩,
    ⟨by decide +kernel, by decide +kernel, .inl ⟨0, rfl⟩, by decide +kernel⟩,
    by decide +kernel, by decide +kernel, .inl ⟨0, rfl⟩, by decide +kernel⟩

theorem witness_Queues :
    (∀ n ∈ [0, 1, 4, 8], let s := stSync hB bar0 n
     let l : Loc := ⟨.scratch 0, 0x140⟩
     let q := Queue.ofNat (s.latest s.me.tag l 32)
     s.queuePlace 0 (s.me.X 12) = some (l, 0, 4096) ∧ s.me.ordered = false ∧ q = que n ∧ q.ok 4096 = true ∧ l.off + 32 ≤ 0 + q.base
      ∧ q.esize = 8 ∧ q.allowOf s.me.role.toNat = 4 ∧ s.releaseDone 0 2 = true ∧ s.queueTurn 0 l true = true ∧ s.queueTurn 0 l false = true)
    ∧ (let l : Loc := ⟨.scratch 0, 0x140⟩
       (stLine 1 true).queueTurn 0 l true = false ∧ (stLine 1 false).queueTurn 0 l false = false)
    ∧ ((que 1).count < min (que 1).cap 4 ∧ min (que 4).cap 4 ≤ (que 4).count ∧ 0 < (que 1).count ∧ (que 0).count = 0 ∧ (que 1).allowOf 1 = 0)
    ∧ ([.qPush { d := 10, a := 12 }, .qPop { form := .ext, d := 14, a := 12, xop := 1 }, .qVpush { form := .ext, d := 3, a := 12, xop := 2 },
        .qVpop { form := .ext, d := 3, a := 12, xop := 3 }, .qCount { form := .ext, d := 14, a := 12, xop := 4 }] : List Instr).all (fun i => guard i hB) = true
    ∧ (let x : Hart := { hB with wait := { code := 4, a := 0xFF00000001000140, b := 1 } }
       x.wait.code = 4 ∧ x.rel = none ∧ (stSync x bar0 1).queuePlace 0 x.wait.a = some (⟨.scratch 0, 0x140⟩, 0, 4096)
        ∧ (stSync x bar0 1).queueTurn 0 ⟨.scratch 0, 0x140⟩ false = true)
    ∧ (hB.window ≤ 200
      ∧ (hB.X 10).toNat % 32 ≠ 0 ∧ inLocal 0x1000 = false) := by decide +kernel

/-- Harts of core 0 that hold all its lane registers; hart 0 waits for a claim of 128. -/
def stPool : State :=
  let s := st { h0 with window := 64, wait := { code := 7, a := 128 } }
  { s with harts := [(0, s.me), (1, { h0 with window := 256 }), (2, { h0 with window := 256 }), (3, { h0 with window := 256 }), (4, { h0 with window := 192 })], cores := [(0, { holder := some 1, claims := [0] })] }

theorem witness_WindowsAndRoles :
    ((st h0).canClaim 0 (16 * 5) = true ∧ stPool.canClaim 0 (16 * 16) = false ∧ (st h0).claimers 0 = [] ∧ h0.windowPending 16 h0.window = false)
    ∧ ([.claim { b := 5 }, .claim { form := .ext, w2 := 16 }, .tryclaim { form := .ext, d := 14, xop := 2, w2 := 16 }, .give { form := .ext, xop := 1, w2 := 1 },
        .role { form := .ext, d := 14, xop := 3 }] : List Instr).all (fun i => guard i h0) = true
    ∧ (let s := { st { h0 with wait := { code := 7, a := 80 } } with cores := [(0, { holder := some 1, claims := [0] })] }
       s.claimers 0 = [0] ∧ (s.hart 0).wait.code = 7 ∧ s.canClaim 0 80 = true) := by decide +kernel

/-- A core whose gate admits cores 0 to 7, and a hart with descriptors for a message of 8 bytes and for a task decrement. -/
def gateWords : Tab W64 := [(0, 0x10000), (1, 0x1007000)]
def stMsg (x : Hart) : State :=
  let s := st x
  { s with cores := [(0, { holder := some 1, gate := gateWords, tags := [(5, 0x11)] })] }
def hMsg : Hart := { h0 with x := [(10, 0x02005001), (12, 1), (14, 8), (16, 64), (18, 1)] }

theorem test_msg_send : after (exec (.msgSendx { form := .ext, a := 10, b := 14, xop := 1 }) (stMsg hMsg)) (fun t =>
    (t.net.map (fun m => (m.core, m.tag, m.payload))) == [(1, 5, leBytes 8 8)] && t.me.pc == 0x1000C) = true := by decide +kernel
theorem test_msg_send_gate_closed : after (exec (.msgSend { a := 10, b := 2 }) (st hMsg)) (fun t =>
    t.me.csr.scause == 31 && t.net == []) = true := by decide +kernel

theorem witness_Sends :
    (let s := stMsg hMsg
     let d := (s.me.X 10).toNat
     bitsOf d 31 29 = 0 ∧ d < 2 ^ 43 ∧ bitsOf d 28 22 % 4 = 0 ∧ bitsOf d 28 22 = 8 ∧ (s.me.X 11).toNat % 8 = 0 ∧ (s.me.X 14).toNat % 4 = 0
      ∧ s.mayReach 0 (bitsOf d 11 0) (bitsOf d 41 32) (bitOf d 42) = true ∧ s.releaseDone 0 3 = true ∧ bitOf d 42 = false ∧ s.outbox 0 < 16
      ∧ s.sealedWorld s.me.tag = false
      ∧ s.me.ordered = false)
    ∧ ([.msgSend { a := 10, b := 2 }, .msgSendx { form := .ext, a := 10, b := 14, xop := 1 }, .msgSendw { form := .ext, d := 14, a := 10, b := 2, xop := 2 },
        .taskDec { d := 18, a := 12, b := 16 }, .taskDec { a := 12, b := 16 }, .strmPut { a := 0, b := 2 }, .strmOpen { form := .ext, d := 14, a := 10, xop := 1 },
        .strmClose { form := .ext, xop := 2 }] : List Instr).all (fun i => guard i hMsg) = true
    ∧ (let s := stMsg hMsg
       (s.me.X 12).toNat < 4096 ∧ (s.me.X 16).toNat % 64 = 0 ∧ (s.me.X 16).toNat < 131072 ∧ 0 < (s.me.X 18).toNat ∧ (s.me.X 18).toNat < 2 ^ 31
        ∧ s.mayReach 0 (s.me.X 12).toNat 0 false = true)
    ∧ (let x : Hart := { hMsg with streams := [(0, { desc := 0x02005001, reply := 0, unacked := 1, acks := 1 })] }
       x.X 0 = 0 ∧ (x.streams.look 0).isSome = true ∧ descOf 0x02005001 0 (fun _ => true) ≠ none ∧ bitOf 0x02005001 42 = false
        ∧ (∀ st ∈ x.streams, st.2.unacked < 8 ∧ 0 < st.2.acks))
    ∧ (let x : Hart := { hMsg with streams := [(0, { desc := 0x02005001, reply := 0 })] }
       (x.streams.look 0 = some { desc := 0x02005001, reply := 0 }) ∧ Tab.has x.streams 1 = false ∧ Tab.has x.streams 0 = true)
    ∧ (let x : Hart := { hMsg with streams := [(0, { desc := 0, reply := 0 }), (1, { desc := 0, reply := 0 }), (2, { desc := 0, reply := 0 }), (3, { desc := 0, reply := 0 })] }
       ∀ n, n < 4 → Tab.has x.streams n = true) := by decide +kernel

theorem witness_Sends_waits :
    (let s := { stMsg { hMsg with ops := [{ job := jobS, writes := [(⟨.tcm 0, 0⟩, 7)] }] } with net := List.replicate 16 { core := 1, tag := 5, source := 0 } }
     s.releaseDone 0 3 = false ∧ 16 ≤ s.outbox 0)
    ∧ (let s := stMsg hMsg
       s.mayReach 0 9 0 false = false ∧ (stMsg { hMsg with x := Tab.set hMsg.x 0 14 2 }).me.X 14 ≠ 0 ∧ (2 : Nat) % 4 ≠ 0)
    ∧ (let x : Hart := { hMsg with x := [(10, 2 ^ 42 + 2 ^ 32 + 0x02005001)], tag := 1 }
       let s := { stMsg x with worlds := [(1, { state := .running })] }
       let c : Core := { s.core 0 with gate := [(0, 0x10000), (1, 0x1007000), (2, 0x40000FFFF), (3, 0xFFFFFFFF)] }
       bitOf (x.X 10).toNat 42 = true ∧ bitsOf (x.X 10).toNat 28 22 = 8 ∧ s.releaseDone 0 4 = true
        ∧ s.sealedWorld x.tag = false ∧ ({ s with worlds := [(1, { state := .sealed })] } : State).sealedWorld x.tag = true
        ∧ (Tab.get s.worlds {} 1).state ≠ .sealed ∧ (Tab.get s.worlds {} 1).log.length < 128 ∧ Tab.get c.gate 0 0 = 0x10000) := by decide +kernel

def msg5 : Msg := { core := 0, tag := 5, source := 1, len := 4, payload := leBytes 4 9 }
def decMsg : Msg := { core := 0, tag := 255, source := 1, dec := some (64, 1) }

/-- Core 0 with a message of tag 5 in its inbox and two in the network; a ready ring of one task. -/
def stIn (x : Hart) (tag : W64) : State :=
  let s := st x
  { s with cores := [(0, { holder := some 1, inbox := [msg5], ring := [128], tags := [(5, tag)], tcm := [(72, 2)] })], net := [msg5, decMsg] }

/-- A decrement that takes the last dependence of a record joins the ready ring, and waits in the inbox when that is full (R202). -/
theorem test_task_dec_ring : (let s := { stIn hMsg 0x11 with net := [{ decMsg with dec := some (64, 2) }] }
    after (exec .taskDecArrive s) (fun t => (t.core 0).ring == [128, 64] && (t.core 0).inbox.length == 1 && (t.core 0).tcm.read 76 == 1)
      && after (exec .taskDecArrive (s.onCore 0 (fun c => { c with ring := List.replicate 64 0 }))) (fun t =>
        (t.core 0).ring.length == 64 && (t.core 0).inbox.length == 2 && t.net == [])) = true := by decide +kernel

theorem witness_Arrivals :
    (let s := stIn hMsg 0x11
     s.net[0]? = some msg5 ∧ msg5.special = false ∧ s.behind 0 msg5 = false ∧ s.gangHeld msg5.gang = false ∧ msg5.remote = false ∧ s.refuses msg5 = false
      ∧ (s.core 0).inbox.length < 64 ∧ msg5.held = none ∧ msg5.write = none ∧ msg5.put = none ∧ msg5.reply = 0)
    ∧ (let x : Hart := { hMsg with x := [(10, 5), (11, 0x11)] }
       guard (.msgTset { form := .ext, a := 10, b := 11, xop := 4 }) x = true ∧ guard (.msgTget { form := .ext, d := 14, a := 10, xop := 5 }) x = true
        ∧ guard (.msgRecv { form := .ext, d := 14, a := 10, b := 2, xop := 3 }) x = true ∧ guard (.taskTake { form := .ext, d := 14, xop := 1 }) x = true
        ∧ (x.X 10).toNat < 256 ∧ bitsOf (x.X 11).toNat 1 0 ≠ 3 ∧ (x.X 11).getLsbD 9 = false ∧ x.tinker = false
        ∧ ((stIn x 0x11).core 0).inbox[0]? = some msg5 ∧ msg5.tag = bitsOf (x.X 10).toNat 7 0 ∧ bitsOf (((stIn x 0x11).core 0).tagWord 5) 1 0 = 1
        ∧ Tab.get ((stIn x 0x11).ctx 0).profile 0 2 = 0 ∧ msg5.payload.length % 4 = 0 ∧ taskHost ((stIn x 0x11).core 0) 0 = 0
        ∧ (∀ m ∈ ((st x).core 0).inbox, m.tag ≠ 5))
    ∧ (let s := stIn hMsg 0x11
       s.net[1]? = some decMsg ∧ decMsg.dec = some (64, 1) ∧ s.behind 1 decMsg = true ∧ { s with net := [decMsg] }.behind 0 decMsg = false ∧ s.refuses decMsg = false
        ∧ decMsg.reply = 0 ∧ (s.hart (taskHost (s.core 0) 0)).live = true ∧ 64 + 64 ≤ (s.hart 0).tcmSize
        ∧ 1 < leNat ((s.core 0).tcm.readBytes ((s.hart 0).tcmBase + 64 + 8) 4)
        ∧ leNat ((s.core 0).tcm.readBytes ((s.hart 0).tcmBase + 64 + 8) 4) ≤ 2 ∧ s.focus.code ≠ 1 ∧ msg5.dec = none
        ∧ (s.core 0).ring.length < 64 ∧ ((s.onCore 0 (fun c => { c with ring := List.replicate 64 0 })).core 0).ring.length = 64)
    ∧ (let s := stIn hMsg 0x10
       s.coreHeld 0 = false ∧ ((s.core 0).startOrder (fun m => bitsOf ((s.core 0).tagWord m.tag) 1 0 == 0 && bitOf ((s.core 0).tagWord m.tag) 4)).head? = some (0, msg5)
        ∧ (List.range 8).find? (fun i => (s.hart (hartAt 0 i)).slotFree) = some 1 ∧ (fitAt 1 (s.tcmHeld 0) Config.tcmBytes 2048).isSome = true
        ∧ 16 ≤ s.poolFree 0)
    ∧ (let s := stIn { hMsg with uitvec := 0x14000 } 0x11
       s.me.mayInterrupt = true ∧ s.coreHeld 0 = false ∧ ringInterrupt s 0 = false ∧ interruptFor s 0 = some (0, msg5)) := by decide +kernel

/-- A tinker that is idle, with a message of tag 5 that starts a handler in its inbox. -/
def stTin : State :=
  { stT { tink with idle := true } with
    focus := { unit := Config.cores }, cores := [(Config.cores, { inbox := [{ msg5 with core := Config.cores }], tags := [(5, 0x10)] })] }

theorem test_tinker_handler_start : after (exec .handlerStart (stTin.onHart Config.harts (fun x => { x with att := ⟨3, 4⟩, mode := .u }))) (fun t =>
    t.me.att == {} && t.me.mode == .s && !t.me.idle) = true := by decide +kernel

theorem witness_Arrivals_tinker :
    Config.cores ≤ stTin.focus.unit ∧ stTin.focus.unit < Config.cores + Config.tinkers ∧ stTin.focus.code ≠ 1 ∧ stTin.coreHeld Config.cores = false
    ∧ (let c := stTin.core Config.cores
       (c.startOrder (fun m => bitsOf (c.tagWord m.tag) 1 0 == 0 && bitOf (c.tagWord m.tag) 4)).head? = some (0, { msg5 with core := Config.cores })
        ∧ Tab.get (Tab.get stTin.ctxs {} (c.holder.getD 0)).profile 0 2 = 0)
    ∧ (stTin.hart (hartAt Config.cores 0)).idle = true := by decide +kernel

/-! ### Engines and accumulators -/

/-- Addresses in the hart's TCM and in its block's scratchpad. -/
def atT (n : Nat) : W64 := BitVec.ofNat 64 (0xFF00000000000000 + n)
def atS (n : Nat) : W64 := BitVec.ofNat 64 (0xFF00000001000000 + n)

/-- Descriptors: a copy, a multicast, an addition, a gather and a scatter at 0 to 0x100 of the TCM, and a BF16 matrix command at
0x140; a copy with a reserved byte at 0x180. -/
def dCopy : CopyDesc := { src := atS 0, dst := atT 0x400, rowbytes := 16 }
def descs : List Byte :=
  dCopy.bytes ++ ({ dCopy with dst := atS 0x100, cmask := 1 } : CopyDesc).bytes ++ dCopy.bytes ++ ({ dCopy with idx := atT 0x800 } : CopyDesc).bytes
    ++ ({ dCopy with idx := atT 0x800 } : CopyDesc).bytes
    ++ leBytes 8 (atT 0x1000).toNat ++ leBytes 8 (atT 0x2000).toNat ++ leBytes 4 64 ++ leBytes 4 64 ++ leBytes 2 32 ++ leBytes 1 0x88 ++ leBytes 37 0
    ++ leBytes 64 (2 ^ 500)
def hE : Hart := { h0 with tcmSize := 0x4000, x := [(10, atT 0x140), (11, 0x1000), (12, 4)] }
def stE (x : Hart) (engine : List EngCmd) : State :=
  let s := stB x
  { s with cores := [(0, { holder := some 1, tcm := Memory.writeBytes [] 0 descs, engine })], focus := { unit := 0, item := 3 } }

/-- A command that has started, with one row of 16 bytes read and none written. -/
def cmd0 : EngCmd := { ticket := 3, hart := 0, tag := 0, mode := .u, mstatus := 0, pc := 0x10000, words := [], order := 0, kind := 0, cop := dCopy }
def cmdRow : EngCmd := { cmd0 with started := some 0, begun := true, got := 16, buf := leBytes 16 0x1234 }

theorem test_e_copy_accepted : after (exec (.eCopy { d := 14, a := 20 }) (stE { hE with x := [(20, atT 0)] } [])) (fun t =>
    (t.core 0).engine.map (fun k => (k.ticket, k.kind, k.cop.rowbytes)) == [(0, 0, 16)] && bitsOf (t.me.X 14).toNat 63 48 == 0 && 32 ≤ (t.me.X 14).toNat) = true := by
  decide +kernel
theorem test_e_copy_reserved_byte : after (exec (.eCopy { d := 14, a := 20 }) (stE { hE with x := [(20, atT 0x180)] } [])) (fun t =>
    t.me.csr.scause == 29 && (t.core 0).engine == []) = true := by decide +kernel
theorem test_copy_row_written : after (exec .copyStart { stE hE [cmdRow] with focus := { unit := 0, item := 3, code := 1 } }) (fun t =>
    (t.core 0).tcm.readBytes 0x400 2 == [0x34, 0x12]) = true := by decide +kernel
theorem test_e_sleep : after (exec (.eSleep { a := 10 }) (stE { hE with x := [(10, 0x0003000000000040)] } [cmd0])) (fun t => t.me.wait.code == 6) = true
    ∧ after (exec (.eSleep { a := 10 }) { stE { hE with x := [(10, 0x0003000000000040)] } [cmd0] with cycle := 0x41 }) (fun t =>
      t.me.csr.scause == 25 && t.me.csr.stval == 0x40) = true
    ∧ after (exec (.eSleep { a := 10 }) (stE { hE with x := [(10, 0x0004000000000040)] } [cmd0])) (fun t => t.me.pc == 0x10004) = true := by decide +kernel
theorem test_acc_write_then_read : after (exec (.accWr { form := .ext, d := 4, b := 12, xop := 2 }) (stE { hE with v := [(128, 9), (160, 8)] } [])) (fun t =>
    (t.core 0).accElem 0 4 0 == 9 && (t.core 0).accElem 0 4 32 == 8) = true := by decide +kernel

theorem witness_EngineAcceptance :
    (∀ p ∈ ([(.eCopy { d := 14, a := 10 }, 0), (.eMcast { d := 14, a := 10 }, 1), (.eCadd { d := 14, a := 10 }, 2), (.eGath { d := 14, a := 10 }, 3),
        (.eScat { d := 14, a := 10 }, 4)] : List (Instr × Nat)), let s := stE { hE with x := [(10, atT (0x40 * p.2))] } []
      guard p.1 s.me = true ∧ s.me.ordered = false ∧ (match (s.descriptor 0 (s.me.X 10)).bind copyDesc with
        | some d => s.copyOk 0 p.2 d && s.copyGate 0 p.2 d == none && s.copyWorldFault d == none && !s.copyDeferred p.2 d
        | none => false) = true ∧ s.entriesFor 0 1 = true)
    ∧ (let s := stE { hE with x := [(10, atT 0x180)] } []
       (s.descriptor 0 (s.me.X 10)).bind copyDesc = none)
    ∧ (let s := stE { hE with x := [(10, atT 0)] } []
       (match (s.descriptor 0 (s.me.X 10)).bind copyDesc with
        | some d => s.copyOk 0 1 d == false
        | none => false) = true)
    ∧ (let s := stE { hE with x := [(10, atT 0x140), (12, atT 0)] } []
       guard (.eMma { d := 14, a := 10 }) s.me = true ∧ guard (.eCmma { d := 14, a := 12, b := 10 }) s.me = true ∧ s.entriesFor 0 2 = true
        ∧ (match (s.descriptor 0 (s.me.X 10)).bind matDesc, (s.descriptor 0 (s.me.X 12)).bind copyDesc with
          | some m, some d => s.matOk 0 m && s.copyOk 0 6 d && s.copyGate 0 6 d == none && s.copyWorldFault d == none
            && s.scaleGate 0 m s.me.sbase s.me.sshift.toNat == none
          | _, _ => false) = true)
    ∧ (guard (.eScale { d := 14, a := 11, b := 12 }) hE = true ∧ 0 < (hE.X 12).toNat ∧ (hE.X 12).toNat ≤ 4096 ∧ (hE.X 11).toNat % 2 = 0
        ∧ inLocal (hE.X 11) = false ∧ inDomain (hE.X 11) = false ∧ (stE hE []).entriesFor 0 1 = true) := by decide +kernel

/-- A core whose engine queue is full, a hart that waits with a copy, and a copy and scales in a domain window that the gate closes. -/
def stFull (x : Hart) : State := stE x ((List.range 32).map (fun n => { cmd0 with ticket := n }))
def farDesc : CopyDesc := { dCopy with src := 0xFE00000000000000 }

theorem witness_EngineAcceptance_waits :
    (stFull hE).entriesFor 0 1 = false ∧ (stFull hE).entriesFor 0 2 = false ∧ hE.holdsQueued = false
    ∧ (let x : Hart := { hE with wait := { code := 0, a := 12 }, queued := [cmd0] }
       x.holdsQueued = true ∧ x.queued = [cmd0] ∧ cmd0.kind ≤ 4 ∧ cmd0.started = none ∧ (stE x []).entriesFor 0 1 = true
        ∧ (stE x []).copyWorldFault cmd0.cop = none)
    ∧ (let s := { stE { hE with x := [(20, atT 0)] } [] with cores := [(0, { holder := some 1, tcm := Memory.writeBytes [] 0 farDesc.bytes })] }
       (s.descriptor 0 (s.me.X 20)).bind copyDesc = some farDesc ∧ s.copyOk 0 0 farDesc = true ∧ (s.copyGate 0 0 farDesc).isSome = true)
    ∧ ((stE hE []).shutAt 0 0xFE00000000000000 8 = some 0xFE00000000000000 ∧ (stE hE []).shutAt 0 (hE.X 11) (2 * 4) = none
      ∧ inLocal 0xFE00000000000000 = false ∧ (0xFE00000000000000 : W64).toNat % 2 = 0)
    ∧ ¬ (0 < (hE.X 13).toNat)
    ∧ (let s := stE { hE with x := [(10, atT 0x140)] } []
       (match (s.descriptor 0 (s.me.X 10)).bind matDesc with
        | some m => !s.matOk 0 { m with k := 0 } && s.matOk 0 { m with fmt := 0xCC }
            && (s.scaleGate 0 { m with fmt := 0xCC } 0xFE00000000000000 s.me.sshift.toNat).isSome
        | none => false) = true) := by decide +kernel

theorem witness_PromisesAndAccumulators :
    (let s := stE hE [cmd0]
     s.outstanding 0 3 = true ∧ s.outstanding 0 4 = false ∧ reached 0x41 0x40 = true ∧ reached s.cycle 0x40 = false
      ∧ ((s.core 0).command 3).isSome = true ∧ (s.core 0).command 4 = none)
    ∧ ([.eSleep { a := 10 }, .ePoll { form := .ext, d := 14, a := 10, xop := 1 }, .eStat { form := .ext, d := 14, xop := 2 },
        .eStatclr { form := .ext, a := 12, xop := 3 }, .accZero {}, .accRd { form := .ext, d := 4, b := 12, xop := 1 },
        .accWr { form := .ext, d := 4, b := 12, xop := 2 }, .accZero { a := 3 }] : List Instr).all (fun i => guard i hE) = true
    ∧ (hE.X 12).toNat < 32 ∧ hE.ordered = false
    ∧ (∀ e ∈ ((stE hE [cmd0]).core 0).engine, e.kind = 5 → e.mat.tile = 0 → e.hart ≠ 0 ∧ e.begun = false ∧ ¬ (e.begun = true ∧ e.stopped = true))
    ∧ ((hE.X 12).toNat < 64 ∧ 64 ≤ (hE.X 11).toNat ∧ 32 ≤ (hE.X 11).toNat)
    ∧ (let k : EngCmd := { cmd0 with kind := 5 }
       k ∈ ((stE hE [k]).core 0).engine ∧ k.mat.tile = 0 ∧ k.hart = 0)
    ∧ (let k : EngCmd := { cmd0 with promise := 9 }
       (stE hE [k]).cycle < k.promise ∧ ((stE hE [k]).core 0).command 3 = some k) := by decide +kernel

/-- A copy whose one row is read and ready to be written is `cmdRow`; one that is written. -/
def cmdDone : EngCmd := { cmdRow with put := 16, buf := [] }

theorem witness_EngineSteps :
    (stE hE [cmd0]).nextCopy 0 = some cmd0 ∧ WritesNext (stE hE [cmdRow]) cmdRow 0 0x400 16
    ∧ WritesNext (stE hE [{ cmdRow with paired := true }]) { cmdRow with paired := true } 0 0x400 16
    ∧ (dCopy.count ≤ cmdRow.put + 16 ∧ ((stE hE [cmdRow]).core 0).array.contains 4 = false) := by unfold WritesNext; decide +kernel

theorem witness_EngineSteps_queue :
    (let s := (stE hE [{ cmd0 with kind := 5 }]).onCore 0 (fun c => { c with array := [3] })
     (s.core 0).arrayHead = some { cmd0 with kind := 5 } ∧ cmd0.started = none ∧ s.sourceReady { cmd0 with kind := 5 } = true) ∧
    (let s := stE hE [cmdDone]
     (s.core 0).command 3 = some cmdDone ∧ coreOf cmdDone.hart = 0 ∧ cmdDone.kind ≤ 4 ∧ cmdDone.paired = false ∧ cmdDone.started ≠ none
      ∧ cmdDone.stopped = false ∧ cmdDone.stopping = false ∧ cmdDone.dropped = false ∧ s.suspended cmdDone = false
      ∧ cmdDone.cop.count ≤ cmdDone.put ∧ cmdDone.cop.bar = 0 ∧ s.publishedAll cmdDone = true) ∧
    (let s := (stE { hE with wait := { code := 12 } } []).onCore 0 (fun c => { c with engineWait := [0] })
     s.engineWaiters 0 = 0 :: [] ∧ (s.hart 0).wait.code = 12 ∧ (s.core 0).engine.length < 32) ∧
    (let s := { stE { hE with wait := { code := 6, a := 0x0003000000000040 } } [cmd0] with cycle := 0x40 }
     s.me.wait.code = 6 ∧ s.outstanding 0 (bitsOf s.me.wait.a.toNat 63 48) = true ∧ reached s.cycle (bitsOf s.me.wait.a.toNat 47 0) = true)
    ∧ (stE hE [cmd0]).cycle % 256 = 0 := by
  decide +kernel

/-! ### Worlds and instrumentation -/

/-- A launch record of one block of one hart with one window of 16 registers. -/
def rec1 : List Byte :=
  leBytes 2 1 ++ leBytes 2 0 ++ leBytes 4 1 ++ leBytes 8 0x10000 ++ leBytes 1 1 ++ leBytes 1 1 ++ leBytes 2 0 ++ leBytes 4 1 ++ leBytes 8 0
    ++ leBytes 4 0x01010101 ++ leBytes 92 0

/-- A hart that may fork: its record at 0 of its TCM, x10 the record's address and x11 the number of children. -/
def stFork : State :=
  let s := stB { h0 with x := [(10, 0xFF00000000000000), (11, 2)] }
  { s with cores := [(0, { holder := some 1, tcm := Memory.writeBytes [] 0 rec1 })], ctxs := [(1, { made := true, bound := true, cap := 1, ovpages := 12 })] }

/-- A hart with a fork of one child open. -/
def forkOf (st : WorldState) : State :=
  let s := stB { h0 with x := [(11, 2)], fork := some { tags := [1], launches := [7] } }
  { s with worlds := [(1, { parent := 0, state := st, pasid := 1 })], focus := { item := 1 }
           vers := [{ tag := 1, line := 8, bytes := List.replicate 128 5 }] }

theorem test_w_fork : after (exec (.wFork { d := 14, a := 10, b := 11 }) stFork) (fun t =>
    t.me.X 14 == 0x0002000000000081 && (t.me.fork.map Fork.tags) == some [1, 2] && t.launches.length == 3) = true := by decide +kernel
theorem test_w_without_fork : after (exec (.wJoin { form := .ext, d := 14, xop := 1 }) (stB h0)) (fun t => t.me.X 14 == 3) = true := by decide +kernel
theorem test_w_query : after (exec (.wQuery { form := .ext, d := 14, a := 10, xop := 4 }) (forkOf .finished)) (fun t => t.me.X 14 == 0x101) = true := by
  decide +kernel
theorem test_pc_match : after (exec .pcMatch (st { h0 with pcmHnd := 0x30000, pcmdat := [(2, 0x10001)] })) (fun t =>
    t.me.pc == 0x30000 && t.me.X 10 == 0x10000 && t.me.X 11 == 2 && t.me.mode == .s && t.me.shadowPc == 0x10000) = true := by decide +kernel

theorem witness_Worlds :
    (let s := stFork
     let job := standardJob (.wFork { d := 14, a := 10, b := 11 }) .load 128 (s.me.X 10) 0 s.me
     guard (.wFork { d := 14, a := 10, b := 11 }) s.me = true ∧ (s.me.X 11).toNat = 2 ∧ (s.me.X 10).toNat % 128 = 0 ∧ s.me.fork = none ∧ Placed s job
      ∧ s.reach 0 (s.me.X 10) 128 .load = .here ⟨.tcm 0, 0⟩
      ∧ recordOk (s.recordBytes 0 128 (s.me.X 10) (.at ⟨.tcm 0, 0⟩)) (s.ctx 0).cap false = true ∧ s.me.wdepth ≠ 4 ∧ 2 ≤ s.freeTags.length
      ∧ s.overlayUsed (ctxOf s 0) + 6 * 2 ≤ (s.ctx 0).ovpages ∧ s.releaseDone 0 3 = true ∧ s.me.tag = 0
      ∧ NothingFirst s job [⟨.tcm 0, 0⟩]) := by unfold Placed NothingFirst; decide +kernel

theorem witness_Worlds_fork_open :
    ([.wJoin { form := .ext, d := 14, xop := 1 }, .wChoose { form := .ext, d := 14, a := 10, xop := 2 }, .wAbandon { form := .ext, d := 14, xop := 3 },
      .wQuery { form := .ext, d := 14, a := 10, xop := 4 }] : List Instr).all (fun i => guard i h0) = true
    ∧ h0.fork = none
    ∧ (∀ st ∈ [WorldState.finished, .running], (forkOf st).me.fork = some { tags := [1], launches := [7] }
        ∧ (Tab.get (forkOf st).worlds {} 1).state = st ∧ ((forkOf st).me.X 10).toNat = 0)
    ∧ ((Tab.get (forkOf .finished).worlds {} 1).log = [] ∧ (forkOf .finished).me.tag = 0 ∧ (forkOf .finished).me.oplog = [])
    ∧ (∀ w ∈ (forkOf .finished).vers, w.tag = 1 ∧ w.bytes.length = 128)
    ∧ ((forkOf .ending).focus.item ≠ 0 ∧ (Tab.get (forkOf .ending).worlds {} (forkOf .ending).focus.item).state = .ending) := by decide +kernel

theorem witness_Instrumentation :
    (let j : MemJob := { kind := .load, size := 4, lanes := [⟨0, 0, 0, 0⟩], dest := .v 3, pc := 0x10040, words := [], tag := 0 }
     let e : LogEntry := { job := j, active := 1, att := {}, state := .held, npage := 1, order := 0 }
     let x : Hart := { h0 with mode := .s, x := [(10, 7)], oplog := [(7, e)] }
     (x.X 10).toNat < 8 ∧ x.oplog.look (x.X 10).toNat = some e ∧ e.engine = none ∧ e.job.acq = false ∧ guard (.replay { a := 10 }) x = true
      ∧ guard (.oplogDrop { a := 10, b := 1 }) x = true ∧ guard (.oplogPc { d := 14, a := 10, b := 2 }) x = true)
    ∧ (({ h0 with x := [(10, 8)] } : Hart).X 10).toNat ≥ 8 ∧ h0.oplog.look 5 = none
    ∧ (let s := { st h0 with ctxs := [(1, { made := true, profile := [(0, 0x2000), (1, 4096)] })] }
       guard (.bbhint { d := 63, a := 63 }) s.me = true ∧ 63 * 64 + 63 < (s.ctx 0).ccount ∧ ((st h0).ctx 0).ccount = 0
        ∧ (let u := { st h0 with ctxs := [(1, { made := true, profile := [(0, 0x2000), (1, 4)] })] }
           0 < (u.ctx 0).ccount ∧ (u.ctx 0).ccount ≤ 63 * 64 + 63))
    ∧ guard (.pcmHnd { a := 10, b := 2 }) { h0 with mode := .s } = true
    ∧ (let x : Hart := { h0 with pcmHnd := 0x30000, pcmdat := [(15, 0x10001)] }
       x.mode = .u ∧ x.inShadow = false ∧ x.tinker = false ∧ x.pcmHnd ≠ 0 ∧ x.passed = false ∧ (Tab.get x.pcmdat 0 15).getLsbD 0 = true
        ∧ Tab.get x.pcmdat 0 15 &&& ~~~ 3#64 = x.pc ∧ ∀ j, j < 15 → (Tab.get x.pcmdat 0 j).getLsbD 0 = false)
    ∧ guard (.pcmRet { b := 1 }) { h0 with mode := .s, inShadow := true } = true := by decide +kernel

/-! ### Tinkers -/

theorem test_gate_wr_masks : after (exec (.gateWr { a := 10, b := 11 }) (stT { tink with x := [(10, 0x00002), (11, 0xFFFFFFFFFFFFFFFF)] })) (fun t =>
    Tab.get (t.core 2).gate 0 0 == 0x1FFFF && t.me.pc == 0x20004) = true := by decide +kernel
theorem test_g_arm_late : after (exec (.gArm { d := 14, a := 10 })
    { stT { tink with x := [(10, 0x1000)] } with hbm := Memory.writeBytes [] 0x1000 (leBytes 8 5 ++ leBytes 8 3 ++ leBytes 8 0 ++ leBytes 4 1) }) (fun t =>
    t.me.X 14 == 1 && (t.gang 5).st == 0) = true := by decide +kernel
theorem test_ctx_kill : after (exec (.ctxKill { form := .ext, a := 10, xop := 2 }) (stT tink)) (fun t => (Tab.get t.ctxs {} 1).killed) = true := by
  decide +kernel
/-- R389: what a killed context had in device memory reads all ones, and what is written there afterwards reads back. -/
theorem test_ctx_kill_loses : after (exec (.ctxKill { form := .ext, a := 10, xop := 2 })
    { stT tink with ctxs := [(1, { made := true, cap := 1, svbase := 0x2000, svpages := 1 })] }) (fun t =>
    t.hbmByte 0x2000 == 0xFF && t.hbmByte 0x2FFF == 0xFF && t.hbmByte 0x3000 == 0 && (t.putHbm 0x2000 [7]).hbmByte 0x2000 == 7) = true := by
  decide +kernel

/-- A tinker whose x10 names a descriptor at 0x1000 of device memory that holds `bs`. -/
def stD (bs : List Byte) : State := { stT { tink with x := [(10, 0x1000)] } with hbm := Memory.writeBytes [] 0x1000 bs }

theorem witness_TinkerInstructions_words :
    ([.gateWr { a := 10, b := 11 }, .gateRd { form := .ext, d := 14, a := 10, xop := 1 }, .ctxSave { a := 10 }, .ctxLoad { form := .ext, a := 10, xop := 1 },
      .ctxKill { form := .ext, a := 10, xop := 2 }, .ctxBind { form := .ext, a := 10, b := 11, xop := 3 }, .ctxUpd { form := .ext, a := 10, b := 11, xop := 4 },
      .gArm { d := 14, a := 10 }, .gSweep { form := .ext, d := 14, a := 10, xop := 1 }, .gResume { form := .ext, d := 14, a := 10, xop := 2 }]
        : List Instr).all (fun i => guard i tink) = true
    ∧ (selectorOk 0x808FF = true ∧ selectorOk 0x90000 = false)
    ∧ ((tink.X 10).toNat = 1 ∧ tink.home = none ∧ (stT tink).ctxs.has 1 = true ∧ (Tab.get (stT tink).ctxs {} 1).killed = false ∧ (stT tink).ctxs.has 2 = false)
    ∧ ((0x3000 : Nat) % 4096 = 0 ∧ 0x3000 < Config.hbmBytes ∧ (stT tink).inUse 1 = false)
    ∧ ((0x41 : Nat) < 256 ∧ (Tab.get [(1, ({ bound := true } : Context))] {} 1).bound = true ∧ (Tab.get (stT tink).ctxs {} 1).bound = false)
    ∧ (let s := { stT tink with gangs := [(1, { st := 3 })], ctxs := [(1, { made := true, gang := 1, out := true })] }
       (s.gang 1).st = 3 ∧ (s.gang 2).st ≠ 3 ∧ bitOf 0x10001 16 = true ∧ (0x10001 : Nat) < 2 ^ 17 ∧ bitOf 1 16 = false ∧ (∀ c ∈ s.gangContexts 1, c.2.out = true))
    ∧ (let s := { stT tink with gangs := [(1, { st := 3 })], ctxs := [(1, { made := true, gang := 1 })] }
       (s.gangContexts 1).any (fun c => !c.2.out) = true ∧ (s.gang 1).st = 3)
    ∧ (let s := { stT tink with gangs := [(1, { st := 4 })], ctxs := [(1, { made := true, gang := 1 })] }
       (s.gangContexts 1).any (fun c => !c.2.out) = true ∧ 3 < (s.gang 1).st)
    ∧ (let p : Packet := { kind := 4, payload := [4], gang := 1 }
       (requestOfPacket p).isSome = true ∧ (requestOfPacket { p with kind := 7 }).isSome = false) := by decide +kernel

theorem witness_TinkerInstructions_requests :
    (let s := stD (leBytes 8 (1 * 2 ^ 20 + 1) ++ leBytes 8 0x100000 ++ leBytes 8 0x100000 ++ leBytes 8 0x2000)
     Placed s (standardJob (.ctxSave { a := 10 }) .load 32 (s.me.X 10) 0 s.me)
      ∧ Placed s (standardJob (.ctxLoad { form := .ext, a := 10, xop := 1 }) .load 32 (s.me.X 10) 0 s.me)
      ∧ s.reach s.cur (s.me.X 10) 32 .load = .here ⟨.hbm, 0x1000⟩
      ∧ (requestOf (s.recordBytes s.cur 32 (s.me.X 10) (.at ⟨.hbm, 0x1000⟩)) false s.cur).isSome = true
      ∧ NothingFirst s (standardJob (.ctxSave { a := 10 }) .load 32 (s.me.X 10) 0 s.me) [⟨.hbm, 0x1000⟩]
      ∧ requestOf ((stD (leBytes 8 1 ++ leBytes 8 0x100001)).recordBytes s.cur 32 (s.me.X 10) (.at ⟨.hbm, 0x1000⟩)) false s.cur = none
      ∧ (1 : W64).toNat % 32 ≠ 0)
    ∧ (let s := { stD (leBytes 8 (2 * 65536 + 1) ++ leBytes 8 64 ++ leBytes 8 0x100000 ++ leBytes 4 1 ++ leBytes 4 0) with
          ctxs := [(1, { made := true, gang := 1 }), (2, { made := true, gang := 2, out := true })] }
       Placed s (standardJob (.gArm { d := 14, a := 10 }) .load 32 (s.me.X 10) 0 s.me)
        ∧ NothingFirst s (standardJob (.gArm { d := 14, a := 10 }) .load 32 (s.me.X 10) 0 s.me) [⟨.hbm, 0x1000⟩]
        ∧ armOf (s.recordBytes s.cur 32 (s.me.X 10) (.at ⟨.hbm, 0x1000⟩)) = some (1, 2, 64, 0x100000, 1, 0)
        ∧ s.domain.size = 0 ∧ s.me.wait.code ≠ 19 ∧ s.armRefusal 1 2 64 = none ∧ s.armRefusal 1 2 3 = some 1 ∧ s.armRefusal 3 0 64 = some 3
        ∧ { s with gangs := [(1, { st := 2 })] }.armRefusal 1 0 0 = some 2)
    ∧ (let s := { stD [] with domain := { size := 2 }, switches := walePorts.map (fun k => (k, { armed := [(1, 64)] })) }
       s.domain.size ≠ 0 ∧ s.wale.any isArmFlit = false ∧ ∀ k ∈ walePorts, (Tab.get s.switches {} k).armed.contains (1, 64) = true) := by
  refine ⟨?_, ?_, ?_⟩ <;> (try unfold Placed NothingFirst) <;> decide +kernel

/-- A context with one resident cohort, and a request to save it whole. -/
def saveReq : CtxRequest :=
  { load := false, tinker := Config.harts, whole := true, core := 0, pasid := 1, area := 0x100000, limit := 0x1000000, done := 0x2000, busy := false }
def stSave : State := { stB h0 with cur := Config.harts, requests := [saveReq] }

/-- The same request begun: its cohort is saving, and nothing holds its harts. -/
def saveBegun : CtxRequest := { saveReq with begun := some [(0, 0)] }
def stSaving : State :=
  let s := stB h0
  { s with cur := Config.harts, requests := [saveBegun]
           launches := s.launches.map (fun l => (l.1, { l.2 with cohorts := l.2.cohorts.map (fun c => (c.1, { c.2 with phase := .saving, parked := true })) })) }

theorem witness_TinkerInstructions_save_ends :
    stSaving.requests[stSaving.focus.item]? = some saveBegun ∧ saveBegun.begun = some [(0, 0)]
    ∧ (∃ p, stSaving.cohort 0 0 = some p ∧ p.2.phase = .saving)
    ∧ (stSaving.stopHarts (stSaving.targetHarts saveBegun [(0, 0)])).stoppedAll (stSaving.targetHarts saveBegun [(0, 0)]) false = true :=
  ⟨by decide +kernel, by decide +kernel, ⟨_, rfl, by decide +kernel⟩, by decide +kernel⟩

theorem witness_TinkerInstructions_save :
    stSave.requests[stSave.focus.item]? = some saveReq ∧ saveReq.load = false ∧ saveReq.busy = false ∧ saveReq.whole = true
      ∧ stSave.switching (Tab.get stSave.ctxs {} 1).gang = false ∧ stSave.ctxs.has 1 = true ∧ (Tab.get stSave.ctxs {} 1).killed = false
      ∧ (Tab.get stSave.ctxs {} 1).out = false
      ∧ (let cs := stSave.cohortsOf 1 (fun k => k.phase == .resident || k.phase == .placed || k.phase == .returning || k.phase == .saving)
         cs ≠ [] ∧ imageSize stSave 1 (stSave.targetSections 1 true cs) ≤ saveReq.limit
          ∧ ∀ c ∈ cs, stSave.lastRetirement c.1 c.2 = none ∧ c = (0, 0))
      ∧ saveReq.begun = none ∧ (stSave.cohort 0 0).any (fun p => p.2.phase != .saving) = true := by decide +kernel

/-- R345: x5, the pc, the mode and the halt bit of a hart record, at their offsets. -/
theorem test_hart_record_read :
    (let x := h0.ofRecord (List.replicate 32 0 ++ leBytes 8 0x77 ++ List.replicate 208 0 ++ leBytes 8 0x1234 ++ leBytes 8 5)
     x.X 5 = 0x77 ∧ x.X 10 = 0 ∧ x.pc = 0x1234 ∧ x.mode = .s ∧ x.dbg.halted = true) := by decide +kernel

/-! ### The host -/

/-- Link 0 with the control queue and user queue 2 of context 1, whose pages are one leaf that maps low addresses to device memory. -/
def q2 : HostQueue := { bound := true, pasid := 1, vector := 3 }
def stH : State :=
  { st h0 with
    fns := [(0, { features := 0x1E, featuresOk := true, notified := [(2, 1)], queues := [(2, q2)], vectors := [(3, { count := 2, n := 2 })]
                  events := [{ kind := 4, tick := 1, body := [] }] })]
    ctxs := [(1, { made := true, bound := true, cap := 1, root := 0x1000, ptab := [(0, 0x90000)], svbase := 0x80000, svpages := 2 })]
    hbm := (Memory.writeBytes [] 0x1000 (leBytes 8 0xDF)).writeBytes 0x4000 (leBytes 4 1 ++ leBytes 4 1 ++ leBytes 8 0x10000 ++ leBytes 1 1
      ++ leBytes 1 1 ++ leBytes 2 0 ++ leBytes 4 1 ++ leBytes 8 0 ++ leBytes 4 0x01010101)
    hallmark := { step := 6 }, cycle := 0x100000 }
def chain (q op : Nat) (payload : List Byte) : Chain := { queue := q, op, seq := 1, payload, reply := 0x9000 }

theorem test_launch_taken : after (exec (.launch (chain 2 0x10 (leBytes 8 0x4000))) stH) (fun t =>
    t.launches.map (fun l => (l.1, l.2.record.cohorts, l.2.record.entry, l.2.pasid)) == [(0, 1, 0x10000, 1)]
      && leNat (t.hostMem.readBytes 0x9000 4) == 0) = true := by decide +kernel
theorem test_ctxnew : after (exec (.ctxnew (chain 0 0x01 (leBytes 4 7 ++ leBytes 1 2 ++ leBytes 3 0 ++ leBytes 4 16 ++ leBytes 4 1))) stH) (fun t =>
    (Tab.get t.ctxs {} 7).made && (Tab.get t.ctxs {} 7).cap == 2 && (Tab.get t.ctxs {} 7).ovpages == 16) = true := by decide +kernel
theorem test_qbind_then_nop : after (exec (.qbind (chain 0 0x03 (leBytes 2 5 ++ leBytes 2 9 ++ leBytes 4 1 ++ leBytes 8 0))) stH) (fun t =>
    after (exec (.nop (chain 5 0x12 [])) t) (fun u => (u.queue 0 5).count == 1 && (u.queue 0 5).pasid == 1 && (u.queue 0 5).vector == 9)) = true := by decide +kernel
theorem test_hdm_write_private : after (exec (.hdmWrite 0x80000 [1, 2]) { stH with fns := [(0, { features := 16 })] }) (fun t =>
    t.hbm == stH.hbm && (t.fn 0).events.map HostEvent.kind == [5]) = true
    ∧ after (exec (.hdmWrite 0x5000 [1, 2]) { stH with fns := [(0, { features := 16 })] }) (fun t => t.hbm.read 0x5001 == 2) = true := by decide +kernel
theorem test_msix_fire : after (exec .msixFire { stH with focus := { item := 3 } }) (fun t => (t.fn 0).sent == [3] && ((t.fn 0).vector 3).n == 0) = true := by
  decide +kernel

theorem witness_HostCommands :
    (∀ p ∈ ([(2, 0x12, 0), (2, 0x11, 0), (2, 0x10, 8), (0, 0x01, 16), (0, 0x02, 4), (0, 0x03, 16), (0, 0x04, 2), (0, 0x05, 6), (0, 0x06, 16), (0, 0x07, 16),
        (0, 0x08, 8)] : List (Nat × Nat × Nat)), ChainRuns (chain p.1 p.2.1 (List.replicate p.2.2 0)) p.2.1 p.2.2 (p.1 == 0) stH) := by
  unfold ChainRuns ChainMet; decide +kernel

theorem witness_HostCommands_reserved :
    ChainMet (chain 0 0x01 (List.replicate 5 0 ++ List.replicate 11 1)) 0x01 16 true stH
      ∧ chainGet (chain 0 0x01 (List.replicate 5 0 ++ List.replicate 11 1)) 5 3 ≠ 0 := by
  unfold ChainMet; decide +kernel

/-- R220, R358: a launch is not taken before its notification is written, and then as the record stood. -/
theorem test_launch_waits_for_notice : after (exec (.launch { chain 2 0x10 (leBytes 8 0x4000) with notice := 2 }) stH) (fun t =>
    t.launches.isEmpty && t.hostMem == stH.hostMem && t.fns == stH.fns) = true := by decide +kernel

theorem witness_HostCommands_launch :
    ((chain 2 0x10 []).notice ≤ Tab.get (stH.fn 0).notified 0 2 ∧ Tab.get (stH.fn 0).notified 0 2 < 2 ∧ (stH.queue 0 2).kept = []) ∧
    (match stH.fetchRecord 1 0x4000 with
      | (some (bs, u), _) => bs != [] && (u.launches.look u.nextLaunch).isNone && recordOk bs (Tab.get u.ctxs {} 1).cap true
      | _ => false) = true
    ∧ (match stH.fetchRecord 1 0x5000 with
      | (some (bs, _), _) => bs != [] && !recordOk bs 1 true && (LaunchRec.ofBytes bs).done == 0
      | _ => false) = true
    ∧ stH.launchesDone 0 2 = true ∧ (chainGet (chain 2 0x10 (leBytes 8 0x4000)) 0 8 % 128 = 0)
    ∧ { stB h0 with fns := stH.fns }.launchesDone 0 2 = false := by decide +kernel

theorem witness_HostCommands_control :
    (let c := chain 0 0x01 (leBytes 4 7 ++ leBytes 1 2 ++ leBytes 3 0 ++ leBytes 4 16 ++ leBytes 4 1)
     chainGet c 0 4 < 2 ^ 20 ∧ chainGet c 4 1 ≤ 3 ∧ chainGet c 5 3 = 0 ∧ (Tab.get stH.ctxs {} 7).made = false
      ∧ (stH.standingPages + chainGet c 8 4 + chainGet c 12 4) * 4096 ≤ Config.hbmBytes)
    ∧ (let c := chain 0 0x01 (leBytes 4 7 ++ leBytes 4 0 ++ leBytes 4 0xFFFFFFFF ++ leBytes 4 1)
       Config.hbmBytes < (stH.standingPages + chainGet c 8 4 + chainGet c 12 4) * 4096)
    ∧ (2 ^ 20 ≤ chainGet (chain 0 0x01 (leBytes 4 0x100000 ++ leBytes 12 0)) 0 4)
    ∧ stH.ctxs.has (chainGet (chain 0 0x02 (leBytes 4 1)) 0 4) = true
    ∧ (let c := chain 0 0x03 (leBytes 2 5 ++ leBytes 2 9 ++ leBytes 4 1 ++ leBytes 8 0)
       2 ≤ chainGet c 0 2 ∧ chainGet c 0 2 ≤ 4097 ∧ chainGet c 2 2 < 2048 ∧ (Tab.get stH.ctxs {} (chainGet c 4 4)).made = true
        ∧ (Tab.get stH.ctxs {} (chainGet c 4 4)).link = 0 ∧ (stH.queue 0 (chainGet c 0 2)).bound = false)
    ∧ (let c := chain 0 0x04 (leBytes 2 2)
       2 ≤ chainGet c 0 2 ∧ (stH.queue 0 (chainGet c 0 2)).bound = true ∧ (stH.queue 0 (chainGet c 0 2)).qstate ≠ 1 ∧ (stH.queue 0 (chainGet c 0 2)).begun = false)
    ∧ (let c := chain 0 0x05 (leBytes 2 3 ++ leBytes 1 4 ++ leBytes 1 0 ++ leBytes 2 7)
       chainGet c 0 2 < 2048 ∧ chainGet c 2 1 ≠ 0 ∧ chainGet c 3 1 = 0)
    ∧ (let c := chain 0 0x06 (leBytes 2 1 ++ leBytes 2 2 ++ leBytes 4 0 ++ leBytes 8 9)
       bitOf (stH.fn 0).features 1 = true ∧ bitOf (({ stH with fns := [] } : State).fn 0).features 1 = false ∧ 1 ≤ chainGet c 2 2 ∧ chainGet c 2 2 ≤ 1024
        ∧ chainGet c 0 2 < chainGet c 2 2 ∧ chainGet c 4 4 = 0)
    ∧ (let c := chain 0 0x07 (leBytes 4 1 ++ leBytes 2 3 ++ leBytes 2 0 ++ leBytes 8 9)
       (Tab.get stH.ctxs {} (chainGet c 0 4)).made = true ∧ chainGet c 4 2 ≠ 0 ∧ chainGet c 6 2 = 0)
    ∧ (let c := chain 0 0x08 (leBytes 4 4 ++ leBytes 4 0 ++ [0x10, 0x84, 0, 0])
       c.payload.length ≤ 4096 ∧ chainGet c 0 4 + 8 ≤ c.payload.length ∧ chainGet c 4 4 = 0)
    ∧ (let s := { stH with fns := [(0, { featuresOk := true, queues := [(2, { q2 with qstate := 2 })] })] }
       (s.queue 0 2).qstate = 2 ∧ (s.fn 0).featuresOk = true ∧ (s.fn 0).needsReset = false ∧ (s.queue 0 2).bound = true ∧ (s.queue 0 2).chains = []) := by
  decide +kernel

theorem witness_HostLink :
    (stH.presented = true ∧ ((stH.fn 0).vector 3).due stH.tick = true ∧ (stH.fn 0).events ≠ [] ∧ stH.focus.unit < Config.links)
    ∧ (let j : MemJob := { kind := .load, size := 4, lanes := [⟨0, 0, 0, 0⟩], dest := .v 3, pc := 0x10040, words := [], tag := 0 }
       let e : LogEntry := { job := j, active := 1, att := {}, state := .verdict, npage := 1, order := 0 }
       let r : PageReq := { pasid := 1, hart := 0, entry := 7, seq := 5, vpn := 9 }
       let s := { stH with harts := [(0, { h0 with oplog := [(7, e)] })], focus := { code := 8, item := 7 } }
       let f : HostFn := { s.fn 0 with features := 0x3E, groups := [(0, r)] }
       s.me.oplog.look 7 = some e ∧ e.state = .verdict ∧ (s.ctx s.cur).link = 0 ∧ bitOf (s.fn 0).features 5 = false
        ∧ bitOf f.features 5 = true ∧ f.priStopped = false ∧ f.groups.look 1 = none ∧ (∀ i, i < 1 → f.groups.has i = true)
        ∧ (∀ x ∈ f.groups, x.2.seq ≠ e.seq) ∧ 1 < Config.pageGroups ∧ f.groups.look 0 = some r ∧ r.retired = false)
    ∧ (let q : AtsReq := { link := 0, pasid := 1, vpn := 9, core := 0, asker := 5 }
       let s := { stH with ats := [q], clusters := [(0, { ctx := some 1 })] }
       s.ats.filter (fun r => r.link == 0 && r.pasid == 1 && r.vpn == 9) = [q] ∧ s.tlbServes 0 1 = true ∧ s.tlbServes 0 2 = false)
    ∧ (let q : HostQueue := { q2 with ring := 0x8000, used := 2 }
       q.ring ≠ 0 ∧ 0x9000 + 48 > q.ring + 16 * q.used + 8 ∧ q.ring + 16 * q.used + 16 ≤ 0x9000) := by decide +kernel

/-- A page request takes the lowest free group and marks the entry that waits for it; its response sends the verdict (R325). -/
theorem test_page_request :
    (let j : MemJob := { kind := .load, size := 4, lanes := [⟨0, 0, 0, 0⟩], dest := .v 3, pc := 0x10040, words := [], tag := 0 }
     let e : LogEntry := { job := j, active := 1, att := {}, state := .verdict, npage := 1, order := 0, seq := 5 }
     let s := { stH with harts := [(0, { h0 with oplog := [(7, e)] })], focus := { code := 8, item := 7 }, fns := [(0, { features := 0x3E })] }
     after (exec .pageRequestResponse s) (fun t => (t.fn 0).groups.map (fun g => (g.1, g.2.entry, g.2.seq)) == [(0, 7, 5)] && t.net == []
       && after (exec .pageRequestResponse { t with focus := { code := 1, item := 0 } }) (fun u =>
            (u.fn 0).groups == [] && u.net.map (fun m => m.payload) == [leBytes 8 (1 + 7 * 256 + 5 * 65536)]))) = true := by decide +kernel

theorem witness_OutsideAccesses :
    (bitOf (stH.fn 0).features 4 = true ∧ 0x5000 + 64 ≤ Config.hbmBytes ∧ stH.isPrivate 0x5000 = false ∧ stH.isPrivate 0x5001 = false
      ∧ stH.isPrivate 0x80000 = true ∧ stH.retired.contains 5 = false)
    ∧ (let s := { stH with snoops := [40], retired := [5] }
       s.snoops.contains 40 = true ∧ s.retired.contains (0x5000 / 4096) = true)
    ∧ (let x : Hart := { h0 with wait := { code := 17, a := 2 } }
       x.wait.code = 17 ∧ x.wait.a = 2)
    ∧ (let j : MemJob := { kind := .load, size := 4, lanes := [⟨0, 0, 0, 0⟩], dest := .v 3, pc := 0x10040, words := [], tag := 0 }
       let e : LogEntry := { job := j, active := 1, att := {}, state := .walking, npage := 1, order := 0, asked := [(0, 2)] }
       e.state = .walking ∧ e.job.kind = .load ∧ Tab.has e.asked 0 = true ∧ Tab.has e.answers 0 = false ∧ e.fails = [] ∧ e.engine = none)
    ∧ (let j : MemJob := { kind := .store, size := 4, lanes := [⟨5, 0, 0, 0⟩], pc := 0x10040, words := [], tag := 0 }
       let p : PendOp := { job := j, acks := [5] }
       [p][16 - 16]? = some p ∧ p.job.dest = .none ∧ p.job.acq = false ∧ p.acks = [5])
    ∧ stH.gangHeld (stH.ctx stH.cur).gang = false
    ∧ (stH.contextOfGang 9 = none ∧ stH.gangHeld 9 = false) := by decide +kernel

/-- The same module with context 1 in gang 9 and a domain region that is its own memory. -/
def stG : State := { stH with ctxs := stH.ctxs.map (fun c => (c.1, { c.2 with gang := 9, domain := 0x100000 })) }

/-- A store of another module held for its confirmation, and the confirmation. -/
def heldReq : WindowReq := { gang := 9, srcModule := 3, core := 7, seq := 2, offset := 0x40, op := .store [1, 2, 3, 4] }
def stHeld : State := { stG with winHeld := [(heldReq, ⟨.hbm, 0x100040⟩)] }

theorem test_confirm_performs : after (exec (.windowRequest { heldReq with op := .confirm true }) stHeld) (fun t =>
    t.winHeld == [] && t.hbm.readBytes 0x100040 4 == [1, 2, 3, 4]) = true := by decide +kernel

theorem witness_OutsideAccesses_confirm : (stHeld.contextOfGang 9).isSome = true ∧ stHeld.gangHeld 9 = false
    ∧ stHeld.winHeld.find? (fun w => windowConfirms { heldReq with op := .confirm true } w.1) = some (heldReq, ⟨.hbm, 0x100040⟩)
    ∧ stHeld.migrating.contains (0x100040 / 4096) = false := by decide +kernel

theorem witness_OutsideAccesses_window :
    (∃ x, stG.contextOfGang 9 = some x) ∧ stG.gangHeld 9 = false
    ∧ Unheld stG heldReq ∧ windowHolds heldReq.op = true
    ∧ ({ req := heldReq, core := 0, seq := 1, bad := some true } : WinWait).bad = some true
    ∧ (match ({ stG with hbm := [] } : State).ctxPlace 1 deviceCore (0x100000 + BitVec.ofNat 64 0x40) true with
      | (.fail _, _) => true
      | _ => false) = true
    ∧ (match stG.ctxPlace 1 deviceCore (0x100000 + BitVec.ofNat 64 0x40) false with
      | (.at ⟨.hbm, off⟩, _) => off == 0x100040
      | _ => false) = true
    ∧ (match stG.ctxPlace 1 deviceCore (0x100000 + BitVec.ofNat 64 0x40) true with
      | (.at ⟨.hbm, off⟩, _) => off == 0x100040
      | _ => false) = true :=
  ⟨⟨(1, Tab.get stG.ctxs {} 1), by decide +kernel⟩, by decide +kernel, by unfold Unheld; decide +kernel, by decide +kernel⟩

/-! ### Scheduling, gangs, the domain and the module -/

/-- A launch of two cohorts in class 0, none of them placed; the same with the first resident, saving or swapped. -/
def launch2 : Launch :=
  { record := { cohorts := 2, entry := 0x10000, blocks := 1, harts := 1, prio := 0, world := 0, tickets := 2, stages := 0, windows := [1, 1, 1, 1]
                scratch := 0, tcm := 0, args := 0, done := 0, seq := 4 }
    addr := 0x4000, pasid := 1, queue := some 2 }
def cohort0 (p : Phase) : Cohort := { blocks := [{ harts := [0], cluster := 0, scratchBase := 0 }], phase := p }
def stL (l : Launch) : State := { stH with launches := [(0, l)], nextLaunch := 1 }
def stP (p : Phase) : State :=
  { stL { launch2 with cohorts := [(0, cohort0 p)], next := 1, joined := true } with harts := [(0, { h0 with resident := p == .resident })] }

theorem test_grant_places_first_cohort : after (exec .arbiterGrant { stL launch2 with harts := [], cores := [] }) (fun t =>
    t.launches.map (fun l => (l.2.next, l.2.pass, l.2.cohorts.map (fun c => c.2.phase))) == [(1, 2 ^ 19, [Phase.placed])]
      && (t.hart 0).pc == 0x10000 && (t.hart 0).window == 16) = true := by decide +kernel
theorem test_sched_write : after (exec .schedWrite { stH with schedNext := some (4096, 0xFFFF000000070010) }) (fun t =>
    t.sliceTicks == 16 && t.minres == 7 && t.agemax == 16384) = true := by decide +kernel

theorem witness_Scheduling_grant :
    (let s : State := { stL { launch2 with record := { launch2.record with prio := 3 } } with harts := [], cores := [] }
     let u := s.joinAll
     (u.cohorts.any (fun c => c.2.2.2.phase == .saving)) = false ∧ u.returning = [] ∧ (match u.clients 3 with
      | [e] => u.admits e.2.pasid && (u.fitCohort e.1 e.2.next).any (fun f => (f.2.2.launches.look e.1).isSome)
      | _ => false) = true) := by decide +kernel

theorem witness_Scheduling :
    ((∃ p, (stP .placed).cohort 0 0 = some p ∧ p.2.phase = .placed) ∧ (∃ p, (stP .returning).cohort 0 0 = some p ∧ p.2.phase = .returning)
      ∧ ∃ p, (stP .saving).cohort 0 0 = some p ∧ p.2.phase = .saving ∧ p.2.rotating = false)
    ∧ (∃ p, (stP .resident).cohort 0 0 = some p ∧ p.2.phase = .resident ∧ p.2.quantum + 256 * (stP .resident).sliceTicks ≤ (stP .resident).cycle
      ∧ (stP .resident).lastRetirement 0 0 = none ∧ p.1.cohorts.any (fun e => e.1 != 0 && e.2.phase.holds) = false)
    ∧ (let u := { launch2 with record := { launch2.record with cohorts := 1 }, cohorts := [(0, cohort0 .resident)], next := 1, joined := true }
       ((({ stL u with harts := [(0, h0)] } : State).without [(0, 0)]).successor 0 0).isSome = false)
    ∧ (let s := stP .saving
       let hs := (cohort0 .saving).allHarts
       (s.stopHarts hs).stoppedAll hs false = true ∧ (cohort0 .saving).ganged = false ∧ (cohort0 .saving).parked = false
        ∧ ((s.onHart 0 (fun x => { x with rel := some 3, ops := hStore.ops })).stopHarts hs).stoppedAll hs false = false) :=
  ⟨⟨⟨({ launch2 with cohorts := [(0, cohort0 .placed)], next := 1, joined := true }, cohort0 .placed), by decide +kernel⟩,
      ⟨({ launch2 with cohorts := [(0, cohort0 .returning)], next := 1, joined := true }, cohort0 .returning), by decide +kernel⟩,
      ⟨({ launch2 with cohorts := [(0, cohort0 .saving)], next := 1, joined := true }, cohort0 .saving), by decide +kernel⟩⟩,
    ⟨({ launch2 with cohorts := [(0, cohort0 .resident)], next := 1, joined := true }, cohort0 .resident), by decide +kernel⟩, by decide +kernel,
    by decide +kernel⟩

theorem witness_Scheduling_ends :
    (let s := { stP .resident with ctxs := [(1, { made := true, bound := true, cap := 1, svbase := 0x80000, svpages := 2000 })] }
     s.lastRetirement 0 0 = none ∧ ((s.without [(0, 0)]).successor 0 0).isSome = true)
    ∧ (let s := { stL { launch2 with cohorts := [(0, { cohort0 .swapped with saved := some { area := 0x80000, size := 64 } })], next := 1, joined := true } with harts := [] }
       (match s.returning with
        | e :: _ => e.1 == 0 && e.2.1 == 0 && s.cohort 0 0 == some (e.2.2.1, e.2.2.2)
        | [] => false) = true)
    ∧ (let l := { launch2 with joined := true }
       (stL l).launches.look 0 = some l ∧ l.queued = true ∧ l.aged = false ∧ l.granted + 0 ≤ (stL l).tick)
    ∧ (let l := { launch2 with joined := true, granted := 0 }
       let s := { stL l with cycle := 16384 * 256 }
       s.launches.look 0 = some l ∧ l.granted + s.agemax ≤ s.tick)
    ∧ (let l := { launch2 with next := 2, retired := 2 }
       (stL l).launches.look 0 = some l ∧ l.queue.isSome = true ∧ l.ended = false ∧ l.finished = true ∧ (stL l).tagsFree 0 = true ∧ l.record.done = 0)
    ∧ (let s := { stH with hbm := Memory.writeBytes [] 0x1000 (leBytes 8 0x1DF)
                           clusters := [(clusterOf deviceCore, { tlb := [{ pasid := 1, level := 4, vpn := 0, ppn := 0, r := true, w := true, x := true
                                                                           u := true, d := true, host := true, pmode := 0, pidx := 0, slice := none }] })] }
       (match s.ctxPlace 1 deviceCore 0x7000 true with
        | (.at ⟨.host, off⟩, _) => off == 0x7000
        | _ => false) = true)
    ∧ (∃ p, ({ stH with schedNext := some (4096, 0x10) } : State).schedNext = some p ∧ p.1 ≤ stH.tick) := by
  refine ⟨?_, ?_, ?_, ?_, ?_, ?_, ⟨_, rfl, ?_⟩⟩ <;> decide +kernel

/-- Gang 9 armed for a tick that has come, being swept, and sealed. -/
def stSw (k : Nat) : State :=
  { stG with
    gangs := [(9, { st := k, tick := 1, area := 0x200000, pages := 4, late := 8, swept := 4096 })], focus := { item := 9 }
    wale := [{ kind := 9, vc := 3, gang := 9, time := 5000, tag := 0 }], switches := [(0, { armed := [(9, 5)] })] }

theorem witness_GangSwitches :
    ((stSw 1).gang 9).st = 1 ∧ ((stSw 1).gang 9).tick ≤ (stSw 1).tick ∧ ((stSw 1).gang 9).next ≠ 9
    ∧ ((stSw 1).gang 9).records.length + ((stSw 1).openRoutes 9 ++ (stSw 1).portPackets 9).length ≤ ((stSw 1).gang 9).room
    ∧ (Tab.get (stSw 1).ctxs ({} : Context) 1).gang = 9 ∧ (Tab.get (stSw 1).ctxs ({} : Context) 1).killed = false
    ∧ (((stSw 2).gang 9).st = 2 ∧ (stSw 2).domain.size = 0)
    ∧ (let s := { stSw 2 with gangs := [(9, { (stSw 2).gang 9 with leaving := true })] }
       (s.gang 9).leaving = true ∧ ((s.gangContexts 9).map Prod.fst).all s.hasLeft = true ∧ (s.gang 9).next ≠ 9
        ∧ ((s.gangContexts 9).map Prod.fst).all ({ s with harts := [(0, { hStore with handler := true, home := none, rel := some 3 })], cores := [(0, { holder := some 1 })] } : State).hasLeft = false)
    ∧ (((stSw 3).gang 9).st = 3 ∧ ((stSw 3).gang 9).closed = false ∧ (stSw 3).tick < ((stSw 3).gang 9).swept + ((stSw 3).gang 9).late)
    ∧ ({ stSw 3 with cycle := 256 * 4104 }.gang 9).swept + 8 ≤ ({ stSw 3 with cycle := 256 * 4104 } : State).tick
    ∧ (((stSw 2).gang 9).records.length < ((stSw 2).gang 9).room ∧ ((stSw 4).gang 9).st = 4)
    ∧ ((stSw 1).wale.find? (fun q => isArmFlit q && q.tag == 0) = some { kind := 9, vc := 3, gang := 9, time := 5000, tag := 0 })
    ∧ ((Tab.get (stSw 1).switches {} 0).armed = [(9, 5)] ∧ 5 ≤ (stSw 1).tick) := by decide +kernel

theorem witness_DomainAndModule :
    (let s := { stH with domain := { size := 3, module := 0, reports := [(1, 5)] }, focus := { unit := 2, item := 5 } }
     s.domain.size ≠ 0 ∧ s.domain.module = 0 ∧ s.focus.unit < s.domain.size ∧ s.domain.closed < s.focus.item
      ∧ s.focus.unit ≠ 0 ∧ s.domain.reports.contains (s.focus.unit, s.focus.item) = false ∧ s.domain.beat + 65536 ≤ s.cycle ∧ (∃ m, m < 3 ∧ m ≠ 2 ∧ (m, 5) ∉ s.domain.reports))
    ∧ (let s := { stH with domain := { size := 3, module := 0, reports := [(1, 5), (0, 5)] }, focus := { unit := 2, item := 5 } }
       ∀ m, m < s.domain.size → m ≠ s.focus.unit → (m, 5) ∈ s.domain.reports)
    ∧ (let s := { stH with domain := { size := 3, module := 1 } }
       s.domain.size ≠ 0 ∧ s.domain.module ≠ 0 ∧ s.domain.lost = false ∧ s.focus.item ≤ s.tick ∧ s.domain.beat + 2 ^ 20 ≤ s.cycle ∧ ∀ l, l < 2 → (s.fn l).events.length < 256)
    ∧ (let e : EccError := { place := .hbm, unit := 0, address := 0x700000 }
       ({ stH with ctxs := [] } : State).affected e = [] ∧ ({ stH with ctxs := [] } : State).ofService e = false)
    ∧ (let e : EccError := { place := .laneRegs, unit := 0, address := 0 }
       1 ∈ stH.affected e ∧ stH.ctxs.has 1 = true)
    ∧ ((0 : Nat) < Config.cdies ∧ (Tab.get stH.dies {} 0).st = 0 ∧ (Tab.get [(0, ({ st := 1 } : Thermal))] {} 0).st = 1)
    ∧ (∀ i, i < 5 → (List.replicate 5 true).getD i false = true) := by
  refine ⟨?_, ?_, ?_, ?_, ?_, ?_, ?_⟩ <;> decide +kernel

/-! ### Debug -/

/-- A halted hart, one that a debugger may halt, one with triggers, and one with an interrupt pending. -/
def hHalt : Hart := { h0 with dbg := { halted := true, dcsr := 0, dpc := 0x10040 } }
def hTrig (action : Nat) : Hart :=
  { h0 with dbg := { triggers := [(0, { data1 := BitVec.ofNat 64 (6 * 2 ^ 60 + 2 ^ 59 * 0 + action * 4096 + 2 ^ 3 + 2 ^ 2), data2 := 0x10000 })] } }

theorem test_access_register : after (exec (.accessRegister { hart := 0, reg := 0x100A, size := 3, write := some 99, transfer := true, postexec := false, progbuf := [] })
    (st hHalt)) (fun t => (t.hart 0).X 10 == 99 && (t.hart 0).X 11 == 3) = true := by decide +kernel
theorem test_haltreq_resumereq : after (exec .haltreq (st h0)) (fun t =>
    t.me.dbg.dpc == 0x10000 && t.me.dbg.halted && after (exec .resumereq t) (fun u => u.me.pc == 0x10000 && !u.me.dbg.halted)) = true := by decide +kernel

theorem witness_DebugAndInterrupts :
    (h0.tinker = false ∧ ((st h0).core 0).dm.cmderr = 0 ∧ h0.live = true ∧ h0.resident = true ∧ h0.dbg.halted = false ∧ hHalt.dbg.halted = true
      ∧ (st h0).lastOf ((st h0).blockHarts 0) = none ∧ h0.defers = false
      ∧ (csrValue (debugView (st hHalt) 0) 0x341).isSome = true ∧ csrValue (debugView (st hHalt) 0) 0x8FF = none)
    ∧ (let x : Hart := { h0 with csr := { Csrs.start with mip := 2, mie := 2, mstatus := 0xA00000002 } }
       x.interruptDue = some 1 ∧ x.inShadow = false ∧ x.mode ≠ .m ∧ x.csr.mideleg.getLsbD 1 = true ∧ x.csr.stvec.getLsbD 0 = false)
    ∧ (let x : Hart := { h0 with csr := { Csrs.start with mip := 8, mie := 8, mstatus := 0xA00000008 } }
       x.interruptDue = some 3 ∧ x.csr.mideleg.getLsbD 3 = false ∧ x.idle = false) := by decide +kernel


theorem witness_DebugAndInterrupts_triggers :
    ((hTrig 1).triggered none true).isSome = true ∧ ((hTrig 0).triggered none true).isNone = true ∧ ((hTrig 0).triggered none false).isSome = true
    ∧ (∃ n a, (st (hTrig 1)).me.triggered ((st (hTrig 1)).peek (st (hTrig 1)).cur) true = some (n, a))
    ∧ (st (hTrig 0)).me.triggered ((st (hTrig 0)).peek (st (hTrig 0)).cur) true = none
    ∧ (∃ n a, (st (hTrig 0)).me.triggered ((st (hTrig 0)).peek (st (hTrig 0)).cur) false = some (n, a)) :=
  ⟨by decide +kernel, by decide +kernel, by decide +kernel, ⟨0, 0x10000, by decide +kernel⟩, by decide +kernel, ⟨0, 0x10000, by decide +kernel⟩⟩
/-! ### Decoding, steps, reset and invariants -/

/-- A state whose next step issues an addition of lanes 0 to 31, and one whose next step issues it on a hart in M mode, whose fetch is
not translated. -/
def stF : State := State.reset.withFetchWord 32 0x00A18E0B
def stM : State := stF.onHart 0 (fun x => { x with mode := .m })

theorem test_step_runs_vadd : after (step stF) (fun t => (t.hart 0).pc == 0x10004 && (t.hart 0).instret == 1 && t.cycle == 1) = true := by
  decide +kernel
/-- R379: a hart branch that transfers control is a taken branch, `jalr` an uninferable discontinuity; a map has 0 for a taken branch, the
first lowest (E-Trace 2.0). -/
theorem test_trace_flow :
    flowOf (.mbnz { d := 1, a := 1, b := 5 }) (st h0) h0 { h0 with pc := h0.pc + 20 } = .branch true false
    ∧ flowOf (.standardInstruction (.jalr 0 1 0)) (st h0) h0 { h0 with pc := h0.pc + 64 } = .jumps
    ∧ (TracePacket.branches [true, false] (some 0x80)).fields 7 = [1, 2, 2, 7, 0x80] := by decide +kernel
theorem test_step_no_event : after (step State.reset) (fun t => t.cycle == 1) = true := by decide +kernel
theorem test_table_word : decodeTableWord 32 0x00A18E0B = some (.vadd { d := 7, a := 3, b := 5 }) := by decide +kernel

theorem witness_EncodeThenDecode : (Instr.vadd { d := 7, a := 3, b := 5 }).wf = true := by decide +kernel
theorem witness_DecodeThenEncode : decodeWords ([0x00A18E0B] ++ [5]) = (.ok (.vadd { d := 7, a := 3, b := 5 }), [5]) := by decide +kernel

/-- What a step needs to be the run of its instruction, as one test. -/
def runsNow (s : State) : Bool :=
  let s2 : State := { s with agenda := [], cur := 0, trapped := false }
  (s2.hart 0).scoreClear (.vadd { d := 7, a := 3, b := 5 }) &&
  s.agenda == [{ hart := 0 }] && (s.agenda.all fun e => e.step.isNone) && ({ s with agenda := [] } : State).ready.contains 0
    && (s2.hart 0).dbg.running.isNone
    && ((s2.hart 0).triggered (s2.peek 0) true).isNone && ((s2.hart 0).triggered (s2.peek 0) false).isNone
    && ({ s with agenda := [] } : State).pipeFree 0
    && !(s2.hart 0).defers && (s2.hart 0).matchDue.isNone && (s2.hart 0).interruptDue.isNone && !s2.userDue 0
    && (match s2.fetch 0 with
      | .instr i t => i == .vadd { d := 7, a := 3, b := 5 } && after (exec i t) (fun u => !u.trapped && !(u.hart 0).dbg.stepping)
      | _ => false)

theorem witness_StepRunsDecodedInstruction : runsNow stF = true ∧ runsNow stM = true := by decide +kernel

theorem witness_StepRunsDecodedInstruction_fetch :
    (stM.hart 0).pc.toNat % 4 = 0
    ∧ (match fetchWords 0 1 (stM.hart 0).pc [] stM with
      | .inl (ws, _) => ws == [0x00A18E0B]
      | .inr _ => false) = true
    ∧ wordCount 0x00A18E0B = 1 ∧ decodeWords [0x00A18E0B] = (.ok (.vadd { d := 7, a := 3, b := 5 }), [])
    ∧ (Instr.vadd { d := 7, a := 3, b := 5 }).wf = true := by decide +kernel

theorem witness_StepRunsDecodedInstruction_untranslated :
    inLocal 0x10000 = false ∧ inDomain 0x10000 = false ∧ rootOf stM 0 .fetch = none ∧ (0x10000 : W64).toNat + 4 ≤ Config.hbmBytes
    ∧ stM.migrating.contains (0x10000 / 4096) = false ∧ (stM.hart 0).icache.look (0x10000 / 128) = none
    ∧ (stM.core (coreOf 0)).unpub = [] ∧ stM.doomed = [] ∧ stM.domain.drift = 0 ∧ stM.domain.slipped = false
    ∧ (stM.hart 0).fetchOwn = [] ∧ (∀ w ∈ stM.written, w.1 < (stM.hart 0).fenceSeq) ∧ (stM.cycle + 1) % 256 ≠ 0
    ∧ (({ stM with cycle := 255 } : State).cycle + 1) % 256 = 0 ∧ stM.traced 0 = false := by decide +kernel

theorem witness_SchedulingWordStaysLegal : State.reset.schedOk ∧ after (step State.reset) (fun t => t.sched == State.reset.sched) = true := by
  unfold State.schedOk; decide +kernel
theorem witness_SchedulingWordStaysLegal_retired : 5 ∈ ({ State.reset with retired := [5] } : State).retired
    ∧ after (step { State.reset with retired := [5] }) (fun t => t.retired == [5]) = true := by decide +kernel

end Sys2Proof.Tests
end

/-! ### Module reset and a hart at its first instruction -/

namespace Sys2Proof.Machine

/-! #### Tables without their default entries -/

theorem Tab.get_eq_default_of_above {β : Type} {t : Tab β} (d : β) {k : Nat} (h : Tab.above k t) : Tab.get t d k = d := by
  induction t with
  | nil => rfl
  | cons e r ih =>
    obtain ⟨hk, hr⟩ := List.forall_mem_cons.1 h
    rw [Tab.get, if_neg hk.ne, ih hr]

/-- Dropping the entries that hold the default changes no read. -/
theorem Tab.get_filter_ne_default {β : Type} [BEq β] [LawfulBEq β] {t : Tab β} (d : β) (k : Nat) (h : Tab.sorted t = true) :
    Tab.get (t.filter (fun e => e.2 != d)) d k = Tab.get t d k := by
  induction t with
  | nil => rfl
  | cons e r ih =>
    obtain ⟨i, v⟩ := e
    obtain ⟨habove, hsorted⟩ := (Tab.sorted_cons i v r).1 h
    by_cases hv : v = d
    · subst hv
      rw [List.filter_cons_of_neg (by simp), ih hsorted, Tab.get]
      split
      · subst k; exact Tab.get_eq_default_of_above v habove
      · rfl
    · rw [List.filter_cons_of_pos (by simpa using hv), Tab.get, Tab.get, ih hsorted]

/-! #### The module after reset -/

namespace State

@[simp] theorem reset_hart (h : Nat) : reset.hart h = Hart.vacant := rfl
@[simp] theorem reset_sliceTicks : reset.sliceTicks = 1024 := by decide
@[simp] theorem reset_minres : reset.minres = 64 := by decide
@[simp] theorem reset_agemax : reset.agemax = 16384 := by decide

end State

/-! #### A hart at its first instruction -/

theorem Hart.doneFlags_eq_zero {x : Hart} (h : ∀ n, x.doneFlag n = false) : x.doneFlags = 0 := by
  simp [Hart.doneFlags, h]

theorem Hart.lfcsr_eq_zero {x : Hart} (hflags : x.fflags = 0) (hround : x.frm = 0) (hftz : x.ftz = false) : x.lfcsr = 0 := by
  rw [Hart.lfcsr, hflags, hround, hftz]; decide

section
variable (s : State) (l : Launch) (p : Home) (base : Nat)

/-- The arguments of R9 in a0 and a1, and zero in every other scalar register. -/
theorem State.freshHart_X (n : Nat) :
    (s.freshHart l p base).X n = if n = 10 then l.record.args else if n = 11 then l.addr else 0 := by
  have hget : (s.freshHart l p base).X n = if n = 0 then 0 else Tab.get [(10, l.record.args), (11, l.addr)] 0 n :=
    congrArg (ite (n = 0) 0) (Tab.get_filter_ne_default 0 n rfl)
  rw [hget]
  split
  · subst n; rfl
  · rfl

@[simp] theorem State.freshHart_V (r k : Nat) : (s.freshHart l p base).V r k = 0 := rfl

theorem State.freshHart_M {k : Nat} (hk : k ≠ 0) : (s.freshHart l p base).M k = 0 := if_neg hk

@[simp] theorem State.freshHart_m0 : (s.freshHart l p base).m0 = 0xFFFFFFFF := rfl

/-- No operation, log entry or engine command is attached to a flag (R42). -/
theorem State.freshHart_doneFlag (n : Nat) : (s.freshHart l p base).doneFlag n = false := rfl

@[simp] theorem State.freshHart_doneFlags : (s.freshHart l p base).doneFlags = 0 :=
  Hart.doneFlags_eq_zero (State.freshHart_doneFlag s l p base)

@[simp] theorem State.freshHart_lfcsr : (s.freshHart l p base).lfcsr = 0 :=
  Hart.lfcsr_eq_zero rfl rfl rfl

end

/-- Settles O58: after reset every slot is vacant and the scheduling word reads as R336 says, and a fresh hart is a vacant slot
but for the fields that its launch sets. -/
theorem resetState : Obligations.ResetState := by
  unfold Obligations.ResetState
  refine ⟨⟨rfl, State.reset_sliceTicks, State.reset_minres, State.reset_agemax, rfl,
    fun h => congrArg Hart.live (State.reset_hart h), fun _ => rfl⟩, ?_⟩
  intro s l p base
  have hother : ∀ n, n ≠ 10 → n ≠ 11 → (s.freshHart l p base).X n = 0 := by
    intro n h10 h11
    rw [State.freshHart_X, if_neg h10, if_neg h11]
  have hmask : ∀ k, 1 ≤ k → k ≤ 7 → (s.freshHart l p base).M k = 0 :=
    fun k hk _ => State.freshHart_M s l p base (Nat.one_le_iff_ne_zero.1 hk)
  exact ⟨rfl, rfl, State.freshHart_X s l p base 10, State.freshHart_X s l p base 11, rfl, hother,
    fun r k _ => State.freshHart_V s l p base r k, hmask, State.freshHart_m0 s l p base, rfl,
    State.freshHart_doneFlags s l p base, rfl, State.freshHart_lfcsr s l p base, rfl⟩

end Sys2Proof.Machine

/-! ### Lane instructions on integers, bits and scalars -/

namespace Sys2Proof.Machine

/-! #### Instructions that only check and act on their own hart -/

/-- An instruction whose whole meaning stands under the guard is illegal where the guard fails (R87). -/
theorem illegalElse_of_hartOp {c : Args → Instr} {f : Args → Hart → Hart} (he : ∀ o s, exec (c o) s = hartOp (c o) o (f o) s) :
    IllegalElse c :=
  fun o s hg => (he o s).trans (guarded_neg _ hg)

/-- A guarded instruction keeps the field rules of its row. -/
theorem row_ok_of_guard {i : Instr} {r : Row} {o : Args} {h : Hart} (hi : i.osier = some (r, o)) (hg : guard i h = true) :
    r.ok o = true := by
  simp only [guard, hi, Bool.and_eq_true] at hg
  obtain ⟨⟨⟨hok, -⟩, -⟩, -⟩ := hg
  exact hok

theorem xop_mem_of_ok {r : Row} {o : Args} (hr : r.ok o = true) : o.xop.toNat ∈ r.xops := by
  simp only [Row.ok, Bool.and_eq_true, List.contains_iff_mem] at hr
  tauto

theorem type_mem_of_ok {r : Row} {o : Args} (hr : r.ok o = true) : o.ty.toNat ∈ r.types := by
  simp only [Row.ok, Bool.and_eq_true, List.contains_iff_mem] at hr
  tauto

theorem tyOf_mem {o : Args} {dflt : Nat} {ts : List Nat} (ht : o.ty.toNat ∈ 0 :: ts) : tyOf o dflt ∈ dflt :: ts := by
  unfold tyOf
  split
  case isTrue => exact List.mem_cons_self
  case isFalse hty =>
    have hne : o.ty.toNat ≠ 0 := fun h0 => hty (BitVec.eq_of_toNat_eq h0)
    exact List.mem_cons_of_mem _ ((List.mem_cons.1 ht).resolve_left hne)

/-! #### Elements of an integer type -/

/-- A type that has an element k is 4, 8, 16 or 32 bits wide. -/
theorem bitsOfType_cases {t k : Nat} (hk : k < 32 / bitsOfType t) :
    bitsOfType t = 4 ∨ bitsOfType t = 8 ∨ bitsOfType t = 16 ∨ bitsOfType t = 32 := by
  revert hk
  unfold bitsOfType Rows.typeBits
  split_ifs <;> simp

theorem bitsOfType_mul_div {t k : Nat} (hk : k < 32 / bitsOfType t) : bitsOfType t * (32 / bitsOfType t) = 32 := by
  rcases bitsOfType_cases hk with h | h | h | h <;> rw [h]

theorem bitsOfType_pos {t k : Nat} (hk : k < 32 / bitsOfType t) : 0 < bitsOfType t := by
  rcases bitsOfType_cases hk with h | h | h | h <;> rw [h] <;> decide

theorem elem_lt (w k : Nat) (x : W32) : elem w k x < 2 ^ w := Nat.mod_lt _ (Nat.two_pow_pos w)

theorem elemB_lt (h : Hart) (o : Args) (imm : Bool) (w k l : Nat) : elemB h o imm w k l < 2 ^ w := by
  unfold elemB
  split
  · exact Nat.mod_lt _ (Nat.two_pow_pos w)
  · exact elem_lt w k _

theorem natCast_wrapBits (w : Nat) (i : Int) : (wrapBits w i : Int) = i % 2 ^ w :=
  Int.toNat_of_nonneg (Int.emod_nonneg _ (by positivity))

theorem wrapBits_lt (w : Nat) (i : Int) : wrapBits w i < 2 ^ w := by
  have hlt : i % 2 ^ w < 2 ^ w := Int.emod_lt_of_pos _ (by positivity)
  rw [← natCast_wrapBits] at hlt
  exact_mod_cast hlt

theorem narrow_lt (signed sat : Bool) (w : Nat) (i : Int) : narrow signed sat w i < 2 ^ w := wrapBits_lt w _

/-- A number of w bits is its own pattern. -/
theorem wrapBits_natCast {w n : Nat} (hn : n < 2 ^ w) : wrapBits w n = n := by
  have hwrap : (wrapBits w n : Int) = n :=
    (natCast_wrapBits w n).trans (Int.emod_eq_of_lt (by positivity) (by exact_mod_cast hn))
  exact_mod_cast hwrap

theorem wrapBits_sub_two_pow (w : Nat) (i : Int) : wrapBits w (i - 2 ^ w) = wrapBits w i := by
  unfold wrapBits
  rw [Int.sub_emod_right]

/-- The pattern of the integer that a pattern stands for. -/
theorem wrapBits_intOf (signed : Bool) {w n : Nat} (hn : n < 2 ^ w) : wrapBits w (intOf signed w n) = n := by
  unfold intOf
  split
  · rw [wrapBits_sub_two_pow, wrapBits_natCast hn]
  · exact wrapBits_natCast hn

theorem intOf_eq_zero_iff (signed : Bool) {w n : Nat} (hn : n < 2 ^ w) : intOf signed w n = 0 ↔ n = 0 := by
  have hn' : (n : Int) < 2 ^ w := by exact_mod_cast hn
  unfold intOf
  split
  case isTrue hneg =>
    simp only [Bool.and_eq_true, decide_eq_true_eq] at hneg
    have hpos : 0 < n := lt_of_lt_of_le (Nat.two_pow_pos _) hneg.2
    omega
  case isFalse => omega

theorem natCast_two_pow_sub_one (w : Nat) : ((2 ^ w - 1 : Nat) : Int) = 2 ^ w - 1 := by
  rw [Nat.cast_sub Nat.one_le_two_pow]
  push_cast
  rfl

/-- All ones, the pattern of the greatest unsigned value. -/
theorem wrapBits_two_pow_sub_one (w : Nat) : wrapBits w (2 ^ w - 1) = 2 ^ w - 1 := by
  rw [← natCast_two_pow_sub_one, wrapBits_natCast (Nat.sub_lt (Nat.two_pow_pos w) one_pos)]

/-- All ones, the pattern of −1 (R62). -/
theorem wrapBits_neg_one (w : Nat) : wrapBits w (-1) = 2 ^ w - 1 := by
  have hones : (2 : Int) ^ w - 1 - 2 ^ w = -1 := by ring
  rw [← hones, wrapBits_sub_two_pow, wrapBits_two_pow_sub_one]

/-- A lane made of elements of w bits gives each of them back (R57). -/
theorem elem_pack_of_lt {t k : Nat} {f : Nat → Nat} (hk : k < 32 / bitsOfType t) (hf : f k < 2 ^ bitsOfType t) :
    elem (bitsOfType t) k (pack (bitsOfType t) f) = f k := by
  rw [elem_pack (bitsOfType_mul_div hk) f hk, Nat.mod_eq_of_lt hf]

/-- A lane of an integer operation, where what it does with two patterns of w bits is known. -/
theorem intElems_of_narrow {op : Int → Int → Int} {unsignedB sat imm : Bool} {f : Args → Bool → Nat → Nat → Nat → Nat} {o : Args}
    {h : Hart} {l : Nat} (himm : imm = immForm o)
    (hf : ∀ a b, a < 2 ^ bitsOfType (tyOf o 5) → b < 2 ^ bitsOfType (tyOf o 5) →
      narrow (isSigned (tyOf o 5)) sat (bitsOfType (tyOf o 5)) (op (intOf (isSigned (tyOf o 5)) (bitsOfType (tyOf o 5)) a)
        (intOf (isSigned (tyOf o 5) && !unsignedB) (bitsOfType (tyOf o 5)) b))
        = f o (isSigned (tyOf o 5)) (bitsOfType (tyOf o 5)) a b) :
    IntElems f o h l (intLane op unsignedB sat imm (tyOf o 5) o h l) := by
  subst himm
  exact fun k hk => (elem_pack_of_lt hk (narrow_lt _ _ _ _)).trans (hf _ _ (elem_lt _ k _) (elemB_lt h o _ _ k l))

/-- The same for an operation that reads both operands as its type does (R97). -/
theorem intElems_intLane {op : Int → Int → Int} {sat : Bool} {f : Args → Bool → Nat → Nat → Nat → Nat} {o : Args} {h : Hart}
    {l : Nat}
    (hf : ∀ a b, a < 2 ^ bitsOfType (tyOf o 5) → b < 2 ^ bitsOfType (tyOf o 5) →
      narrow (isSigned (tyOf o 5)) sat (bitsOfType (tyOf o 5)) (op (intOf (isSigned (tyOf o 5)) (bitsOfType (tyOf o 5)) a)
        (intOf (isSigned (tyOf o 5)) (bitsOfType (tyOf o 5)) b))
        = f o (isSigned (tyOf o 5)) (bitsOfType (tyOf o 5)) a b) :
    IntElems f o h l (intLane op false sat (immForm o) (tyOf o 5) o h l) :=
  intElems_of_narrow rfl fun a b ha hb => by rw [Bool.not_false, Bool.and_true]; exact hf a b ha hb

/-! #### Integer arithmetic (R97, R98) -/

/-- `vmulhsu` has no immediate form. -/
theorem vmulhsu_immForm {o : Args} {h : Hart} (hg : guard (.vmulhsu o) h = true) : immForm o = false := by
  have hx : o.xop.toNat ∈ [2] := xop_mem_of_ok (row_ok_of_guard rfl hg)
  have : o.xop ≠ 1 := by rintro h1; simp [h1] at hx
  simpa [immForm] using this

/-- `vmulhsu` has only the signed types. -/
theorem vmulhsu_signed {o : Args} {h : Hart} (hg : guard (.vmulhsu o) h = true) : isSigned (tyOf o 5) = true := by
  have hsigned : ∀ t ∈ [5, 5, 3, 1], isSigned t = true := by decide
  exact hsigned _ (tyOf_mem (type_mem_of_ok (row_ok_of_guard rfl hg)))

/-- The high half of the product of a signed and an unsigned element. -/
theorem vmulhsu_elements : LaneOp .vmulhsu (IntElems fun _ _ w a b => wrapBits w (intOf true w a * (b : Int) / 2 ^ w)) :=
  laneOp_of (fun _ _ _ => rfl) fun _ _ _ hg _ => intElems_of_narrow (vmulhsu_immForm hg).symm fun _ _ _ _ => by
    rw [vmulhsu_signed hg]; rfl

/-- Division: a zero divisor gives all ones for both signs (R98). -/
theorem wrapBits_divInt (signed : Bool) {w a b : Nat} (hb : b < 2 ^ w) :
    wrapBits w (divInt signed w (intOf signed w a) (intOf signed w b))
      = if b = 0 then 2 ^ w - 1 else wrapBits w ((intOf signed w a).tdiv (intOf signed w b)) := by
  unfold divInt
  simp only [intOf_eq_zero_iff signed hb]
  split
  · cases signed
    · rw [if_neg Bool.false_ne_true, wrapBits_two_pow_sub_one]
    · rw [if_pos rfl, wrapBits_neg_one]
  · rfl

/-- Remainder: a zero divisor gives the dividend (R98). -/
theorem wrapBits_remInt (signed : Bool) {w a b : Nat} (ha : a < 2 ^ w) (hb : b < 2 ^ w) :
    wrapBits w (remInt (intOf signed w a) (intOf signed w b))
      = if b = 0 then a else wrapBits w ((intOf signed w a).tmod (intOf signed w b)) := by
  unfold remInt
  simp only [intOf_eq_zero_iff signed hb]
  split
  · exact wrapBits_intOf signed ha
  · rfl

/-- Settles O1: each operation's element is the narrowed result on the integers that the patterns stand for; a zero divisor is
the one case apart. -/
theorem laneIntegerArithmetic : Obligations.LaneIntegerArithmetic := by
  unfold Obligations.LaneIntegerArithmetic
  refine ⟨?vadd, ?vsub, ?vmul, ?vmulh, vmulhsu_elements,
    laneOp_of (fun _ _ _ => rfl) fun _ _ _ _ _ => intElems_intLane fun _ _ _ hb => wrapBits_divInt _ hb,
    laneOp_of (fun _ _ _ => rfl) fun _ _ _ _ _ => intElems_intLane fun _ _ ha hb => wrapBits_remInt _ ha hb, ?illegal⟩
  case illegal =>
    simp only [List.forall_mem_cons, List.not_mem_nil, false_imp_iff, implies_true, and_true]
    and_intros <;> exact illegalElse_of_hartOp fun _ _ => rfl
  all_goals exact laneOp_of (fun _ _ _ => rfl) fun _ _ _ _ _ => intElems_intLane fun _ _ _ _ => rfl

/-! #### Shifts (R101) -/

/-- A left shift of an element, by its amount modulo the width. -/
theorem shiftElem_left (w a n : Nat) : shiftElem 0 w a n = a * 2 ^ (n % w) % 2 ^ w := rfl

theorem shiftElem_right (w a n : Nat) : shiftElem 1 w a n = a / 2 ^ (n % w) := Nat.shiftRight_eq_div_pow a (n % w)

theorem shiftElem_rightArith (w a n : Nat) : shiftElem 2 w a n = wrapBits w (intOf true w a / 2 ^ (n % w)) := rfl

theorem shiftElem_lt {w a : Nat} (kind n : Nat) (ha : a < 2 ^ w) : shiftElem kind w a n < 2 ^ w := by
  match kind with
  | 0 => exact Nat.mod_lt _ (Nat.two_pow_pos w)
  | 1 => exact lt_of_le_of_lt (Nat.shiftRight_le a _) ha
  | _ + 2 => exact wrapBits_lt w _

theorem intElems_shiftLane {kind : Nat} {f : Nat → Nat → Nat → Nat} (hf : ∀ w a n, shiftElem kind w a n = f w a n) (o : Args)
    (h : Hart) (l : Nat) : IntElems (fun _ _ w a b => f w a b) o h l (shiftLane kind o h l) := by
  intro k hk
  have hlt := shiftElem_lt kind (elemB h o (immForm o) (bitsOfType (tyOf o 5)) k l)
    (elem_lt (bitsOfType (tyOf o 5)) k (h.V o.a.toNat l))
  exact (elem_pack_of_lt hk hlt).trans (hf _ _ _)

/-! #### Counts, reversals and absolute values (R117) -/

/-- A count of bits is the number of bits that are set. -/
theorem popcount_eq_length_filter (n k : Nat) : popcount n k = ((List.range k).filter (fun i => n.testBit i)).length := by
  induction k generalizing n with
  | zero => rfl
  | succ k ih =>
    have htail : ((List.range k).filter (fun i => n.testBit (i + 1))).length = popcount (n / 2) k := by
      rw [ih]; simp only [Nat.testBit_succ]
    rw [popcount, List.range_succ_eq_map, List.filter_cons, List.filter_map, ← htail]
    rcases Nat.mod_two_eq_zero_or_one n with h | h
    · simp [Nat.testBit_zero, h, Function.comp_def]
    · simp [Nat.testBit_zero, h, Function.comp_def, Nat.add_comm]

theorem popcount_le (n k : Nat) : popcount n k ≤ k := by
  rw [popcount_eq_length_filter]
  exact (List.length_filter_le _ _).trans_eq List.length_range

/-- The leading zeros of a number other than 0 leave its highest set bit next. -/
theorem clz_bounds {w n : Nat} (h0 : n ≠ 0) (hn : n < 2 ^ w) :
    clz w n < w ∧ 2 ^ (w - 1 - clz w n) ≤ n ∧ n < 2 ^ (w - clz w n) := by
  have hlog : n.log2 < w := (Nat.log2_lt h0).2 hn
  have hclz : clz w n = w - 1 - n.log2 := if_neg h0
  have hlow : w - 1 - clz w n = n.log2 := by omega
  have hhigh : w - clz w n = n.log2 + 1 := by omega
  rw [hlow, hhigh]
  exact ⟨by omega, Nat.log2_self_le h0, Nat.lt_log2_self⟩

/-- A search for the lowest set bit passes over clear bits only, and stops at a set bit or at the end. -/
theorem ctzFrom_eq (n k i : Nat) :
    ∃ j, ctzFrom n k i = i + j ∧ j ≤ k ∧ (∀ b, b < j → n.testBit b = false) ∧ (j < k → n.testBit j = true) := by
  induction k generalizing n i with
  | zero => exact ⟨0, rfl, le_rfl, by simp, by simp⟩
  | succ k ih =>
    rw [ctzFrom]
    split
    case isTrue hodd => exact ⟨0, rfl, Nat.zero_le _, by simp, fun _ => by simp [Nat.testBit_zero, hodd]⟩
    case isFalse heven =>
      obtain ⟨j, hj, hle, hclear, hset⟩ := ih (n / 2) (i + 1)
      refine ⟨j + 1, by omega, by omega, ?_, ?_⟩
      · intro b hb
        cases b with
        | zero => simp [Nat.testBit_zero]; omega
        | succ b => rw [Nat.testBit_succ]; exact hclear b (by omega)
      · intro hlt
        rw [Nat.testBit_succ]
        exact hset (by omega)

/-- The trailing zeros of a number other than 0 end at its lowest set bit. -/
theorem ctz_spec {w n : Nat} (h0 : n ≠ 0) (hn : n < 2 ^ w) :
    ctz w n < w ∧ n.testBit (ctz w n) = true ∧ ∀ i, i < ctz w n → n.testBit i = false := by
  obtain ⟨j, hj, hle, hclear, hset⟩ := ctzFrom_eq n w 0
  have hctz : ctz w n = j := hj.trans (Nat.zero_add j)
  obtain ⟨i, hi⟩ := Nat.exists_testBit_of_ne_zero h0
  have hiw : i < w := by
    by_contra hwi
    rw [Nat.testBit_lt_two_pow (hn.trans_le (Nat.pow_le_pow_right two_pos (not_lt.1 hwi)))] at hi
    exact Bool.false_ne_true hi
  have hji : j ≤ i := by
    by_contra hij
    rw [hclear i (by omega)] at hi
    exact Bool.false_ne_true hi
  rw [hctz]
  exact ⟨by omega, hset (by omega), hclear⟩

theorem revBits_lt (n w : Nat) : revBits n w < 2 ^ w := by
  induction w generalizing n with
  | zero => exact Nat.one_pos
  | succ w ih =>
    have hbit : n % 2 * 2 ^ w ≤ 1 * 2 ^ w := Nat.mul_le_mul_right _ (by omega)
    have := ih (n / 2)
    rw [revBits, pow_succ]
    omega

theorem testBit_revBits (n : Nat) {w i : Nat} (hi : i < w) : (revBits n w).testBit i = n.testBit (w - 1 - i) := by
  induction w generalizing n with
  | zero => omega
  | succ w ih =>
    rw [revBits, Nat.mul_comm, Nat.testBit_two_pow_mul_add _ (revBits_lt _ w)]
    split
    case isTrue hlt =>
      rw [ih (n / 2) hlt, ← Nat.testBit_succ]
      congr 1
      omega
    case isFalse hge =>
      have hiw : i = w := by omega
      simp [hiw, Nat.testBit_zero]

/-- A number of up to 2^(w−1) as a signed integer of w bits: only the last is out of range. -/
theorem narrow_natCast (sat : Bool) {w n : Nat} (hw : 0 < w) (hn : n ≤ 2 ^ (w - 1)) :
    narrow true sat w n = if sat then min n (2 ^ (w - 1) - 1) else n := by
  have hpos : 1 ≤ 2 ^ (w - 1) := Nat.one_le_two_pow
  have hlt : 2 ^ (w - 1) < 2 ^ w := Nat.pow_lt_pow_right one_lt_two (Nat.sub_lt hw one_pos)
  cases sat with
  | false => exact wrapBits_natCast (hn.trans_lt hlt)
  | true =>
    have hclamp : clamp (-(2 : Int) ^ (w - 1)) ((2 : Int) ^ (w - 1) - 1) n = (min n (2 ^ (w - 1) - 1) : Nat) := by
      have hcast : (2 : Int) ^ (w - 1) = (2 ^ (w - 1) : Nat) := by push_cast; rfl
      rw [hcast, clamp, if_neg (by omega)]
      split <;> omega
    show wrapBits w (clamp (-(2 : Int) ^ (w - 1)) ((2 : Int) ^ (w - 1) - 1) n) = min n (2 ^ (w - 1) - 1)
    rw [hclamp, wrapBits_natCast (by omega)]

/-- The magnitude of a signed element: 2^(w−1) for the least value, and below it for every other. -/
theorem natAbs_intOf {w a : Nat} (hw : 0 < w) (ha : a < 2 ^ w) :
    (a = 2 ^ (w - 1) → (intOf true w a).natAbs = 2 ^ (w - 1))
      ∧ (a ≠ 2 ^ (w - 1) → (intOf true w a).natAbs < 2 ^ (w - 1)) := by
  have hhalf : 2 ^ w = 2 * 2 ^ (w - 1) := by rw [← pow_succ', Nat.sub_add_cancel hw]
  have hcast : (2 : Int) ^ w = (2 ^ w : Nat) := by push_cast; rfl
  unfold intOf
  simp only [Bool.true_and, decide_eq_true_eq, hcast]
  split <;> omega

/-- The absolute value of an element: that of the least value gives itself, or saturates. -/
theorem narrow_natAbs_intOf (sat : Bool) {w a : Nat} (hw : 0 < w) (ha : a < 2 ^ w) :
    narrow true sat w (intOf true w a).natAbs =
      if a = 2 ^ (w - 1) then (if sat then 2 ^ (w - 1) - 1 else 2 ^ (w - 1)) else (intOf true w a).natAbs := by
  obtain ⟨hleast, hother⟩ := natAbs_intOf hw ha
  split
  case isTrue h =>
    rw [hleast h, narrow_natCast sat hw le_rfl, min_eq_right (Nat.sub_le _ _)]
  case isFalse h =>
    have hlt := hother h
    rw [narrow_natCast sat hw hlt.le, min_eq_left (by omega), ite_self]

/-! #### Logic, selection and the bit functions -/

/-- A function of the 32-bit a operand whose value fits a lane. -/
theorem toNat_unaryLane {f : Nat → Nat} {o : Args} {h : Hart} {l : Nat} (hf : f (h.V o.a.toNat l).toNat < 2 ^ 32) :
    (unaryLane f o h l).toNat = f (h.V o.a.toNat l).toNat := by
  rw [unaryLane, BitVec.toNat_ofNat, Nat.mod_eq_of_lt hf]

theorem vlid_index : LaneOp .vlid (fun _ _ l r => r.toNat = l) :=
  laneOp_of (fun _ _ _ => rfl) fun _ _ l _ hl => by
    have := active_lt hl
    rw [BitVec.toNat_ofNat, Nat.mod_eq_of_lt (by omega)]

theorem vpopc_count : LaneOp .vpopc
    (fun o h l r => r.toNat = ((List.range 32).filter (fun i => (h.V o.a.toNat l).getLsbD i)).length) :=
  laneOp_of (fun _ _ _ => rfl) fun o h l _ _ => by
    have := popcount_le (h.V o.a.toNat l).toNat 32
    rw [toNat_unaryLane (by omega), popcount_eq_length_filter]
    rfl

theorem vclz_count : LaneOp .vclz (fun o h l r => (h.V o.a.toNat l = 0 → r = 32)
    ∧ (h.V o.a.toNat l ≠ 0 → r.toNat < 32 ∧ 2 ^ (31 - r.toNat) ≤ (h.V o.a.toNat l).toNat
        ∧ (h.V o.a.toNat l).toNat < 2 ^ (32 - r.toNat))) :=
  laneOp_of (fun _ _ _ => rfl) fun o h l _ _ => by
    refine ⟨fun h0 => by rw [unaryLane, h0]; rfl, fun h0 => ?_⟩
    have hbounds := clz_bounds (mt (BitVec.eq_of_toNat_eq (y := 0)) h0) (h.V o.a.toNat l).isLt
    rw [toNat_unaryLane (by omega)]
    exact hbounds

theorem vctz_count : LaneOp .vctz (fun o h l r => (h.V o.a.toNat l = 0 → r = 32)
    ∧ (h.V o.a.toNat l ≠ 0 → r.toNat < 32 ∧ (h.V o.a.toNat l).getLsbD r.toNat = true
        ∧ ∀ i, i < r.toNat → (h.V o.a.toNat l).getLsbD i = false)) :=
  laneOp_of (fun _ _ _ => rfl) fun o h l _ _ => by
    refine ⟨fun h0 => by rw [unaryLane, h0]; rfl, fun h0 => ?_⟩
    have hspec := ctz_spec (mt (BitVec.eq_of_toNat_eq (y := 0)) h0) (h.V o.a.toNat l).isLt
    rw [toNat_unaryLane (by omega)]
    exact hspec

theorem vbrev_bits : LaneOp .vbrev
    (fun o h l r => ∀ i, i < 32 → r.getLsbD i = (h.V o.a.toNat l).getLsbD (31 - i)) :=
  laneOp_of (fun _ _ _ => rfl) fun _ _ _ _ _ => by
    intro i hi
    rw [BitVec.getLsbD, toNat_unaryLane (f := fun n => revBits n 32) (revBits_lt _ 32), testBit_revBits _ hi]
    rfl

theorem vrev8_bytes : LaneOp .vrev8
    (fun o h l r => ∀ k, k < 4 → elem 8 k r = elem 8 (3 - k) (h.V o.a.toNat l)) :=
  laneOp_of (fun _ _ _ => rfl) fun _ _ _ _ _ k hk => by
    rw [elem_pack (w := 8) rfl _ hk, Nat.mod_eq_of_lt (elem_lt 8 _ _)]

theorem vabs_elements : LaneOp .vabs (fun o h l r => ∀ k, k < 32 / bitsOfType (tyOf o 5) →
    elem (bitsOfType (tyOf o 5)) k r =
      if elem (bitsOfType (tyOf o 5)) k (h.V o.a.toNat l) = 2 ^ (bitsOfType (tyOf o 5) - 1)
      then (if o.sat then 2 ^ (bitsOfType (tyOf o 5) - 1) - 1 else 2 ^ (bitsOfType (tyOf o 5) - 1))
      else (intOf true (bitsOfType (tyOf o 5)) (elem (bitsOfType (tyOf o 5)) k (h.V o.a.toNat l))).natAbs) :=
  laneOp_of (fun _ _ _ => rfl) fun o _ _ _ _ _ hk =>
    (elem_pack_of_lt hk (narrow_lt _ _ _ _)).trans (narrow_natAbs_intOf o.sat (bitsOfType_pos hk) (elem_lt _ _ _))

/-- Settles O2: logic, selection and moves are what each lane's meaning says; shifts are element by element, and the bit functions
follow from what their counts and reversals find. -/
theorem laneLogicAndBitFunctions : Obligations.LaneLogicAndBitFunctions := by
  unfold Obligations.LaneLogicAndBitFunctions
  refine ⟨⟨?vand, ?vor, ?vxor, ?vandn, ?vorn, ?vxnor, ?vnot,
    laneOp_of (fun _ _ _ => rfl) fun o h l _ _ => intElems_shiftLane shiftElem_left o h l,
    laneOp_of (fun _ _ _ => rfl) fun o h l _ _ => intElems_shiftLane shiftElem_right o h l,
    laneOp_of (fun _ _ _ => rfl) fun o h l _ _ => intElems_shiftLane shiftElem_rightArith o h l,
    ?vsel, ?vmov, ?vmbit, vlid_index⟩,
    vpopc_count, vclz_count, vctz_count, vbrev_bits, vrev8_bytes, vabs_elements, ?illegal⟩
  case illegal =>
    simp only [List.forall_mem_cons, List.not_mem_nil, false_imp_iff, implies_true, and_true]
    and_intros <;> exact illegalElse_of_hartOp fun _ _ => rfl
  all_goals exact laneOp_of (fun _ _ _ => rfl) fun _ _ _ _ _ => rfl

/-! #### Shuffles (R110, R111, R113) -/

/-- Settles O3: a shuffle reads its source in whatever lane its index names, and the mask of `vmatch` holds the active lanes
that pass its test. -/
theorem laneShuffles : Obligations.LaneShuffles := by
  unfold Obligations.LaneShuffles
  refine ⟨?vshfl, ?vrotl, ?vslup, ?vsldn, ?vbfly,
    laneOp_of (fun _ _ _ => rfl) fun o h _ _ _ j _ => getLsbD_maskOf (active h o) _ (fun _ => active_lt) j, ?illegal⟩
  case illegal =>
    simp only [List.forall_mem_cons, List.not_mem_nil, false_imp_iff, implies_true, and_true]
    and_intros <;> exact illegalElse_of_hartOp fun _ _ => rfl
  all_goals exact laneOp_of (fun _ _ _ => rfl) fun _ _ _ _ _ => rfl

/-! #### Votes, and moves between lanes and scalar registers (R112, R116) -/

theorem mem_votes {o : Args} {h : Hart} {l : Nat} : l ∈ votes o h ↔ l ∈ active h o ∧ h.V o.a.toNat l ≠ 0 := by
  simp [votes]

theorem votes_lt {o : Args} {h : Hart} {l : Nat} (hl : l ∈ votes o h) : l < 32 := active_lt (mem_votes.1 hl).1

theorem length_votes_le (o : Args) (h : Hart) : (votes o h).length ≤ 32 :=
  calc (votes o h).length ≤ (active h o).length := List.length_filter_le _ _
    _ ≤ (List.range 32).length := List.length_filter_le _ _
    _ = 32 := List.length_range

theorem votes_isEmpty {o : Args} {h : Hart} : (votes o h).isEmpty = false ↔ ∃ l ∈ active h o, h.V o.a.toNat l ≠ 0 := by
  simp [votes]

theorem length_votes_eq {o : Args} {h : Hart} :
    (votes o h).length = (active h o).length ↔ ∀ l ∈ active h o, h.V o.a.toNat l ≠ 0 := by
  simp [votes, List.length_filter_eq_length_iff]

/-- An instruction whose meaning is `toScalar` of a value. -/
theorem scalarOp_toScalar {c : Args → Instr} {f : Args → Hart → W64} {P : Args → Hart → W64 → Prop}
    (he : ∀ o s, exec (c o) s = hartOp (c o) o (toScalar o (f o)) s) (hp : ∀ o h, P o h (f o h)) : ScalarOp false c P :=
  scalarOp_of' (f := f) (fun o s _ => he o s) (fun o h _ => hp o h)

theorem vballot_bits : ScalarOp false .vballot
    (fun o h w => ∀ l, l < 64 → w.getLsbD l = (decide (l ∈ active h o) && h.V o.a.toNat l != 0)) := by
  refine scalarOp_toScalar (fun _ _ => rfl) fun o h l hl => ?_
  rw [BitVec.getLsbD_setWidth, getLsbD_maskOf _ _ (fun _ => votes_lt)]
  simp only [votes, List.mem_filter, Bool.decide_and, Bool.decide_eq_true, Bool.and_true, hl, decide_true, Bool.true_and]

theorem vany_eq : ScalarOp false .vany (fun o h w => w = if ∃ l ∈ active h o, h.V o.a.toNat l ≠ 0 then 1 else 0) := by
  refine scalarOp_toScalar (fun _ _ => rfl) fun o h => ?_
  simp only [← votes_isEmpty]
  cases (votes o h).isEmpty <;> rfl

theorem vall_eq : ScalarOp false .vall (fun o h w => w = if ∀ l ∈ active h o, h.V o.a.toNat l ≠ 0 then 1 else 0) := by
  refine scalarOp_toScalar (fun _ _ => rfl) fun o h => ?_
  simp only [length_votes_eq]

theorem vcnt_eq : ScalarOp false .vcnt
    (fun o h w => w.toNat = ((active h o).filter (fun l => h.V o.a.toNat l != 0)).length) := by
  refine scalarOp_toScalar (fun _ _ => rfl) fun o h => ?_
  have := length_votes_le o h
  rw [BitVec.toNat_ofNat, Nat.mod_eq_of_lt (by omega)]
  rfl

/-- The frame of an instruction whose effect `y` on its hart changes lane registers alone, and of those only `cells`. -/
theorem laneCells_frame {s : State} {y : Hart} {n : Nat} {cells : Nat → Nat → Prop} (hy : y = { s.me with v := y.v })
    (hkeep : ∀ r l, l < 32 → ¬ cells r l → y.V r l = s.me.V r l) :
    RegisterFrame n s (s.setMe (y.advance n)) ∧ KeepsX [] s (s.setMe (y.advance n)) ∧ KeepsM [] s (s.setMe (y.advance n))
      ∧ (s.setMe (y.advance n)).me.fflags = s.me.fflags ∧ KeepsV cells s (s.setMe (y.advance n)) := by
  refine ⟨registerFrame_of ⟨?_⟩, fun k _ => ?_, fun k _ => ?_, ?_, fun r l hl hc => ?_⟩
  · rw [hy]
  · rw [State.me_setMe, Hart.X_advance, hy]; rfl
  · rw [State.me_setMe, Hart.M_advance, hy]; rfl
  · rw [State.me_setMe, Hart.advance_fflags, hy]
  · rw [State.me_setMe, Hart.V_advance, hkeep r l hl hc]

theorem extractLsb'_halves_append (w : W64) : w.extractLsb' 32 32 ++ w.extractLsb' 0 32 = w := by
  rw [BitVec.extractLsb'_append_extractLsb'_eq_extractLsb' (by rfl)]
  exact BitVec.extractLsb'_eq_self

/-- A lane of a pair after lanes of the pair are written. -/
theorem V64_writeLanes64 (h : Hart) (r : Nat) {ls : List Nat} (f : Nat → W64) (hls : ∀ l ∈ ls, l < 32) {l : Nat} (hl : l ∈ ls) :
    (writeLanes64 h r ls f).V64 r l = f l := by
  unfold Hart.V64
  rw [V_writeLanes64 _ _ _ _ hls _ _ (hls l hl), V_writeLanes64 _ _ _ _ hls _ _ (hls l hl), if_neg (by omega),
    if_pos ⟨rfl, hl⟩, if_pos ⟨rfl, hl⟩]
  exact extractLsb'_halves_append (f l)

theorem exec_vbcst64 (o : Args) (s : State) : exec (.vbcst64 o) s =
    hartOp (.vbcst64 o) o (fun h => writeLanes64 h o.d.toNat (active h o) (fun _ => bcstValue o h)) s := rfl

theorem vbcst64_pairs : Completes .vbcst64 (fun o s t => RegisterFrame o.words s t ∧ KeepsX [] s t ∧ KeepsM [] s t
    ∧ t.me.fflags = s.me.fflags ∧ KeepsV (fun r l => (r = o.d.toNat ∨ r = o.d.toNat + 1) ∧ l ∈ active s.me o) s t
    ∧ ∀ l ∈ active s.me o, t.me.V64 o.d.toNat l = if o.hasLit then o.lit else s.me.X o.b.toNat) := by
  intro o s hg
  have hkeep : ∀ r l, l < 32 → ¬ ((r = o.d.toNat ∨ r = o.d.toNat + 1) ∧ l ∈ active s.me o) →
      (writeLanes64 s.me o.d.toNat (active s.me o) (fun _ => bcstValue o s.me)).V r l = s.me.V r l := by
    intro r l hl hc
    rw [V_writeLanes64 _ _ _ _ (fun _ => active_lt) _ _ hl, if_neg (by tauto), if_neg (by tauto)]
  obtain ⟨hframe, hX, hM, hflags, hV⟩ := laneCells_frame (n := o.words) (writeLanes64_eq _ _ _ _) hkeep
  refine ⟨_, (exec_vbcst64 o s).trans (hartOp_pos hg), hframe, hX, hM, hflags, hV, fun l hl => ?_⟩
  rw [State.me_setMe]
  exact V64_writeLanes64 s.me o.d.toNat (fun _ => bcstValue o s.me) (fun _ => active_lt) hl

theorem exec_vins (o : Args) (s : State) : exec (.vins o) s =
    hartOp (.vins o) o (fun h => if (activeMask h o).getLsbD o.w2.toNat
      then h.setV o.d.toNat o.w2.toNat ((h.X o.b.toNat).setWidth 32) else h) s := rfl

/-- A cell after one lane is written if it is active. -/
theorem V_setV_ifActive (o : Args) (h : Hart) (r k : Nat) (w : W32) {q l : Nat} (hl : l < 32) :
    (if (activeMask h o).getLsbD k then h.setV r k w else h).V q l
      = if q = r ∧ l = k ∧ l ∈ active h o then w else h.V q l := by
  split
  case isTrue hk =>
    have hlt : k < 32 := BitVec.lt_of_getLsbD hk
    rw [Hart.V_setV _ _ hlt hl]
    refine if_congr ⟨fun ⟨hq, hlk⟩ => ⟨hq, hlk, ?_⟩, fun ⟨hq, hlk, _⟩ => ⟨hq, hlk⟩⟩ rfl rfl
    exact mem_active.2 ⟨hl, hlk ▸ hk⟩
  case isFalse hk =>
    rw [if_neg]
    rintro ⟨-, hlk, hact⟩
    exact hk (hlk ▸ (mem_active.1 hact).2)

/-- `vins` writes its one lane where that lane is active (R116). -/
theorem vins_lane : Completes .vins (fun o s t => RegisterFrame o.words s t ∧ KeepsX [] s t ∧ KeepsM [] s t
    ∧ t.me.fflags = s.me.fflags ∧ KeepsV (fun r l => r = o.d.toNat ∧ l = o.w2.toNat ∧ l ∈ active s.me o) s t
    ∧ (o.w2.toNat ∈ active s.me o → t.me.V o.d.toNat o.w2.toNat = (s.me.X o.b.toNat).setWidth 32)) := by
  intro o s hg
  obtain ⟨hframe, hX, hM, hflags, hV⟩ := laneCells_frame (s := s) (n := o.words)
    (y := if (activeMask s.me o).getLsbD o.w2.toNat
      then s.me.setV o.d.toNat o.w2.toNat ((s.me.X o.b.toNat).setWidth 32) else s.me)
    (by split <;> rfl) (fun r l hl hc => (V_setV_ifActive o s.me _ _ _ hl).trans (if_neg hc))
  refine ⟨_, (exec_vins o s).trans (hartOp_pos hg), hframe, hX, hM, hflags, hV, fun hl => ?_⟩
  rw [State.me_setMe, Hart.V_advance, V_setV_ifActive o s.me _ _ _ (active_lt hl), if_pos ⟨rfl, rfl, hl⟩]

/-- Settles O4: votes follow from the lanes that vote, moves read the lane that they name, and `vbcst64` and `vins` write the
cells of their active lanes. -/
theorem lanesAndScalars : Obligations.LanesAndScalars := by
  unfold Obligations.LanesAndScalars
  refine ⟨⟨vballot_bits, vany_eq, vall_eq, vcnt_eq, ?vext, ?vextx, ?vext64⟩,
    laneOp_of (fun _ _ _ => rfl) fun _ _ _ _ _ => rfl, vbcst64_pairs, vins_lane, ?illegal⟩
  case illegal =>
    simp only [List.forall_mem_cons]
    refine ⟨?_, ?_, ?_, ?_, ?_, ?_, ?_, ?_, illegalElse_of_hartOp exec_vbcst64, illegalElse_of_hartOp exec_vins,
      List.forall_mem_nil _⟩ <;> exact illegalElse_of_hartOp fun _ _ => rfl
  all_goals exact scalarOp_toScalar (fun _ _ => rfl) fun _ _ => rfl

end Sys2Proof.Machine

/-! ### Mask logic, mask moves and hart branches on masks -/

namespace Sys2Proof.Machine

/-- An instruction whose whole meaning stands under the guard, whatever it does there, is illegal where the guard fails (R87). -/
theorem illegalElse_of_guarded {c : Args → Instr} {k : Args → State → Out}
    (he : ∀ o s, exec (c o) s = guarded (c o) s (k o s)) : IllegalElse c :=
  fun o s hg => (he o s).trans (guarded_neg _ hg)

/-! #### A mask register written (R38, R120, R121) -/

theorem d_ok_of_ok {r : Row} {o : Args} (hr : r.ok o = true) : r.d.ok o.form o.d = true := by
  simp only [Row.ok, Bool.and_eq_true] at hr
  tauto

/-- A guarded instruction never has m0 as its mask destination (R38). -/
theorem maskDst_ne_zero {i : Instr} {r : Row} {o : Args} {h : Hart} (hi : i.osier = some (r, o)) (hd : r.d = .mDst)
    (hg : guard i h = true) : o.d.toNat ≠ 0 := by
  have hok : r.d.ok o.form o.d = true := d_ok_of_ok (row_ok_of_guard hi hg)
  simp only [hd, Kind.ok, Bool.and_eq_true, bne_iff_ne] at hok
  exact fun h0 => hok.2 (BitVec.eq_of_toNat_eq h0)

/-- An instruction whose one effect is a mask register. -/
theorem maskFrame_setM (o : Args) (s : State) (w : W32) :
    MaskFrame false o s (s.setMe ((s.me.setM o.d.toNat w).advance o.words)) := by
  refine ⟨registerFrame_of (sameButRegisters_setM _ _ _), fun n _ => ?_, fun k hk => ?_, fun r l _ _ => ?_, ?_⟩
  · simp
  · rw [State.me_setMe, Hart.M_advance, Hart.M_setM, if_neg fun ⟨hkd, _⟩ => hk (List.mem_singleton.2 hkd)]
  · simp
  · simp

/-- An instruction whose row has a mask destination and whose meaning writes it: what it writes is what the register then holds. -/
theorem completes_setM {c : Args → Instr} {r : Args → Row} {f : Args → Hart → W32} (hi : ∀ o, (c o).osier = some (r o, o))
    (hd : ∀ o, (r o).d = .mDst) (he : ∀ o s, exec (c o) s = hartOp (c o) o (fun h => h.setM o.d.toNat (f o h)) s) :
    Completes c (fun o s t => MaskFrame false o s t ∧ t.me.M o.d.toNat = f o s.me) := by
  intro o s hg
  have hne : o.d.toNat ≠ 0 := maskDst_ne_zero (hi o) (hd o) hg
  refine ⟨_, (he o s).trans (hartOp_pos hg), maskFrame_setM o s _, ?_⟩
  rw [State.me_setMe, Hart.M_advance, Hart.M_setM, if_pos ⟨rfl, hne⟩]

/-- An instruction of the mask-logic family, whose rows differ in `xop` alone (R120). -/
theorem maskLogic_of {c : Args → Instr} {xop : Nat} {f : W32 → W32 → W32} (hi : ∀ o, (c o).osier = some (Rows.mlogic xop, o))
    (he : ∀ o s, exec (c o) s = hartOp (c o) o (maskLogic f o) s) : MaskLogic c f :=
  completes_setM hi (fun _ => rfl) he

/-! #### A mask counted and searched (R121) -/

theorem mpopc_count : ScalarOp false .mpopc
    (fun o h w => w.toNat = ((List.range 32).filter (fun i => (h.M o.a.toNat).getLsbD i)).length) :=
  scalarOp_toScalar (f := fun o h => BitVec.ofNat 64 (popcount (h.M o.a.toNat).toNat 32)) (fun _ _ => rfl) fun o h => by
    have hle : popcount (h.M o.a.toNat).toNat 32 ≤ 32 := popcount_le _ 32
    rw [BitVec.toNat_ofNat, Nat.mod_eq_of_lt (by omega), popcount_eq_length_filter]
    rfl

theorem mffs_lowest : ScalarOp false .mffs (fun o h w => (h.M o.a.toNat = 0 → w = 32)
    ∧ (h.M o.a.toNat ≠ 0 → w.toNat < 32 ∧ (h.M o.a.toNat).getLsbD w.toNat = true
        ∧ ∀ i, i < w.toNat → (h.M o.a.toNat).getLsbD i = false)) :=
  scalarOp_toScalar (f := fun o h => BitVec.ofNat 64 (ctz 32 (h.M o.a.toNat).toNat)) (fun _ _ => rfl) fun o h => by
    refine ⟨fun h0 => by rw [h0]; rfl, fun h0 => ?_⟩
    obtain ⟨hlt, hset, hclear⟩ := ctz_spec (mt (BitVec.eq_of_toNat_eq (y := 0)) h0) (h.M o.a.toNat).isLt
    rw [BitVec.toNat_ofNat, Nat.mod_eq_of_lt (by omega)]
    exact ⟨hlt, hset, hclear⟩

/-! #### Hart branches (R128) -/

/-- A word offset in bytes is four times the offset. -/
theorem wordTarget_eq (pc off : W64) : wordTarget pc off = pc + 4 * off := by
  rw [wordTarget, BitVec.shiftLeft_eq_mul_twoPow, BitVec.mul_comm]
  rfl

/-- A hart that only goes elsewhere leaves memory and the other harts as they were. -/
theorem onMe_goto_frame (s : State) (pc : Hart → W64) :
    OnlyMe s (s.onMe fun h => h.goto (pc h)) ∧ SameMemory s (s.onMe fun h => h.goto (pc h)) :=
  ⟨⟨rfl, fun _ hk => State.hart_onMe_other s _ hk⟩, fun h tag loc => readByte_setHart (x := s.me.goto (pc s.me)) rfl h tag loc⟩

theorem maskBranch_of {c : Args → Instr} {taken : W32 → W32 → Bool}
    (he : ∀ o s, exec (c o) s = maskBranch (c o) o taken s) : MaskBranch c taken := by
  intro o s hg
  obtain ⟨honly, hmem⟩ := onMe_goto_frame s fun h =>
    if taken h.m0 (h.M o.a.toNat) then wordTarget h.pc (o.imm.signExtend 64) else h.nextPc o.words
  refine ⟨_, (he o s).trans (guarded_pos _ hg), honly, hmem, ?_⟩
  rw [State.me_onMe, wordTarget_eq, Hart.nextPc, ← apply_ite (s.me.pc + ·)]
  rfl

/-- Settles O10: mask logic and moves write one mask register, which the guard keeps from being m0; the count and the search follow
from what they find in the mask; a hart branch moves the pc alone. -/
theorem maskMovesAndBranches : Obligations.MaskMovesAndBranches := by
  unfold Obligations.MaskMovesAndBranches
  refine ⟨?mand, ?mor, ?mxor, ?mandn, ?morn, ?mxnor,
    completes_setM (f := fun o h => h.M o.a.toNat) (fun _ => rfl) (fun _ => rfl) fun _ _ => rfl,
    completes_setM (f := fun o _ => o.w2) (fun _ => rfl) (fun _ => rfl) fun _ _ => rfl,
    completes_setM (f := fun o h => (h.X o.a.toNat).setWidth 32) (fun _ => rfl) (fun _ => rfl) fun _ _ => rfl,
    scalarOp_toScalar (fun _ _ => rfl) fun _ _ => rfl, mpopc_count, mffs_lowest,
    ⟨?mbz, ?mbnz, ?mball, ?mbnall⟩, ?illegal⟩
  case illegal =>
    simp only [List.forall_mem_cons, List.not_mem_nil, false_imp_iff, implies_true, and_true]
    and_intros <;> exact illegalElse_of_guarded fun _ _ => rfl
  case mbz | mbnz | mball | mbnall => exact maskBranch_of fun _ _ => rfl
  all_goals exact maskLogic_of (fun _ => rfl) fun _ _ => rfl

end Sys2Proof.Machine
